-- ==== Sys2Proof/Word.lean ====
section
/-! DEFINITION. The word types of the engine: instruction words, register values and register numbers. -/

namespace Sys2Proof

/-- One byte of memory (20_memory.md R71). -/
abbrev Byte := BitVec 8

/-- An instruction word (30_encoding.md R100). -/
abbrev InsnWord := BitVec 32

/-- The value of an address register (10_state.md R32), of a limb container (R33) or of FINFO (R47). -/
abbrev Word64 := BitVec 64

/-- The value of a field register (10_state.md R31). -/
abbrev FieldWord := BitVec 256

/-- A register field of an instruction word: a 4-bit unsigned number (30_encoding.md R103). -/
abbrev RegNo := BitVec 4

/-- One lane of a SIMD register: five limbs in 64-bit containers (10_state.md R33). -/
abbrev Lane := Vector Word64 5

end Sys2Proof
end

