-- ==== Sys2Proof/Config.lean ====
section
/-! DEFINITION. What an implementation of the engine fixes and the spec leaves OPEN (00_scope.md R10), as
constants with no body, and the free values (93_implementation_defined.md section 2). The constraints the
spec puts on an OPEN parameter are imposed where it is used (Machine/Field.lean, Machine/State.lean,
Machine/FpLane.lean, Machine/Cm31.lean). The parameters for which the spec decides a value, the four sizes and
`SIMD_BLOCK_BOUND`, are the field `caps` of State. -/

namespace Sys2Proof.Config

/-- What `SKY_RC[2..16]` (47_skyscraper.md R300) is made of, by round index; its value below `p` is taken (log 4). -/
opaque skyRcRaw : Nat → FieldWord

/-- What `ROOT(n)` (48_cm31_ntt.md R336) is made of, as a packed element, by order `n` (log 5). -/
opaque rootRaw : Nat → Word64

/-- What `SIMD52(a, b)` (43_fp_simd.md R213) is made of (log 6). -/
opaque simd52Raw : Lane → Lane → Lane

/-- What `SIMD52_SQR(a)` (43_fp_simd.md R213) is made of (log 6). -/
opaque simd52SqrRaw : Lane → Lane

/-- What `SIMD52_BOUND` (43_fp_simd.md R214) is made of (log 6). -/
opaque simd52BoundRaw : Nat

/-- What `SIMD_LANE(a, b)` (44_block_multiplier.md R241) is made of (log 7). -/
opaque simdLaneRaw : FieldWord → FieldWord → FieldWord

/-- What `SIMD_LANE_SQR(a)` (44_block_multiplier.md R241) is made of (log 7). -/
opaque simdLaneSqrRaw : FieldWord → FieldWord

/-- The free bytes: the `k`-th byte the model draws where the spec says a byte is unspecified (log 8). -/
opaque freeByte : Nat → Byte

/-- Default `log2 IMEM_BYTES` (00_scope.md R10). -/
def imemLog2 : Nat := 16

/-- Default `log2 DMEM_BYTES` (00_scope.md R10). -/
def dmemLog2 : Nat := 24

/-- Default `GUARD_DEPTH` (00_scope.md R10). -/
def guardDepth : Nat := 8

/-- Default `TW_MAX_LOG2N` (00_scope.md R10). -/
def twMaxLog2N : Nat := 20

end Sys2Proof.Config
end

