-- ==== Sys2Proof/Machine/Bytes.lean ====
section
/-! DEFINITION. Little-endian byte strings (20_memory.md R72, 00_scope.md R13). -/

namespace Sys2Proof.Machine

/-- The unsigned number whose little-endian bytes are given: the byte at the lowest address is the least
significant (20_memory.md R72). -/
def leNat : List Byte → Nat
  | [] => 0
  | b :: bs => b.toNat + 256 * leNat bs

/-- `v mod 2^(8n)` as `n` little-endian bytes (00_scope.md R13, MemWrite). -/
def leBytes : Nat → Nat → List Byte
  | 0, _ => []
  | n + 1, v => BitVec.ofNat 8 v :: leBytes n (v / 256)

end Sys2Proof.Machine
end

