-- ==== Sys2Proof/Machine/Flags.lean ====
section
/-! DEFINITION. The engine has no flags, condition codes or predicates: no instruction sets or reads one
(10_state.md R39), and State holds none. The one borrow the spec computes is internal to reduce_1
(45_reduction.md R263) and is given here. -/

namespace Sys2Proof.Machine

/-- The 256-bit subtraction `x - y` with borrow out, for `x, y < 2^256` (45_reduction.md R263). -/
def subBorrow256 (x y : Nat) : Nat × Bool := ((x + 2 ^ 256 - y) % 2 ^ 256, decide (x < y))

end Sys2Proof.Machine
end

