-- ==== Sys2Proof/Machine/Field.lean ====
section
/-! DEFINITION. The arithmetic of the BN254 scalar field as the units compute it: the constants
(00_scope.md R8), the scalar Montgomery multiplier (42_scalar_montgomery.md), the reduction unit
(45_reduction.md), the Bar S-box (46_bar.md) and the Skyscraper compression (47_skyscraper.md). All of it is
on unbounded integers (00_scope.md R12). -/

namespace Sys2Proof.Machine

/-- The modulus `p` of BN254-Fr (00_scope.md R8). -/
def p : Nat := 0x30644e72e131a029b85045b68181585d2833e84879b9709143e1f593f0000001

/-- `R = 2^256` (00_scope.md R8). -/
def montR : Nat := 2 ^ 256

/-- `MU0 = -p^{-1} mod 2^64` (00_scope.md R8). -/
def mu0 : Nat := 0xc2e1f593efffffff

/-- `R52 = 2^260`, the Montgomery radix of the 52-bit form (00_scope.md R8). -/
def r52 : Nat := 2 ^ 260

/-- `NP0 = -p^{-1} mod 2^52` (00_scope.md R8, 43_fp_simd.md R212). -/
def np0 : Nat := 0x1f593efffffff

/-- `C1 = 2^104` (00_scope.md R8, 43_fp_simd.md R212). -/
def c1 : Nat := 2 ^ 104

/-- `C2 = 2^104 + 2^52` (00_scope.md R8, 43_fp_simd.md R212). -/
def c2 : Nat := 2 ^ 104 + 2 ^ 52

/-- The default of `SIMD_BLOCK_BOUND` (00_scope.md R10). -/
def simdBlockBoundDefault : Nat := 2 * p

/-- Limb `i` of a 256-bit value (00_scope.md R11). -/
def limb (i v : Nat) : Nat := v / 2 ^ (64 * i) % 2 ^ 64

/-- `p3`, limb 3 of `p` (00_scope.md R8). -/
def p3 : Nat := limb 3 p

/-- One iteration of CIOS: accumulate limb `i` of `a`, add `m * p`, shift by one limb
(42_scalar_montgomery.md R191). -/
def ciosStep (a b t i : Nat) : Nat :=
  let t := t + limb i a * b
  let m := t % 2 ^ 64 * mu0 % 2 ^ 64
  (t + m * p) / 2 ^ 64

/-- The Montgomery product of the scalar unit (42_scalar_montgomery.md R191). -/
def cios (a b : Nat) : Nat :=
  ciosStep a b (ciosStep a b (ciosStep a b (ciosStep a b 0 0) 1) 2) 3

/-- The squaring of the scalar unit and of every Skyscraper round (47_skyscraper.md R302). -/
def montSq (x : Nat) : Nat := cios x x

/-- The modulus-multiples table `MULT[k] = k * p` (45_reduction.md R260). -/
def multTable (k : Nat) : Nat := k * p

/-- The multiple of `p` that partial reduction subtracts, chosen from the top limb (45_reduction.md R261). -/
def redIndex (x : Nat) : Nat := limb 3 x / (p3 + 1)

/-- Partial reduction (45_reduction.md R261). -/
def reducePartial (x : Nat) : Nat := x - multTable (redIndex x)

/-- One conditional subtraction of `p`: the borrow select (45_reduction.md R263). -/
def reduce1 (x : Nat) : Nat :=
  if (subBorrow256 x p).2 then x else (subBorrow256 x p).1

/-- Full reduction (45_reduction.md R264). -/
def reduce (x : Nat) : Nat := reduce1 (reducePartial x)

/-- The `MODULUS_N_MINUS_RC` table, `(k * p - RC[i]) mod 2^256` (45_reduction.md R262, 90_conflicts.md C2). -/
def mnrc (rc : Nat → Nat) (k i : Nat) : Nat := (multTable k + 2 ^ 256 - rc i) % 2 ^ 256

/-- Partial reduction with round-constant addition; the error is the index of the ASSERTION
(45_reduction.md R269). -/
def reducePartialAddRc (rc : Nat → Nat) (x i : Nat) : Except Nat Nat :=
  let y := (x + 2 ^ 256 - mnrc rc (redIndex x) i) % 2 ^ 256
  if 2 * p ≤ y then .error i else .ok y

/-- The 8-bit S-box (46_bar.md R280). -/
def sbox (v : Byte) : Byte :=
  (v ^^^ ((~~~v).rotateLeft 1 &&& v.rotateLeft 2 &&& v.rotateLeft 3)).rotateLeft 1

/-- The exchange of the two 128-bit halves (46_bar.md R283). -/
def swap16 (y : Nat) : Nat := y / 2 ^ 128 + y % 2 ^ 128 * 2 ^ 128

/-- The S-box on each of the 32 bytes of a 256-bit value (46_bar.md R282, R284 step 3). -/
def sboxBytes (z : Nat) : Nat := leNat ((leBytes 32 z).map sbox)

/-- The Bar function (46_bar.md R284). -/
def bar (x : Nat) : Nat := reducePartial (sboxBytes (swap16 (reduce1 x)))

/-- Round constant 1 (47_skyscraper.md R300). -/
def rc1 : Nat := 0x276b1823ea6d7667081dd27906c83855873125f708a7d269903c4324270bd744

/-- The round function `f_i`: Bar in rounds 6, 7, 10 and 11, a square in the others (47_skyscraper.md R303).
`sq` is the squaring kernel, `montSq` in the engine (R302). -/
def skyF (sq : Nat → Nat) (i l : Nat) : Nat :=
  if i = 6 ∨ i = 7 ∨ i = 10 ∨ i = 11 then bar l else sq l

/-- Round `i`, `1 ≤ i ≤ 16`, on a state pair (47_skyscraper.md R303). -/
def skyRound (sq rc : Nat → Nat) (i : Nat) (lr : Nat × Nat) : Except Nat (Nat × Nat) := do
  let y ← reducePartialAddRc rc (lr.2 + skyF sq i lr.1) i
  return (y, lr.1)

/-- The rounds of a list of round indices, in order (47_skyscraper.md R305). -/
def skyRounds (sq rc : Nat → Nat) : List Nat → Nat × Nat → Except Nat (Nat × Nat)
  | [], lr => .ok lr
  | i :: is, lr => do
    let next ← skyRound sq rc i lr
    skyRounds sq rc is next

/-- The compression with a given squaring kernel; the error is the round whose ASSERTION fires
(47_skyscraper.md R305, R320). -/
def compressWith (sq rc : Nat → Nat) (l r : Nat) : Except Nat Nat := do
  let last ← skyRounds sq rc (List.range' 1 16) (reducePartial (r + sq l), l)
  return reduce (last.2 + sq last.1 + l)

/-- The two-to-one compression of the engine (47_skyscraper.md R305). -/
def compress (rc : Nat → Nat) (l r : Nat) : Except Nat Nat := compressWith montSq rc l r

end Sys2Proof.Machine
end

