-- ==== Sys2Proof/Machine/FpLane.lean ====
section
/-! DEFINITION. The lane results of the fp-SIMD unit (43_fp_simd.md) and of the block multiplier
(44_block_multiplier.md). The spec leaves them OPEN functions with stated properties (R213, R214, R241, R242):
each is the constant of Config.lean wherever that has the properties, and a value that has them elsewhere. Any
function the spec allows is such a function, and nothing but the properties can be proved of it (logs 6, 7). -/

namespace Sys2Proof.Machine

/-- `val5` of a lane (00_scope.md R14). -/
def val5 (l : Lane) : Nat :=
  l[0].toNat + l[1].toNat * 2 ^ 52 + l[2].toNat * 2 ^ 104 + l[3].toNat * 2 ^ 156 + l[4].toNat * 2 ^ 208

/-- `limbs5` of a value below `2^260` (00_scope.md R14). -/
def limbs5 (x : Nat) : Lane := Vector.ofFn fun j : Fin 5 => BitVec.ofNat 64 (x / 2 ^ (52 * j.val) % 2 ^ 52)

/-- Every limb of a lane is below `2^52` (43_fp_simd.md R214 property 1, R216). -/
abbrev limbsBounded (l : Lane) : Prop := ∀ j : Fin 5, l[j].toNat < 2 ^ 52

/-- `2^{-260} mod p` (95_test_vectors.md section 5.2). -/
def r52Inv : Nat := 0x076b496374528957038c69951b1bb0e175976c63ad484cdaa641f8b2d4db1195

/-- `2^{-256} mod p` (95_test_vectors.md section 1). -/
def rInv : Nat := 0x15ebf95182c5551cc8260de4aeb85d5d090ef5a9e111ec87dc5ba0056db1194e

/-- `SIMD52_BOUND`: any bound that meets 43_fp_simd.md R214 property 3 (log 6). -/
def simd52Bound : Nat :=
  if p ≤ Config.simd52BoundRaw ∧ Config.simd52BoundRaw ^ 2 < p * r52 then Config.simd52BoundRaw else p

/-- What 43_fp_simd.md R214 promises of the result lane `c` of the source lanes `a` and `b` (properties 1, 2
and 3; property 4, purity, is that the result is a function of the two lanes). -/
abbrev Simd52Ok (a b c : Lane) : Prop :=
  limbsBounded c ∧
  (val5 a * val5 b < p * r52 → val5 c * r52 % p = val5 a * val5 b % p) ∧
  (val5 a < simd52Bound → val5 b < simd52Bound → val5 c < simd52Bound)

/-- A lane that meets R214: the canonical representative in 52-bit limbs. -/
def simd52Canonical (a b : Lane) : Lane := limbs5 (val5 a * val5 b * r52Inv % p)

/-- `SIMD52(a, b)` (43_fp_simd.md R213, log 6). -/
def simd52 (a b : Lane) : Lane :=
  if Simd52Ok a b (Config.simd52Raw a b) then Config.simd52Raw a b else simd52Canonical a b

/-- `SIMD52_SQR(a)` (43_fp_simd.md R213, log 6). -/
def simd52Sqr (a : Lane) : Lane :=
  if Simd52Ok a a (Config.simd52SqrRaw a) then Config.simd52SqrRaw a else simd52Canonical a a

/-- What 44_block_multiplier.md R242 promises of a block lane's result `c` for `a` and `b`, with `SIMD_BLOCK_BOUND`
as its bound (properties 1 and 2; property 3, purity, is that the result is a function of `a` and `b`). -/
abbrev SimdLaneOk (bound : Nat) (a b c : FieldWord) : Prop :=
  a.toNat * b.toNat < p * montR →
    c.toNat * montR % p = a.toNat * b.toNat % p ∧ c.toNat < bound

/-- A block-lane result that meets R242: the canonical representative. -/
def simdLaneCanonical (a b : FieldWord) : FieldWord := BitVec.ofNat 256 (a.toNat * b.toNat * rInv % p)

/-- `SIMD_LANE(a, b)` of a machine with the given `SIMD_BLOCK_BOUND` (44_block_multiplier.md R241, log 7). -/
def simdLane (bound : Nat) (a b : FieldWord) : FieldWord :=
  if SimdLaneOk bound a b (Config.simdLaneRaw a b) then Config.simdLaneRaw a b else simdLaneCanonical a b

/-- `SIMD_LANE_SQR(a)` of a machine with the given `SIMD_BLOCK_BOUND` (44_block_multiplier.md R241, log 7). -/
def simdLaneSqr (bound : Nat) (a : FieldWord) : FieldWord :=
  if SimdLaneOk bound a a (Config.simdLaneSqrRaw a) then Config.simdLaneSqrRaw a else simdLaneCanonical a a

end Sys2Proof.Machine
end

