-- ==== Sys2Proof/Machine/Cm31.lean ====
section
/-! DEFINITION. The field CM31, its transform, its roots of unity and the transform sizes
(48_cm31_ntt.md R330 to R338). -/

namespace Sys2Proof.Machine

/-- The prime `q = 2^31 - 1` (48_cm31_ntt.md R330). -/
def q : Nat := 0x7fffffff

/-- An element `re + im * i` of CM31 (48_cm31_ntt.md R330). -/
structure Cm31 where
  re : Nat
  im : Nat
deriving DecidableEq, Repr

/-- `0 ≤ re < q` and `0 ≤ im < q` (48_cm31_ntt.md R330). -/
abbrev Cm31.canonical (z : Cm31) : Prop := z.re < q ∧ z.im < q

/-- An integer modulo `q`, in `[0, q)` (00_scope.md R12). -/
def modQ (x : Int) : Nat := (x % (q : Int)).toNat

/-- The element 0. -/
def cmZero : Cm31 := ⟨0, 0⟩

/-- The element 1. -/
def cmOne : Cm31 := ⟨1, 0⟩

/-- Addition (48_cm31_ntt.md R330). -/
def cmAdd (x y : Cm31) : Cm31 := ⟨modQ (x.re + y.re), modQ (x.im + y.im)⟩

/-- Subtraction (48_cm31_ntt.md R330). -/
def cmSub (x y : Cm31) : Cm31 := ⟨modQ (x.re - y.re), modQ (x.im - y.im)⟩

/-- Multiplication (48_cm31_ntt.md R330). -/
def cmMul (x y : Cm31) : Cm31 := ⟨modQ (x.re * y.re - x.im * y.im), modQ (x.re * y.im + x.im * y.re)⟩

/-- Square and multiply, for exponents below `2^fuel`. -/
def cmPowFuel : Nat → Cm31 → Nat → Cm31
  | 0, _, _ => cmOne
  | fuel + 1, w, n =>
    let h := cmPowFuel fuel (cmMul w w) (n / 2)
    if n % 2 = 0 then h else cmMul h w

/-- `w^n` of a canonical `w`: `w^0 = (1, 0)` and `w^(n+1) = w^n * w` (48_cm31_ntt.md R330). -/
def cmPow (w : Cm31) (n : Nat) : Cm31 := cmPowFuel (n.log2 + 1) w n

/-- `pack(a, b) = a + b * 2^32` (48_cm31_ntt.md R331). -/
def cmPack (z : Cm31) : Word64 := BitVec.ofNat 64 (z.re + z.im * 2 ^ 32)

/-- `unpack(u) = (u[31:0], u[63:32])` (48_cm31_ntt.md R331). -/
def cmUnpack (u : Word64) : Cm31 := ⟨u.toNat % 2 ^ 32, u.toNat / 2 ^ 32⟩

/-- `f[0] + f[1] * x + f[2] * x^2 + …` (the sum of 48_cm31_ntt.md R333 with `x = w^k`). -/
def cmEval (x : Cm31) : List Cm31 → Cm31
  | [] => cmZero
  | c :: cs => cmAdd c (cmMul x (cmEval x cs))

/-- `DFT(f, w)`, in natural order (48_cm31_ntt.md R333). -/
def dft (f : List Cm31) (w : Cm31) : List Cm31 := (List.range f.length).map fun k => cmEval (cmPow w k) f

/-- The order `q^2 - 1` of the multiplicative group (48_cm31_ntt.md R330). -/
def groupOrder : Nat := q ^ 2 - 1

/-- The prime divisors of `q^2 - 1` (48_cm31_ntt.md R330). -/
def groupPrimes : List Nat := [2, 3, 7, 11, 31, 151, 331]

/-- `w` has order exactly `n`, for `n` dividing `q^2 - 1`: `w^n = 1`, and `w^(n/l) ≠ 1` for every prime `l`
dividing `n` (48_cm31_ntt.md R336). -/
def hasOrder (w : Cm31) (n : Nat) : Bool :=
  cmPow w n == cmOne && groupPrimes.all fun l => n % l != 0 || cmPow w (n / l) != cmOne

/-- What 48_cm31_ntt.md R336 asks of `ROOT(n)`. -/
def rootOk (n : Nat) (w : Cm31) : Bool := decide w.canonical && hasOrder w n

/-- An element of order `q^2 - 1`, for the orders at which the constant of Config.lean is no root. -/
def generator : Cm31 := ⟨12, 1⟩

/-- `ROOT(n)`, for `n` dividing `q^2 - 1`: any map that meets 48_cm31_ntt.md R336 (log 5). -/
def root (n : Nat) : Cm31 :=
  if rootOk n (cmUnpack (Config.rootRaw n)) then cmUnpack (Config.rootRaw n)
  else cmPow generator (groupOrder / n)

/-- A primitive `n`-th root of unity exists (48_cm31_ntt.md R330, R342). -/
abbrev hasRoot (n : Nat) : Prop := n ≠ 0 ∧ groupOrder % n = 0

/-- `n = 2^m` with `m ≥ lo` and `m ≡ r (mod 3)`. -/
def sizeForm (lo r n : Nat) : Bool := n == 2 ^ n.log2 && lo ≤ n.log2 && n.log2 % 3 == r

/-- `n = 8^k`, `k ≥ 1` (48_cm31_ntt.md R338). -/
def isPure (n : Nat) : Bool := sizeForm 3 0 n

/-- `n = 2 * 8^k`, `k ≥ 1` (48_cm31_ntt.md R338). -/
def isStride2 (n : Nat) : Bool := sizeForm 4 1 n

/-- `n = 4 * 8^k`, `k ≥ 1` (48_cm31_ntt.md R338). -/
def isStride4 (n : Nat) : Bool := sizeForm 5 2 n

/-- `NTT_LEAF` (00_scope.md R8). -/
def nttLeaf : Nat := 32768

end Sys2Proof.Machine
end

