-- ==== Sys2Proof/Syntax.lean ====
section
/-! DEFINITION. The instructions of PK-CORE command set version 1: one constructor for each row of
30_encoding.md R105, carrying the row's fields as they stand in the word (R101). -/

namespace Sys2Proof

/-- An instruction (30_encoding.md R105). `d`, `a`, `b`, `c` are the register fields, `mode` and `i` the
`imm10` field of RMACQ and REDPRC, `imm` the `imm18` or `imm22` field. -/
inductive Instr where
  | nop
  | halt
  | rmacq (mode : BitVec 10)
  | rmrel
  | xli (d : RegNo) (imm : BitVec 22)
  | xaddi (d a : RegNo) (imm : BitVec 18)
  | ldx (d a : RegNo) (imm : BitVec 18)
  | stx (d a : RegNo) (imm : BitVec 18)
  | ldf (d a : RegNo) (imm : BitVec 18)
  | stf (d a : RegNo) (imm : BitVec 18)
  | fmov (d a : RegNo)
  | fadd (d a b : RegNo)
  | ldv (d a : RegNo) (imm : BitVec 18)
  | stv (d a : RegNo) (imm : BitVec 18)
  | mul (d a b : RegNo)
  | sqr (d a : RegNo)
  | redp (d a : RegNo)
  | red1 (d a : RegNo)
  | red (d a : RegNo)
  | redprc (d a : RegNo) (i : BitVec 10)
  | vmul (d a b : RegNo)
  | vsqr (d a : RegNo)
  | bmul3 (d a b : RegNo)
  | bmul4 (d a b : RegNo)
  | bsqr3 (d a : RegNo)
  | bsqr4 (d a : RegNo)
  | bar (d a : RegNo)
  | cmpr (d a b : RegNo)
  | cmprm (d a b c : RegNo)
  | nttb8 (a b : RegNo)
  | ntt8 (a b c : RegNo)
  | nttroot (d a : RegNo)
  | nttpre (a : RegNo)
  | ntth (a b c : RegNo)
  | ntts2 (a b c : RegNo)
  | ntts4 (a b c : RegNo)
deriving DecidableEq, Repr

end Sys2Proof
end

