-- ==== Sys2Proof/WellFormed.lean ====
section
/-! DEFINITION. The field constraints of 30_encoding.md R106, cases 3 to 7: which instructions have a legal
encoding. -/

namespace Sys2Proof

/-- Why a field of an instruction is illegal (30_encoding.md R106). -/
inductive FieldError where
  /-- RMACQ with `imm10 > 3` (case 3). -/
  | mode
  /-- REDPRC with `imm10 > 17` (case 4). -/
  | rcIndex
  /-- a V register field above 7 (case 5). -/
  | vRegister
  /-- a register group that would run past `F15` (cases 6 and 7). -/
  | registerGroup
deriving DecidableEq, Repr

/-- `e` unless `ok`. -/
def FieldError.unless (e : FieldError) (ok : Bool) : Option FieldError := if ok then none else some e

/-- The constraint of 30_encoding.md R106 (cases 3 to 7) that an instruction breaks, if it breaks one. -/
def Instr.fieldError : Instr → Option FieldError
  | .rmacq mode => FieldError.mode.unless (mode ≤ 3)
  | .redprc _ _ i => FieldError.rcIndex.unless (i ≤ 17)
  | .ldv d _ _ => FieldError.vRegister.unless (d ≤ 7)
  | .stv d _ _ => FieldError.vRegister.unless (d ≤ 7)
  | .vmul d a b => FieldError.vRegister.unless (d ≤ 7 && a ≤ 7 && b ≤ 7)
  | .vsqr d a => FieldError.vRegister.unless (d ≤ 7 && a ≤ 7)
  | .bmul3 d a b => FieldError.registerGroup.unless (d ≤ 13 && a ≤ 13 && b ≤ 13)
  | .bsqr3 d a => FieldError.registerGroup.unless (d ≤ 13 && a ≤ 13)
  | .bmul4 d a b => FieldError.registerGroup.unless (d ≤ 12 && a ≤ 12 && b ≤ 12)
  | .bsqr4 d a => FieldError.registerGroup.unless (d ≤ 12 && a ≤ 12)
  | .nop | .halt | .rmrel | .xli _ _ | .xaddi _ _ _ | .ldx _ _ _ | .stx _ _ _ | .ldf _ _ _ | .stf _ _ _
  | .fmov _ _ | .fadd _ _ _ | .mul _ _ _ | .sqr _ _ | .redp _ _ | .red1 _ _ | .red _ _ | .bar _ _
  | .cmpr _ _ _ | .cmprm _ _ _ _ | .nttb8 _ _ | .ntt8 _ _ _ | .nttroot _ _ | .nttpre _ | .ntth _ _ _
  | .ntts2 _ _ _ | .ntts4 _ _ _ => none

/-- The instruction's fields are all in range: it has a legal encoding (30_encoding.md R106). -/
def Instr.wellFormed (i : Instr) : Bool := i.fieldError.isNone

end Sys2Proof
end

