-- ==== Sys2Proof/Decode.lean ====
section
/-! DEFINITION. The decoder, total on any bytes and rejecting by name, and after it the encoder, both from the
formats of 30_encoding.md R101, R102 and the opcode map of R105. -/

namespace Sys2Proof

/-- Why bytes are not an instruction (30_encoding.md R106, R107). -/
inductive Reject where
  /-- fewer than the four bytes of an instruction word (R100). -/
  | truncated
  /-- a reserved opcode (R106 case 1). -/
  | reservedOpcode
  /-- a reserved-zero bit of the format is 1 (R106 case 2). -/
  | reservedBits
  /-- a field out of its range (R106 cases 3 to 7). -/
  | field (e : FieldError)
deriving DecidableEq, Repr

/-- The bits `lo + len - 1 .. lo` of an instruction word (30_encoding.md R101). -/
def bitField (w : InsnWord) (lo len : Nat) : BitVec len := w.extractLsb' lo len

/-- Field `op`, bits 31:26 (30_encoding.md R101). -/
def fieldOp (w : InsnWord) : BitVec 6 := bitField w 26 6

/-- Field `d`, bits 25:22 (30_encoding.md R101). -/
def fieldD (w : InsnWord) : RegNo := bitField w 22 4

/-- Field `a`, bits 21:18 (30_encoding.md R101). -/
def fieldA (w : InsnWord) : RegNo := bitField w 18 4

/-- Field `b`, bits 17:14 (30_encoding.md R101). -/
def fieldB (w : InsnWord) : RegNo := bitField w 14 4

/-- Field `c`, bits 13:10 (30_encoding.md R101). -/
def fieldC (w : InsnWord) : RegNo := bitField w 10 4

/-- Field `imm10`, bits 9:0 (30_encoding.md R101). -/
def fieldImm10 (w : InsnWord) : BitVec 10 := bitField w 0 10

/-- Field `imm18`, bits 17:0 (30_encoding.md R101). -/
def fieldImm18 (w : InsnWord) : BitVec 18 := bitField w 0 18

/-- Field `imm22`, bits 21:0 (30_encoding.md R101). -/
def fieldImm22 (w : InsnWord) : BitVec 22 := bitField w 0 22

/-- An instruction read from a word whose reserved-zero bits must hold and whose fields must be in range
(30_encoding.md R106 cases 2 to 7). -/
def checked (reservedZero : Bool) (i : Instr) : Except Reject Instr :=
  if reservedZero then
    match i.fieldError with
    | none => .ok i
    | some e => .error (.field e)
  else .error .reservedBits

/-- Format N: bits 25:0 reserved-zero (30_encoding.md R102). -/
def formatN (w : InsnWord) (i : Instr) : Except Reject Instr := checked (bitField w 0 26 == 0) i

/-- Format K: bits 25:10 reserved-zero (30_encoding.md R102). -/
def formatK (w : InsnWord) (mk : BitVec 10 → Instr) : Except Reject Instr :=
  checked (bitField w 10 16 == 0) (mk (fieldImm10 w))

/-- Format L: no reserved bit (30_encoding.md R102). -/
def formatL (w : InsnWord) (mk : RegNo → BitVec 22 → Instr) : Except Reject Instr :=
  checked true (mk (fieldD w) (fieldImm22 w))

/-- Format M: no reserved bit (30_encoding.md R102). -/
def formatM (w : InsnWord) (mk : RegNo → RegNo → BitVec 18 → Instr) : Except Reject Instr :=
  checked true (mk (fieldD w) (fieldA w) (fieldImm18 w))

/-- Format R2: bits 17:0 reserved-zero (30_encoding.md R102). -/
def formatR2 (w : InsnWord) (mk : RegNo → RegNo → Instr) : Except Reject Instr :=
  checked (bitField w 0 18 == 0) (mk (fieldD w) (fieldA w))

/-- Format R3: bits 13:0 reserved-zero (30_encoding.md R102). -/
def formatR3 (w : InsnWord) (mk : RegNo → RegNo → RegNo → Instr) : Except Reject Instr :=
  checked (bitField w 0 14 == 0) (mk (fieldD w) (fieldA w) (fieldB w))

/-- Format R4: bits 9:0 reserved-zero (30_encoding.md R102). -/
def formatR4 (w : InsnWord) (mk : RegNo → RegNo → RegNo → RegNo → Instr) : Except Reject Instr :=
  checked (bitField w 0 10 == 0) (mk (fieldD w) (fieldA w) (fieldB w) (fieldC w))

/-- Format RI: bits 17:10 reserved-zero (30_encoding.md R102). -/
def formatRI (w : InsnWord) (mk : RegNo → RegNo → BitVec 10 → Instr) : Except Reject Instr :=
  checked (bitField w 10 8 == 0) (mk (fieldD w) (fieldA w) (fieldImm10 w))

/-- Format A: bits 25:22 and 17:0 reserved-zero (30_encoding.md R102). -/
def formatA (w : InsnWord) (mk : RegNo → Instr) : Except Reject Instr :=
  checked (bitField w 22 4 == 0 && bitField w 0 18 == 0) (mk (fieldA w))

/-- Format AB: bits 25:22 and 13:0 reserved-zero (30_encoding.md R102). -/
def formatAB (w : InsnWord) (mk : RegNo → RegNo → Instr) : Except Reject Instr :=
  checked (bitField w 22 4 == 0 && bitField w 0 14 == 0) (mk (fieldA w) (fieldB w))

/-- Format ABC: bits 25:22 and 9:0 reserved-zero (30_encoding.md R102). -/
def formatABC (w : InsnWord) (mk : RegNo → RegNo → RegNo → Instr) : Except Reject Instr :=
  checked (bitField w 22 4 == 0 && bitField w 0 10 == 0) (mk (fieldA w) (fieldB w) (fieldC w))

/-- The instruction of a word, a function of the word alone (30_encoding.md R100, R105, R106). -/
def decodeWord (w : InsnWord) : Except Reject Instr :=
  match (fieldOp w).toNat with
  | 0x01 => formatN w .nop
  | 0x02 => formatN w .halt
  | 0x03 => formatK w .rmacq
  | 0x04 => formatN w .rmrel
  | 0x08 => formatL w .xli
  | 0x09 => formatM w .xaddi
  | 0x0A => formatM w .ldx
  | 0x0B => formatM w .stx
  | 0x10 => formatM w .ldf
  | 0x11 => formatM w .stf
  | 0x12 => formatR2 w .fmov
  | 0x13 => formatR3 w .fadd
  | 0x14 => formatM w .ldv
  | 0x15 => formatM w .stv
  | 0x18 => formatR3 w .mul
  | 0x19 => formatR2 w .sqr
  | 0x1C => formatR2 w .redp
  | 0x1D => formatR2 w .red1
  | 0x1E => formatR2 w .red
  | 0x1F => formatRI w .redprc
  | 0x20 => formatR3 w .vmul
  | 0x21 => formatR2 w .vsqr
  | 0x24 => formatR3 w .bmul3
  | 0x25 => formatR3 w .bmul4
  | 0x26 => formatR2 w .bsqr3
  | 0x27 => formatR2 w .bsqr4
  | 0x28 => formatR2 w .bar
  | 0x29 => formatR3 w .cmpr
  | 0x2A => formatR4 w .cmprm
  | 0x30 => formatAB w .nttb8
  | 0x31 => formatABC w .ntt8
  | 0x32 => formatR2 w .nttroot
  | 0x33 => formatA w .nttpre
  | 0x34 => formatABC w .ntth
  | 0x35 => formatABC w .ntts2
  | 0x36 => formatABC w .ntts4
  | _ => .error .reservedOpcode

/-- The first instruction of a byte string, with the bytes after it (30_encoding.md R100: four bytes,
little-endian). -/
def decode : List Byte → Except Reject (Instr × List Byte)
  | b0 :: b1 :: b2 :: b3 :: rest =>
    match decodeWord (BitVec.ofNat 32 (Machine.leNat [b0, b1, b2, b3])) with
    | .ok i => .ok (i, rest)
    | .error e => .error e
  | _ => .error .truncated

/-- An instruction word with its five upper fields (30_encoding.md R101): `op` in bits 31:26, `d` in 25:22,
`a` in 21:18, `b` in 17:14, `c` in 13:10 and `imm10` in 9:0. -/
def pack (op : BitVec 6) (d a b c : RegNo) (imm : BitVec 10) : InsnWord :=
  BitVec.ofNat 32 (op.toNat * 2 ^ 26 + d.toNat * 2 ^ 22 + a.toNat * 2 ^ 18 + b.toNat * 2 ^ 14
    + c.toNat * 2 ^ 10 + imm.toNat)

/-- An instruction word of format M: `imm18` in bits 17:0 (30_encoding.md R101, R102). -/
def packM (op : BitVec 6) (d a : RegNo) (imm : BitVec 18) : InsnWord :=
  BitVec.ofNat 32 (op.toNat * 2 ^ 26 + d.toNat * 2 ^ 22 + a.toNat * 2 ^ 18 + imm.toNat)

/-- An instruction word of format L: `imm22` in bits 21:0 (30_encoding.md R101, R102). -/
def packL (op : BitVec 6) (d : RegNo) (imm : BitVec 22) : InsnWord :=
  BitVec.ofNat 32 (op.toNat * 2 ^ 26 + d.toNat * 2 ^ 22 + imm.toNat)

/-- The word of an instruction (30_encoding.md R102, R105). -/
def encode : Instr → InsnWord
  | .nop => pack 0x01 0 0 0 0 0
  | .halt => pack 0x02 0 0 0 0 0
  | .rmacq i => pack 0x03 0 0 0 0 i
  | .rmrel => pack 0x04 0 0 0 0 0
  | .xli d imm => packL 0x08 d imm
  | .xaddi d a imm => packM 0x09 d a imm
  | .ldx d a imm => packM 0x0A d a imm
  | .stx d a imm => packM 0x0B d a imm
  | .ldf d a imm => packM 0x10 d a imm
  | .stf d a imm => packM 0x11 d a imm
  | .fmov d a => pack 0x12 d a 0 0 0
  | .fadd d a b => pack 0x13 d a b 0 0
  | .ldv d a imm => packM 0x14 d a imm
  | .stv d a imm => packM 0x15 d a imm
  | .mul d a b => pack 0x18 d a b 0 0
  | .sqr d a => pack 0x19 d a 0 0 0
  | .redp d a => pack 0x1C d a 0 0 0
  | .red1 d a => pack 0x1D d a 0 0 0
  | .red d a => pack 0x1E d a 0 0 0
  | .redprc d a i => pack 0x1F d a 0 0 i
  | .vmul d a b => pack 0x20 d a b 0 0
  | .vsqr d a => pack 0x21 d a 0 0 0
  | .bmul3 d a b => pack 0x24 d a b 0 0
  | .bmul4 d a b => pack 0x25 d a b 0 0
  | .bsqr3 d a => pack 0x26 d a 0 0 0
  | .bsqr4 d a => pack 0x27 d a 0 0 0
  | .bar d a => pack 0x28 d a 0 0 0
  | .cmpr d a b => pack 0x29 d a b 0 0
  | .cmprm d a b c => pack 0x2A d a b c 0
  | .nttb8 a b => pack 0x30 0 a b 0 0
  | .ntt8 a b c => pack 0x31 0 a b c 0
  | .nttroot d a => pack 0x32 d a 0 0 0
  | .nttpre a => pack 0x33 0 a 0 0 0
  | .ntth a b c => pack 0x34 0 a b c 0
  | .ntts2 a b c => pack 0x35 0 a b c 0
  | .ntts4 a b c => pack 0x36 0 a b c 0

/-- The four bytes of an instruction as IMEM holds them (30_encoding.md R100, 20_memory.md R72). -/
def encodeBytes (i : Instr) : List Byte := Machine.leBytes 4 (encode i).toNat

/-- The instruction the decoder reads from an opcode-table row's word: `w` holds `nbits` bits, every bit above
them is 0, and the bytes are laid out as IMEM stores them. -/
def decodeTableWord (nbits w : Nat) : Option Instr :=
  match decode (Machine.leBytes 4 (w % 2 ^ nbits)) with
  | .ok (i, _) => some i
  | .error _ => none

end Sys2Proof
end

