-- ==== Sys2Proof/Machine/State.lean ====
section
/-! DEFINITION. The state of the engine as plain data, the state after reset, and the reasons a step could stop.
INVENTORY.md, heading State, lists every field with its rule. -/

namespace Sys2Proof.Machine

/-- No step of this model stops with a fault: every fault of the spec is an exception whose entry the spec
describes (60_exceptions.md R401), and the step takes it and answers a next state. -/
inductive Fault
deriving DecidableEq, Repr

/-- Why a step refuses an instruction. -/
inductive Refusal where
  /-- An instruction whose meaning is not written yet, refused by its arm of `exec`. No arm does so: every
  instruction of the table has its meaning. Safe. -/
  | notModelled (mnemonic : String)
deriving DecidableEq, Repr

/-- A memory: (address, byte) pairs, addresses strictly rising, no byte equal to what an unlisted address
reads as. -/
abbrev Memory := List Host.Cell

/-- What a byte that no cell lists reads as (20_memory.md R91 leaves it open; DESIGN CHOICE, log 1). -/
def unlistedByte : Byte := 0

/-- The canonical form of a memory. -/
abbrev Memory.wf (m : Memory) : Prop :=
  m.Pairwise (fun c d => c.1 < d.1) ∧ ∀ c ∈ m, c.2 ≠ unlistedByte

/-- A SIMD register: two lanes of five 64-bit containers, 10 in all (10_state.md R33, 20_memory.md R74). R33 also says
"20 containers" of a whole write, and no ruling settles which; the model holds 10 (DEDUCED, log 28). -/
structure VReg where
  lane : Vector Lane 2
deriving DecidableEq, Repr

/-- The parameters for which the spec decides a value, fixed for the machine (00_scope.md R10, log 3). The CAPS
register reports the first four (10_state.md R49). -/
structure Caps where
  /-- `log2 IMEM_BYTES` -/
  imemLog2 : Nat
  /-- `log2 DMEM_BYTES` -/
  dmemLog2 : Nat
  /-- `GUARD_DEPTH` -/
  guardDepth : Nat
  /-- `TW_MAX_LOG2N` -/
  twMaxLog2N : Nat
  /-- `SIMD_BLOCK_BOUND` -/
  simdBlockBound : Nat
deriving DecidableEq, Repr

/-- The bounds of 00_scope.md R10 on the parameters, of `SIMD_BLOCK_BOUND` those of 44_block_multiplier.md R242. -/
abbrev Caps.legal (c : Caps) : Prop :=
  2 ≤ c.imemLog2 ∧ c.imemLog2 ≤ 32 ∧ 19 ≤ c.dmemLog2 ∧ c.dmemLog2 ≤ 48 ∧
  1 ≤ c.guardDepth ∧ c.guardDepth ≤ 255 ∧ 5 ≤ c.twMaxLog2N ∧ c.twMaxLog2N ≤ 32 ∧
  p ≤ c.simdBlockBound ∧ c.simdBlockBound ≤ 2 * p

/-- The two memories the host reaches as byte arrays (20_memory.md R70). -/
inductive Space where
  | imem
  | dmem
deriving DecidableEq, Repr

/-- What the host does next (10_state.md R30, R40; 20_memory.md R81; log 9). -/
inductive HostAction where
  /-- The host does nothing: the engine takes a step. -/
  | run
  /-- The host reads `width` bytes at an offset of the host register block. -/
  | regRead (off width : Nat)
  /-- The host writes `width` bytes at an offset of the host register block. -/
  | regWrite (off width : Nat) (value : Word64)
  /-- The host reads `n` bytes of a memory. -/
  | memRead (sp : Space) (addr n : Nat)
  /-- The host writes bytes to a memory. -/
  | memWrite (sp : Space) (addr : Nat) (bytes : List Byte)
deriving DecidableEq, Repr

/-- The state of the machine. -/
structure State where
  /-- the parameters behind CAPS and SIMD_BLOCK_BOUND, fixed for the machine (10_state.md R42, R49; 00_scope.md R10) -/
  caps : Caps
  /-- `RC[2..16]`, entry `i - 2` for round `i`: read-only (10_state.md R51, 47_skyscraper.md R300) -/
  skyRc : Vector FieldWord 15
  /-- `F0`–`F15` (10_state.md R31) -/
  f : Vector FieldWord 16
  /-- valid bits of `F0`–`F15` (10_state.md R34) -/
  fValid : Vector Bool 16
  /-- `X0`–`X15`; entry 0 is never read (10_state.md R32) -/
  x : Vector Word64 16
  /-- valid bits of `X1`–`X15`; entry 0 is never read (10_state.md R34) -/
  xValid : Vector Bool 16
  /-- `V0`–`V7` (10_state.md R33) -/
  v : Vector VReg 8
  /-- valid bits of `V0`–`V7` (10_state.md R34) -/
  vValid : Vector Bool 8
  /-- program counter (10_state.md R35) -/
  pc : BitVec 32
  /-- the model's own: the carry out of `pc + 4`, so that pc never wraps (10_state.md R35, log 13) -/
  pcCarry : Bool
  /-- RMODE (10_state.md R36) -/
  rmode : BitVec 2
  /-- the guard stack, innermost acquisition first; GDEPTH is its length (10_state.md R37, log 25) -/
  gs : List (BitVec 2)
  /-- TWB: the `n` of the last successful NTTPRE (10_state.md R38) -/
  twb : Option Word64
  /-- instruction memory (20_memory.md R70) -/
  imem : Memory
  /-- data memory (20_memory.md R70) -/
  dmem : Memory
  /-- STATUS.BUSY (10_state.md R45) -/
  busy : Bool
  /-- STATUS.DONE (10_state.md R45) -/
  doneBit : Bool
  /-- STATUS.FAULT (10_state.md R45) -/
  faultBit : Bool
  /-- CTRL.IRQ_EN (10_state.md R43) -/
  irqEn : Bool
  /-- ENTRY (10_state.md R44) -/
  entry : BitVec 32
  /-- the PC host register (10_state.md R46) -/
  pcReg : BitVec 32
  /-- CAUSE (10_state.md R47) -/
  cause : BitVec 8
  /-- FINSN (10_state.md R47) -/
  finsn : BitVec 32
  /-- FINFO (10_state.md R47) -/
  finfo : Word64
  /-- the model's own: what the host does next, in order (log 9) -/
  host : List HostAction
  /-- the model's own: the bytes the last host read returned, lowest first (log 10) -/
  hostData : List Byte
  /-- the model's own: how many free bytes have been drawn (log 8) -/
  freeIx : Nat
deriving DecidableEq, Repr

/-- The machine right after power-on (70_reset_and_hazards.md R450). Register contents behind a clear valid bit
are zero (DESIGN CHOICE, log 2), the parameters have the spec's defaults (log 3), and the open round constants
are free values below `p` (log 4). -/
def State.reset : State where
  caps := ⟨Config.imemLog2, Config.dmemLog2, Config.guardDepth, Config.twMaxLog2N, simdBlockBoundDefault⟩
  skyRc := Vector.ofFn fun i : Fin 15 => BitVec.ofNat 256 ((Config.skyRcRaw (i.val + 2)).toNat % p)
  f := Vector.replicate 16 0
  fValid := Vector.replicate 16 false
  x := Vector.replicate 16 0
  xValid := Vector.replicate 16 false
  v := Vector.replicate 8 ⟨Vector.replicate 2 (Vector.replicate 5 0)⟩
  vValid := Vector.replicate 8 false
  pc := 0
  pcCarry := false
  rmode := 0
  gs := []
  twb := none
  imem := []
  dmem := []
  busy := false
  doneBit := false
  faultBit := false
  irqEn := false
  entry := 0
  pcReg := 0
  cause := 0
  finsn := 0
  finfo := 0
  host := []
  hostData := []
  freeIx := 0

end Sys2Proof.Machine
end

