-- ==== Sys2Proof/Machine/Ops.lean ====
section
/-! DEFINITION. The operations every instruction is written with: reading and writing memory and registers,
drawing free bytes, advancing and stopping, taking a fault (60_exceptions.md R401) and beside it starting a run
(R432, the only way on after a fault, R433). -/

namespace Sys2Proof.Machine

/-! ### Memory -/

/-- The byte at an address (20_memory.md R71). -/
def readByte : Memory → Nat → Byte
  | [], _ => unlistedByte
  | c :: m, a => if c.1 = a then c.2 else readByte m a

/-- The `n` bytes at `a .. a+n-1`, lowest first. -/
def readBytes (m : Memory) (a n : Nat) : List Byte := (List.range n).map fun i => readByte m (a + i)

/-- `MemRead(addr, n)` (00_scope.md R13). -/
def memRead (m : Memory) (a n : Nat) : Nat := leNat (readBytes m a n)

/-- The cells of a byte string at an address, none equal to what an unlisted address reads as. -/
def cellsOf : Nat → List Byte → Memory
  | _, [] => []
  | a, b :: bs => if b = unlistedByte then cellsOf (a + 1) bs else (a, b) :: cellsOf (a + 1) bs

/-- A memory with a byte string written at `a`, in canonical form. -/
def writeBytes (m : Memory) (a : Nat) (bs : List Byte) : Memory :=
  m.filter (fun c => c.1 < a) ++ cellsOf a bs ++ m.filter (fun c => a + bs.length ≤ c.1)

/-- `MemWrite(addr, n, v)` (00_scope.md R13). -/
def memWrite (m : Memory) (a n v : Nat) : Memory := writeBytes m a (leBytes n v)

/-- `IMEM_BYTES` (20_memory.md R70). -/
def State.imemBytes (s : State) : Nat := 2 ^ s.caps.imemLog2

/-- `DMEM_BYTES` (20_memory.md R70). -/
def State.dmemBytes (s : State) : Nat := 2 ^ s.caps.dmemLog2

/-- The state with a byte string written to data memory. -/
def State.store (s : State) (a : Nat) (bs : List Byte) : State := { s with dmem := writeBytes s.dmem a bs }

/-! ### Free values (93_implementation_defined.md section 2, log 8) -/

/-- The `n` free bytes from the `k`-th on. -/
def freeBytes (k n : Nat) : List Byte := (List.range n).map fun i => Config.freeByte (k + i)

/-- The state after `n` free bytes were drawn. -/
def State.drawn (s : State) (n : Nat) : State := { s with freeIx := s.freeIx + n }

/-- Every byte of `a .. a+n-1` of data memory takes a free value. -/
def State.havoc (s : State) (a n : Nat) : State := (s.store a (freeBytes s.freeIx n)).drawn n

/-! ### Registers -/

/-- Write an address register; a write to `X0` is discarded (10_state.md R32, R34). -/
def State.writeX (s : State) (r : RegNo) (v : Word64) : State :=
  if r = 0 then s
  else { s with x := s.x.set r.toNat v r.isLt, xValid := s.xValid.set r.toNat true r.isLt }

/-- Write a field register (10_state.md R31, R34). -/
def State.writeF (s : State) (r : RegNo) (v : FieldWord) : State :=
  { s with f := s.f.set r.toNat v r.isLt, fValid := s.fValid.set r.toNat true r.isLt }

/-- The index of a SIMD register; a register field above 7 is illegal and never reaches it (30_encoding.md R103). -/
def vIndex (r : RegNo) : Fin 8 := ⟨r.toNat % 8, Nat.mod_lt _ (by decide)⟩

/-- Write a SIMD register as a whole (10_state.md R33, R34). -/
def State.writeV (s : State) (r : RegNo) (v : VReg) : State :=
  { s with v := s.v.set (vIndex r) v, vValid := s.vValid.set (vIndex r) true }

/-- Write consecutive field registers from `r` on (44_block_multiplier.md R244). -/
def State.writeGroup (s : State) (r : RegNo) : List FieldWord → State
  | [] => s
  | v :: vs => (s.writeF r v).writeGroup (r + 1) vs

/-- The round constant `RC[i]` (47_skyscraper.md R300). -/
def State.rc (s : State) (i : Nat) : Nat :=
  if i = 1 then rc1 else if h : 2 ≤ i ∧ i < 17 then (s.skyRc[i - 2]).toNat else 0

/-! ### Sequencing -/

/-- The address of the instruction being executed; it never wraps (10_state.md R35, log 13). -/
def State.pcAddr (s : State) : Nat := s.pc.toNat + (if s.pcCarry then 2 ^ 32 else 0)

/-- `pc <- pc + 4` (41_rounding_and_control.md R171). -/
def State.advance (s : State) : State :=
  { s with pc := s.pc + 4, pcCarry := s.pcCarry || decide (2 ^ 32 ≤ s.pc.toNat + 4) }

/-- Unwind the guard stack: RMODE becomes `GS[0]`, the mode before the outermost outstanding acquisition, and
GDEPTH 0 (41_rounding_and_control.md R178). -/
def State.unwind (s : State) : State := { s with rmode := s.gs.getLast?.getD s.rmode, gs := [] }

/-- Stop normally (41_rounding_and_control.md R173). -/
def State.halt (s : State) : State :=
  { s.unwind with pcReg := s.pc, busy := false, doneBit := true }

/-! ### Faults -/

/-- The fault causes (60_exceptions.md R410). -/
inductive Cause where
  | illegal
  | fetchRange
  | misaligned
  | dataRange
  | roundingMode
  | guardOverflow
  | guardUnderflow
  | operandBound
  | assertion
  | invalidBufferShape
  | invalidLength
  | noSuchRoot
  | badRoot
  | twiddleMissing
  | bufferOverlap
  | unwrittenRegister
deriving DecidableEq, Repr

/-- The code of a cause in the CAUSE register (60_exceptions.md R410). -/
def Cause.code : Cause → BitVec 8
  | .illegal => 1
  | .fetchRange => 2
  | .misaligned => 3
  | .dataRange => 4
  | .roundingMode => 5
  | .guardOverflow => 6
  | .guardUnderflow => 7
  | .operandBound => 8
  | .assertion => 9
  | .invalidBufferShape => 10
  | .invalidLength => 11
  | .noSuchRoot => 12
  | .badRoot => 13
  | .twiddleMissing => 14
  | .bufferOverlap => 15
  | .unwrittenRegister => 16

/-- `raise CAUSE(info)` (00_scope.md R13, 60_exceptions.md R400): a cause and its FINFO (R411). -/
structure Raise where
  cause : Cause
  info : Word64
deriving DecidableEq, Repr

/-- Fault entry: the exception is taken (60_exceptions.md R401). `w` is the instruction word, or 0 for
FETCH_RANGE. -/
def State.takeFault (s : State) (w : InsnWord) (e : Raise) : State :=
  { s.unwind with
    pcReg := s.pc, cause := e.cause.code, finsn := w, finfo := e.info, faultBit := true, busy := false }

/-- START: a new run begins at ENTRY (60_exceptions.md R432). There is no return from a fault: this is how the
host goes on after one (R433). -/
def State.start (s : State) : State :=
  { s with
    pc := s.entry, pcCarry := false, doneBit := false, faultBit := false, cause := 0, finsn := 0, finfo := 0
    busy := true }

/-- The end of an instruction whose checks and effect are `body`: an instruction without a legal encoding
raises ILLEGAL (30_encoding.md R106, log 18), a raised fault is taken on the state the instruction found
(60_exceptions.md R402), and an effect is followed by `pc <- pc + 4` (41_rounding_and_control.md R171). -/
def execute (i : Instr) (s : State) (body : Except Raise State) : Host.Outcome State Fault Refusal :=
  if i.wellFormed then
    match body with
    | .ok t => .next t.advance
    | .error e => .next (s.takeFault (encode i) e)
  else .next (s.takeFault (encode i) ⟨.illegal, 0⟩)

end Sys2Proof.Machine
end

