-- ==== Sys2Proof/Machine/Operands.lean ====
section
/-! DEFINITION. The operand forms of the instructions and the checks on them: registers behind their valid bits,
immediates and effective addresses, alignment and range, register groups, field elements, limbs and CM31
elements. Each answers its operand or raises the fault of 60_exceptions.md R410 with the FINFO of R411. -/

namespace Sys2Proof.Machine

/-- Raise a fault unless a condition holds. -/
def require (ok : Prop) [Decidable ok] (cause : Cause) (info : Word64) : Except Raise Unit :=
  if ok then .ok () else .error ⟨cause, info⟩

/-! ### Registers -/

/-- Read an address register: `X0` is 0 and always valid (10_state.md R32, R34). -/
def readX (s : State) (r : RegNo) : Except Raise Word64 :=
  if r = 0 then .ok 0
  else if s.xValid[r.toNat]'r.isLt then .ok (s.x[r.toNat]'r.isLt)
  else .error ⟨.unwrittenRegister, BitVec.ofNat 64 r.toNat⟩

/-- Read a field register (10_state.md R31, R34). -/
def readF (s : State) (r : RegNo) : Except Raise FieldWord :=
  if s.fValid[r.toNat]'r.isLt then .ok (s.f[r.toNat]'r.isLt)
  else .error ⟨.unwrittenRegister, BitVec.ofNat 64 (0x10 + r.toNat)⟩

/-- Read a SIMD register (10_state.md R33, R34). -/
def readV (s : State) (r : RegNo) : Except Raise VReg :=
  if s.vValid[vIndex r] then .ok s.v[vIndex r]
  else .error ⟨.unwrittenRegister, BitVec.ofNat 64 (0x20 + r.toNat)⟩

/-- Read `n` consecutive field registers from `r` on (44_block_multiplier.md R244). -/
def readGroup (s : State) (r : RegNo) : Nat → Except Raise (List FieldWord)
  | 0 => .ok []
  | n + 1 =>
    match readF s r with
    | .error e => .error e
    | .ok v =>
      match readGroup s (r + 1) n with
      | .error e => .error e
      | .ok vs => .ok (v :: vs)

/-! ### Immediates and addresses -/

/-- `sext_18(imm18) mod 2^64` (30_encoding.md R104). -/
def sext18 (imm : BitVec 18) : Word64 := imm.signExtend 64

/-- `sext_22(imm22) mod 2^64` (30_encoding.md R104). -/
def sext22 (imm : BitVec 22) : Word64 := imm.signExtend 64

/-- The effective address of a load or store (20_memory.md R77). -/
def effectiveAddr (base : Word64) (imm : BitVec 18) : Word64 := base + sext18 imm

/-- The alignment check of a DMEM access (20_memory.md R78). -/
def checkAligned (a : Word64) : Except Raise Unit := require (a.toNat % 8 = 0) .misaligned a

/-- The range check of a DMEM access of `size` bytes (20_memory.md R79). -/
def checkRange (s : State) (a : Word64) (size : Nat) : Except Raise Unit :=
  require (a.toNat + size ≤ s.dmemBytes) .dataRange a

/-- The address of a load or store of `size` bytes: base register, effective address, alignment, range
(40_data_movement.md R140, steps 2 to 5). -/
def accessAddr (s : State) (a : RegNo) (imm : BitVec 18) (size : Nat) : Except Raise Nat := do
  let base ← readX s a
  checkAligned (effectiveAddr base imm)
  checkRange s (effectiveAddr base imm) size
  return (effectiveAddr base imm).toNat

/-- Two byte ranges do not overlap; touching is allowed (47_skyscraper.md R311, 48_cm31_ntt.md R344). -/
abbrev disjoint (a n b m : Nat) : Prop := a + n ≤ b ∨ b + m ≤ a

/-! ### Rounding mode -/

/-- The TowardZero mode (10_state.md R36). -/
def rtz : BitVec 2 := 0b11

/-- The round-toward-zero requirement (43_fp_simd.md R215, 44_block_multiplier.md R243). -/
def checkRtz (s : State) : Except Raise Unit := require (s.rmode = rtz) .roundingMode (s.rmode.setWidth 64)

/-! ### SIMD registers -/

/-- The ten limbs of a SIMD register, lane 0 first, limb 0 first within a lane (20_memory.md R74). -/
def VReg.limbs (r : VReg) : List Word64 := r.lane[0].toList ++ r.lane[1].toList

/-- The limb check of VSQR, in order (43_fp_simd.md R216). -/
def checkLimbs : List Word64 → Except Raise Unit
  | [] => .ok ()
  | x :: xs => if x.toNat < 2 ^ 52 then checkLimbs xs else .error ⟨.operandBound, 0⟩

/-- The limb check of VMUL: at each place the limb of `a`, then that of `b` (43_fp_simd.md R216). -/
def checkLimbPairs : List (Word64 × Word64) → Except Raise Unit
  | [] => .ok ()
  | (x, y) :: xys =>
    if x.toNat < 2 ^ 52 then
      if y.toNat < 2 ^ 52 then checkLimbPairs xys else .error ⟨.operandBound, 1⟩
    else .error ⟨.operandBound, 0⟩

/-- The SIMD register image at an address (20_memory.md R74, 40_data_movement.md R153). -/
def loadVReg (m : Memory) (e : Nat) : VReg :=
  ⟨Vector.ofFn fun l : Fin 2 => Vector.ofFn fun j : Fin 5 =>
    BitVec.ofNat 64 (memRead m (e + 40 * l.val + 8 * j.val) 8)⟩

/-- The 80 bytes of a SIMD register (20_memory.md R74, 40_data_movement.md R154). -/
def VReg.bytes (r : VReg) : List Byte := r.limbs.flatMap fun w => leBytes 8 w.toNat

/-! ### Products -/

/-- The input contract of the scalar unit and of the block pairs (42_scalar_montgomery.md R194). -/
abbrev productBounded (x y : FieldWord) : Prop := x.toNat * y.toNat < p * montR

/-- The product bounds of a block instruction, in pair order from index `i` on; FINFO is the first failing
index (44_block_multiplier.md R251). -/
def checkProducts : Nat → List (FieldWord × FieldWord) → Except Raise Unit
  | _, [] => .ok ()
  | i, (x, y) :: xys =>
    if productBounded x y then checkProducts (i + 1) xys else .error ⟨.operandBound, BitVec.ofNat 64 i⟩

/-- An ASSERTION found during a computation, raised with its index as FINFO (60_exceptions.md R411). -/
def raiseAssertion : Except Nat Nat → Except Raise Nat
  | .ok y => .ok y
  | .error j => .error ⟨.assertion, BitVec.ofNat 64 j⟩

/-! ### Buffers of field elements -/

/-- The `n` message pairs at `a`, each element checked below `p` in buffer order (20_memory.md R76,
47_skyscraper.md R311): the address of each pair with its `l` and `r`. -/
def readPairs (m : Memory) : Nat → Nat → Except Raise (List (Nat × Nat × Nat))
  | _, 0 => .ok []
  | a, n + 1 =>
    if memRead m a 32 < p then
      if memRead m (a + 32) 32 < p then
        match readPairs m (a + 64) n with
        | .error e => .error e
        | .ok ps => .ok ((a, memRead m a 32, memRead m (a + 32) 32) :: ps)
      else .error ⟨.operandBound, BitVec.ofNat 64 (a + 32)⟩
    else .error ⟨.operandBound, BitVec.ofNat 64 a⟩

/-! ### CM31 elements -/

/-- A root operand: canonical, or OPERAND_BOUND with the operand's position (48_cm31_ntt.md R340, R341). -/
def checkRoot (u : Word64) (position : Word64) : Except Raise Cm31 :=
  if (cmUnpack u).canonical then .ok (cmUnpack u) else .error ⟨.operandBound, position⟩

/-- The `n` elements of the vector at `a`, each checked canonical in address order (48_cm31_ntt.md R331, R340). -/
def readElems (m : Memory) : Nat → Nat → Except Raise (List Cm31)
  | _, 0 => .ok []
  | a, n + 1 =>
    if (cmUnpack (BitVec.ofNat 64 (memRead m a 8))).canonical then
      match readElems m (a + 8) n with
      | .error e => .error e
      | .ok zs => .ok (cmUnpack (BitVec.ofNat 64 (memRead m a 8)) :: zs)
    else .error ⟨.operandBound, BitVec.ofNat 64 a⟩

/-- The bytes of a vector of elements (48_cm31_ntt.md R331). -/
def elemBytes (zs : List Cm31) : List Byte := zs.flatMap fun z => leBytes 8 (cmPack z).toNat

end Sys2Proof.Machine
end

