-- ==== Sys2Proof/Machine/Block.lean ====
section
/-! DEFINITION. The interleaved block multiplier's instructions BMUL3, BMUL4, BSQR3 and BSQR4
(44_block_multiplier.md): the first one or two pairs go to the scalar unit, the last two to the SIMD lanes
(R244). -/

namespace Sys2Proof.Machine

/-- The results of a block: `scalars` pairs on the scalar unit, the others on the lanes
(44_block_multiplier.md R244). -/
def blockResults (lane : FieldWord → FieldWord → FieldWord) : Nat → List (FieldWord × FieldWord) → List FieldWord
  | _, [] => []
  | 0, (x, y) :: xys => lane x y :: blockResults lane 0 xys
  | scalars + 1, (x, y) :: xys =>
    BitVec.ofNat 256 (cios x.toNat y.toNat) :: blockResults lane scalars xys

/-- The checks of a block after its reads, and its writes (44_block_multiplier.md R251, R240). -/
def blockBody (lane : FieldWord → FieldWord → FieldWord) (scalars : Nat) (d : RegNo)
    (pairs : List (FieldWord × FieldWord)) (s : State) : Except Raise State := do
  checkRtz s
  checkProducts 0 pairs
  return s.writeGroup d (blockResults lane scalars pairs)

/-- BMUL3 (44_block_multiplier.md R245). -/
def execBmul3 (d a b : RegNo) (s : State) : Host.Outcome State Fault Refusal :=
  execute (.bmul3 d a b) s do
    let xs ← readGroup s a 3
    let ys ← readGroup s b 3
    blockBody (simdLane s.caps.simdBlockBound) 1 d (xs.zip ys) s

/-- BMUL4 (44_block_multiplier.md R246). -/
def execBmul4 (d a b : RegNo) (s : State) : Host.Outcome State Fault Refusal :=
  execute (.bmul4 d a b) s do
    let xs ← readGroup s a 4
    let ys ← readGroup s b 4
    blockBody (simdLane s.caps.simdBlockBound) 2 d (xs.zip ys) s

/-- BSQR3 (44_block_multiplier.md R247). -/
def execBsqr3 (d a : RegNo) (s : State) : Host.Outcome State Fault Refusal :=
  execute (.bsqr3 d a) s do
    let xs ← readGroup s a 3
    blockBody (fun x _ => simdLaneSqr s.caps.simdBlockBound x) 1 d (xs.zip xs) s

/-- BSQR4 (44_block_multiplier.md R248). -/
def execBsqr4 (d a : RegNo) (s : State) : Host.Outcome State Fault Refusal :=
  execute (.bsqr4 d a) s do
    let xs ← readGroup s a 4
    blockBody (fun x _ => simdLaneSqr s.caps.simdBlockBound x) 2 d (xs.zip xs) s

end Sys2Proof.Machine
end

