-- ==== Sys2Proof/Machine/Control.lean ====
section
/-! DEFINITION. NOP, HALT and the rounding-mode guard: RMACQ and RMREL (41_rounding_and_control.md). -/

namespace Sys2Proof.Machine

/-- NOP (41_rounding_and_control.md R172). -/
def execNop (s : State) : Host.Outcome State Fault Refusal := execute .nop s (.ok s)

/-- HALT: the engine stops with DONE, and pc keeps the address of the HALT (41_rounding_and_control.md R173). -/
def execHalt (s : State) : Host.Outcome State Fault Refusal := .next s.halt

/-- RMACQ: push the mode and take a new one (41_rounding_and_control.md R176). -/
def execRmacq (mode : BitVec 10) (s : State) : Host.Outcome State Fault Refusal :=
  execute (.rmacq mode) s do
    require (s.gs.length ≠ s.caps.guardDepth) .guardOverflow (BitVec.ofNat 64 s.gs.length)
    return { s with gs := s.rmode :: s.gs, rmode := mode.setWidth 2 }

/-- RMREL: pop the innermost acquisition (41_rounding_and_control.md R177). -/
def execRmrel (s : State) : Host.Outcome State Fault Refusal :=
  execute .rmrel s
    (match s.gs with
    | [] => .error ⟨.guardUnderflow, 0⟩
    | m :: gs => .ok { s with gs := gs, rmode := m })

end Sys2Proof.Machine
end

