-- ==== Sys2Proof/Machine/Data.lean ====
section
/-! DEFINITION. Data movement: XLI, XADDI, LDX, STX, LDF, STF, FMOV, FADD, LDV, STV (40_data_movement.md). Each
follows the order of R140; the stored register of a store is read before the base register. -/

namespace Sys2Proof.Machine

/-- XLI (40_data_movement.md R145). -/
def execXli (d : RegNo) (imm : BitVec 22) (s : State) : Host.Outcome State Fault Refusal :=
  execute (.xli d imm) s (.ok (s.writeX d (sext22 imm)))

/-- XADDI (40_data_movement.md R146). -/
def execXaddi (d a : RegNo) (imm : BitVec 18) (s : State) : Host.Outcome State Fault Refusal :=
  execute (.xaddi d a imm) s do
    let base ← readX s a
    return s.writeX d (base + sext18 imm)

/-- LDX (40_data_movement.md R147). -/
def execLdx (d a : RegNo) (imm : BitVec 18) (s : State) : Host.Outcome State Fault Refusal :=
  execute (.ldx d a imm) s do
    let ea ← accessAddr s a imm 8
    return s.writeX d (BitVec.ofNat 64 (memRead s.dmem ea 8))

/-- STX (40_data_movement.md R148). -/
def execStx (d a : RegNo) (imm : BitVec 18) (s : State) : Host.Outcome State Fault Refusal :=
  execute (.stx d a imm) s do
    let v ← readX s d
    let ea ← accessAddr s a imm 8
    return s.store ea (leBytes 8 v.toNat)

/-- LDF (40_data_movement.md R149). -/
def execLdf (d a : RegNo) (imm : BitVec 18) (s : State) : Host.Outcome State Fault Refusal :=
  execute (.ldf d a imm) s do
    let ea ← accessAddr s a imm 32
    return s.writeF d (BitVec.ofNat 256 (memRead s.dmem ea 32))

/-- STF (40_data_movement.md R150). -/
def execStf (d a : RegNo) (imm : BitVec 18) (s : State) : Host.Outcome State Fault Refusal :=
  execute (.stf d a imm) s do
    let v ← readF s d
    let ea ← accessAddr s a imm 32
    return s.store ea (leBytes 32 v.toNat)

/-- FMOV (40_data_movement.md R151). -/
def execFmov (d a : RegNo) (s : State) : Host.Outcome State Fault Refusal :=
  execute (.fmov d a) s do
    let v ← readF s a
    return s.writeF d v

/-- FADD, modulo `2^256` and with no reduction (40_data_movement.md R152). -/
def execFadd (d a b : RegNo) (s : State) : Host.Outcome State Fault Refusal :=
  execute (.fadd d a b) s do
    let x ← readF s a
    let y ← readF s b
    return s.writeF d (x + y)

/-- LDV (40_data_movement.md R153). -/
def execLdv (d a : RegNo) (imm : BitVec 18) (s : State) : Host.Outcome State Fault Refusal :=
  execute (.ldv d a imm) s do
    let ea ← accessAddr s a imm 80
    return s.writeV d (loadVReg s.dmem ea)

/-- STV (40_data_movement.md R154). -/
def execStv (d a : RegNo) (imm : BitVec 18) (s : State) : Host.Outcome State Fault Refusal :=
  execute (.stv d a imm) s do
    let v ← readV s d
    let ea ← accessAddr s a imm 80
    return s.store ea v.bytes

end Sys2Proof.Machine
end

