-- ==== Sys2Proof/Machine/FpSimd.lean ====
section
/-! DEFINITION. The fp-SIMD unit's instructions VMUL and VSQR (43_fp_simd.md). -/

namespace Sys2Proof.Machine

/-- VMUL (43_fp_simd.md R220). -/
def execVmul (d a b : RegNo) (s : State) : Host.Outcome State Fault Refusal :=
  execute (.vmul d a b) s do
    let x ← readV s a
    let y ← readV s b
    checkRtz s
    checkLimbPairs (x.limbs.zip y.limbs)
    return s.writeV d ⟨#v[simd52 x.lane[0] y.lane[0], simd52 x.lane[1] y.lane[1]]⟩

/-- VSQR (43_fp_simd.md R221). -/
def execVsqr (d a : RegNo) (s : State) : Host.Outcome State Fault Refusal :=
  execute (.vsqr d a) s do
    let x ← readV s a
    checkRtz s
    checkLimbs x.limbs
    return s.writeV d ⟨#v[simd52Sqr x.lane[0], simd52Sqr x.lane[1]]⟩

end Sys2Proof.Machine
end

