-- ==== Sys2Proof/Machine/Ntt.lean ====
section
/-! DEFINITION. The CM31 NTT unit's instructions (48_cm31_ntt.md). None of them reads or writes RMODE. -/

namespace Sys2Proof.Machine

/-- NTTB8 (48_cm31_ntt.md R340). -/
def execNttb8 (a b : RegNo) (s : State) : Host.Outcome State Fault Refusal :=
  execute (.nttb8 a b) s do
    let e ← readX s a
    let u ← readX s b
    checkAligned e
    checkRange s e 64
    let w ← checkRoot u 1
    let f ← readElems s.dmem e.toNat 8
    return s.store e.toNat (elemBytes (dft f w))

/-- NTT8 (48_cm31_ntt.md R341). -/
def execNtt8 (a b c : RegNo) (s : State) : Host.Outcome State Fault Refusal :=
  execute (.ntt8 a b c) s do
    let e ← readX s a
    let n ← readX s b
    let u ← readX s c
    require (isPure n.toNat) .invalidLength n
    checkAligned e
    checkRange s e (8 * n.toNat)
    let w ← checkRoot u 2
    require (cmPow w n.toNat = cmOne ∧ cmPow w (n.toNat / 2) ≠ cmOne) .badRoot u
    let f ← readElems s.dmem e.toNat n.toNat
    return s.store e.toNat (elemBytes (dft f w))

/-- NTTROOT (48_cm31_ntt.md R342). -/
def execNttroot (d a : RegNo) (s : State) : Host.Outcome State Fault Refusal :=
  execute (.nttroot d a) s do
    let n ← readX s a
    require (hasRoot n.toNat) .noSuchRoot n
    return s.writeX d (cmPack (root n.toNat))

/-- NTTPRE: the form of `n`, then the existence of a root, then the capacity (48_cm31_ntt.md R343,
60_exceptions.md R421). -/
def execNttpre (a : RegNo) (s : State) : Host.Outcome State Fault Refusal :=
  execute (.nttpre a) s do
    let n ← readX s a
    require (isPure n.toNat || isStride2 n.toNat || isStride4 n.toNat) .invalidLength n
    require (groupOrder % n.toNat = 0) .noSuchRoot n
    require (n.toNat ≤ 2 ^ s.caps.twMaxLog2N) .invalidLength n
    return { s with twb := some n }

/-- The hybrid transforms: `form` is the size form of the instruction. The vector is transformed with `ROOT(n)`
and every byte of the scratch takes a free value (48_cm31_ntt.md R344, log 8). -/
def hybridNtt (form : Nat → Bool) (a b c : RegNo) (s : State) : Except Raise State := do
  let e ← readX s a
  let n ← readX s b
  let scratch ← readX s c
  require (form n.toNat) .invalidLength n
  require (s.twb = some n) .twiddleMissing n
  checkAligned e
  checkAligned scratch
  checkRange s e (8 * n.toNat)
  checkRange s scratch (8 * nttLeaf)
  require (disjoint e.toNat (8 * n.toNat) scratch.toNat (8 * nttLeaf)) .bufferOverlap scratch
  let f ← readElems s.dmem e.toNat n.toNat
  return (s.store e.toNat (elemBytes (dft f (root n.toNat)))).havoc scratch.toNat (8 * nttLeaf)

/-- NTTH (48_cm31_ntt.md R344). -/
def execNtth (a b c : RegNo) (s : State) : Host.Outcome State Fault Refusal :=
  execute (.ntth a b c) s (hybridNtt isPure a b c s)

/-- NTTS2 (48_cm31_ntt.md R345). -/
def execNtts2 (a b c : RegNo) (s : State) : Host.Outcome State Fault Refusal :=
  execute (.ntts2 a b c) s (hybridNtt isStride2 a b c s)

/-- NTTS4 (48_cm31_ntt.md R346). -/
def execNtts4 (a b c : RegNo) (s : State) : Host.Outcome State Fault Refusal :=
  execute (.ntts4 a b c) s (hybridNtt isStride4 a b c s)

end Sys2Proof.Machine
end

