-- ==== Sys2Proof/Machine/Reduction.lean ====
section
/-! DEFINITION. The modular reduction unit's instructions REDP, RED1, RED and REDPRC (45_reduction.md). -/

namespace Sys2Proof.Machine

/-- REDP (45_reduction.md R265). -/
def execRedp (d a : RegNo) (s : State) : Host.Outcome State Fault Refusal :=
  execute (.redp d a) s do
    let x ← readF s a
    return s.writeF d (BitVec.ofNat 256 (reducePartial x.toNat))

/-- RED1 (45_reduction.md R266). -/
def execRed1 (d a : RegNo) (s : State) : Host.Outcome State Fault Refusal :=
  execute (.red1 d a) s do
    let x ← readF s a
    return s.writeF d (BitVec.ofNat 256 (reduce1 x.toNat))

/-- RED (45_reduction.md R267). -/
def execRed (d a : RegNo) (s : State) : Host.Outcome State Fault Refusal :=
  execute (.red d a) s do
    let x ← readF s a
    return s.writeF d (BitVec.ofNat 256 (reduce x.toNat))

/-- REDPRC: ASSERTION with the round-constant index when the result would be `2p` or more
(45_reduction.md R268, R269). -/
def execRedprc (d a : RegNo) (i : BitVec 10) (s : State) : Host.Outcome State Fault Refusal :=
  execute (.redprc d a i) s do
    let x ← readF s a
    let y ← raiseAssertion (reducePartialAddRc s.rc x.toNat i.toNat)
    return s.writeF d (BitVec.ofNat 256 y)

end Sys2Proof.Machine
end

