-- ==== Sys2Proof/Machine/Scalar.lean ====
section
/-! DEFINITION. The scalar Montgomery multiplier's instructions MUL and SQR (42_scalar_montgomery.md). -/

namespace Sys2Proof.Machine

/-- The scalar unit on two operands: the input contract (42_scalar_montgomery.md R194), then CIOS (R191). -/
def scalarProduct (x y : FieldWord) : Except Raise FieldWord := do
  require (productBounded x y) .operandBound 0
  return BitVec.ofNat 256 (cios x.toNat y.toNat)

/-- MUL (42_scalar_montgomery.md R195). -/
def execMul (d a b : RegNo) (s : State) : Host.Outcome State Fault Refusal :=
  execute (.mul d a b) s do
    let x ← readF s a
    let y ← readF s b
    let c ← scalarProduct x y
    return s.writeF d c

/-- SQR (42_scalar_montgomery.md R196). -/
def execSqr (d a : RegNo) (s : State) : Host.Outcome State Fault Refusal :=
  execute (.sqr d a) s do
    let x ← readF s a
    let c ← scalarProduct x x
    return s.writeF d c

end Sys2Proof.Machine
end

