-- ==== Sys2Proof/Machine/Skyscraper.lean ====
section
/-! DEFINITION. BAR (46_bar.md) and the Skyscraper compressions CMPR and CMPRM (47_skyscraper.md). None of
them reads or writes RMODE (47_skyscraper.md R304). -/

namespace Sys2Proof.Machine

/-- BAR (46_bar.md R285). -/
def execBar (d a : RegNo) (s : State) : Host.Outcome State Fault Refusal :=
  execute (.bar d a) s do
    let x ← readF s a
    require (x.toNat < 2 * p) .operandBound 0
    return s.writeF d (BitVec.ofNat 256 (bar x.toNat))

/-- CMPR: ASSERTION with the round index when a round-constant addition would give `2p` or more
(47_skyscraper.md R310). -/
def execCmpr (d a b : RegNo) (s : State) : Host.Outcome State Fault Refusal :=
  execute (.cmpr d a b) s do
    let l ← readF s a
    let r ← readF s b
    require (l.toNat < p) .operandBound 0
    require (r.toNat < p) .operandBound 1
    let h ← raiseAssertion (compress s.rc l.toNat r.toNat)
    return s.writeF d (BitVec.ofNat 256 h)

/-- The hashes of message pairs, as the bytes of the hash buffer; the error is the address of the first pair
whose compression raises ASSERTION (47_skyscraper.md R311). -/
def hashPairs (rc : Nat → Nat) : List (Nat × Nat × Nat) → Except Nat (List Byte)
  | [] => .ok []
  | (a, l, r) :: ps => do
    let h ← (compress rc l r).mapError fun _ => a
    let bs ← hashPairs rc ps
    return leBytes 32 h ++ bs

/-- The checks of CMPRM before its computation: the hash buffer's address and length in bytes, and the message
pairs (47_skyscraper.md R311). -/
def cmprmJob (d a b c : RegNo) (s : State) : Except Raise (Nat × Nat × List (Nat × Nat × Nat)) := do
  let out ← readX s d
  let inp ← readX s a
  let inLen ← readX s b
  let outLen ← readX s c
  require (inLen.toNat % 64 = 0 ∧ outLen.toNat % 32 = 0 ∧ inLen.toNat / 64 = outLen.toNat / 32)
    .invalidBufferShape 0
  checkAligned inp
  checkAligned out
  checkRange s inp inLen.toNat
  checkRange s out outLen.toNat
  require (inLen.toNat / 64 = 0 ∨ disjoint inp.toNat inLen.toNat out.toNat outLen.toNat) .bufferOverlap out
  let pairs ← readPairs s.dmem inp.toNat (inLen.toNat / 64)
  return (out.toNat, outLen.toNat, pairs)

/-- The end of CMPRM: the hash buffer is stored, or an ASSERTION found during the computation leaves every byte
of it unspecified, a free value each (47_skyscraper.md R311, 20_memory.md R83, log 8). -/
def cmprmEnd (insn : InsnWord) (s : State) (out outLen : Nat) : Except Nat (List Byte) → State
  | .ok bs => (s.store out bs).advance
  | .error pair => (s.havoc out outLen).takeFault insn ⟨.assertion, BitVec.ofNat 64 pair⟩

/-- CMPRM (47_skyscraper.md R311). -/
def execCmprm (d a b c : RegNo) (s : State) : Host.Outcome State Fault Refusal :=
  match cmprmJob d a b c s with
  | .error e => .next (s.takeFault (encode (.cmprm d a b c)) e)
  | .ok (out, outLen, pairs) =>
    .next (cmprmEnd (encode (.cmprm d a b c)) s out outLen (hashPairs s.rc pairs))

end Sys2Proof.Machine
end

