-- ==== Sys2Proof/Machine/Dispatch.lean ====
section
/-! DEFINITION. The meaning of each instruction, by name. -/

namespace Sys2Proof.Machine

def exec (i : Instr) (s : State) : Host.Outcome State Fault Refusal :=
  match i with
  | .nop => Sys2Proof.Machine.execNop s
  | .halt => Sys2Proof.Machine.execHalt s
  | .rmacq mode => Sys2Proof.Machine.execRmacq mode s
  | .rmrel => Sys2Proof.Machine.execRmrel s
  | .xli d imm => Sys2Proof.Machine.execXli d imm s
  | .xaddi d a imm => Sys2Proof.Machine.execXaddi d a imm s
  | .ldx d a imm => Sys2Proof.Machine.execLdx d a imm s
  | .stx d a imm => Sys2Proof.Machine.execStx d a imm s
  | .ldf d a imm => Sys2Proof.Machine.execLdf d a imm s
  | .stf d a imm => Sys2Proof.Machine.execStf d a imm s
  | .fmov d a => Sys2Proof.Machine.execFmov d a s
  | .fadd d a b => Sys2Proof.Machine.execFadd d a b s
  | .ldv d a imm => Sys2Proof.Machine.execLdv d a imm s
  | .stv d a imm => Sys2Proof.Machine.execStv d a imm s
  | .mul d a b => Sys2Proof.Machine.execMul d a b s
  | .sqr d a => Sys2Proof.Machine.execSqr d a s
  | .redp d a => Sys2Proof.Machine.execRedp d a s
  | .red1 d a => Sys2Proof.Machine.execRed1 d a s
  | .red d a => Sys2Proof.Machine.execRed d a s
  | .redprc d a rc => Sys2Proof.Machine.execRedprc d a rc s
  | .vmul d a b => Sys2Proof.Machine.execVmul d a b s
  | .vsqr d a => Sys2Proof.Machine.execVsqr d a s
  | .bmul3 d a b => Sys2Proof.Machine.execBmul3 d a b s
  | .bmul4 d a b => Sys2Proof.Machine.execBmul4 d a b s
  | .bsqr3 d a => Sys2Proof.Machine.execBsqr3 d a s
  | .bsqr4 d a => Sys2Proof.Machine.execBsqr4 d a s
  | .bar d a => Sys2Proof.Machine.execBar d a s
  | .cmpr d a b => Sys2Proof.Machine.execCmpr d a b s
  | .cmprm d a b c => Sys2Proof.Machine.execCmprm d a b c s
  | .nttb8 a b => Sys2Proof.Machine.execNttb8 a b s
  | .ntt8 a b c => Sys2Proof.Machine.execNtt8 a b c s
  | .nttroot d a => Sys2Proof.Machine.execNttroot d a s
  | .nttpre a => Sys2Proof.Machine.execNttpre a s
  | .ntth a b c => Sys2Proof.Machine.execNtth a b c s
  | .ntts2 a b c => Sys2Proof.Machine.execNtts2 a b c s
  | .ntts4 a b c => Sys2Proof.Machine.execNtts4 a b c s

end Sys2Proof.Machine
end

