-- ==== Sys2Proof/Machine/Engine.lean ====
section
/-! DEFINITION. The engine's step: fetch, decode, execute (41_rounding_and_control.md R171). -/

namespace Sys2Proof.Machine

/-- The fetch of four bytes at pc runs past IMEM (10_state.md R35). -/
abbrev State.fetchPastEnd (s : State) : Prop := s.imemBytes < s.pcAddr + 4

/-- The instruction word at pc, little-endian (30_encoding.md R100). -/
def State.fetchWord (s : State) : InsnWord := BitVec.ofNat 32 (memRead s.imem s.pcAddr 4)

/-- One step of the engine while it is busy (41_rounding_and_control.md R171); FINSN is 0 for FETCH_RANGE and
the word for ILLEGAL (60_exceptions.md R401). -/
def runInstruction (s : State) : Host.Outcome State Fault Refusal :=
  if s.fetchPastEnd then .next (s.takeFault 0 ⟨.fetchRange, BitVec.ofNat 64 s.pcAddr⟩)
  else
    match decodeWord s.fetchWord with
    | .error _ => .next (s.takeFault s.fetchWord ⟨.illegal, 0⟩)
    | .ok i => exec i s

/-- The engine's part of a step: an instruction while busy, nothing while idle (60_exceptions.md R446, log 12). -/
def engineStep (s : State) : Host.Outcome State Fault Refusal :=
  if s.busy then runInstruction s else .next s

end Sys2Proof.Machine
end

