-- ==== Sys2Proof/Machine/HostPort.lean ====
section
/-! DEFINITION. The host's side: the register block (10_state.md R40 to R50), START (60_exceptions.md R432),
SOFT_RESET (R434, 70_reset_and_hazards.md R450), the interrupt line (R430) and the host's accesses to the
memories (20_memory.md R81). -/

namespace Sys2Proof.Machine

/-! ### The interrupt line -/

/-- The line IRQ (60_exceptions.md R430). -/
def State.irq (s : State) : Bool := s.irqEn && (s.doneBit || s.faultBit)

/-! ### Reads of the register block -/

/-- Bit `k` of a register, from a Bool. -/
def bitAt (k : Nat) (b : Bool) : Nat := if b then 2 ^ k else 0

/-- ID: "PKCORE" and the command-set version (10_state.md R42). -/
def idValue : Nat := 0x504B434F52450001

/-- The word of CAPS (10_state.md R49). -/
def Caps.word (c : Caps) : Nat :=
  c.imemLog2 + c.dmemLog2 * 2 ^ 8 + c.guardDepth * 2 ^ 16 + c.twMaxLog2N * 2 ^ 24

/-- What a whole aligned read of the register block returns, PC while busy apart (10_state.md R41 to R50). -/
def hostRegValue (s : State) (off : Nat) : Nat :=
  match off with
  | 0x00 => idValue
  | 0x08 => bitAt 1 s.irqEn
  | 0x10 => bitAt 0 s.busy + bitAt 1 s.doneBit + bitAt 2 s.faultBit
  | 0x18 => s.entry.toNat
  | 0x20 => s.pcReg.toNat
  | 0x28 => s.cause.toNat
  | 0x30 => s.finsn.toNat
  | 0x38 => s.finfo.toNat
  | 0x40 => s.rmode.toNat + s.gs.length * 2 ^ 8
  | 0x48 => s.caps.word
  | 0x50 => (s.twb.getD 0).toNat
  | _ => 0

/-- A whole aligned register of the 256-byte block (10_state.md R40). -/
abbrev wholeRegister (off width : Nat) : Prop := width = 8 ∧ off % 8 = 0 ∧ off < 256

/-- The host reads `width` bytes at an offset of the block; an access that is not one whole aligned register
reads 0 (10_state.md R40, log 24). PC is unspecified while the engine is busy (R46, log 16). -/
def hostRegRead (off width : Nat) (s : State) : State :=
  if wholeRegister off width then
    if off = 0x20 ∧ s.busy then
      { s.drawn 4 with hostData := freeBytes s.freeIx 4 ++ List.replicate 4 0 }
    else { s with hostData := leBytes 8 (hostRegValue s off) }
  else { s with hostData := List.replicate width 0 }

/-! ### SOFT_RESET -/

/-- Of two bytes, the second where the choice byte is odd. -/
def chooseBytes : List Byte → List Byte → List Byte → List Byte
  | o :: os, n :: ns, c :: cs => (if c.getLsbD 0 then n else o) :: chooseBytes os ns cs
  | _, _, _ => []

/-- The value of an address register behind its valid bit. -/
def xValue (s : State) (r : RegNo) : Word64 := if r = 0 then 0 else s.x[r.toNat]'r.isLt

/-- The range of data memory a single-access store writes: its address and size (20_memory.md R82). -/
def storeRange (i : Instr) (s : State) : Option (Nat × Nat) :=
  match i with
  | .stx _ a imm => some ((effectiveAddr (xValue s a) imm).toNat, 8)
  | .stf _ a imm => some ((effectiveAddr (xValue s a) imm).toNat, 32)
  | .stv _ a imm => some ((effectiveAddr (xValue s a) imm).toNat, 80)
  | .nop | .halt | .rmacq _ | .rmrel | .xli _ _ | .xaddi _ _ _ | .ldx _ _ _ | .ldf _ _ _ | .fmov _ _
  | .fadd _ _ _ | .ldv _ _ _ | .mul _ _ _ | .sqr _ _ | .redp _ _ | .red1 _ _ | .red _ _ | .redprc _ _ _
  | .vmul _ _ _ | .vsqr _ _ | .bmul3 _ _ _ | .bmul4 _ _ _ | .bsqr3 _ _ | .bsqr4 _ _ | .bar _ _
  | .cmpr _ _ _ | .cmprm _ _ _ _ | .nttb8 _ _ | .ntt8 _ _ _ | .nttroot _ _ | .nttpre _ | .ntth _ _ _
  | .ntts2 _ _ _ | .ntts4 _ _ _ => none

/-- The output buffers, and the scratch, of a buffer instruction: addresses and sizes (20_memory.md R82). -/
def bufferRanges (i : Instr) (s : State) : List (Nat × Nat) :=
  match i with
  | .cmprm d _ _ c => [((xValue s d).toNat, (xValue s c).toNat)]
  | .nttb8 a _ => [((xValue s a).toNat, 64)]
  | .ntt8 a b _ => [((xValue s a).toNat, 8 * (xValue s b).toNat)]
  | .ntth a b c => [((xValue s a).toNat, 8 * (xValue s b).toNat), ((xValue s c).toNat, 8 * nttLeaf)]
  | .ntts2 a b c => [((xValue s a).toNat, 8 * (xValue s b).toNat), ((xValue s c).toNat, 8 * nttLeaf)]
  | .ntts4 a b c => [((xValue s a).toNat, 8 * (xValue s b).toNat), ((xValue s c).toNat, 8 * nttLeaf)]
  | .nop | .halt | .rmacq _ | .rmrel | .xli _ _ | .xaddi _ _ _ | .ldx _ _ _ | .stx _ _ _ | .ldf _ _ _
  | .stf _ _ _ | .fmov _ _ | .fadd _ _ _ | .ldv _ _ _ | .stv _ _ _ | .mul _ _ _ | .sqr _ _ | .redp _ _
  | .red1 _ _ | .red _ _ | .redprc _ _ _ | .vmul _ _ _ | .vsqr _ _ | .bmul3 _ _ _ | .bmul4 _ _ _
  | .bsqr3 _ _ | .bsqr4 _ _ | .bar _ _ | .cmpr _ _ _ | .nttroot _ _ | .nttpre _ => []

/-- The state with every byte of some ranges of data memory a free value. -/
def State.havocAll (s : State) : List (Nat × Nat) → State
  | [] => s
  | (a, n) :: rs => (s.havoc a n).havocAll rs

/-- The instruction writes data memory unless a check stops it: it completes, or it is a CMPRM whose computation
raises ASSERTION (20_memory.md R83). `t` is the state it ends in. -/
abbrev reachesMemory (t : State) : Prop := t.busy = true ∨ t.cause = Cause.assertion.code

/-- What an instruction abandoned by SOFT_RESET leaves in data memory (60_exceptions.md R434, log 17): of a
single-access store each byte is written or not, freely; of a buffer instruction every byte of its output
buffers and scratch is a free value; an instruction that a check stops writes nothing. -/
def State.abandon (s : State) : State :=
  if s.fetchPastEnd then s
  else
    match decodeWord s.fetchWord with
    | .error _ => s
    | .ok i =>
      match exec i s with
      | .next t =>
        if reachesMemory t then
          match storeRange i s with
          | some (a, n) =>
            (s.store a (chooseBytes (readBytes s.dmem a n) (readBytes t.dmem a n) (freeBytes s.freeIx n))).drawn n
          | none => s.havocAll (bufferRanges i s)
        else s
      | .fault _ | .refused _ => s

/-- Everything but the memories, the hard-wired values and the model's own fields takes its value after reset
(70_reset_and_hazards.md R450). -/
def State.resetKeepingMemory (s : State) : State :=
  { State.reset with
    caps := s.caps, skyRc := s.skyRc, imem := s.imem, dmem := s.dmem, host := s.host, hostData := s.hostData
    freeIx := s.freeIx }

/-- SOFT_RESET, busy or not (10_state.md R55, 60_exceptions.md R434). -/
def State.softReset (s : State) : State := (if s.busy then s.abandon else s).resetKeepingMemory

/-! ### Writes to the register block -/

/-- CTRL.SOFT_RESET (10_state.md R43). -/
def State.softResetIf (s : State) (bit : Bool) : State := if bit then s.softReset else s

/-- CTRL.IRQ_EN (10_state.md R43). -/
def State.withIrqEn (s : State) (bit : Bool) : State := { s with irqEn := bit }

/-- CTRL.START, which a busy engine ignores (10_state.md R43, 60_exceptions.md R432). -/
def State.startIf (s : State) (bit : Bool) : State := if bit && !s.busy then s.start else s

/-- A write of CTRL: the reset first, then IRQ_EN, then START, which a busy engine ignores (10_state.md R43, R55;
60_exceptions.md R432; log 14). -/
def writeCtrl (v : Word64) (s : State) : State :=
  ((s.softResetIf (v.getLsbD 2)).withIrqEn (v.getLsbD 1)).startIf (v.getLsbD 0)

/-- A write of STATUS: 1 clears DONE or FAULT (10_state.md R45). -/
def writeStatus (v : Word64) (s : State) : State :=
  { s with doneBit := s.doneBit && !v.getLsbD 1, faultBit := s.faultBit && !v.getLsbD 2 }

/-- A write of ENTRY: bits 31:2, while idle (10_state.md R44). -/
def writeEntry (v : Word64) (s : State) : State :=
  if s.busy then s else { s with entry := BitVec.ofNat 32 (v.toNat % 2 ^ 32 / 4 * 4) }

/-- A write of RMODE: bits 1:0, while idle (10_state.md R48). -/
def writeRmode (v : Word64) (s : State) : State := if s.busy then s else { s with rmode := v.setWidth 2 }

/-- The host writes `width` bytes at an offset of the block; an access that is not one whole aligned register
is ignored, and so are writes to read-only and reserved offsets (10_state.md R40, R41). -/
def hostRegWrite (off width : Nat) (v : Word64) (s : State) : State :=
  if wholeRegister off width then
    match off with
    | 0x08 => writeCtrl v s
    | 0x10 => writeStatus v s
    | 0x18 => writeEntry v s
    | 0x40 => writeRmode v s
    | _ => s
  else s

/-! ### The memories -/

/-- The contents of a memory. -/
def State.space (s : State) : Space → Memory
  | .imem => s.imem
  | .dmem => s.dmem

/-- The size of a memory in bytes (20_memory.md R70). -/
def State.spaceBytes (s : State) : Space → Nat
  | .imem => s.imemBytes
  | .dmem => s.dmemBytes

/-- The host reads `n` bytes of a memory: free values while busy, and 0 outside the memory (20_memory.md R81,
log 15). -/
def hostMemRead (sp : Space) (addr n : Nat) (s : State) : State :=
  let inRange (i : Nat) (b : Byte) : Byte := if addr + i < s.spaceBytes sp then b else 0
  if s.busy then
    { s.drawn n with hostData := (List.range n).map fun i => inRange i (Config.freeByte (s.freeIx + i)) }
  else { s with hostData := (List.range n).map fun i => inRange i (readByte (s.space sp) (addr + i)) }

/-- The host writes bytes to a memory: dropped while busy, and the bytes outside the memory are ignored
(20_memory.md R81, log 15). -/
def hostMemWrite (sp : Space) (addr : Nat) (bytes : List Byte) (s : State) : State :=
  if s.busy then s
  else
    match sp with
    | .imem => { s with imem := writeBytes s.imem addr (bytes.take (s.imemBytes - addr)) }
    | .dmem => { s with dmem := writeBytes s.dmem addr (bytes.take (s.dmemBytes - addr)) }

/-- One access of the host. -/
def hostAccess (act : HostAction) (s : State) : State :=
  match act with
  | .run => s
  | .regRead off width => hostRegRead off width s
  | .regWrite off width v => hostRegWrite off width v s
  | .memRead sp addr n => hostMemRead sp addr n s
  | .memWrite sp addr bytes => hostMemWrite sp addr bytes s

/-- The state with a list of host accesses to come. -/
def State.withHost (s : State) (acts : List HostAction) : State := { s with host := acts }

/-- The state in which the engine is about to run the instruction with the given bytes at pc. -/
def State.readyToRun (s : State) (bytes : List Byte) : State :=
  { s with imem := writeBytes s.imem s.pcAddr bytes, busy := true, host := [] }

end Sys2Proof.Machine
end

