-- ==== Sys2Proof/Machine/Step.lean ====
section
/-! DEFINITION. One step of the machine: the host's next access, or the engine's next instruction (log 9), and
where the step fetches. -/

namespace Sys2Proof.Machine

/-- One step. With a host access at the head of the list `host`, the host makes it; where the list is empty or
its head lets the engine run, the engine takes a step. -/
def step (s : State) : Host.Outcome State Fault Refusal :=
  match s.host with
  | [] => engineStep s
  | .run :: acts => engineStep (s.withHost acts)
  | act :: acts => .next (hostAccess act (s.withHost acts))

/-- `s` with an instruction stored where `step` fetches, the engine busy and no host access before it (log 11). -/
def State.withFetchWord (s : State) (nbits w : Nat) : State := s.readyToRun (leBytes 4 (w % 2 ^ nbits))

end Sys2Proof.Machine
end

