-- ==== Sys2Proof/Machine/FpDatapath.lean ====
section
/-! DEFINITION. The datapath of the fp-SIMD unit as far as the spec describes it: a 52x52-bit product split by two
binary64 fused multiply-adds (43_fp_simd.md R211, R212). The spec calls it informative and no rule depends on it: a
lane's result is the parameter of R213 (Machine/FpLane.lean), and no meaning uses these definitions (log 22). The
binary64 format in them is the spec's general knowledge (93_implementation_defined.md G1, G2). -/

namespace Sys2Proof.Machine

/-- The spacing of the binary64 values around an integer, 1 where it is finer (43_fp_simd.md R211). -/
def spacing (v : Int) : Nat := 2 ^ (v.natAbs.log2 - 52)

/-- An exact integer rounded to a multiple of `u` in a rounding mode (10_state.md R36): to nearest with ties to
even, up, down, towards zero. -/
def roundTo (mode : BitVec 2) (u : Nat) (v : Int) : Int :=
  let down := v / u * u
  let rest := v % u
  let up := if rest = 0 then down else down + u
  if mode = 0b00 then (if 2 * rest < u ∨ (2 * rest = u ∧ v / u % 2 = 0) then down else up)
  else if mode = 0b01 then up
  else if mode = 0b10 then down
  else if 0 ≤ v then down else up

/-- The fused multiply-add of integers in binary64: one rounding of the exact sum (43_fp_simd.md R211). -/
def fma (mode : BitVec 2) (x y c : Int) : Int := roundTo mode (spacing (x * y + c)) (x * y + c)

/-- `hi = fma(x, y, C1)` (43_fp_simd.md R211). -/
def fmaHi (mode : BitVec 2) (x y : Nat) : Int := fma mode x y c1

/-- `lo = fma(x, y, C2 - hi)` (43_fp_simd.md R211). -/
def fmaLo (mode : BitVec 2) (x y : Nat) : Int := fma mode x y (c2 - fmaHi mode x y)

/-- The bit pattern of a positive integer that binary64 holds exactly (43_fp_simd.md R212). -/
def binary64 (v : Int) : Nat :=
  let e := v.natAbs.log2
  (e + 1022) * 2 ^ 52 + v.natAbs * 2 ^ 52 / 2 ^ e

end Sys2Proof.Machine
end

