-- ==== Sys2Proof/Safety.lean ====
section
/-! DEFINITION. The terms statements about the machine are made in: the invariant of the state, what an instruction
leaves unchanged, what a fault entry does, runs of several instructions, and the spec's own formulas for powers,
transforms and bytes, written apart from the meanings that compute them. -/

namespace Sys2Proof.Machine

/-! ### The invariant -/

/-- What holds of the state at reset and after every step. -/
structure State.Inv (s : State) : Prop where
  /-- the parameters lie in their bounds (00_scope.md R10) -/
  caps : s.caps.legal
  /-- every open round constant is below `p` (47_skyscraper.md R300) -/
  rc : ∀ i : Fin 15, s.skyRc[i].toNat < p
  /-- IMEM is in canonical form -/
  imem : Memory.wf s.imem
  /-- DMEM is in canonical form -/
  dmem : Memory.wf s.dmem
  /-- no cell of IMEM lies outside the memory (20_memory.md R70) -/
  imemBound : ∀ c ∈ s.imem, c.1 < s.imemBytes
  /-- no cell of DMEM lies outside the memory (20_memory.md R70) -/
  dmemBound : ∀ c ∈ s.dmem, c.1 < s.dmemBytes
  /-- bits 1:0 of pc are 0 (10_state.md R35) -/
  pc : s.pc.toNat % 4 = 0
  /-- pc has reached `2^32` only where it stands there (log 13) -/
  carry : s.pcCarry = true → s.pc = 0
  /-- bits 1:0 of ENTRY are 0 (10_state.md R44) -/
  entry : s.entry.toNat % 4 = 0
  /-- GDEPTH is at most GUARD_DEPTH (10_state.md R37) -/
  depth : s.gs.length ≤ s.caps.guardDepth
  /-- GDEPTH is 0 while the engine is idle (10_state.md R48) -/
  idle : s.busy = false → s.gs = []
  /-- TWB holds none or a size that NTTPRE accepts (48_cm31_ntt.md R343) -/
  twb : ∀ n ∈ s.twb, (isPure n.toNat || isStride2 n.toNat || isStride4 n.toNat) ∧ n.toNat ≤ 2 ^ s.caps.twMaxLog2N
  /-- a busy engine has neither DONE nor FAULT set, and records no fault (10_state.md R45, R47) -/
  running : s.busy = true → s.doneBit = false ∧ s.faultBit = false ∧ s.cause = 0 ∧ s.finsn = 0 ∧ s.finfo = 0
  /-- DONE and FAULT are never both set (10_state.md R45) -/
  status : ¬(s.doneBit = true ∧ s.faultBit = true)
  /-- FAULT is set only with a cause recorded, and no code above 16 is (60_exceptions.md R410) -/
  cause : s.cause.toNat ≤ 16 ∧ (s.faultBit = true → s.cause ≠ 0)
  /-- nothing is ever written to the place of `X0` (10_state.md R32) -/
  x0 : s.x[0] = 0 ∧ s.xValid[0] = false

/-! ### Frames -/

/-- A field register with its valid bit. -/
def fCell (s : State) (r : RegNo) : Bool × FieldWord := (s.fValid[r.toNat]'r.isLt, s.f[r.toNat]'r.isLt)

/-- An address register with its valid bit. -/
def xCell (s : State) (r : RegNo) : Bool × Word64 := (s.xValid[r.toNat]'r.isLt, s.x[r.toNat]'r.isLt)

/-- A SIMD register with its valid bit. -/
def vCell (s : State) (r : Fin 8) : Bool × VReg := (s.vValid[r], s.v[r])

/-- The address registers a write to `xd` changes: none for `X0` (10_state.md R32). -/
def xDest (d : RegNo) : List RegNo := if d = 0 then [] else [d]

/-- What no instruction that completes changes: the hard-wired values, IMEM, the host registers and the host's
side. -/
structure HostSideSame (s t : State) : Prop where
  caps : t.caps = s.caps
  skyRc : t.skyRc = s.skyRc
  imem : t.imem = s.imem
  busy : t.busy = s.busy
  doneBit : t.doneBit = s.doneBit
  faultBit : t.faultBit = s.faultBit
  irqEn : t.irqEn = s.irqEn
  entry : t.entry = s.entry
  pcReg : t.pcReg = s.pcReg
  cause : t.cause = s.cause
  finsn : t.finsn = s.finsn
  finfo : t.finfo = s.finfo
  host : t.host = s.host
  hostData : t.hostData = s.hostData

/-- Field registers outside `fs`, address registers outside `xs`, SIMD registers outside `vs` and the bytes of
data memory outside `stored` are unchanged. -/
structure DataSame (s t : State) (fs xs : List RegNo) (vs : List (Fin 8)) (stored : Nat → Prop) : Prop where
  f : ∀ r, r ∉ fs → fCell t r = fCell s r
  x : ∀ r, r ∉ xs → xCell t r = xCell s r
  v : ∀ r, r ∉ vs → vCell t r = vCell s r
  mem : ∀ a, ¬stored a → readByte t.dmem a = readByte s.dmem a

/-- `pc <- pc + 4` (10_state.md R35, 41_rounding_and_control.md R171): the low 32 bits and the carry, which stays set
once it is (log 13). The address is 4 more as a mathematical integer, so that pc never wraps, wherever the address
before it lies below `2^32`, as the address of every instruction does. -/
structure Advanced (s t : State) : Prop where
  pc : t.pc = s.pc + 4
  carry : t.pcCarry = (s.pcCarry || decide (2 ^ 32 ≤ s.pc.toNat + 4))
  addr : s.pcAddr < 2 ^ 32 → t.pcAddr = s.pcAddr + 4

/-- The instruction went on to the next one and changed nothing but the named registers and bytes, and drew no
free value. -/
structure Frame (s t : State) (fs xs : List RegNo) (vs : List (Fin 8)) (stored : Nat → Prop) : Prop where
  host : HostSideSame s t
  data : DataSame s t fs xs vs stored
  pc : Advanced s t
  rmode : t.rmode = s.rmode
  gs : t.gs = s.gs
  twb : t.twb = s.twb
  freeIx : t.freeIx = s.freeIx

/-- No byte. -/
def noByte : Nat → Prop := fun _ => False

/-- The bytes `a .. a+n-1`. -/
def bytesAt (a n : Nat) : Nat → Prop := fun k => a ≤ k ∧ k < a + n

/-! ### Faults -/

/-- RMODE after the guard stack is unwound: the mode before the outermost outstanding acquisition
(41_rounding_and_control.md R178). -/
def unwoundMode (s : State) : BitVec 2 := s.gs.getLast?.getD s.rmode

/-- The engine has stopped at the instruction it was at: the guard stack is unwound, the PC register holds the
address, and nothing outside the stop's own record, the status bits and data memory changes
(41_rounding_and_control.md R178, 60_exceptions.md R401). -/
structure Stopped (s t : State) : Prop where
  rmode : t.rmode = unwoundMode s
  gs : t.gs = []
  pcReg : t.pcReg = s.pc
  busy : t.busy = false
  caps : t.caps = s.caps
  skyRc : t.skyRc = s.skyRc
  f : t.f = s.f
  fValid : t.fValid = s.fValid
  x : t.x = s.x
  xValid : t.xValid = s.xValid
  v : t.v = s.v
  vValid : t.vValid = s.vValid
  pc : t.pc = s.pc
  pcCarry : t.pcCarry = s.pcCarry
  twb : t.twb = s.twb
  imem : t.imem = s.imem
  irqEn : t.irqEn = s.irqEn
  entry : t.entry = s.entry
  host : t.host = s.host
  hostData : t.hostData = s.hostData

/-- The engine has stopped by HALT (41_rounding_and_control.md R173): CAUSE, FINSN and FINFO keep their values. -/
structure HaltEntry (s t : State) : Prop where
  stopped : Stopped s t
  doneBit : t.doneBit = true
  faultBit : t.faultBit = s.faultBit
  cause : t.cause = s.cause
  finsn : t.finsn = s.finsn
  finfo : t.finfo = s.finfo
  dmem : t.dmem = s.dmem
  freeIx : t.freeIx = s.freeIx

/-- The fault entry of 60_exceptions.md R401, data memory apart. -/
structure FaultRecord (s t : State) (w : InsnWord) (c : Cause) (info : Word64) : Prop where
  stopped : Stopped s t
  doneBit : t.doneBit = s.doneBit
  faultBit : t.faultBit = true
  cause : t.cause = c.code
  finsn : t.finsn = w
  finfo : t.finfo = info

/-- The fault entry of 60_exceptions.md R401: nothing but the record of the fault changes. -/
structure FaultEntry (s t : State) (w : InsnWord) (c : Cause) (info : Word64) : Prop where
  record : FaultRecord s t w c info
  dmem : t.dmem = s.dmem
  freeIx : t.freeIx = s.freeIx

/-- Instruction `i` takes the fault `c` with FINFO `info` in state `s`. -/
def Faults (i : Instr) (s : State) (c : Cause) (info : Word64) : Prop :=
  ∃ t, exec i s = .next t ∧ FaultEntry s t (encode i) c info

/-! ### Source registers -/

/-- A register an instruction reads. -/
inductive Source where
  | x (r : RegNo)
  | f (r : RegNo)
  | v (r : RegNo)
deriving DecidableEq, Repr

/-- The source's valid bit is clear (10_state.md R34): `X0` is always valid. -/
def Source.unwritten (s : State) : Source → Bool
  | .x r => r != 0 && !(s.xValid[r.toNat]'r.isLt)
  | .f r => !(s.fValid[r.toNat]'r.isLt)
  | .v r => !(s.vValid[vIndex r])

/-- FINFO of UNWRITTEN_REGISTER (60_exceptions.md R411). -/
def Source.finfo : Source → Word64
  | .x r => BitVec.ofNat 64 r.toNat
  | .f r => BitVec.ofNat 64 (0x10 + r.toNat)
  | .v r => BitVec.ofNat 64 (0x20 + r.toNat)

/-- The registers an instruction reads, in its read order (60_exceptions.md R420 point 3). -/
def sources : Instr → List Source
  | .nop | .halt | .rmacq _ | .rmrel | .xli _ _ => []
  | .xaddi _ a _ | .ldx _ a _ | .ldf _ a _ | .ldv _ a _ | .nttroot _ a | .nttpre a => [.x a]
  | .stx d a _ => [.x d, .x a]
  | .stf d a _ => [.f d, .x a]
  | .stv d a _ => [.v d, .x a]
  | .fmov _ a | .sqr _ a | .redp _ a | .red1 _ a | .red _ a | .redprc _ a _ | .bar _ a => [.f a]
  | .fadd _ a b | .mul _ a b | .cmpr _ a b => [.f a, .f b]
  | .vmul _ a b => [.v a, .v b]
  | .vsqr _ a => [.v a]
  | .bmul3 _ a b => [.f a, .f (a + 1), .f (a + 2), .f b, .f (b + 1), .f (b + 2)]
  | .bmul4 _ a b => [.f a, .f (a + 1), .f (a + 2), .f (a + 3), .f b, .f (b + 1), .f (b + 2), .f (b + 3)]
  | .bsqr3 _ a => [.f a, .f (a + 1), .f (a + 2)]
  | .bsqr4 _ a => [.f a, .f (a + 1), .f (a + 2), .f (a + 3)]
  | .cmprm d a b c => [.x d, .x a, .x b, .x c]
  | .nttb8 a b => [.x a, .x b]
  | .ntt8 a b c | .ntth a b c | .ntts2 a b c | .ntts4 a b c => [.x a, .x b, .x c]

/-- Every source register of an instruction has been written. -/
def sourcesWritten (i : Instr) (s : State) : Bool := (sources i).all fun r => !r.unwritten s

/-! ### Runs -/

/-- The state after a list of instructions, each of which completes with the engine still busy. -/
def runAll : List Instr → State → Option State
  | [], s => some s
  | i :: is, s =>
    match exec i s with
    | .next t => if t.busy then runAll is t else none
    | .fault _ | .refused _ => none

/-- A sequence of instructions with balanced RMACQ and RMREL: each RMREL matches the most recent unmatched RMACQ
(41_rounding_and_control.md R180). -/
inductive Balanced : List Instr → Prop where
  | nil : Balanced []
  | other (i : Instr) (is : List Instr) :
      (∀ m, i ≠ .rmacq m) → i ≠ .rmrel → Balanced is → Balanced (i :: is)
  | guarded (m : BitVec 10) (is js : List Instr) :
      Balanced is → Balanced js → Balanced (.rmacq m :: (is ++ .rmrel :: js))

/-! ### The opcode map as the spec prints it -/

/-- A row of 30_encoding.md R105: its mask, its match, and the constraint of R106 on its fields. -/
structure Spec.Row where
  mask : InsnWord
  matchBits : InsnWord
  constraint : InsnWord → Bool

/-- No constraint on the fields. -/
def Spec.anyFields : InsnWord → Bool := fun _ => true

/-- The 4-bit fields at the given places are at most `hi` (30_encoding.md R106 cases 5 to 7). -/
def Spec.groupBelow (hi : RegNo) (places : List Nat) : InsnWord → Bool := fun w =>
  places.all fun lo => w.extractLsb' lo 4 ≤ hi

open Spec in
/-- The opcode map (30_encoding.md R105), row for row. -/
def Spec.opcodeMap : List Spec.Row :=
  [
   ⟨0xffffffff, 0x04000000, anyFields⟩,
   ⟨0xffffffff, 0x08000000, anyFields⟩,
   ⟨0xfffffc00, 0x0c000000, fun w => w.extractLsb' 0 10 ≤ 3⟩,
   ⟨0xffffffff, 0x10000000, anyFields⟩,
   ⟨0xfc000000, 0x20000000, anyFields⟩,
   ⟨0xfc000000, 0x24000000, anyFields⟩,
   ⟨0xfc000000, 0x28000000, anyFields⟩,
   ⟨0xfc000000, 0x2c000000, anyFields⟩,
   ⟨0xfc000000, 0x40000000, anyFields⟩,
   ⟨0xfc000000, 0x44000000, anyFields⟩,
   ⟨0xfc03ffff, 0x48000000, anyFields⟩,
   ⟨0xfc003fff, 0x4c000000, anyFields⟩,
   ⟨0xfc000000, 0x50000000, groupBelow 7 [22]⟩,
   ⟨0xfc000000, 0x54000000, groupBelow 7 [22]⟩,
   ⟨0xfc003fff, 0x60000000, anyFields⟩,
   ⟨0xfc03ffff, 0x64000000, anyFields⟩,
   ⟨0xfc03ffff, 0x70000000, anyFields⟩,
   ⟨0xfc03ffff, 0x74000000, anyFields⟩,
   ⟨0xfc03ffff, 0x78000000, anyFields⟩,
   ⟨0xfc03fc00, 0x7c000000, fun w => w.extractLsb' 0 10 ≤ 17⟩,
   ⟨0xfc003fff, 0x80000000, groupBelow 7 [22, 18, 14]⟩,
   ⟨0xfc03ffff, 0x84000000, groupBelow 7 [22, 18]⟩,
   ⟨0xfc003fff, 0x90000000, groupBelow 13 [22, 18, 14]⟩,
   ⟨0xfc003fff, 0x94000000, groupBelow 12 [22, 18, 14]⟩,
   ⟨0xfc03ffff, 0x98000000, groupBelow 13 [22, 18]⟩,
   ⟨0xfc03ffff, 0x9c000000, groupBelow 12 [22, 18]⟩,
   ⟨0xfc03ffff, 0xa0000000, anyFields⟩,
   ⟨0xfc003fff, 0xa4000000, anyFields⟩,
   ⟨0xfc0003ff, 0xa8000000, anyFields⟩,
   ⟨0xffc03fff, 0xc0000000, anyFields⟩,
   ⟨0xffc003ff, 0xc4000000, anyFields⟩,
   ⟨0xfc03ffff, 0xc8000000, anyFields⟩,
   ⟨0xffc3ffff, 0xcc000000, anyFields⟩,
   ⟨0xffc003ff, 0xd0000000, anyFields⟩,
   ⟨0xffc003ff, 0xd4000000, anyFields⟩,
   ⟨0xffc003ff, 0xd8000000, anyFields⟩]

/-- The word is one of the 36 instructions of R105 with its constraints of R106 (30_encoding.md R107). -/
def Spec.isInstruction (w : InsnWord) : Prop :=
  ∃ r ∈ Spec.opcodeMap, w &&& r.mask = r.matchBits ∧ r.constraint w = true

/-! ### Groups of instructions -/

/-- The instructions that need round-toward-zero (41_rounding_and_control.md R182). -/
def needsRtz : Instr → Bool
  | .vmul _ _ _ | .vsqr _ _ | .bmul3 _ _ _ | .bmul4 _ _ _ | .bsqr3 _ _ | .bsqr4 _ _ => true
  | _ => false

/-! ### The spec's formulas -/

/-- Byte `j` of a number. -/
def byteOf (v j : Nat) : Nat := v / 256 ^ j % 256

/-- A byte rotated left by `n` (46_bar.md R280). -/
def Spec.rotl (n v : Nat) : Nat := (v <<< n ||| v >>> (8 - n)) % 256

/-- The S-box as 46_bar.md R280 writes it, `NOT v` being `255 - v`. -/
def Spec.sbox (v : Nat) : Nat :=
  Spec.rotl 1 (v ^^^ (Spec.rotl 1 (255 - v) &&& Spec.rotl 2 v &&& Spec.rotl 3 v))

/-- `RC[1]` (47_skyscraper.md R300). -/
def Spec.rcOne : Nat := 0x276b1823ea6d7667081dd27906c83855873125f708a7d269903c4324270bd744

/-- Partial reduction as 45_reduction.md R261 writes it: `x - floor(limb_3(x) / (p3 + 1)) * p`. -/
def Spec.reducePartial (x : Nat) : Nat := x - x / 2 ^ 192 / (0x30644e72e131a029 + 1) * p

/-- `REDP_MAX` (00_scope.md R8). -/
def Spec.redpMax : Nat := 0x30644e72e131a02b1ebee925f9fa9e8b5f305ede191a3dbaf07829b03ffffffb

/-- `SKY_RC_SAFE = 2p - REDP_MAX` (45_reduction.md R269). -/
def Spec.skyRcSafe : Nat := 0x30644e72e131a02851e1a2470908122ef13771b2da58a367974bc177a0000007

/-- `c` is the Montgomery product CIOS(x, y): `c * R = x * y + M * p` with `M < R`, which fixes `c`
(42_scalar_montgomery.md R192). -/
def Spec.isCios (x y c : Nat) : Prop := ∃ m, m < 2 ^ 256 ∧ c * 2 ^ 256 = x * y + m * p

/-- Every open round constant is below `SKY_RC_SAFE`, so that no compression can raise ASSERTION
(47_skyscraper.md R306). -/
def Spec.rcSafe (s : State) : Prop := ∀ i : Fin 15, s.skyRc[i].toNat < Spec.skyRcSafe

/-- The state pair after round `i` of the compression, as integers (47_skyscraper.md R303, R305; 45_reduction.md
R269). -/
def Spec.skyRound (rc : Nat → Nat) (l r : Nat) : Nat → Nat × Nat
  | 0 => (Spec.reducePartial (r + cios l l), l)
  | i + 1 =>
    let s := Spec.skyRound rc l r i
    let f := if i + 1 ∈ [6, 7, 10, 11] then bar s.1 else cios s.1 s.1
    (Spec.reducePartial (s.2 + f) + rc (i + 1), s.1)

/-- No round's addition of its constant reaches `2p` (47_skyscraper.md R306 point 5). -/
def Spec.noAssertion (rc : Nat → Nat) (l r : Nat) : Prop :=
  ∀ i, 1 ≤ i → i ≤ 16 → (Spec.skyRound rc l r i).1 < 2 * p

/-- Round `i` is the first whose addition of its constant reaches `2p`. -/
def Spec.firstAssertion (rc : Nat → Nat) (l r i : Nat) : Prop :=
  1 ≤ i ∧ i ≤ 16 ∧ 2 * p ≤ (Spec.skyRound rc l r i).1 ∧ ∀ j, 1 ≤ j → j < i → (Spec.skyRound rc l r j).1 < 2 * p

/-- The hash: the feed-forward after round 16, fully reduced (47_skyscraper.md R305). -/
def Spec.hash (rc : Nat → Nat) (l r : Nat) : Nat :=
  let s := Spec.skyRound rc l r 16
  (s.2 + cios s.1 s.1 + l) % p

/-- Every open round constant is below `p` (47_skyscraper.md R300). -/
def Spec.rcLegal (s : State) : Prop := ∀ i : Fin 15, s.skyRc[i].toNat < p

/-- `w^0 = (1, 0)`, `w^(k+1) = w^k * w` (48_cm31_ntt.md R330). -/
def Spec.pow (w : Cm31) : Nat → Cm31
  | 0 => cmOne
  | k + 1 => cmMul (Spec.pow w k) w

/-- The first `n` terms of the sum of 48_cm31_ntt.md R333: `f 0 * w^(0 * k) + … + f (n-1) * w^((n-1) * k)`. -/
def Spec.dftSum (f : Nat → Cm31) (w : Cm31) (k : Nat) : Nat → Cm31
  | 0 => cmZero
  | n + 1 => cmAdd (Spec.dftSum f w k n) (cmMul (f n) (Spec.pow w (n * k)))

/-- Element `j` of the vector at address `e` (48_cm31_ntt.md R331): the real part at `e + 8j`, the imaginary part
at `e + 8j + 4`. -/
def Spec.elem (m : Memory) (e j : Nat) : Cm31 := ⟨memRead m (e + 8 * j) 4, memRead m (e + 8 * j + 4) 4⟩

/-- The vector of `n` elements at `e` in state `t` is the transform, with root `w`, of the vector there in state
`s` (48_cm31_ntt.md R333). -/
def Spec.isDft (s t : State) (e n : Nat) (w : Cm31) : Prop :=
  ∀ k, k < n → Spec.elem t.dmem e k = Spec.dftSum (Spec.elem s.dmem e) w k n

/-- Every element of the vector of `n` elements at `e` is canonical. -/
def Spec.canonicalVec (s : State) (e n : Nat) : Prop := ∀ j, j < n → (Spec.elem s.dmem e j).canonical

/-! ### The checks of an instruction, as the spec lists them -/

/-- A check: what must hold, and the cause and FINFO raised where it does not (60_exceptions.md R400). -/
structure Check where
  holds : Prop
  cause : Cause
  info : Word64

/-- Every check of a list passes. -/
def checksHold (cs : List Check) : Prop := ∀ k ∈ cs, k.holds

/-- The first check of a list that fails raises `c` with FINFO `info` (60_exceptions.md R420). -/
def firstFails : List Check → Cause → Word64 → Prop
  | [], _, _ => False
  | k :: ks, c, info => (¬k.holds ∧ c = k.cause ∧ info = k.info) ∨ (k.holds ∧ firstFails ks c info)

/-- The value of a field register behind its valid bit. -/
def fValue (s : State) (r : RegNo) : Nat := (s.f[r.toNat]'r.isLt).toNat

/-- Limb `k` of a SIMD register, counted lane 0 first (43_fp_simd.md R216). -/
def limbAt (s : State) (r : RegNo) (k : Fin 10) : Nat :=
  (s.v[vIndex r].lane[k.val / 5]'(by omega))[k.val % 5].toNat

/-- Element `k` of the message buffer at `a`: pair `k / 2`, its `l` or its `r` (20_memory.md R76). -/
def message (s : State) (a k : Nat) : Nat := memRead s.dmem (a + 32 * k) 32

/-- `n = 8^k` with `k ≥ 1` (48_cm31_ntt.md R338). -/
def Spec.pureSize (n : Nat) : Prop := ∃ k, 1 ≤ k ∧ n = 8 ^ k

/-- `n = 2 * 8^k` with `k ≥ 1` (48_cm31_ntt.md R338). -/
def Spec.stride2Size (n : Nat) : Prop := ∃ k, 1 ≤ k ∧ n = 2 * 8 ^ k

/-- `n = 4 * 8^k` with `k ≥ 1` (48_cm31_ntt.md R338). -/
def Spec.stride4Size (n : Nat) : Prop := ∃ k, 1 ≤ k ∧ n = 4 * 8 ^ k

/-- `w` has order exactly `n` in the multiplicative group of CM31 (48_cm31_ntt.md R336). -/
def Spec.orderIs (w : Cm31) (n : Nat) : Prop :=
  Spec.pow w n = cmOne ∧ ∀ m, 1 ≤ m → m < n → Spec.pow w m ≠ cmOne

/-- The check that the elements of a vector are canonical, in address order (48_cm31_ntt.md R340). -/
def elementChecks (s : State) (e n : Nat) : List Check :=
  (List.range n).map fun j => ⟨(Spec.elem s.dmem e j).canonical, .operandBound, BitVec.ofNat 64 (e + 8 * j)⟩

/-- The round-toward-zero check (43_fp_simd.md R215, 44_block_multiplier.md R243). -/
def rtzCheck (s : State) : Check := ⟨s.rmode = 0b11, .roundingMode, s.rmode.setWidth 64⟩

/-- The checks of a block instruction with `n` pairs, after its reads (44_block_multiplier.md R251). -/
def blockChecks (s : State) (a b : RegNo) (n : Nat) : List Check :=
  rtzCheck s :: (List.range n).map fun k =>
    ⟨fValue s (a + BitVec.ofNat 4 k) * fValue s (b + BitVec.ofNat 4 k) < p * 2 ^ 256, .operandBound,
      BitVec.ofNat 64 k⟩

/-- The checks of a hybrid transform, `form` its size form, after its reads (48_cm31_ntt.md R344). -/
def hybridChecks (s : State) (form : Nat → Prop) (a b c : RegNo) : List Check :=
  let e := xValue s a
  let n := xValue s b
  let z := xValue s c
  [⟨form n.toNat, .invalidLength, n⟩,
   ⟨s.twb = some n, .twiddleMissing, n⟩,
   ⟨e.toNat % 8 = 0, .misaligned, e⟩,
   ⟨z.toNat % 8 = 0, .misaligned, z⟩,
   ⟨e.toNat + 8 * n.toNat ≤ s.dmemBytes, .dataRange, e⟩,
   ⟨z.toNat + 8 * 32768 ≤ s.dmemBytes, .dataRange, z⟩,
   ⟨e.toNat + 8 * n.toNat ≤ z.toNat ∨ z.toNat + 8 * 32768 ≤ e.toNat, .bufferOverlap, z⟩]
  ++ elementChecks s e.toNat n.toNat

/-- The checks of CMPRM after its reads, the ASSERTION of a pair last (47_skyscraper.md R311). -/
def cmprmChecks (s : State) (d a b c : RegNo) : List Check :=
  let out := xValue s d
  let inp := xValue s a
  let inLen := (xValue s b).toNat
  let outLen := (xValue s c).toNat
  [⟨inLen % 64 = 0 ∧ outLen % 32 = 0 ∧ inLen / 64 = outLen / 32, .invalidBufferShape, 0⟩,
   ⟨inp.toNat % 8 = 0, .misaligned, inp⟩,
   ⟨out.toNat % 8 = 0, .misaligned, out⟩,
   ⟨inp.toNat + inLen ≤ s.dmemBytes, .dataRange, inp⟩,
   ⟨out.toNat + outLen ≤ s.dmemBytes, .dataRange, out⟩,
   ⟨inLen / 64 = 0 ∨ inp.toNat + inLen ≤ out.toNat ∨ out.toNat + outLen ≤ inp.toNat, .bufferOverlap, out⟩]
  ++ (List.range (2 * (inLen / 64))).map (fun k =>
    ⟨message s inp.toNat k < p, .operandBound, BitVec.ofNat 64 (inp.toNat + 32 * k)⟩)
  ++ (List.range (inLen / 64)).map fun j =>
    ⟨Spec.noAssertion s.rc (message s inp.toNat (2 * j)) (message s inp.toNat (2 * j + 1)), .assertion,
      BitVec.ofNat 64 (inp.toNat + 64 * j)⟩

/-- The two checks of a load or store of `size` bytes (20_memory.md R78, R79, R80). -/
def accessChecks (s : State) (a : RegNo) (imm : BitVec 18) (size : Nat) : List Check :=
  let ea := effectiveAddr (xValue s a) imm
  [⟨ea.toNat % 8 = 0, .misaligned, ea⟩, ⟨ea.toNat + size ≤ s.dmemBytes, .dataRange, ea⟩]

/-- The checks an instruction makes after decoding and after reading its registers, in order: the `if … raise`
lines of its pseudocode. Of REDPRC, CMPR and CMPRM the ASSERTION stands last. -/
def Spec.checks (i : Instr) (s : State) : List Check :=
  match i with
  | .rmacq _ =>
    [⟨s.gs.length ≠ s.caps.guardDepth, .guardOverflow, BitVec.ofNat 64 s.caps.guardDepth⟩]
  | .rmrel => [⟨s.gs ≠ [], .guardUnderflow, 0⟩]
  | .ldx _ a imm | .stx _ a imm => accessChecks s a imm 8
  | .ldf _ a imm | .stf _ a imm => accessChecks s a imm 32
  | .ldv _ a imm | .stv _ a imm => accessChecks s a imm 80
  | .mul _ a b => [⟨fValue s a * fValue s b < p * 2 ^ 256, .operandBound, 0⟩]
  | .sqr _ a => [⟨fValue s a * fValue s a < p * 2 ^ 256, .operandBound, 0⟩]
  | .redprc _ a j =>
    [⟨Spec.reducePartial (fValue s a) + s.rc j.toNat < 2 * p, .assertion, BitVec.ofNat 64 j.toNat⟩]
  | .vmul _ a b =>
    rtzCheck s :: (List.finRange 10).flatMap fun k =>
      [⟨limbAt s a k < 2 ^ 52, .operandBound, 0⟩, ⟨limbAt s b k < 2 ^ 52, .operandBound, 1⟩]
  | .vsqr _ a =>
    rtzCheck s :: (List.finRange 10).map fun k => ⟨limbAt s a k < 2 ^ 52, .operandBound, 0⟩
  | .bmul3 _ a b => blockChecks s a b 3
  | .bmul4 _ a b => blockChecks s a b 4
  | .bsqr3 _ a => blockChecks s a a 3
  | .bsqr4 _ a => blockChecks s a a 4
  | .bar _ a => [⟨fValue s a < 2 * p, .operandBound, 0⟩]
  | .cmpr _ a b =>
    [⟨fValue s a < p, .operandBound, 0⟩, ⟨fValue s b < p, .operandBound, 1⟩]
    ++ (List.range' 1 16).map fun j =>
      ⟨(Spec.skyRound s.rc (fValue s a) (fValue s b) j).1 < 2 * p, .assertion, BitVec.ofNat 64 j⟩
  | .cmprm d a b c => cmprmChecks s d a b c
  | .nttb8 a b =>
    let e := xValue s a
    [⟨e.toNat % 8 = 0, .misaligned, e⟩, ⟨e.toNat + 64 ≤ s.dmemBytes, .dataRange, e⟩,
     ⟨(cmUnpack (xValue s b)).canonical, .operandBound, 1⟩]
    ++ elementChecks s e.toNat 8
  | .ntt8 a b c =>
    let e := xValue s a
    let n := xValue s b
    let u := xValue s c
    [⟨Spec.pureSize n.toNat, .invalidLength, n⟩,
     ⟨e.toNat % 8 = 0, .misaligned, e⟩, ⟨e.toNat + 8 * n.toNat ≤ s.dmemBytes, .dataRange, e⟩,
     ⟨(cmUnpack u).canonical, .operandBound, 2⟩,
     ⟨Spec.pow (cmUnpack u) n.toNat = cmOne ∧ Spec.pow (cmUnpack u) (n.toNat / 2) ≠ cmOne, .badRoot, u⟩]
    ++ elementChecks s e.toNat n.toNat
  | .nttroot _ a => [⟨xValue s a ≠ 0 ∧ (q ^ 2 - 1) % (xValue s a).toNat = 0, .noSuchRoot, xValue s a⟩]
  | .nttpre a =>
    let n := xValue s a
    [⟨Spec.pureSize n.toNat ∨ Spec.stride2Size n.toNat ∨ Spec.stride4Size n.toNat, .invalidLength, n⟩,
     ⟨(q ^ 2 - 1) % n.toNat = 0, .noSuchRoot, n⟩, ⟨n.toNat ≤ 2 ^ s.caps.twMaxLog2N, .invalidLength, n⟩]
  | .ntth a b c => hybridChecks s Spec.pureSize a b c
  | .ntts2 a b c => hybridChecks s Spec.stride2Size a b c
  | .ntts4 a b c => hybridChecks s Spec.stride4Size a b c
  | .nop | .halt | .xli _ _ | .xaddi _ _ _ | .fmov _ _ | .fadd _ _ _ | .redp _ _ | .red1 _ _ | .red _ _ => []

/-- The bytes a faulting instruction may leave changed: the hash buffer of a CMPRM that raises ASSERTION, and
none otherwise (60_exceptions.md R402). -/
def Spec.spoiled (i : Instr) (s : State) (c : Cause) : Nat → Prop :=
  match i with
  | .cmprm d _ _ len => fun k => c = .assertion ∧ bytesAt (xValue s d).toNat (xValue s len).toNat k
  | _ => noByte

/-! ### Results -/

/-- Result `z` of a block lane on `x` and `y`, with `SIMD_BLOCK_BOUND` as its bound, below the bound of a scalar
result (44_block_multiplier.md R242). -/
def Spec.laneResult (bound x y z : Nat) : Prop := z * 2 ^ 256 % p = x * y % p ∧ z < bound ∧ z < 2 * p

/-- The results of a block instruction with `n` pairs, the first `scalars` of them on the scalar unit
(44_block_multiplier.md R244): register `d + k` of `t` holds the result of pair `k` of `s`. -/
def Spec.blockResults (lane : FieldWord → FieldWord → FieldWord) (s t : State) (d a b : RegNo)
    (scalars n : Nat) : Prop :=
  ∀ k, k < n → ∃ x y z, readF s (a + BitVec.ofNat 4 k) = .ok x ∧ readF s (b + BitVec.ofNat 4 k) = .ok y ∧
    readF t (d + BitVec.ofNat 4 k) = .ok z ∧
    (k < scalars → Spec.isCios x.toNat y.toNat z.toNat ∧ z.toNat = cios x.toNat y.toNat ∧ z.toNat < 2 * p) ∧
    (scalars ≤ k → z = lane x y ∧ Spec.laneResult s.caps.simdBlockBound x.toNat y.toNat z.toNat)

/-- Lane `z` is a product of lanes `x` and `y` as 43_fp_simd.md R214 promises: its limbs, its value modulo `p`
where the product bound holds, and its slack. -/
def Spec.simdResult (x y z : Lane) : Prop :=
  (∀ j : Fin 5, z[j].toNat < 2 ^ 52) ∧
  (val5 x * val5 y < p * 2 ^ 260 → val5 z * 2 ^ 260 % p = val5 x * val5 y % p) ∧
  (val5 x < simd52Bound → val5 y < simd52Bound → val5 z < simd52Bound)

/-! ### Runs of the machine -/

/-- `t` is reached from `s` by steps during all of which the engine is busy. -/
inductive BusyRun : State → State → Prop where
  | refl (s : State) : BusyRun s s
  | step (s t u : State) : BusyRun s t → t.busy = true → step t = .next u → BusyRun s u

/-- The host has nothing pending, or its next entry lets the engine take the step (log 9). -/
def engineTurn (s : State) : Prop := s.host = [] ∨ ∃ acts, s.host = .run :: acts

/-- The state the engine takes its step in: the entry that let it is gone from the list `host` (log 9). -/
def State.turned (s : State) : State := s.withHost s.host.tail

/-- START on `s` (60_exceptions.md R432): what it writes, and that nothing else changes. -/
structure Started (s t : State) : Prop where
  pc : t.pc = s.entry
  pcCarry : t.pcCarry = false
  doneBit : t.doneBit = false
  faultBit : t.faultBit = false
  cause : t.cause = 0
  finsn : t.finsn = 0
  finfo : t.finfo = 0
  busy : t.busy = true
  caps : t.caps = s.caps
  skyRc : t.skyRc = s.skyRc
  f : t.f = s.f
  fValid : t.fValid = s.fValid
  x : t.x = s.x
  xValid : t.xValid = s.xValid
  v : t.v = s.v
  vValid : t.vValid = s.vValid
  rmode : t.rmode = s.rmode
  gs : t.gs = s.gs
  twb : t.twb = s.twb
  imem : t.imem = s.imem
  dmem : t.dmem = s.dmem
  irqEn : t.irqEn = s.irqEn
  entry : t.entry = s.entry
  pcReg : t.pcReg = s.pcReg

/-- The state after reset, memory, the hard-wired values and the host's side apart (70_reset_and_hazards.md R450). -/
structure ResetValues (t : State) : Prop where
  fValid : ∀ r : Fin 16, t.fValid[r] = false
  xValid : ∀ r : Fin 16, t.xValid[r] = false
  vValid : ∀ r : Fin 8, t.vValid[r] = false
  pc : t.pc = 0 ∧ t.pcCarry = false
  rmode : t.rmode = 0b00
  gs : t.gs = []
  twb : t.twb = none
  status : t.busy = false ∧ t.doneBit = false ∧ t.faultBit = false
  irqEn : t.irqEn = false
  entry : t.entry = 0
  record : t.pcReg = 0 ∧ t.cause = 0 ∧ t.finsn = 0 ∧ t.finfo = 0
  irq : t.irq = false

/-- The ranges of data memory an instruction writes when it completes (20_memory.md R82). -/
def outputRanges (i : Instr) (s : State) : List (Nat × Nat) := (storeRange i s).toList ++ bufferRanges i s

end Sys2Proof.Machine
end

