-- ==== Sys2Proof/Certificates/Slice0/Obligations.lean ====
section
/-! DEFINITION. The statements for the provers, from the numbered rules of spec/. OBLIGATIONS.json lists them. -/

open Sys2Proof Sys2Proof.Machine

/-! ### Encoding -/

/-- Decoding the word or the bytes of a well-formed instruction gives the instruction back (30_encoding.md R100 to
R106). -/
def Obligations.DecodeEncodeRoundTrip : Prop :=
  ∀ i : Instr, i.wellFormed = true →
    decodeWord (encode i) = .ok i ∧ ∀ rest, decode (encodeBytes i ++ rest) = .ok (i, rest)

/-- A word that decodes is the one word of its instruction, which is well-formed (30_encoding.md R100, R102). -/
def Obligations.EncodeDecodeRoundTrip : Prop :=
  ∀ (w : InsnWord) (i : Instr), decodeWord w = .ok i → i.wellFormed = true ∧ encode i = w

/-- The decoder accepts exactly the words of the opcode map of 30_encoding.md R105 with the constraints of R106. -/
def Obligations.DecodeMatchesOpcodeMap : Prop :=
  ∀ w : InsnWord, (∃ i, decodeWord w = .ok i) ↔ Spec.isInstruction w

/-- A busy engine at a word outside the opcode map takes ILLEGAL with FINFO 0 and FINSN the word (30_encoding.md
R107). The engine's turn is where the list `host` is empty or its head lets the engine run (log 9). -/
def Obligations.IllegalWordFaults : Prop :=
  ∀ s : State, engineTurn s → s.busy = true → ¬s.fetchPastEnd → ¬Spec.isInstruction s.fetchWord →
    ∃ t, step s = .next t ∧ FaultEntry s.turned t s.fetchWord .illegal 0

/-- The worked encodings of 30_encoding.md R110. -/
def Obligations.DecodeExamples : Prop :=
  decodeWord 0x08000000 = .ok .halt ∧
  decodeWord 0x0c000003 = .ok (.rmacq 3) ∧
  decodeWord 0x20401000 = .ok (.xli 1 0x1000) ∧
  decodeWord 0x40440020 = .ok (.ldf 1 1 32) ∧
  decodeWord 0x4047ffe0 = .ok (.ldf 1 1 0x3ffe0) ∧
  decodeWord 0x6144c000 = .ok (.mul 5 1 3) ∧
  decodeWord 0x7d940001 = .ok (.redprc 6 5 1) ∧
  decodeWord 0xa884d000 = .ok (.cmprm 2 1 3 4) ∧
  decodeWord 0xc4048c00 = .ok (.ntt8 1 2 3) ∧
  decodeWord 0x00000000 = .error .reservedOpcode ∧
  decodeWord 0x48480001 = .error .reservedBits

/-! ### The step -/

/-- Where the bytes at pc decode to an instruction, the step of a busy engine is `exec` of it
(41_rounding_and_control.md R171); the list `host` is the model's (log 9). -/
def Obligations.StepRunsDecodedInstruction : Prop :=
  ∀ (s : State) (i : Instr), s.busy = true → s.pcAddr + 4 ≤ s.imemBytes →
    decode (readBytes s.imem s.pcAddr 4) = .ok (i, []) →
    (s.host = [] → step s = exec i s) ∧
    (∀ acts, s.host = .run :: acts → step s = exec i (s.withHost acts))

/-- A fetch that would run past IMEM takes FETCH_RANGE with FINFO the fetch address and FINSN 0
(41_rounding_and_control.md R171). pc is a mathematical integer, kept as 32 bits and a carry (log 13).
The engine's turn is where the list `host` is empty or its head lets the engine run (log 9). -/
def Obligations.FetchPastEndFaults : Prop :=
  ∀ s : State, engineTurn s → s.busy = true → s.imemBytes < s.pcAddr + 4 →
    ∃ t, step s = .next t ∧ FaultEntry s.turned t 0 .fetchRange (BitVec.ofNat 64 s.pcAddr)

/-- Every step answers a next state: the engine's faults are taken, and no instruction is refused. -/
def Obligations.EveryStepAnswersNext : Prop :=
  (∀ (i : Instr) (s : State), ∃ t, exec i s = .next t) ∧ ∀ s : State, ∃ t, step s = .next t

/-- Every step keeps the invariant. -/
def Obligations.StepKeepsInvariant : Prop := ∀ s t : State, s.Inv → step s = .next t → t.Inv

/-- The state after reset meets the invariant. -/
def Obligations.ResetMeetsInvariant : Prop := State.reset.Inv

/-- The state after reset, with the parameters' defaults and the values of the host register block
(70_reset_and_hazards.md R450, 10_state.md R41). That the parameters have their defaults is the model's choice
(log 3). -/
def Obligations.ResetState : Prop :=
  ResetValues State.reset ∧ State.reset.caps = ⟨16, 24, 8, 20, 2 * p⟩ ∧
  (∀ i : Fin 15, State.reset.skyRc[i].toNat < p) ∧
  hostRegValue State.reset 0x00 = 0x504B434F52450001 ∧
  hostRegValue State.reset 0x48 = 0x14081810 ∧
  ∀ k, 1 ≤ k → k < 32 → k ≠ 9 → hostRegValue State.reset (8 * k) = 0

/-! ### Rules of the whole machine -/

/-- IMEM is the same all through a run, and a step changes it only where an idle engine's host writes it
(20_memory.md R88). -/
def Obligations.ImemFixedDuringRun : Prop :=
  (∀ s t : State, BusyRun s t → t.imem = s.imem) ∧
  (∀ s t : State, step s = .next t → t.imem ≠ s.imem →
    s.busy = false ∧ ∃ a bytes acts, s.host = .memWrite .imem a bytes :: acts)

/-- While the engine runs only RMACQ and RMREL change RMODE, and the host changes it on a busy engine by
SOFT_RESET alone (41_rounding_and_control.md R181). -/
def Obligations.RmodeChangedOnlyByGuard : Prop :=
  (∀ (i : Instr) (s t : State), exec i s = .next t → t.busy = true → t.rmode ≠ s.rmode →
    (∃ m, i = .rmacq m) ∨ i = .rmrel) ∧
  (∀ (act : HostAction) (s : State), s.busy = true → (hostAccess act s).rmode ≠ s.rmode →
    ∃ v, act = .regWrite 0x08 8 v ∧ v.getLsbD 2 = true)

/-- Where a step stops the engine other than by HALT, it is a fault entry and nothing else, but that an ASSERTION
of CMPRM may leave its hash buffer changed (60_exceptions.md R402). The engine's turn is where the list
`host` is empty or its head lets the engine run (log 9). -/
def Obligations.FaultsArePrecise : Prop :=
  ∀ s t : State, engineTurn s → s.busy = true → step s = .next t → t.busy = false →
    (¬s.fetchPastEnd ∧ decodeWord s.fetchWord = .ok .halt) ∨
    ∃ c info, FaultRecord s.turned t (if s.fetchPastEnd then 0 else s.fetchWord) c info ∧
      ∀ k, (∀ i, ¬s.fetchPastEnd → decodeWord s.fetchWord = .ok i → ¬Spec.spoiled i s c k) →
        readByte t.dmem k = readByte s.dmem k

/-- The first unwritten source register, in the read order, raises UNWRITTEN_REGISTER before any other check
(10_state.md R34, 60_exceptions.md R420 point 3). -/
def Obligations.UnwrittenSourceFaults : Prop :=
  ∀ (i : Instr) (s : State) (before after : List Source) (r : Source), i.wellFormed = true →
    sources i = before ++ r :: after → (∀ r' ∈ before, r'.unwritten s = false) → r.unwritten s = true →
    Faults i s .unwrittenRegister r.finfo

/-- With its registers written, an instruction raises the fault of the first of its checks that fails, and no
other (60_exceptions.md R420), on the state it found (R402). -/
def Obligations.FirstFailingCheckFaults : Prop :=
  ∀ (i : Instr) (s : State) (c : Cause) (info : Word64), i.wellFormed = true → Spec.rcLegal s →
    sourcesWritten i s = true → firstFails (Spec.checks i s) c info →
    ∃ t, exec i s = .next t ∧ FaultRecord s t (encode i) c info ∧
      ∀ k, ¬Spec.spoiled i s c k → readByte t.dmem k = readByte s.dmem k

/-- With its registers written and all its checks passing, every instruction but HALT completes: the engine goes
on to the next word, pc being a mathematical integer that never wraps (10_state.md R35; the carry, log 13), and
nothing on the host's side changes (41_rounding_and_control.md R171). -/
def Obligations.CompletesWhenChecksHold : Prop :=
  ∀ (i : Instr) (s : State), i.wellFormed = true → i ≠ .halt → Spec.rcLegal s →
    sourcesWritten i s = true → checksHold (Spec.checks i s) →
    ∃ t, exec i s = .next t ∧ Advanced s t ∧ HostSideSame s t

/-- `X0` reads 0, a write to it is discarded, and no instruction changes its place (10_state.md R32). -/
def Obligations.X0IsHardwired : Prop :=
  (∀ s : State, readX s 0 = .ok 0) ∧ (∀ (s : State) (v : Word64), s.writeX 0 v = s) ∧
  ∀ (i : Instr) (s t : State), exec i s = .next t → xCell t 0 = xCell s 0

/-- All state survives idle (log 12 says that a step of an idle engine without a host access is the identity); only
a START leaves idle, and only HALT, a fault or SOFT_RESET enters it (60_exceptions.md R446). -/
def Obligations.ActivityStates : Prop :=
  (∀ s : State, s.busy = false → (s.host = [] → step s = .next s) ∧
    ∀ acts, s.host = .run :: acts → step s = .next (s.withHost acts)) ∧
  (∀ s t : State, s.busy = false → step s = .next t → t.busy = true →
    ∃ v acts, s.host = .regWrite 0x08 8 v :: acts ∧ v.getLsbD 0 = true) ∧
  (∀ s t : State, s.busy = true → step s = .next t → t.busy = false →
    (∃ v acts, s.host = .regWrite 0x08 8 v :: acts ∧ v.getLsbD 2 = true) ∨
    (t.doneBit = true ∧ ∃ u, (u = s ∨ ∃ acts, u = s.withHost acts) ∧ decodeWord u.fetchWord = .ok .halt) ∨
    t.faultBit = true)

/-! ### Control -/

/-- NOP advances pc, as a mathematical integer that never wraps, and changes nothing else
(41_rounding_and_control.md R172, 10_state.md R35; the carry, log 13). -/
def Obligations.NopAdvances : Prop :=
  ∀ s : State, ∃ t, exec .nop s = .next t ∧ Frame s t [] [] [] noByte

/-- HALT unwinds the guard stack and stops the engine with DONE; CAUSE, FINSN and FINFO keep their values
(41_rounding_and_control.md R173). -/
def Obligations.HaltStops : Prop :=
  ∀ s : State, ∃ t, exec .halt s = .next t ∧ HaltEntry s t ∧ t.irq = s.irqEn

/-- RMACQ pushes RMODE and takes the mode it names; with a full stack it raises GUARD_OVERFLOW
(41_rounding_and_control.md R176). -/
def Obligations.RmacqPushesMode : Prop :=
  ∀ (mode : BitVec 10) (s : State), mode.toNat ≤ 3 →
    (s.gs.length ≠ s.caps.guardDepth →
      ∃ t, exec (.rmacq mode) s = .next t ∧ t.rmode.toNat = mode.toNat ∧ t.gs = s.rmode :: s.gs ∧
        HostSideSame s t ∧ DataSame s t [] [] [] noByte ∧ Advanced s t ∧ t.twb = s.twb ∧ t.freeIx = s.freeIx) ∧
    (s.gs.length = s.caps.guardDepth →
      Faults (.rmacq mode) s .guardOverflow (BitVec.ofNat 64 s.caps.guardDepth))

/-- RMREL pops the innermost mode; with an empty stack it raises GUARD_UNDERFLOW (41_rounding_and_control.md
R177). -/
def Obligations.RmrelPopsMode : Prop :=
  (∀ (s : State) (m : BitVec 2) (ms : List (BitVec 2)), s.gs = m :: ms →
    ∃ t, exec .rmrel s = .next t ∧ t.rmode = m ∧ t.gs = ms ∧
      HostSideSame s t ∧ DataSame s t [] [] [] noByte ∧ Advanced s t ∧ t.twb = s.twb ∧ t.freeIx = s.freeIx) ∧
  (∀ s : State, s.gs = [] → Faults .rmrel s .guardUnderflow 0)

/-- A balanced sequence leaves RMODE as it was, and after an RMACQ and a balanced sequence RMODE is the mode
acquired (41_rounding_and_control.md R180). -/
def Obligations.BalancedGuardRestoresMode : Prop :=
  (∀ (is : List Instr) (s t : State), Balanced is → runAll is s = some t → t.rmode = s.rmode ∧ t.gs = s.gs) ∧
  (∀ (m : BitVec 10) (is : List Instr) (s t : State), Balanced is → runAll (.rmacq m :: is) s = some t →
    t.rmode = m.setWidth 2)

/-! ### Data movement -/

/-- XLI loads its signed immediate and XADDI adds one modulo `2^64`; `X0` discards the result (40_data_movement.md
R145, R146). -/
def Obligations.AddressRegisterResults : Prop :=
  (∀ (d : RegNo) (imm : BitVec 22) (s : State),
    ∃ t, exec (.xli d imm) s = .next t ∧
      readX t d = .ok (if d = 0 then 0 else BitVec.ofInt 64 imm.toInt) ∧ Frame s t [] (xDest d) [] noByte) ∧
  (∀ (d a : RegNo) (imm : BitVec 18) (s : State) (x : Word64), readX s a = .ok x →
    ∃ t, exec (.xaddi d a imm) s = .next t ∧
      readX t d = .ok (if d = 0 then 0 else BitVec.ofInt 64 (x.toNat + imm.toInt)) ∧
      Frame s t [] (xDest d) [] noByte)

/-- The effective address is the base plus the signed offset, modulo `2^64` (20_memory.md R77). -/
def Obligations.EffectiveAddressWraps : Prop :=
  ∀ (base : Word64) (imm : BitVec 18),
    ((effectiveAddr base imm).toNat : Int) = (base.toNat + imm.toInt) % 2 ^ 64

/-- LDX, LDF and LDV from an aligned address in range: byte `k` of the register is the byte at `ea + k`
(40_data_movement.md R147, R149, R153). -/
def Obligations.LoadResults : Prop :=
  (∀ (d a : RegNo) (imm : BitVec 18) (s : State) (base : Word64), readX s a = .ok base →
    (effectiveAddr base imm).toNat % 8 = 0 → (effectiveAddr base imm).toNat + 8 ≤ s.dmemBytes →
    ∃ t v, exec (.ldx d a imm) s = .next t ∧ readX t d = .ok (if d = 0 then 0 else v) ∧
      (∀ k, k < 8 → byteOf v.toNat k = (readByte s.dmem ((effectiveAddr base imm).toNat + k)).toNat) ∧
      Frame s t [] (xDest d) [] noByte) ∧
  (∀ (d a : RegNo) (imm : BitVec 18) (s : State) (base : Word64), readX s a = .ok base →
    (effectiveAddr base imm).toNat % 8 = 0 → (effectiveAddr base imm).toNat + 32 ≤ s.dmemBytes →
    ∃ t v, exec (.ldf d a imm) s = .next t ∧ readF t d = .ok v ∧
      (∀ k, k < 32 → byteOf v.toNat k = (readByte s.dmem ((effectiveAddr base imm).toNat + k)).toNat) ∧
      Frame s t [d] [] [] noByte) ∧
  (∀ (d a : RegNo) (imm : BitVec 18) (s : State) (base : Word64), d.toNat ≤ 7 → readX s a = .ok base →
    (effectiveAddr base imm).toNat % 8 = 0 → (effectiveAddr base imm).toNat + 80 ≤ s.dmemBytes →
    ∃ t v, exec (.ldv d a imm) s = .next t ∧ readV t d = .ok v ∧
      (∀ (l : Fin 2) (j : Fin 5) (k : Nat), k < 8 → byteOf v.lane[l][j].toNat k =
        (readByte s.dmem ((effectiveAddr base imm).toNat + 40 * l.val + 8 * j.val + k)).toNat) ∧
      Frame s t [] [] [vIndex d] noByte)

/-- STX, STF and STV to an aligned address in range: the byte at `ea + k` becomes byte `k` of the register, and no
other byte changes (40_data_movement.md R148, R150, R154). -/
def Obligations.StoreResults : Prop :=
  (∀ (d a : RegNo) (imm : BitVec 18) (s : State) (v base : Word64), readX s d = .ok v → readX s a = .ok base →
    (effectiveAddr base imm).toNat % 8 = 0 → (effectiveAddr base imm).toNat + 8 ≤ s.dmemBytes →
    ∃ t, exec (.stx d a imm) s = .next t ∧
      (∀ k, k < 8 → (readByte t.dmem ((effectiveAddr base imm).toNat + k)).toNat = byteOf v.toNat k) ∧
      Frame s t [] [] [] (bytesAt (effectiveAddr base imm).toNat 8)) ∧
  (∀ (d a : RegNo) (imm : BitVec 18) (s : State) (v : FieldWord) (base : Word64), readF s d = .ok v →
    readX s a = .ok base →
    (effectiveAddr base imm).toNat % 8 = 0 → (effectiveAddr base imm).toNat + 32 ≤ s.dmemBytes →
    ∃ t, exec (.stf d a imm) s = .next t ∧
      (∀ k, k < 32 → (readByte t.dmem ((effectiveAddr base imm).toNat + k)).toNat = byteOf v.toNat k) ∧
      Frame s t [] [] [] (bytesAt (effectiveAddr base imm).toNat 32)) ∧
  (∀ (d a : RegNo) (imm : BitVec 18) (s : State) (v : VReg) (base : Word64), d.toNat ≤ 7 → readV s d = .ok v →
    readX s a = .ok base →
    (effectiveAddr base imm).toNat % 8 = 0 → (effectiveAddr base imm).toNat + 80 ≤ s.dmemBytes →
    ∃ t, exec (.stv d a imm) s = .next t ∧
      (∀ (l : Fin 2) (j : Fin 5) (k : Nat), k < 8 →
        (readByte t.dmem ((effectiveAddr base imm).toNat + 40 * l.val + 8 * j.val + k)).toNat =
          byteOf v.lane[l][j].toNat k) ∧
      Frame s t [] [] [] (bytesAt (effectiveAddr base imm).toNat 80))

/-- A store to an aligned address in range followed by a load from it gives the value stored, for STF and LDF, STX
and LDX, STV and LDV, and the store changes exactly its bytes (40_data_movement.md R155). -/
def Obligations.StoreThenLoad : Prop :=
  (∀ (d d' a : RegNo) (imm : BitVec 18) (s : State) (v : FieldWord) (base : Word64), readF s d = .ok v →
    readX s a = .ok base →
    (effectiveAddr base imm).toNat % 8 = 0 → (effectiveAddr base imm).toNat + 32 ≤ s.dmemBytes →
    ∃ t u, exec (.stf d a imm) s = .next t ∧ exec (.ldf d' a imm) t = .next u ∧ readF u d' = .ok v ∧
      ∀ k, ¬bytesAt (effectiveAddr base imm).toNat 32 k → readByte t.dmem k = readByte s.dmem k) ∧
  (∀ (d d' a : RegNo) (imm : BitVec 18) (s : State) (v base : Word64), readX s d = .ok v →
    readX s a = .ok base →
    (effectiveAddr base imm).toNat % 8 = 0 → (effectiveAddr base imm).toNat + 8 ≤ s.dmemBytes →
    ∃ t u, exec (.stx d a imm) s = .next t ∧ exec (.ldx d' a imm) t = .next u ∧
      readX u d' = .ok (if d' = 0 then 0 else v) ∧
      ∀ k, ¬bytesAt (effectiveAddr base imm).toNat 8 k → readByte t.dmem k = readByte s.dmem k) ∧
  (∀ (d d' a : RegNo) (imm : BitVec 18) (s : State) (v : VReg) (base : Word64), d.toNat ≤ 7 → d'.toNat ≤ 7 →
    readV s d = .ok v → readX s a = .ok base →
    (effectiveAddr base imm).toNat % 8 = 0 → (effectiveAddr base imm).toNat + 80 ≤ s.dmemBytes →
    ∃ t u, exec (.stv d a imm) s = .next t ∧ exec (.ldv d' a imm) t = .next u ∧ readV u d' = .ok v ∧
      ∀ k, ¬bytesAt (effectiveAddr base imm).toNat 80 k → readByte t.dmem k = readByte s.dmem k)

/-- FMOV copies, and FADD adds modulo `2^256` with no reduction (40_data_movement.md R151, R152). -/
def Obligations.FieldMoveAndAdd : Prop :=
  (∀ (d a : RegNo) (s : State) (x : FieldWord), readF s a = .ok x →
    ∃ t, exec (.fmov d a) s = .next t ∧ readF t d = .ok x ∧ Frame s t [d] [] [] noByte) ∧
  (∀ (d a b : RegNo) (s : State) (x y : FieldWord), readF s a = .ok x → readF s b = .ok y →
    ∃ t z, exec (.fadd d a b) s = .next t ∧ readF t d = .ok z ∧ z.toNat = (x.toNat + y.toNat) % 2 ^ 256 ∧
      Frame s t [d] [] [] noByte)

/-! ### The scalar unit -/

/-- The closed form of CIOS, its bound, and that outside the bound it can exceed `2^256` (42_scalar_montgomery.md
R192, R193). -/
def Obligations.CiosClosedForm : Prop :=
  (∀ a b : Nat, a < 2 ^ 256 → b < 2 ^ 256 →
    (∃ m, m < 2 ^ 256 ∧ cios a b * 2 ^ 256 = a * b + m * p ∧
      ∀ m', m' < 2 ^ 256 → (a * b + m' * p) % 2 ^ 256 = 0 → m' = m) ∧
    cios a b = cios b a ∧ cios a b * 2 ^ 256 % p = a * b % p ∧
    (a * b < p * 2 ^ 256 → cios a b < 2 * p) ∧ (a < p → b < p → cios a b < 2 * p)) ∧
  2 ^ 256 < cios (2 ^ 256 - 1) (2 ^ 256 - 1)

/-- MUL and SQR of an accepted pair: the exact Montgomery product in `[0, 2p)`; any other pair raises OPERAND_BOUND
with FINFO 0 (42_scalar_montgomery.md R194 to R197). -/
def Obligations.ScalarProducts : Prop :=
  (∀ (d a b : RegNo) (s : State) (x y : FieldWord), readF s a = .ok x → readF s b = .ok y →
    (x.toNat * y.toNat < p * 2 ^ 256 →
      ∃ t z, exec (.mul d a b) s = .next t ∧ readF t d = .ok z ∧ Spec.isCios x.toNat y.toNat z.toNat ∧
        z.toNat = cios x.toNat y.toNat ∧ z.toNat < 2 * p ∧ z.toNat * 2 ^ 256 % p = x.toNat * y.toNat % p ∧
        Frame s t [d] [] [] noByte) ∧
    (p * 2 ^ 256 ≤ x.toNat * y.toNat → Faults (.mul d a b) s .operandBound 0)) ∧
  (∀ (d a : RegNo) (s : State) (x : FieldWord), readF s a = .ok x →
    (x.toNat * x.toNat < p * 2 ^ 256 →
      ∃ t z, exec (.sqr d a) s = .next t ∧ readF t d = .ok z ∧ Spec.isCios x.toNat x.toNat z.toNat ∧
        z.toNat = cios x.toNat x.toNat ∧ z.toNat < 2 * p ∧ z.toNat * 2 ^ 256 % p = x.toNat * x.toNat % p ∧
        Frame s t [d] [] [] noByte) ∧
    (p * 2 ^ 256 ≤ x.toNat * x.toNat → Faults (.sqr d a) s .operandBound 0))

/-! ### Reduction -/

/-- REDP, RED1 and RED on every 256-bit value: the multiple of `p` chosen by the top limb, one conditional
subtraction, and the canonical representative (45_reduction.md R261 to R267). -/
def Obligations.ReductionResults : Prop :=
  (∀ (d a : RegNo) (s : State) (x : FieldWord), readF s a = .ok x →
    ∃ t z, exec (.redp d a) s = .next t ∧ readF t d = .ok z ∧ z.toNat = Spec.reducePartial x.toNat ∧
      z.toNat % p = x.toNat % p ∧ z.toNat ≤ Spec.redpMax ∧ Frame s t [d] [] [] noByte) ∧
  (∀ (d a : RegNo) (s : State) (x : FieldWord), readF s a = .ok x →
    ∃ t z, exec (.red1 d a) s = .next t ∧ readF t d = .ok z ∧
      z.toNat = (if p ≤ x.toNat then x.toNat - p else x.toNat) ∧ Frame s t [d] [] [] noByte) ∧
  (∀ (d a : RegNo) (s : State) (x : FieldWord), readF s a = .ok x →
    ∃ t z, exec (.red d a) s = .next t ∧ readF t d = .ok z ∧ z.toNat = x.toNat % p ∧
      Frame s t [d] [] [] noByte)

/-- REDPRC adds the round constant to the partial reduction as integers; it raises ASSERTION exactly where the sum
reaches `2p`, which no constant below `SKY_RC_SAFE` allows, among them `RC[0]`, `RC[1]` and `RC[17]`
(45_reduction.md R268, R269; the table 47_skyscraper.md R300). -/
def Obligations.RedprcAddsConstant : Prop :=
  (∀ (d a : RegNo) (i : BitVec 10) (s : State) (x : FieldWord), i.toNat ≤ 17 → Spec.rcLegal s →
    readF s a = .ok x →
    (Spec.reducePartial x.toNat + s.rc i.toNat < 2 * p →
      ∃ t z, exec (.redprc d a i) s = .next t ∧ readF t d = .ok z ∧
        z.toNat = Spec.reducePartial x.toNat + s.rc i.toNat ∧ z.toNat % p = (x.toNat + s.rc i.toNat) % p ∧
        Frame s t [d] [] [] noByte) ∧
    (2 * p ≤ Spec.reducePartial x.toNat + s.rc i.toNat →
      Faults (.redprc d a i) s .assertion (BitVec.ofNat 64 i.toNat)) ∧
    (s.rc i.toNat < Spec.skyRcSafe → Spec.reducePartial x.toNat + s.rc i.toNat < 2 * p)) ∧
  ∀ s : State, s.rc 0 = 0 ∧ s.rc 1 = Spec.rcOne ∧ s.rc 1 < Spec.skyRcSafe ∧ s.rc 17 = 0 ∧
    ∀ i : Fin 15, s.rc (i.val + 2) = s.skyRc[i].toNat

/-! ### The fp-SIMD unit and the blocks -/

/-- VMUL and VSQR in round-toward-zero on limbs below `2^52`: each lane is the lane function's result, a product
modulo `p` within the slack (43_fp_simd.md R213, R214, R220, R221). -/
def Obligations.SimdResults : Prop :=
  (∀ (d a b : RegNo) (s : State) (x y : VReg), d.toNat ≤ 7 → a.toNat ≤ 7 → b.toNat ≤ 7 →
    readV s a = .ok x → readV s b = .ok y → s.rmode = 0b11 →
    (∀ (l : Fin 2) (j : Fin 5), x.lane[l][j].toNat < 2 ^ 52 ∧ y.lane[l][j].toNat < 2 ^ 52) →
    ∃ t z, exec (.vmul d a b) s = .next t ∧ readV t d = .ok z ∧
      (∀ l : Fin 2, z.lane[l] = simd52 x.lane[l] y.lane[l] ∧ Spec.simdResult x.lane[l] y.lane[l] z.lane[l]) ∧
      Frame s t [] [] [vIndex d] noByte) ∧
  (∀ (d a : RegNo) (s : State) (x : VReg), d.toNat ≤ 7 → a.toNat ≤ 7 → readV s a = .ok x → s.rmode = 0b11 →
    (∀ (l : Fin 2) (j : Fin 5), x.lane[l][j].toNat < 2 ^ 52) →
    ∃ t z, exec (.vsqr d a) s = .next t ∧ readV t d = .ok z ∧
      (∀ l : Fin 2, z.lane[l] = simd52Sqr x.lane[l] ∧ Spec.simdResult x.lane[l] x.lane[l] z.lane[l]) ∧
      Frame s t [] [] [vIndex d] noByte)

/-- The fp-SIMD and block instructions raise ROUNDING_MODE with FINFO the mode in any mode but round-toward-zero,
after their register reads and before their other checks (43_fp_simd.md R215, 44_block_multiplier.md R243). -/
def Obligations.RoundingModeRequired : Prop :=
  ∀ (i : Instr) (s : State), needsRtz i = true → i.wellFormed = true → sourcesWritten i s = true →
    s.rmode ≠ 0b11 → Faults i s .roundingMode (s.rmode.setWidth 64)

/-- The block instructions in round-toward-zero on accepted pairs: the first one or two results are exact scalar
products, the others lane products modulo `p` below SIMD_BLOCK_BOUND, every source read first
(44_block_multiplier.md R242 to R248). The premise on the parameters is part of the invariant. -/
def Obligations.BlockResults : Prop :=
  (∀ (d a b : RegNo) (s : State), d.toNat ≤ 13 → a.toNat ≤ 13 → b.toNat ≤ 13 →
    s.caps.legal → sourcesWritten (.bmul3 d a b) s = true → s.rmode = 0b11 →
    (∀ k, k < 3 → fValue s (a + BitVec.ofNat 4 k) * fValue s (b + BitVec.ofNat 4 k) < p * 2 ^ 256) →
    ∃ t, exec (.bmul3 d a b) s = .next t ∧ Spec.blockResults (simdLane s.caps.simdBlockBound) s t d a b 1 3 ∧
      Frame s t [d, d + 1, d + 2] [] [] noByte) ∧
  (∀ (d a b : RegNo) (s : State), d.toNat ≤ 12 → a.toNat ≤ 12 → b.toNat ≤ 12 →
    s.caps.legal → sourcesWritten (.bmul4 d a b) s = true → s.rmode = 0b11 →
    (∀ k, k < 4 → fValue s (a + BitVec.ofNat 4 k) * fValue s (b + BitVec.ofNat 4 k) < p * 2 ^ 256) →
    ∃ t, exec (.bmul4 d a b) s = .next t ∧ Spec.blockResults (simdLane s.caps.simdBlockBound) s t d a b 2 4 ∧
      Frame s t [d, d + 1, d + 2, d + 3] [] [] noByte) ∧
  (∀ (d a : RegNo) (s : State), d.toNat ≤ 13 → a.toNat ≤ 13 →
    s.caps.legal → sourcesWritten (.bsqr3 d a) s = true → s.rmode = 0b11 →
    (∀ k, k < 3 → fValue s (a + BitVec.ofNat 4 k) * fValue s (a + BitVec.ofNat 4 k) < p * 2 ^ 256) →
    ∃ t, exec (.bsqr3 d a) s = .next t ∧ Spec.blockResults (fun x _ => simdLaneSqr s.caps.simdBlockBound x) s t d a a 1 3 ∧
      Frame s t [d, d + 1, d + 2] [] [] noByte) ∧
  (∀ (d a : RegNo) (s : State), d.toNat ≤ 12 → a.toNat ≤ 12 →
    s.caps.legal → sourcesWritten (.bsqr4 d a) s = true → s.rmode = 0b11 →
    (∀ k, k < 4 → fValue s (a + BitVec.ofNat 4 k) * fValue s (a + BitVec.ofNat 4 k) < p * 2 ^ 256) →
    ∃ t, exec (.bsqr4 d a) s = .next t ∧ Spec.blockResults (fun x _ => simdLaneSqr s.caps.simdBlockBound x) s t d a a 2 4 ∧
      Frame s t [d, d + 1, d + 2, d + 3] [] [] noByte)

/-- What a block's registers hold after RED is the same for a scalar result, a lane result and the scalar product
of the pair, at every legal SIMD_BLOCK_BOUND: the canonical `x * y * 2^(-256)` (44_block_multiplier.md R250). -/
def Obligations.LanesAgreeAfterRed : Prop :=
  ∀ (bound : Nat) (x y : FieldWord), p ≤ bound → bound ≤ 2 * p → x.toNat * y.toNat < p * 2 ^ 256 →
    reduce (simdLane bound x y).toNat = reduce (cios x.toNat y.toNat) ∧
    (x = y → reduce (simdLaneSqr bound x).toNat = reduce (cios x.toNat x.toNat)) ∧
    reduce (cios x.toNat y.toNat) < p ∧
    reduce (cios x.toNat y.toNat) * 2 ^ 256 % p = x.toNat * y.toNat % p

/-! ### Bar and Skyscraper -/

/-- The S-box is the formula of 46_bar.md R280, with its check values and the byte permutation whose only fixed
points are 0x00 and 0xFF (R281), and the round-constant table is that of 47_skyscraper.md R300. -/
def Obligations.SboxAndRoundConstants : Prop :=
  (∀ v : Byte, (sbox v).toNat = Spec.sbox v.toNat) ∧ sbox 0xCD = 0xD3 ∧ sbox 0x17 = 0x0E ∧
  (∀ v w : Byte, sbox v = sbox w → v = w) ∧ (∀ w : Byte, ∃ v, sbox v = w) ∧
  (∀ v : Byte, sbox v = v ↔ v = 0x00 ∨ v = 0xFF) ∧
  ∀ s : State, s.rc 0 = 0 ∧ s.rc 1 = Spec.rcOne ∧ limb 0 (s.rc 1) = 0x903c4324270bd744 ∧
    limb 1 (s.rc 1) = 0x873125f708a7d269 ∧ limb 2 (s.rc 1) = 0x081dd27906c83855 ∧
    limb 3 (s.rc 1) = 0x276b1823ea6d7667 ∧ s.rc 17 = 0 ∧
    (∀ i : Fin 15, s.rc (i.val + 2) = s.skyRc[i].toNat) ∧ (Spec.rcLegal s → ∀ i, i ≤ 17 → s.rc i < p)

/-- BAR of a value below `2p`: the canonical value with its halves exchanged, each byte through the S-box, partially
reduced; any other value raises OPERAND_BOUND with FINFO 0 (46_bar.md R283 to R285). -/
def Obligations.BarResult : Prop :=
  ∀ (d a : RegNo) (s : State) (x : FieldWord), readF s a = .ok x →
    (x.toNat < 2 * p →
      ∃ t z, exec (.bar d a) s = .next t ∧ readF t d = .ok z ∧
        (∃ y, y < 2 ^ 256 ∧ z.toNat = Spec.reducePartial y ∧
          ∀ j, j < 32 → byteOf y j = Spec.sbox (byteOf (x.toNat % p) ((j + 16) % 32))) ∧
        Frame s t [d] [] [] noByte) ∧
    (2 * p ≤ x.toNat → Faults (.bar d a) s .operandBound 0)

/-- Bar depends only on its input modulo `p` (46_bar.md R286). -/
def Obligations.BarDependsOnResidue : Prop :=
  (∀ x, x < p → bar (x + p) = bar x) ∧ bar p = 0 ∧ bar 0 = 0 ∧ bar (2 * p - 1) = bar (p - 1)

/-- The bounds inside a compression of canonical inputs, round by round, and when a round raises ASSERTION
(47_skyscraper.md R306). -/
def Obligations.CompressionBounds : Prop :=
  ∀ (s : State) (l r : Nat), Spec.rcLegal s → l < p → r < p →
    ((Spec.skyRound s.rc l r 0).1 ≤ Spec.redpMax ∧ Spec.redpMax < 2 * p ∧ (Spec.skyRound s.rc l r 0).2 = l) ∧
    (∀ i, i < 16 → (Spec.skyRound s.rc l r (i + 1)).2 = (Spec.skyRound s.rc l r i).1) ∧
    (∀ i, i ≤ 16 → (∀ j, 1 ≤ j → j ≤ i → (Spec.skyRound s.rc l r j).1 < 2 * p) →
      (Spec.skyRound s.rc l r i).1 < 2 * p ∧ (Spec.skyRound s.rc l r i).2 < 2 * p ∧
      cios (Spec.skyRound s.rc l r i).1 (Spec.skyRound s.rc l r i).1 < 2 * p ∧
      (Spec.skyRound s.rc l r i).2 + cios (Spec.skyRound s.rc l r i).1 (Spec.skyRound s.rc l r i).1 < 4 * p ∧
      (Spec.skyRound s.rc l r i).2 + bar (Spec.skyRound s.rc l r i).1 < 4 * p ∧
      (i < 16 → s.rc (i + 1) < Spec.skyRcSafe → (Spec.skyRound s.rc l r (i + 1)).1 < 2 * p)) ∧
    5 * p < 2 ^ 256 ∧
    (Spec.noAssertion s.rc l r →
      (Spec.skyRound s.rc l r 16).2 + cios (Spec.skyRound s.rc l r 16).1 (Spec.skyRound s.rc l r 16).1 + l < 5 * p ∧
      compress s.rc l r = .ok (Spec.hash s.rc l r)) ∧
    (∀ i, Spec.firstAssertion s.rc l r i → compress s.rc l r = .error i) ∧
    (Spec.skyRound s.rc l r 1).1 < 2 * p ∧
    (Spec.rcSafe s → Spec.noAssertion s.rc l r)

/-- CMPR of canonical inputs: the hash, fully reduced, or ASSERTION with the first round that reaches `2p`; an input
that is not canonical raises OPERAND_BOUND with its position (47_skyscraper.md R310, R312). -/
def Obligations.CmprResults : Prop :=
  ∀ (d a b : RegNo) (s : State) (l r : FieldWord), Spec.rcLegal s → readF s a = .ok l → readF s b = .ok r →
    (l.toNat < p → r.toNat < p → Spec.noAssertion s.rc l.toNat r.toNat →
      ∃ t h, exec (.cmpr d a b) s = .next t ∧ readF t d = .ok h ∧ h.toNat = Spec.hash s.rc l.toNat r.toNat ∧
        h.toNat < p ∧ Frame s t [d] [] [] noByte) ∧
    (l.toNat < p → r.toNat < p → ∀ i, Spec.firstAssertion s.rc l.toNat r.toNat i →
      Faults (.cmpr d a b) s .assertion (BitVec.ofNat 64 i)) ∧
    (p ≤ l.toNat → Faults (.cmpr d a b) s .operandBound 0) ∧
    (l.toNat < p → p ≤ r.toNat → Faults (.cmpr d a b) s .operandBound 1)

/-- The hash of a compression that completes does not depend on which representative the squaring kernel returns
(47_skyscraper.md R320). -/
def Obligations.RepresentativeIndependence : Prop :=
  ∀ (sq' : Nat → Nat) (rc : Nat → Nat) (l r h h' : Nat),
    (∀ x, x < 2 * p → sq' x * 2 ^ 256 % p = x * x % p ∧ sq' x < 2 * p) → (∀ i, rc i < p) → l < p → r < p →
    compress rc l r = .ok h → compressWith sq' rc l r = .ok h' → h' = h

/-- CMPRM whose checks all pass writes the hash of every pair into the hash buffer and changes nothing else; with
empty buffers it writes nothing (47_skyscraper.md R311). -/
def Obligations.CmprmResults : Prop :=
  ∀ (d a b c : RegNo) (s : State), Spec.rcLegal s → sourcesWritten (.cmprm d a b c) s = true →
    checksHold (Spec.checks (.cmprm d a b c) s) →
    ∃ t, exec (.cmprm d a b c) s = .next t ∧
      (∀ j, j < (xValue s b).toNat / 64 → memRead t.dmem ((xValue s d).toNat + 32 * j) 32 =
        Spec.hash s.rc (message s (xValue s a).toNat (2 * j)) (message s (xValue s a).toNat (2 * j + 1))) ∧
      Frame s t [] [] [] (bytesAt (xValue s d).toNat (xValue s c).toNat)

/-- The hash CMPRM writes for pair `j` is what CMPR returns for that pair, in any state with the same round
constants, whatever the number of pairs and the place of the pair (47_skyscraper.md R321). -/
def Obligations.BatchEqualsSingle : Prop :=
  ∀ (d a b c d' a' b' : RegNo) (s t u : State) (j : Nat) (l r : FieldWord), u.skyRc = s.skyRc →
    exec (.cmprm d a b c) s = .next t → s.busy = true → t.busy = true → j < (xValue s b).toNat / 64 →
    readF u a' = .ok l → readF u b' = .ok r →
    l.toNat = message s (xValue s a).toNat (2 * j) → r.toNat = message s (xValue s a).toNat (2 * j + 1) →
    ∃ v h, exec (.cmpr d' a' b') u = .next v ∧ readF v d' = .ok h ∧
      memRead t.dmem ((xValue s d).toNat + 32 * j) 32 = h.toNat

/-! ### The NTT unit -/

/-- NTTB8 whose checks all pass transforms its eight elements with any canonical root, in place
(48_cm31_ntt.md R333, R340). -/
def Obligations.Nttb8Results : Prop :=
  ∀ (a b : RegNo) (s : State), sourcesWritten (.nttb8 a b) s = true → checksHold (Spec.checks (.nttb8 a b) s) →
    ∃ t, exec (.nttb8 a b) s = .next t ∧
      Spec.isDft s t (xValue s a).toNat 8 (cmUnpack (xValue s b)) ∧ Spec.canonicalVec t (xValue s a).toNat 8 ∧
      Frame s t [] [] [] (bytesAt (xValue s a).toNat 64)

/-- NTT8 whose checks all pass transforms its `n` elements with its root, in place (48_cm31_ntt.md R333, R341). -/
def Obligations.Ntt8Results : Prop :=
  ∀ (a b c : RegNo) (s : State), sourcesWritten (.ntt8 a b c) s = true →
    checksHold (Spec.checks (.ntt8 a b c) s) →
    ∃ t, exec (.ntt8 a b c) s = .next t ∧
      Spec.isDft s t (xValue s a).toNat (xValue s b).toNat (cmUnpack (xValue s c)) ∧
      Spec.canonicalVec t (xValue s a).toNat (xValue s b).toNat ∧
      Frame s t [] [] [] (bytesAt (xValue s a).toNat (8 * (xValue s b).toNat))

/-- `ROOT(n)` is canonical and has order exactly `n`, for every `n` dividing `q^2 - 1` (48_cm31_ntt.md R336). -/
def Obligations.RootsHaveExactOrder : Prop :=
  ∀ n : Nat, 1 ≤ n → (q ^ 2 - 1) % n = 0 → (root n).canonical ∧ Spec.orderIs (root n) n

/-- NTTROOT of a divisor of `q^2 - 1` gives the packed `ROOT(n)`; any other `n` raises NO_SUCH_ROOT, whatever the
destination (48_cm31_ntt.md R342). -/
def Obligations.NttrootResults : Prop :=
  ∀ (d a : RegNo) (s : State) (n : Word64), readX s a = .ok n →
    (n ≠ 0 → (q ^ 2 - 1) % n.toNat = 0 →
      ∃ t, exec (.nttroot d a) s = .next t ∧ readX t d = .ok (if d = 0 then 0 else cmPack (root n.toNat)) ∧
        cmUnpack (cmPack (root n.toNat)) = root n.toNat ∧ Frame s t [] (xDest d) [] noByte) ∧
    (¬(n ≠ 0 ∧ (q ^ 2 - 1) % n.toNat = 0) → Faults (.nttroot d a) s .noSuchRoot n)

/-- NTTPRE of a size of one of the three forms, at most `2^32` and within the store, sets TWB and nothing else; its
faults come in the order of 60_exceptions.md R421 (48_cm31_ntt.md R343). -/
def Obligations.NttpreResults : Prop :=
  ∀ (a : RegNo) (s : State) (n : Word64), readX s a = .ok n → s.caps.twMaxLog2N ≤ 32 →
    (Spec.pureSize n.toNat ∨ Spec.stride2Size n.toNat ∨ Spec.stride4Size n.toNat →
      (n.toNat ≤ 2 ^ s.caps.twMaxLog2N →
        ∃ t, exec (.nttpre a) s = .next t ∧ t.twb = some n ∧ HostSideSame s t ∧
          DataSame s t [] [] [] noByte ∧ Advanced s t ∧ t.rmode = s.rmode ∧ t.gs = s.gs ∧ t.freeIx = s.freeIx) ∧
      (2 ^ s.caps.twMaxLog2N < n.toNat → n.toNat ≤ 2 ^ 32 → Faults (.nttpre a) s .invalidLength n) ∧
      (2 ^ 32 < n.toNat → Faults (.nttpre a) s .noSuchRoot n)) ∧
    (¬(Spec.pureSize n.toNat ∨ Spec.stride2Size n.toNat ∨ Spec.stride4Size n.toNat) →
      Faults (.nttpre a) s .invalidLength n)

/-- The hybrid transforms whose checks all pass transform their `n` elements with `ROOT(n)`, in place, and change
no other byte but the scratch, whose bytes are unspecified (48_cm31_ntt.md R344, R345, R346). -/
def Obligations.HybridResults : Prop :=
  ∀ (i : Instr) (a b c : RegNo) (s : State), i ∈ [.ntth a b c, .ntts2 a b c, .ntts4 a b c] →
    sourcesWritten i s = true → checksHold (Spec.checks i s) →
    ∃ t, exec i s = .next t ∧
      Spec.isDft s t (xValue s a).toNat (xValue s b).toNat (root (xValue s b).toNat) ∧
      Spec.canonicalVec t (xValue s a).toNat (xValue s b).toNat ∧
      HostSideSame s t ∧ Advanced s t ∧ t.rmode = s.rmode ∧ t.gs = s.gs ∧ t.twb = s.twb ∧
      DataSame s t [] [] [] (fun k =>
        bytesAt (xValue s a).toNat (8 * (xValue s b).toNat) k ∨ bytesAt (xValue s c).toNat 262144 k)

/-- NTTH writes the vector that NTT8 writes with the root `ROOT(n)`, and NTTS2 and NTTS4 write the naive transform
with `ROOT(n)` (48_cm31_ntt.md R350). The invariant rules out a TWB that no NTTPRE sets. -/
def Obligations.NttAgreement : Prop :=
  (∀ (a b c c' : RegNo) (s : State), s.Inv → sourcesWritten (.ntth a b c) s = true →
    checksHold (Spec.checks (.ntth a b c) s) → readX s c' = .ok (cmPack (root (xValue s b).toNat)) →
    ∃ t u, exec (.ntth a b c) s = .next t ∧ exec (.ntt8 a b c') s = .next u ∧ u.busy = s.busy ∧
      ∀ j, j < (xValue s b).toNat →
        Spec.elem t.dmem (xValue s a).toNat j = Spec.elem u.dmem (xValue s a).toNat j) ∧
  (∀ (i : Instr) (a b c : RegNo) (s t : State), i ∈ [.ntts2 a b c, .ntts4 a b c] →
    sourcesWritten i s = true → checksHold (Spec.checks i s) → exec i s = .next t →
    ∀ k, k < (xValue s b).toNat → Spec.elem t.dmem (xValue s a).toNat k =
      Spec.dftSum (Spec.elem s.dmem (xValue s a).toNat) (root (xValue s b).toNat) k (xValue s b).toNat)

/-- Where `w` has order exactly `n`, a transform with `w` followed by one with `w^(n-1)` multiplies every element by
`n` (48_cm31_ntt.md R335). -/
def Obligations.InverseTransform : Prop :=
  ∀ (f : List Cm31) (w : Cm31), w.canonical → Spec.orderIs w f.length → (∀ z ∈ f, z.canonical) → f ≠ [] →
    dft (dft f w) (Spec.pow w (f.length - 1)) = f.map (cmMul ⟨f.length % q, 0⟩)

/-! ### The host -/

/-- A write of CTRL with bit 0 set starts an idle engine at ENTRY and changes nothing else but IRQ_EN; a busy
engine ignores it; with SOFT_RESET in the same write the reset comes first (60_exceptions.md R432). That IRQ_EN of a
write with SOFT_RESET keeps the bit written is the model's reading (log 14). -/
def Obligations.StartBeginsRun : Prop :=
  ∀ (s : State) (v : Word64) (acts : List HostAction), s.host = .regWrite 0x08 8 v :: acts →
    v.getLsbD 0 = true →
    ∃ t, step s = .next t ∧ t.host = acts ∧ t.hostData = s.hostData ∧
      (v.getLsbD 2 = false → s.busy = false → Started { s with irqEn := v.getLsbD 1 } t ∧ t.freeIx = s.freeIx) ∧
      (v.getLsbD 2 = false → s.busy = true → t = { s with host := acts, irqEn := v.getLsbD 1 }) ∧
      (v.getLsbD 2 = true → Started { (s.withHost acts).softReset with irqEn := v.getLsbD 1 } t)

/-- SOFT_RESET, busy or not, leaves the reset state and IMEM; data memory keeps every byte but those of the output
ranges of an instruction it abandons, and of a single-access store each byte is the old or the new
(60_exceptions.md R434, 10_state.md R55). That the abandoned instruction is the one at pc is the model's reading
(log 17), and so is that IRQ_EN of a write with SOFT_RESET keeps the bit written (log 14). -/
def Obligations.SoftResetResets : Prop :=
  (∀ (s : State) (v : Word64) (acts : List HostAction), s.host = .regWrite 0x08 8 v :: acts →
    v.getLsbD 0 = false → v.getLsbD 2 = true →
    step s = .next { (s.withHost acts).softReset with irqEn := v.getLsbD 1 }) ∧
  ∀ s : State, ResetValues s.softReset ∧ s.softReset.imem = s.imem ∧ s.softReset.caps = s.caps ∧
    s.softReset.skyRc = s.skyRc ∧ s.softReset.host = s.host ∧
    (s.busy = false → s.softReset.dmem = s.dmem) ∧
    (∀ k, (∀ i, ¬s.fetchPastEnd → decodeWord s.fetchWord = .ok i → ∀ rg ∈ outputRanges i s, ¬bytesAt rg.1 rg.2 k) →
      readByte s.softReset.dmem k = readByte s.dmem k) ∧
    (∀ (i : Instr) (rg : Nat × Nat) (u : State), ¬s.fetchPastEnd → decodeWord s.fetchWord = .ok i →
      storeRange i s = some rg → exec i s = .next u → ∀ k,
        readByte s.softReset.dmem k = readByte s.dmem k ∨ readByte s.softReset.dmem k = readByte u.dmem k)

/-- The host's accesses to the memories: while idle, byte arrays at any address and width, with bytes outside the
memory ignored and read as 0; while busy, writes dropped and reads unspecified (20_memory.md R81). That an access
partly outside the memory is taken byte by byte, also while busy, is the model's reading (log 15). Nothing else of
the state changes but the host's side and the count of free bytes drawn (logs 8 to 10). -/
def Obligations.HostMemoryAccess : Prop :=
  (∀ (s : State) (sp : Space) (a : Nat) (bytes : List Byte) (acts : List HostAction),
    s.host = .memWrite sp a bytes :: acts →
    ∃ t, step s = .next t ∧ t = { s with host := acts, imem := t.imem, dmem := t.dmem } ∧
      (s.busy = true → t = s.withHost acts) ∧
      (s.busy = false → ∀ (sp' : Space) (k : Nat), readByte (t.space sp') k =
        (if sp' = sp ∧ a ≤ k ∧ k < a + bytes.length ∧ k < s.spaceBytes sp then bytes.getD (k - a) 0
          else readByte (s.space sp') k))) ∧
  (∀ (s : State) (sp : Space) (a n : Nat) (acts : List HostAction), s.host = .memRead sp a n :: acts →
    ∃ t, step s = .next t ∧ t = { s with host := acts, hostData := t.hostData, freeIx := t.freeIx } ∧
      (s.busy = false → t.freeIx = s.freeIx) ∧ t.hostData.length = n ∧
      ∀ k, k < n → (s.spaceBytes sp ≤ a + k → t.hostData.getD k 0 = 0) ∧
        (s.busy = false → a + k < s.spaceBytes sp → t.hostData.getD k 0 = readByte (s.space sp) (a + k)))

/-- What the host reads from each register of the block, from a reserved offset, and by an access that is not one
whole aligned register (10_state.md R40 to R50); the read changes nothing but the host's side and the count of free
bytes drawn (logs 8 to 10). The width of such an answer and offsets from 256 on are the model's
reading (log 24). -/
def Obligations.RegisterBlockReads : Prop :=
  ∀ (s : State) (off width : Nat) (acts : List HostAction), s.host = .regRead off width :: acts →
    ∃ t, step s = .next t ∧ t = { s with host := acts, hostData := t.hostData, freeIx := t.freeIx } ∧
      (¬(off = 0x20 ∧ s.busy = true) → t.freeIx = s.freeIx) ∧ t.hostData.length = width ∧
      (¬(width = 8 ∧ off % 8 = 0 ∧ off < 256) → leNat t.hostData = 0) ∧
      (width = 8 → off % 8 = 0 → 0x58 ≤ off → off < 256 → leNat t.hostData = 0) ∧
      (width = 8 →
        (off = 0x00 → leNat t.hostData = 0x504B434F52450001) ∧
        (off = 0x08 → leNat t.hostData = 2 * s.irqEn.toNat) ∧
        (off = 0x10 → leNat t.hostData = s.busy.toNat + 2 * s.doneBit.toNat + 4 * s.faultBit.toNat) ∧
        (off = 0x18 → leNat t.hostData = s.entry.toNat) ∧
        (off = 0x20 → s.busy = false → leNat t.hostData = s.pcReg.toNat) ∧
        (off = 0x28 → leNat t.hostData = s.cause.toNat) ∧
        (off = 0x30 → leNat t.hostData = s.finsn.toNat) ∧
        (off = 0x38 → leNat t.hostData = s.finfo.toNat) ∧
        (off = 0x40 → s.gs.length < 256 → leNat t.hostData = s.rmode.toNat + 2 ^ 8 * s.gs.length) ∧
        (off = 0x48 → s.caps.legal → leNat t.hostData = s.caps.imemLog2 + 2 ^ 8 * s.caps.dmemLog2 +
          2 ^ 16 * s.caps.guardDepth + 2 ^ 24 * s.caps.twMaxLog2N) ∧
        (off = 0x50 → ∀ n, s.twb = some n → leNat t.hostData = n.toNat) ∧
        (off = 0x50 → s.twb = none → leNat t.hostData = 0))

/-- The host's writes to the block: STATUS bits cleared by 1, ENTRY and RMODE while idle, IRQ_EN, and every other
write without effect (10_state.md R40 to R48). Writes while busy that no rule restricts, and offsets from 256 on, are
the model's reading (log 24, 26). -/
def Obligations.RegisterBlockWrites : Prop :=
  ∀ (s : State) (off width : Nat) (v : Word64) (acts : List HostAction), s.host = .regWrite off width v :: acts →
    ∃ t, step s = .next t ∧
      (¬(width = 8 ∧ off ∈ [0x08, 0x10, 0x18, 0x40]) → t = s.withHost acts) ∧
      (width = 8 → off = 0x08 → v.getLsbD 0 = false → v.getLsbD 2 = false →
        t = { s with host := acts, irqEn := v.getLsbD 1 }) ∧
      (width = 8 → off = 0x10 → t = { s with
        host := acts, doneBit := s.doneBit && !v.getLsbD 1, faultBit := s.faultBit && !v.getLsbD 2 }) ∧
      (width = 8 → off = 0x18 → s.busy = true → t = s.withHost acts) ∧
      (width = 8 → off = 0x18 → s.busy = false → t = { s with
        host := acts, entry := v.setWidth 32 &&& 0xfffffffc }) ∧
      (width = 8 → off = 0x40 → s.busy = true → t = s.withHost acts) ∧
      (width = 8 → off = 0x40 → s.busy = false → t = { s with host := acts, rmode := v.setWidth 2 })

/-- The line IRQ, when it rises (at every stop of a run, by HALT or by a fault, those of a fetch and of an illegal
word among them), and what lowers it (60_exceptions.md R430). The engine's turn is where the list `host` is empty
or its head lets the engine run (log 9). -/
def Obligations.InterruptLine : Prop :=
  (∀ s : State, s.irq = true ↔ s.irqEn = true ∧ (s.doneBit = true ∨ s.faultBit = true)) ∧
  (∀ (i : Instr) (s t : State), s.busy = true → exec i s = .next t → t.busy = false → s.irqEn = true → t.irq = true) ∧
  (∀ s t : State, engineTurn s → s.busy = true → step s = .next t → t.busy = false →
    (t.doneBit = true ∨ t.faultBit = true) ∧ (s.irqEn = true → t.irq = true)) ∧
  (∀ (s t : State) (v : Word64) (acts : List HostAction), s.host = .regWrite 0x08 8 v :: acts → step s = .next t →
    (v.getLsbD 0 = false → v.getLsbD 2 = false → v.getLsbD 1 = true → s.doneBit = true ∨ s.faultBit = true →
      t.irq = true) ∧
    (v.getLsbD 1 = false → t.irq = false) ∧
    (v.getLsbD 0 = true → s.busy = false → t.irq = false) ∧
    (v.getLsbD 2 = true → t.irq = false)) ∧
  (∀ (s t : State) (v : Word64) (acts : List HostAction), s.host = .regWrite 0x10 8 v :: acts → step s = .next t →
    v.getLsbD 1 = true → v.getLsbD 2 = true → t.irq = false)
end

