-- ==== Sys2Proof/Laws/Memory.lean ====
section
/-! SUPPORT. Laws of byte strings and of the memory operations: a byte read after a write, and that every
operation keeps the canonical form. -/

namespace Sys2Proof.Machine

/-! ### Byte strings -/

@[simp] theorem length_leBytes (n v : Nat) : (leBytes n v).length = n := by
  induction n generalizing v with
  | zero => rfl
  | succ n ih => simp [leBytes, ih]

theorem leNat_lt (bs : List Byte) : leNat bs < 256 ^ bs.length := by
  induction bs with
  | nil => simp [leNat]
  | cons b bs ih =>
    have hb := b.isLt
    simp only [leNat, List.length_cons, Nat.pow_succ]
    omega

theorem leNat_append (as bs : List Byte) : leNat (as ++ bs) = leNat as + 256 ^ as.length * leNat bs := by
  induction as with
  | nil => simp [leNat]
  | cons a as ih => simp only [List.cons_append, leNat, ih, List.length_cons, Nat.pow_succ]; ring

theorem leNat_leBytes (n v : Nat) : leNat (leBytes n v) = v % 256 ^ n := by
  induction n generalizing v with
  | zero => simp [leBytes, leNat, Nat.mod_one]
  | succ n ih =>
    have h : v % 256 ^ (n + 1) = v % 256 + 256 * (v / 256 % 256 ^ n) := by
      rw [Nat.pow_succ, Nat.mul_comm, Nat.mod_mul]
    rw [leBytes, leNat, ih, h, BitVec.toNat_ofNat]

theorem leBytes_leNat (bs : List Byte) : leBytes bs.length (leNat bs) = bs := by
  induction bs with
  | nil => rfl
  | cons b bs ih =>
    have hb := b.isLt
    have h1 : (b.toNat + 256 * leNat bs) / 256 = leNat bs := by omega
    simp only [List.length_cons, leBytes, leNat, h1, ih, List.cons.injEq, and_true]
    apply BitVec.eq_of_toNat_eq
    simp only [BitVec.toNat_ofNat]
    omega

theorem byteOf_leNat (bs : List Byte) (j : Nat) : byteOf (leNat bs) j = (bs.getD j 0).toNat := by
  induction bs generalizing j with
  | nil => simp [byteOf, leNat]
  | cons b bs ih =>
    have hb := b.isLt
    cases j with
    | zero => simp only [byteOf, leNat, pow_zero, Nat.div_one, List.getD_cons_zero]; omega
    | succ j =>
      rw [List.getD_cons_succ, ← ih]
      simp only [byteOf, leNat, Nat.pow_succ]
      rw [Nat.mul_comm (256 ^ j) 256, ← Nat.div_div_eq_div_mul]
      congr 3
      omega

theorem getD_leBytes (n v j : Nat) (h : j < n) : ((leBytes n v).getD j 0).toNat = byteOf v j := by
  induction n generalizing v j with
  | zero => omega
  | succ n ih =>
    cases j with
    | zero => simp [leBytes, byteOf]
    | succ j =>
      simp only [leBytes, List.getD_cons_succ]
      rw [ih _ _ (by omega)]
      simp only [byteOf, Nat.pow_succ]
      rw [Nat.mul_comm (256 ^ j) 256, ← Nat.div_div_eq_div_mul]

/-! ### Reading -/

@[simp] theorem length_readBytes (m : Memory) (a n : Nat) : (readBytes m a n).length = n := by
  simp [readBytes]

theorem getD_readBytes (m : Memory) (a n j : Nat) (h : j < n) : (readBytes m a n).getD j 0 = readByte m (a + j) := by
  simp [readBytes, List.getD, h]

theorem byteOf_memRead (m : Memory) (a n j : Nat) (h : j < n) :
    byteOf (memRead m a n) j = (readByte m (a + j)).toNat := by
  rw [memRead, byteOf_leNat, getD_readBytes m a n j h]

theorem memRead_lt (m : Memory) (a n : Nat) : memRead m a n < 256 ^ n := by
  simpa [memRead] using leNat_lt (readBytes m a n)

theorem readBytes_congr (m m' : Memory) (a n : Nat) (h : ∀ k, k < n → readByte m (a + k) = readByte m' (a + k)) :
    readBytes m a n = readBytes m' a n := by
  simp only [readBytes]
  apply List.map_congr_left
  intro k hk
  exact h k (List.mem_range.mp hk)

theorem memRead_congr (m m' : Memory) (a n : Nat) (h : ∀ k, k < n → readByte m (a + k) = readByte m' (a + k)) :
    memRead m a n = memRead m' a n := by
  rw [memRead, memRead, readBytes_congr m m' a n h]

/-! ### Writing -/

theorem readByte_append (l r : Memory) (k : Nat) :
    readByte (l ++ r) k = if ∃ c ∈ l, c.1 = k then readByte l k else readByte r k := by
  induction l with
  | nil => simp
  | cons c l ih =>
    simp only [List.cons_append, readByte, List.mem_cons, exists_eq_or_imp]
    by_cases h : c.1 = k
    · simp [h]
    · simp [h, ih]

theorem readByte_of_not_mem (m : Memory) (k : Nat) (h : ∀ c ∈ m, c.1 ≠ k) : readByte m k = unlistedByte := by
  induction m with
  | nil => rfl
  | cons c m ih =>
    simp only [List.mem_cons, forall_eq_or_imp] at h
    simp [readByte, h.1, ih h.2]

theorem readByte_filter (m : Memory) (f : Nat → Bool) (k : Nat) (h : f k = true) :
    readByte (m.filter fun c => f c.1) k = readByte m k := by
  induction m with
  | nil => rfl
  | cons c m ih =>
    by_cases hk : c.1 = k
    · simp [hk, h, readByte]
    · by_cases hc : f c.1 = true <;> simp [hc, readByte, hk, ih]

theorem mem_cellsOf (a : Nat) (bs : List Byte) (c : Host.Cell) (h : c ∈ cellsOf a bs) :
    a ≤ c.1 ∧ c.1 < a + bs.length ∧ c.2 ≠ unlistedByte := by
  induction bs generalizing a with
  | nil => simp [cellsOf] at h
  | cons b bs ih =>
    simp only [cellsOf] at h
    simp only [List.length_cons]
    split at h
    · obtain ⟨h1, h2, h3⟩ := ih (a + 1) h
      exact ⟨by omega, by omega, h3⟩
    · rename_i hb
      rcases List.mem_cons.mp h with rfl | h
      · exact ⟨Nat.le_refl _, by omega, hb⟩
      · obtain ⟨h1, h2, h3⟩ := ih (a + 1) h
        exact ⟨by omega, by omega, h3⟩

theorem readByte_cellsOf (a : Nat) (bs : List Byte) (k : Nat) (h : k < bs.length) :
    readByte (cellsOf a bs) (a + k) = bs.getD k 0 := by
  induction bs generalizing a k with
  | nil => simp at h
  | cons b bs ih =>
    simp only [List.length_cons] at h
    cases k with
    | zero =>
      simp only [cellsOf, List.getD_cons_zero, Nat.add_zero]
      split
      · rename_i hb
        rw [readByte_of_not_mem, hb]
        intro c hc
        have := mem_cellsOf _ _ _ hc
        omega
      · simp [readByte]
    | succ k =>
      have e : a + (k + 1) = a + 1 + k := by omega
      simp only [cellsOf, List.getD_cons_succ]
      split
      · rw [e, ih _ _ (by omega)]
      · rw [readByte, if_neg (by simp only; omega), e, ih _ _ (by omega)]

/-- A byte read after a byte string is written: the string's byte inside it, the old byte outside. -/
theorem readByte_writeBytes (m : Memory) (a : Nat) (bs : List Byte) (k : Nat) :
    readByte (writeBytes m a bs) k = if a ≤ k ∧ k < a + bs.length then bs.getD (k - a) 0 else readByte m k := by
  have hlow : ∀ c ∈ m.filter (fun c => decide (c.1 < a)), c.1 < a := by
    intro c hc; simpa using (List.mem_filter.mp hc).2
  have hhigh : ∀ c ∈ m.filter (fun c => decide (a + bs.length ≤ c.1)), a + bs.length ≤ c.1 := by
    intro c hc; simpa using (List.mem_filter.mp hc).2
  have e : writeBytes m a bs = m.filter (fun c => decide (c.1 < a)) ++
      (cellsOf a bs ++ m.filter (fun c => decide (a + bs.length ≤ c.1))) := by
    simp [writeBytes]
  rw [e]
  by_cases h1 : k < a
  · rw [show (if a ≤ k ∧ k < a + bs.length then bs.getD (k - a) 0 else readByte m k) = readByte m k from
      if_neg (by omega), readByte_append]
    have hf := readByte_filter m (fun x => decide (x < a)) k (by simpa using h1)
    split
    · exact hf
    · rename_i hn
      rw [← hf, readByte_of_not_mem (m.filter _) k (fun c hc he => hn ⟨c, hc, he⟩)]
      apply readByte_of_not_mem
      intro c hc
      rcases List.mem_append.mp hc with hc | hc
      · have := mem_cellsOf _ _ _ hc; omega
      · have := hhigh c hc; omega
  · rw [readByte_append, if_neg (show ¬∃ c ∈ m.filter (fun c => decide (c.1 < a)), c.1 = k from by
      rintro ⟨c, hc, he⟩; have := hlow c hc; omega), readByte_append]
    by_cases h2 : k < a + bs.length
    · rw [show (if a ≤ k ∧ k < a + bs.length then bs.getD (k - a) 0 else readByte m k) = bs.getD (k - a) 0 from
        if_pos (by omega)]
      obtain ⟨j, rfl⟩ : ∃ j, k = a + j := ⟨k - a, by omega⟩
      have hc := readByte_cellsOf a bs j (by omega)
      rw [Nat.add_sub_cancel_left]
      split
      · exact hc
      · rename_i hn
        rw [← hc, readByte_of_not_mem (cellsOf a bs) (a + j) (fun c hc he => hn ⟨c, hc, he⟩)]
        apply readByte_of_not_mem
        intro c hc; have := hhigh c hc; omega
    · rw [show (if a ≤ k ∧ k < a + bs.length then bs.getD (k - a) 0 else readByte m k) = readByte m k from
        if_neg (by omega), if_neg (show ¬∃ c ∈ cellsOf a bs, c.1 = k from by
          rintro ⟨c, hc, he⟩; have := mem_cellsOf _ _ _ hc; omega)]
      exact readByte_filter m (fun x => decide (a + bs.length ≤ x)) k (by simp; omega)

theorem readByte_writeBytes_outside (m : Memory) (a : Nat) (bs : List Byte) (k : Nat)
    (h : ¬bytesAt a bs.length k) : readByte (writeBytes m a bs) k = readByte m k := by
  rw [readByte_writeBytes]
  exact if_neg h

theorem readByte_writeBytes_inside (m : Memory) (a : Nat) (bs : List Byte) (k : Nat) (h : k < bs.length) :
    readByte (writeBytes m a bs) (a + k) = bs.getD k 0 := by
  rw [readByte_writeBytes, if_pos (by omega), Nat.add_sub_cancel_left]

theorem readBytes_writeBytes (m : Memory) (a : Nat) (bs : List Byte) :
    readBytes (writeBytes m a bs) a bs.length = bs := by
  apply List.ext_getElem (by simp)
  intro k h1 h2
  have := getD_readBytes (writeBytes m a bs) a bs.length k h2
  rw [readByte_writeBytes_inside m a bs k h2] at this
  simpa [List.getD, h2] using this

theorem memRead_writeBytes (m : Memory) (a : Nat) (bs : List Byte) :
    memRead (writeBytes m a bs) a bs.length = leNat bs := by
  rw [memRead, readBytes_writeBytes]

theorem memRead_memWrite (m : Memory) (a n v : Nat) : memRead (memWrite m a n v) a n = v % 256 ^ n := by
  have := memRead_writeBytes m a (leBytes n v)
  rwa [length_leBytes, leNat_leBytes] at this

/-- The bytes of a part of a byte string that was written. -/
theorem memRead_writeBytes_part (m : Memory) (a j n : Nat) (bs : List Byte) (h : j + n ≤ bs.length) :
    memRead (writeBytes m a bs) (a + j) n = leNat ((bs.drop j).take n) := by
  rw [memRead]
  congr 1
  apply List.ext_getElem
  · simp; omega
  · intro k h1 h2
    simp only [length_readBytes] at h1
    have h3 := getD_readBytes (writeBytes m a bs) (a + j) n k h1
    rw [Nat.add_assoc, readByte_writeBytes_inside m a bs (j + k) (by omega)] at h3
    have h4 : j + k < bs.length := by omega
    simpa [List.getD, h1, h4] using h3

/-! ### The canonical form -/

theorem cellsOf_pairwise (a : Nat) (bs : List Byte) : (cellsOf a bs).Pairwise fun c d => c.1 < d.1 := by
  induction bs generalizing a with
  | nil => simp [cellsOf]
  | cons b bs ih =>
    simp only [cellsOf]
    split
    · exact ih _
    · refine List.Pairwise.cons ?_ (ih _)
      intro c hc
      have := mem_cellsOf _ _ _ hc
      simp only
      omega

/-- Writing a byte string keeps the canonical form. -/
theorem Memory.wf_writeBytes (m : Memory) (a : Nat) (bs : List Byte) (h : Memory.wf m) :
    Memory.wf (writeBytes m a bs) := by
  obtain ⟨h1, h2⟩ := h
  refine ⟨?_, ?_⟩
  · rw [writeBytes, List.append_assoc, List.pairwise_append, List.pairwise_append]
    refine ⟨h1.filter _, ⟨cellsOf_pairwise a bs, h1.filter _, ?_⟩, ?_⟩
    · intro c hc d hd
      have h3 := mem_cellsOf _ _ _ hc
      have h4 : a + bs.length ≤ d.1 := by simpa using (List.mem_filter.mp hd).2
      omega
    · intro c hc d hd
      have h3 : c.1 < a := by simpa using (List.mem_filter.mp hc).2
      rcases List.mem_append.mp hd with hd | hd
      · have h4 := mem_cellsOf _ _ _ hd; omega
      · have h4 : a + bs.length ≤ d.1 := by simpa using (List.mem_filter.mp hd).2
        omega
  · intro c hc
    rw [writeBytes, List.append_assoc] at hc
    rcases List.mem_append.mp hc with hc | hc
    · exact h2 c (List.mem_filter.mp hc).1
    · rcases List.mem_append.mp hc with hc | hc
      · exact (mem_cellsOf _ _ _ hc).2.2
      · exact h2 c (List.mem_filter.mp hc).1

theorem Memory.wf_memWrite (m : Memory) (a n v : Nat) (h : Memory.wf m) : Memory.wf (memWrite m a n v) :=
  Memory.wf_writeBytes m a _ h

/-- No cell appears outside the bytes written. -/
theorem mem_writeBytes (m : Memory) (a : Nat) (bs : List Byte) (c : Host.Cell) (h : c ∈ writeBytes m a bs) :
    c ∈ m ∨ c.1 < a + bs.length := by
  rw [writeBytes, List.append_assoc] at h
  rcases List.mem_append.mp h with h | h
  · exact .inl (List.mem_filter.mp h).1
  · rcases List.mem_append.mp h with h | h
    · exact .inr (mem_cellsOf _ _ _ h).2.1
    · exact .inl (List.mem_filter.mp h).1

/-- The state after reset has its memories in canonical form. -/
theorem State.reset_memory_wf : Memory.wf State.reset.imem ∧ Memory.wf State.reset.dmem := by
  decide

end Sys2Proof.Machine
end

