-- ==== Sys2Proof/Laws/State.lean ====
section
/-! SUPPORT. One lemma per field per update of State, so that no proof unfolds a record update. -/

namespace Sys2Proof.Machine

/-! ### advance -/

@[simp] theorem State.advance_caps (s : State) : s.advance.caps = s.caps := rfl
@[simp] theorem State.advance_skyRc (s : State) : s.advance.skyRc = s.skyRc := rfl
@[simp] theorem State.advance_f (s : State) : s.advance.f = s.f := rfl
@[simp] theorem State.advance_fValid (s : State) : s.advance.fValid = s.fValid := rfl
@[simp] theorem State.advance_x (s : State) : s.advance.x = s.x := rfl
@[simp] theorem State.advance_xValid (s : State) : s.advance.xValid = s.xValid := rfl
@[simp] theorem State.advance_v (s : State) : s.advance.v = s.v := rfl
@[simp] theorem State.advance_vValid (s : State) : s.advance.vValid = s.vValid := rfl
@[simp] theorem State.advance_pc (s : State) : s.advance.pc = s.pc + 4 := rfl
@[simp] theorem State.advance_pcCarry (s : State) :
    s.advance.pcCarry = (s.pcCarry || decide (2 ^ 32 ≤ s.pc.toNat + 4)) := rfl
@[simp] theorem State.advance_rmode (s : State) : s.advance.rmode = s.rmode := rfl
@[simp] theorem State.advance_gs (s : State) : s.advance.gs = s.gs := rfl
@[simp] theorem State.advance_twb (s : State) : s.advance.twb = s.twb := rfl
@[simp] theorem State.advance_imem (s : State) : s.advance.imem = s.imem := rfl
@[simp] theorem State.advance_dmem (s : State) : s.advance.dmem = s.dmem := rfl
@[simp] theorem State.advance_busy (s : State) : s.advance.busy = s.busy := rfl
@[simp] theorem State.advance_doneBit (s : State) : s.advance.doneBit = s.doneBit := rfl
@[simp] theorem State.advance_faultBit (s : State) : s.advance.faultBit = s.faultBit := rfl
@[simp] theorem State.advance_irqEn (s : State) : s.advance.irqEn = s.irqEn := rfl
@[simp] theorem State.advance_entry (s : State) : s.advance.entry = s.entry := rfl
@[simp] theorem State.advance_pcReg (s : State) : s.advance.pcReg = s.pcReg := rfl
@[simp] theorem State.advance_cause (s : State) : s.advance.cause = s.cause := rfl
@[simp] theorem State.advance_finsn (s : State) : s.advance.finsn = s.finsn := rfl
@[simp] theorem State.advance_finfo (s : State) : s.advance.finfo = s.finfo := rfl
@[simp] theorem State.advance_host (s : State) : s.advance.host = s.host := rfl
@[simp] theorem State.advance_hostData (s : State) : s.advance.hostData = s.hostData := rfl
@[simp] theorem State.advance_freeIx (s : State) : s.advance.freeIx = s.freeIx := rfl

/-! ### store -/

@[simp] theorem State.store_caps (s : State) (a : Nat) (bs : List Byte) : (s.store a bs).caps = s.caps := rfl
@[simp] theorem State.store_skyRc (s : State) (a : Nat) (bs : List Byte) : (s.store a bs).skyRc = s.skyRc := rfl
@[simp] theorem State.store_f (s : State) (a : Nat) (bs : List Byte) : (s.store a bs).f = s.f := rfl
@[simp] theorem State.store_fValid (s : State) (a : Nat) (bs : List Byte) : (s.store a bs).fValid = s.fValid := rfl
@[simp] theorem State.store_x (s : State) (a : Nat) (bs : List Byte) : (s.store a bs).x = s.x := rfl
@[simp] theorem State.store_xValid (s : State) (a : Nat) (bs : List Byte) : (s.store a bs).xValid = s.xValid := rfl
@[simp] theorem State.store_v (s : State) (a : Nat) (bs : List Byte) : (s.store a bs).v = s.v := rfl
@[simp] theorem State.store_vValid (s : State) (a : Nat) (bs : List Byte) : (s.store a bs).vValid = s.vValid := rfl
@[simp] theorem State.store_pc (s : State) (a : Nat) (bs : List Byte) : (s.store a bs).pc = s.pc := rfl
@[simp] theorem State.store_pcCarry (s : State) (a : Nat) (bs : List Byte) : (s.store a bs).pcCarry = s.pcCarry := rfl
@[simp] theorem State.store_rmode (s : State) (a : Nat) (bs : List Byte) : (s.store a bs).rmode = s.rmode := rfl
@[simp] theorem State.store_gs (s : State) (a : Nat) (bs : List Byte) : (s.store a bs).gs = s.gs := rfl
@[simp] theorem State.store_twb (s : State) (a : Nat) (bs : List Byte) : (s.store a bs).twb = s.twb := rfl
@[simp] theorem State.store_imem (s : State) (a : Nat) (bs : List Byte) : (s.store a bs).imem = s.imem := rfl
@[simp] theorem State.store_dmem (s : State) (a : Nat) (bs : List Byte) :
    (s.store a bs).dmem = writeBytes s.dmem a bs := rfl
@[simp] theorem State.store_busy (s : State) (a : Nat) (bs : List Byte) : (s.store a bs).busy = s.busy := rfl
@[simp] theorem State.store_doneBit (s : State) (a : Nat) (bs : List Byte) : (s.store a bs).doneBit = s.doneBit := rfl
@[simp] theorem State.store_faultBit (s : State) (a : Nat) (bs : List Byte) :
    (s.store a bs).faultBit = s.faultBit := rfl
@[simp] theorem State.store_irqEn (s : State) (a : Nat) (bs : List Byte) : (s.store a bs).irqEn = s.irqEn := rfl
@[simp] theorem State.store_entry (s : State) (a : Nat) (bs : List Byte) : (s.store a bs).entry = s.entry := rfl
@[simp] theorem State.store_pcReg (s : State) (a : Nat) (bs : List Byte) : (s.store a bs).pcReg = s.pcReg := rfl
@[simp] theorem State.store_cause (s : State) (a : Nat) (bs : List Byte) : (s.store a bs).cause = s.cause := rfl
@[simp] theorem State.store_finsn (s : State) (a : Nat) (bs : List Byte) : (s.store a bs).finsn = s.finsn := rfl
@[simp] theorem State.store_finfo (s : State) (a : Nat) (bs : List Byte) : (s.store a bs).finfo = s.finfo := rfl
@[simp] theorem State.store_host (s : State) (a : Nat) (bs : List Byte) : (s.store a bs).host = s.host := rfl
@[simp] theorem State.store_hostData (s : State) (a : Nat) (bs : List Byte) :
    (s.store a bs).hostData = s.hostData := rfl
@[simp] theorem State.store_freeIx (s : State) (a : Nat) (bs : List Byte) : (s.store a bs).freeIx = s.freeIx := rfl

/-! ### drawn -/

@[simp] theorem State.drawn_caps (s : State) (n : Nat) : (s.drawn n).caps = s.caps := rfl
@[simp] theorem State.drawn_skyRc (s : State) (n : Nat) : (s.drawn n).skyRc = s.skyRc := rfl
@[simp] theorem State.drawn_f (s : State) (n : Nat) : (s.drawn n).f = s.f := rfl
@[simp] theorem State.drawn_fValid (s : State) (n : Nat) : (s.drawn n).fValid = s.fValid := rfl
@[simp] theorem State.drawn_x (s : State) (n : Nat) : (s.drawn n).x = s.x := rfl
@[simp] theorem State.drawn_xValid (s : State) (n : Nat) : (s.drawn n).xValid = s.xValid := rfl
@[simp] theorem State.drawn_v (s : State) (n : Nat) : (s.drawn n).v = s.v := rfl
@[simp] theorem State.drawn_vValid (s : State) (n : Nat) : (s.drawn n).vValid = s.vValid := rfl
@[simp] theorem State.drawn_pc (s : State) (n : Nat) : (s.drawn n).pc = s.pc := rfl
@[simp] theorem State.drawn_pcCarry (s : State) (n : Nat) : (s.drawn n).pcCarry = s.pcCarry := rfl
@[simp] theorem State.drawn_rmode (s : State) (n : Nat) : (s.drawn n).rmode = s.rmode := rfl
@[simp] theorem State.drawn_gs (s : State) (n : Nat) : (s.drawn n).gs = s.gs := rfl
@[simp] theorem State.drawn_twb (s : State) (n : Nat) : (s.drawn n).twb = s.twb := rfl
@[simp] theorem State.drawn_imem (s : State) (n : Nat) : (s.drawn n).imem = s.imem := rfl
@[simp] theorem State.drawn_dmem (s : State) (n : Nat) : (s.drawn n).dmem = s.dmem := rfl
@[simp] theorem State.drawn_busy (s : State) (n : Nat) : (s.drawn n).busy = s.busy := rfl
@[simp] theorem State.drawn_doneBit (s : State) (n : Nat) : (s.drawn n).doneBit = s.doneBit := rfl
@[simp] theorem State.drawn_faultBit (s : State) (n : Nat) : (s.drawn n).faultBit = s.faultBit := rfl
@[simp] theorem State.drawn_irqEn (s : State) (n : Nat) : (s.drawn n).irqEn = s.irqEn := rfl
@[simp] theorem State.drawn_entry (s : State) (n : Nat) : (s.drawn n).entry = s.entry := rfl
@[simp] theorem State.drawn_pcReg (s : State) (n : Nat) : (s.drawn n).pcReg = s.pcReg := rfl
@[simp] theorem State.drawn_cause (s : State) (n : Nat) : (s.drawn n).cause = s.cause := rfl
@[simp] theorem State.drawn_finsn (s : State) (n : Nat) : (s.drawn n).finsn = s.finsn := rfl
@[simp] theorem State.drawn_finfo (s : State) (n : Nat) : (s.drawn n).finfo = s.finfo := rfl
@[simp] theorem State.drawn_host (s : State) (n : Nat) : (s.drawn n).host = s.host := rfl
@[simp] theorem State.drawn_hostData (s : State) (n : Nat) : (s.drawn n).hostData = s.hostData := rfl
@[simp] theorem State.drawn_freeIx (s : State) (n : Nat) : (s.drawn n).freeIx = s.freeIx + n := rfl

/-! ### havoc -/

@[simp] theorem State.havoc_caps (s : State) (a n : Nat) : (s.havoc a n).caps = s.caps := rfl
@[simp] theorem State.havoc_skyRc (s : State) (a n : Nat) : (s.havoc a n).skyRc = s.skyRc := rfl
@[simp] theorem State.havoc_f (s : State) (a n : Nat) : (s.havoc a n).f = s.f := rfl
@[simp] theorem State.havoc_fValid (s : State) (a n : Nat) : (s.havoc a n).fValid = s.fValid := rfl
@[simp] theorem State.havoc_x (s : State) (a n : Nat) : (s.havoc a n).x = s.x := rfl
@[simp] theorem State.havoc_xValid (s : State) (a n : Nat) : (s.havoc a n).xValid = s.xValid := rfl
@[simp] theorem State.havoc_v (s : State) (a n : Nat) : (s.havoc a n).v = s.v := rfl
@[simp] theorem State.havoc_vValid (s : State) (a n : Nat) : (s.havoc a n).vValid = s.vValid := rfl
@[simp] theorem State.havoc_pc (s : State) (a n : Nat) : (s.havoc a n).pc = s.pc := rfl
@[simp] theorem State.havoc_pcCarry (s : State) (a n : Nat) : (s.havoc a n).pcCarry = s.pcCarry := rfl
@[simp] theorem State.havoc_rmode (s : State) (a n : Nat) : (s.havoc a n).rmode = s.rmode := rfl
@[simp] theorem State.havoc_gs (s : State) (a n : Nat) : (s.havoc a n).gs = s.gs := rfl
@[simp] theorem State.havoc_twb (s : State) (a n : Nat) : (s.havoc a n).twb = s.twb := rfl
@[simp] theorem State.havoc_imem (s : State) (a n : Nat) : (s.havoc a n).imem = s.imem := rfl
@[simp] theorem State.havoc_dmem (s : State) (a n : Nat) :
    (s.havoc a n).dmem = writeBytes s.dmem a (freeBytes s.freeIx n) := rfl
@[simp] theorem State.havoc_busy (s : State) (a n : Nat) : (s.havoc a n).busy = s.busy := rfl
@[simp] theorem State.havoc_doneBit (s : State) (a n : Nat) : (s.havoc a n).doneBit = s.doneBit := rfl
@[simp] theorem State.havoc_faultBit (s : State) (a n : Nat) : (s.havoc a n).faultBit = s.faultBit := rfl
@[simp] theorem State.havoc_irqEn (s : State) (a n : Nat) : (s.havoc a n).irqEn = s.irqEn := rfl
@[simp] theorem State.havoc_entry (s : State) (a n : Nat) : (s.havoc a n).entry = s.entry := rfl
@[simp] theorem State.havoc_pcReg (s : State) (a n : Nat) : (s.havoc a n).pcReg = s.pcReg := rfl
@[simp] theorem State.havoc_cause (s : State) (a n : Nat) : (s.havoc a n).cause = s.cause := rfl
@[simp] theorem State.havoc_finsn (s : State) (a n : Nat) : (s.havoc a n).finsn = s.finsn := rfl
@[simp] theorem State.havoc_finfo (s : State) (a n : Nat) : (s.havoc a n).finfo = s.finfo := rfl
@[simp] theorem State.havoc_host (s : State) (a n : Nat) : (s.havoc a n).host = s.host := rfl
@[simp] theorem State.havoc_hostData (s : State) (a n : Nat) : (s.havoc a n).hostData = s.hostData := rfl
@[simp] theorem State.havoc_freeIx (s : State) (a n : Nat) : (s.havoc a n).freeIx = s.freeIx + n := rfl

/-! ### writeF -/

@[simp] theorem State.writeF_caps (s : State) (r : RegNo) (w : FieldWord) : (s.writeF r w).caps = s.caps := rfl
@[simp] theorem State.writeF_skyRc (s : State) (r : RegNo) (w : FieldWord) : (s.writeF r w).skyRc = s.skyRc := rfl
@[simp] theorem State.writeF_f (s : State) (r : RegNo) (w : FieldWord) :
    (s.writeF r w).f = s.f.set r.toNat w r.isLt := rfl
@[simp] theorem State.writeF_fValid (s : State) (r : RegNo) (w : FieldWord) :
    (s.writeF r w).fValid = s.fValid.set r.toNat true r.isLt := rfl
@[simp] theorem State.writeF_x (s : State) (r : RegNo) (w : FieldWord) : (s.writeF r w).x = s.x := rfl
@[simp] theorem State.writeF_xValid (s : State) (r : RegNo) (w : FieldWord) : (s.writeF r w).xValid = s.xValid := rfl
@[simp] theorem State.writeF_v (s : State) (r : RegNo) (w : FieldWord) : (s.writeF r w).v = s.v := rfl
@[simp] theorem State.writeF_vValid (s : State) (r : RegNo) (w : FieldWord) : (s.writeF r w).vValid = s.vValid := rfl
@[simp] theorem State.writeF_pc (s : State) (r : RegNo) (w : FieldWord) : (s.writeF r w).pc = s.pc := rfl
@[simp] theorem State.writeF_pcCarry (s : State) (r : RegNo) (w : FieldWord) :
    (s.writeF r w).pcCarry = s.pcCarry := rfl
@[simp] theorem State.writeF_rmode (s : State) (r : RegNo) (w : FieldWord) : (s.writeF r w).rmode = s.rmode := rfl
@[simp] theorem State.writeF_gs (s : State) (r : RegNo) (w : FieldWord) : (s.writeF r w).gs = s.gs := rfl
@[simp] theorem State.writeF_twb (s : State) (r : RegNo) (w : FieldWord) : (s.writeF r w).twb = s.twb := rfl
@[simp] theorem State.writeF_imem (s : State) (r : RegNo) (w : FieldWord) : (s.writeF r w).imem = s.imem := rfl
@[simp] theorem State.writeF_dmem (s : State) (r : RegNo) (w : FieldWord) : (s.writeF r w).dmem = s.dmem := rfl
@[simp] theorem State.writeF_busy (s : State) (r : RegNo) (w : FieldWord) : (s.writeF r w).busy = s.busy := rfl
@[simp] theorem State.writeF_doneBit (s : State) (r : RegNo) (w : FieldWord) :
    (s.writeF r w).doneBit = s.doneBit := rfl
@[simp] theorem State.writeF_faultBit (s : State) (r : RegNo) (w : FieldWord) :
    (s.writeF r w).faultBit = s.faultBit := rfl
@[simp] theorem State.writeF_irqEn (s : State) (r : RegNo) (w : FieldWord) : (s.writeF r w).irqEn = s.irqEn := rfl
@[simp] theorem State.writeF_entry (s : State) (r : RegNo) (w : FieldWord) : (s.writeF r w).entry = s.entry := rfl
@[simp] theorem State.writeF_pcReg (s : State) (r : RegNo) (w : FieldWord) : (s.writeF r w).pcReg = s.pcReg := rfl
@[simp] theorem State.writeF_cause (s : State) (r : RegNo) (w : FieldWord) : (s.writeF r w).cause = s.cause := rfl
@[simp] theorem State.writeF_finsn (s : State) (r : RegNo) (w : FieldWord) : (s.writeF r w).finsn = s.finsn := rfl
@[simp] theorem State.writeF_finfo (s : State) (r : RegNo) (w : FieldWord) : (s.writeF r w).finfo = s.finfo := rfl
@[simp] theorem State.writeF_host (s : State) (r : RegNo) (w : FieldWord) : (s.writeF r w).host = s.host := rfl
@[simp] theorem State.writeF_hostData (s : State) (r : RegNo) (w : FieldWord) :
    (s.writeF r w).hostData = s.hostData := rfl
@[simp] theorem State.writeF_freeIx (s : State) (r : RegNo) (w : FieldWord) : (s.writeF r w).freeIx = s.freeIx := rfl

/-! ### writeV -/

@[simp] theorem State.writeV_caps (s : State) (r : RegNo) (w : VReg) : (s.writeV r w).caps = s.caps := rfl
@[simp] theorem State.writeV_skyRc (s : State) (r : RegNo) (w : VReg) : (s.writeV r w).skyRc = s.skyRc := rfl
@[simp] theorem State.writeV_f (s : State) (r : RegNo) (w : VReg) : (s.writeV r w).f = s.f := rfl
@[simp] theorem State.writeV_fValid (s : State) (r : RegNo) (w : VReg) : (s.writeV r w).fValid = s.fValid := rfl
@[simp] theorem State.writeV_x (s : State) (r : RegNo) (w : VReg) : (s.writeV r w).x = s.x := rfl
@[simp] theorem State.writeV_xValid (s : State) (r : RegNo) (w : VReg) : (s.writeV r w).xValid = s.xValid := rfl
@[simp] theorem State.writeV_v (s : State) (r : RegNo) (w : VReg) : (s.writeV r w).v = s.v.set (vIndex r) w := rfl
@[simp] theorem State.writeV_vValid (s : State) (r : RegNo) (w : VReg) :
    (s.writeV r w).vValid = s.vValid.set (vIndex r) true := rfl
@[simp] theorem State.writeV_pc (s : State) (r : RegNo) (w : VReg) : (s.writeV r w).pc = s.pc := rfl
@[simp] theorem State.writeV_pcCarry (s : State) (r : RegNo) (w : VReg) : (s.writeV r w).pcCarry = s.pcCarry := rfl
@[simp] theorem State.writeV_rmode (s : State) (r : RegNo) (w : VReg) : (s.writeV r w).rmode = s.rmode := rfl
@[simp] theorem State.writeV_gs (s : State) (r : RegNo) (w : VReg) : (s.writeV r w).gs = s.gs := rfl
@[simp] theorem State.writeV_twb (s : State) (r : RegNo) (w : VReg) : (s.writeV r w).twb = s.twb := rfl
@[simp] theorem State.writeV_imem (s : State) (r : RegNo) (w : VReg) : (s.writeV r w).imem = s.imem := rfl
@[simp] theorem State.writeV_dmem (s : State) (r : RegNo) (w : VReg) : (s.writeV r w).dmem = s.dmem := rfl
@[simp] theorem State.writeV_busy (s : State) (r : RegNo) (w : VReg) : (s.writeV r w).busy = s.busy := rfl
@[simp] theorem State.writeV_doneBit (s : State) (r : RegNo) (w : VReg) : (s.writeV r w).doneBit = s.doneBit := rfl
@[simp] theorem State.writeV_faultBit (s : State) (r : RegNo) (w : VReg) : (s.writeV r w).faultBit = s.faultBit := rfl
@[simp] theorem State.writeV_irqEn (s : State) (r : RegNo) (w : VReg) : (s.writeV r w).irqEn = s.irqEn := rfl
@[simp] theorem State.writeV_entry (s : State) (r : RegNo) (w : VReg) : (s.writeV r w).entry = s.entry := rfl
@[simp] theorem State.writeV_pcReg (s : State) (r : RegNo) (w : VReg) : (s.writeV r w).pcReg = s.pcReg := rfl
@[simp] theorem State.writeV_cause (s : State) (r : RegNo) (w : VReg) : (s.writeV r w).cause = s.cause := rfl
@[simp] theorem State.writeV_finsn (s : State) (r : RegNo) (w : VReg) : (s.writeV r w).finsn = s.finsn := rfl
@[simp] theorem State.writeV_finfo (s : State) (r : RegNo) (w : VReg) : (s.writeV r w).finfo = s.finfo := rfl
@[simp] theorem State.writeV_host (s : State) (r : RegNo) (w : VReg) : (s.writeV r w).host = s.host := rfl
@[simp] theorem State.writeV_hostData (s : State) (r : RegNo) (w : VReg) : (s.writeV r w).hostData = s.hostData := rfl
@[simp] theorem State.writeV_freeIx (s : State) (r : RegNo) (w : VReg) : (s.writeV r w).freeIx = s.freeIx := rfl

/-! ### writeX -/

@[simp] theorem State.writeX_caps (s : State) (r : RegNo) (w : Word64) :
    (s.writeX r w).caps = s.caps := by unfold State.writeX; split <;> rfl
@[simp] theorem State.writeX_skyRc (s : State) (r : RegNo) (w : Word64) :
    (s.writeX r w).skyRc = s.skyRc := by unfold State.writeX; split <;> rfl
@[simp] theorem State.writeX_f (s : State) (r : RegNo) (w : Word64) :
    (s.writeX r w).f = s.f := by unfold State.writeX; split <;> rfl
@[simp] theorem State.writeX_fValid (s : State) (r : RegNo) (w : Word64) :
    (s.writeX r w).fValid = s.fValid := by unfold State.writeX; split <;> rfl
@[simp] theorem State.writeX_v (s : State) (r : RegNo) (w : Word64) :
    (s.writeX r w).v = s.v := by unfold State.writeX; split <;> rfl
@[simp] theorem State.writeX_vValid (s : State) (r : RegNo) (w : Word64) :
    (s.writeX r w).vValid = s.vValid := by unfold State.writeX; split <;> rfl
@[simp] theorem State.writeX_pc (s : State) (r : RegNo) (w : Word64) :
    (s.writeX r w).pc = s.pc := by unfold State.writeX; split <;> rfl
@[simp] theorem State.writeX_pcCarry (s : State) (r : RegNo) (w : Word64) :
    (s.writeX r w).pcCarry = s.pcCarry := by unfold State.writeX; split <;> rfl
@[simp] theorem State.writeX_rmode (s : State) (r : RegNo) (w : Word64) :
    (s.writeX r w).rmode = s.rmode := by unfold State.writeX; split <;> rfl
@[simp] theorem State.writeX_gs (s : State) (r : RegNo) (w : Word64) :
    (s.writeX r w).gs = s.gs := by unfold State.writeX; split <;> rfl
@[simp] theorem State.writeX_twb (s : State) (r : RegNo) (w : Word64) :
    (s.writeX r w).twb = s.twb := by unfold State.writeX; split <;> rfl
@[simp] theorem State.writeX_imem (s : State) (r : RegNo) (w : Word64) :
    (s.writeX r w).imem = s.imem := by unfold State.writeX; split <;> rfl
@[simp] theorem State.writeX_dmem (s : State) (r : RegNo) (w : Word64) :
    (s.writeX r w).dmem = s.dmem := by unfold State.writeX; split <;> rfl
@[simp] theorem State.writeX_busy (s : State) (r : RegNo) (w : Word64) :
    (s.writeX r w).busy = s.busy := by unfold State.writeX; split <;> rfl
@[simp] theorem State.writeX_doneBit (s : State) (r : RegNo) (w : Word64) :
    (s.writeX r w).doneBit = s.doneBit := by unfold State.writeX; split <;> rfl
@[simp] theorem State.writeX_faultBit (s : State) (r : RegNo) (w : Word64) :
    (s.writeX r w).faultBit = s.faultBit := by unfold State.writeX; split <;> rfl
@[simp] theorem State.writeX_irqEn (s : State) (r : RegNo) (w : Word64) :
    (s.writeX r w).irqEn = s.irqEn := by unfold State.writeX; split <;> rfl
@[simp] theorem State.writeX_entry (s : State) (r : RegNo) (w : Word64) :
    (s.writeX r w).entry = s.entry := by unfold State.writeX; split <;> rfl
@[simp] theorem State.writeX_pcReg (s : State) (r : RegNo) (w : Word64) :
    (s.writeX r w).pcReg = s.pcReg := by unfold State.writeX; split <;> rfl
@[simp] theorem State.writeX_cause (s : State) (r : RegNo) (w : Word64) :
    (s.writeX r w).cause = s.cause := by unfold State.writeX; split <;> rfl
@[simp] theorem State.writeX_finsn (s : State) (r : RegNo) (w : Word64) :
    (s.writeX r w).finsn = s.finsn := by unfold State.writeX; split <;> rfl
@[simp] theorem State.writeX_finfo (s : State) (r : RegNo) (w : Word64) :
    (s.writeX r w).finfo = s.finfo := by unfold State.writeX; split <;> rfl
@[simp] theorem State.writeX_host (s : State) (r : RegNo) (w : Word64) :
    (s.writeX r w).host = s.host := by unfold State.writeX; split <;> rfl
@[simp] theorem State.writeX_hostData (s : State) (r : RegNo) (w : Word64) :
    (s.writeX r w).hostData = s.hostData := by unfold State.writeX; split <;> rfl
@[simp] theorem State.writeX_freeIx (s : State) (r : RegNo) (w : Word64) :
    (s.writeX r w).freeIx = s.freeIx := by unfold State.writeX; split <;> rfl

/-! ### unwind -/

@[simp] theorem State.unwind_caps (s : State) : s.unwind.caps = s.caps := rfl
@[simp] theorem State.unwind_skyRc (s : State) : s.unwind.skyRc = s.skyRc := rfl
@[simp] theorem State.unwind_f (s : State) : s.unwind.f = s.f := rfl
@[simp] theorem State.unwind_fValid (s : State) : s.unwind.fValid = s.fValid := rfl
@[simp] theorem State.unwind_x (s : State) : s.unwind.x = s.x := rfl
@[simp] theorem State.unwind_xValid (s : State) : s.unwind.xValid = s.xValid := rfl
@[simp] theorem State.unwind_v (s : State) : s.unwind.v = s.v := rfl
@[simp] theorem State.unwind_vValid (s : State) : s.unwind.vValid = s.vValid := rfl
@[simp] theorem State.unwind_pc (s : State) : s.unwind.pc = s.pc := rfl
@[simp] theorem State.unwind_pcCarry (s : State) : s.unwind.pcCarry = s.pcCarry := rfl
@[simp] theorem State.unwind_rmode (s : State) : s.unwind.rmode = s.gs.getLast?.getD s.rmode := rfl
@[simp] theorem State.unwind_gs (s : State) : s.unwind.gs = [] := rfl
@[simp] theorem State.unwind_twb (s : State) : s.unwind.twb = s.twb := rfl
@[simp] theorem State.unwind_imem (s : State) : s.unwind.imem = s.imem := rfl
@[simp] theorem State.unwind_dmem (s : State) : s.unwind.dmem = s.dmem := rfl
@[simp] theorem State.unwind_busy (s : State) : s.unwind.busy = s.busy := rfl
@[simp] theorem State.unwind_doneBit (s : State) : s.unwind.doneBit = s.doneBit := rfl
@[simp] theorem State.unwind_faultBit (s : State) : s.unwind.faultBit = s.faultBit := rfl
@[simp] theorem State.unwind_irqEn (s : State) : s.unwind.irqEn = s.irqEn := rfl
@[simp] theorem State.unwind_entry (s : State) : s.unwind.entry = s.entry := rfl
@[simp] theorem State.unwind_pcReg (s : State) : s.unwind.pcReg = s.pcReg := rfl
@[simp] theorem State.unwind_cause (s : State) : s.unwind.cause = s.cause := rfl
@[simp] theorem State.unwind_finsn (s : State) : s.unwind.finsn = s.finsn := rfl
@[simp] theorem State.unwind_finfo (s : State) : s.unwind.finfo = s.finfo := rfl
@[simp] theorem State.unwind_host (s : State) : s.unwind.host = s.host := rfl
@[simp] theorem State.unwind_hostData (s : State) : s.unwind.hostData = s.hostData := rfl
@[simp] theorem State.unwind_freeIx (s : State) : s.unwind.freeIx = s.freeIx := rfl

/-! ### halt -/

@[simp] theorem State.halt_caps (s : State) : s.halt.caps = s.caps := rfl
@[simp] theorem State.halt_skyRc (s : State) : s.halt.skyRc = s.skyRc := rfl
@[simp] theorem State.halt_f (s : State) : s.halt.f = s.f := rfl
@[simp] theorem State.halt_fValid (s : State) : s.halt.fValid = s.fValid := rfl
@[simp] theorem State.halt_x (s : State) : s.halt.x = s.x := rfl
@[simp] theorem State.halt_xValid (s : State) : s.halt.xValid = s.xValid := rfl
@[simp] theorem State.halt_v (s : State) : s.halt.v = s.v := rfl
@[simp] theorem State.halt_vValid (s : State) : s.halt.vValid = s.vValid := rfl
@[simp] theorem State.halt_pc (s : State) : s.halt.pc = s.pc := rfl
@[simp] theorem State.halt_pcCarry (s : State) : s.halt.pcCarry = s.pcCarry := rfl
@[simp] theorem State.halt_rmode (s : State) : s.halt.rmode = s.gs.getLast?.getD s.rmode := rfl
@[simp] theorem State.halt_gs (s : State) : s.halt.gs = [] := rfl
@[simp] theorem State.halt_twb (s : State) : s.halt.twb = s.twb := rfl
@[simp] theorem State.halt_imem (s : State) : s.halt.imem = s.imem := rfl
@[simp] theorem State.halt_dmem (s : State) : s.halt.dmem = s.dmem := rfl
@[simp] theorem State.halt_busy (s : State) : s.halt.busy = false := rfl
@[simp] theorem State.halt_doneBit (s : State) : s.halt.doneBit = true := rfl
@[simp] theorem State.halt_faultBit (s : State) : s.halt.faultBit = s.faultBit := rfl
@[simp] theorem State.halt_irqEn (s : State) : s.halt.irqEn = s.irqEn := rfl
@[simp] theorem State.halt_entry (s : State) : s.halt.entry = s.entry := rfl
@[simp] theorem State.halt_pcReg (s : State) : s.halt.pcReg = s.pc := rfl
@[simp] theorem State.halt_cause (s : State) : s.halt.cause = s.cause := rfl
@[simp] theorem State.halt_finsn (s : State) : s.halt.finsn = s.finsn := rfl
@[simp] theorem State.halt_finfo (s : State) : s.halt.finfo = s.finfo := rfl
@[simp] theorem State.halt_host (s : State) : s.halt.host = s.host := rfl
@[simp] theorem State.halt_hostData (s : State) : s.halt.hostData = s.hostData := rfl
@[simp] theorem State.halt_freeIx (s : State) : s.halt.freeIx = s.freeIx := rfl

/-! ### takeFault -/

@[simp] theorem State.takeFault_caps (s : State) (w : InsnWord) (e : Raise) : (s.takeFault w e).caps = s.caps := rfl
@[simp] theorem State.takeFault_skyRc (s : State) (w : InsnWord) (e : Raise) :
    (s.takeFault w e).skyRc = s.skyRc := rfl
@[simp] theorem State.takeFault_f (s : State) (w : InsnWord) (e : Raise) : (s.takeFault w e).f = s.f := rfl
@[simp] theorem State.takeFault_fValid (s : State) (w : InsnWord) (e : Raise) :
    (s.takeFault w e).fValid = s.fValid := rfl
@[simp] theorem State.takeFault_x (s : State) (w : InsnWord) (e : Raise) : (s.takeFault w e).x = s.x := rfl
@[simp] theorem State.takeFault_xValid (s : State) (w : InsnWord) (e : Raise) :
    (s.takeFault w e).xValid = s.xValid := rfl
@[simp] theorem State.takeFault_v (s : State) (w : InsnWord) (e : Raise) : (s.takeFault w e).v = s.v := rfl
@[simp] theorem State.takeFault_vValid (s : State) (w : InsnWord) (e : Raise) :
    (s.takeFault w e).vValid = s.vValid := rfl
@[simp] theorem State.takeFault_pc (s : State) (w : InsnWord) (e : Raise) : (s.takeFault w e).pc = s.pc := rfl
@[simp] theorem State.takeFault_pcCarry (s : State) (w : InsnWord) (e : Raise) :
    (s.takeFault w e).pcCarry = s.pcCarry := rfl
@[simp] theorem State.takeFault_rmode (s : State) (w : InsnWord) (e : Raise) :
    (s.takeFault w e).rmode = s.gs.getLast?.getD s.rmode := rfl
@[simp] theorem State.takeFault_gs (s : State) (w : InsnWord) (e : Raise) : (s.takeFault w e).gs = [] := rfl
@[simp] theorem State.takeFault_twb (s : State) (w : InsnWord) (e : Raise) : (s.takeFault w e).twb = s.twb := rfl
@[simp] theorem State.takeFault_imem (s : State) (w : InsnWord) (e : Raise) : (s.takeFault w e).imem = s.imem := rfl
@[simp] theorem State.takeFault_dmem (s : State) (w : InsnWord) (e : Raise) : (s.takeFault w e).dmem = s.dmem := rfl
@[simp] theorem State.takeFault_busy (s : State) (w : InsnWord) (e : Raise) : (s.takeFault w e).busy = false := rfl
@[simp] theorem State.takeFault_doneBit (s : State) (w : InsnWord) (e : Raise) :
    (s.takeFault w e).doneBit = s.doneBit := rfl
@[simp] theorem State.takeFault_faultBit (s : State) (w : InsnWord) (e : Raise) :
    (s.takeFault w e).faultBit = true := rfl
@[simp] theorem State.takeFault_irqEn (s : State) (w : InsnWord) (e : Raise) :
    (s.takeFault w e).irqEn = s.irqEn := rfl
@[simp] theorem State.takeFault_entry (s : State) (w : InsnWord) (e : Raise) :
    (s.takeFault w e).entry = s.entry := rfl
@[simp] theorem State.takeFault_pcReg (s : State) (w : InsnWord) (e : Raise) : (s.takeFault w e).pcReg = s.pc := rfl
@[simp] theorem State.takeFault_cause (s : State) (w : InsnWord) (e : Raise) :
    (s.takeFault w e).cause = e.cause.code := rfl
@[simp] theorem State.takeFault_finsn (s : State) (w : InsnWord) (e : Raise) : (s.takeFault w e).finsn = w := rfl
@[simp] theorem State.takeFault_finfo (s : State) (w : InsnWord) (e : Raise) : (s.takeFault w e).finfo = e.info := rfl
@[simp] theorem State.takeFault_host (s : State) (w : InsnWord) (e : Raise) : (s.takeFault w e).host = s.host := rfl
@[simp] theorem State.takeFault_hostData (s : State) (w : InsnWord) (e : Raise) :
    (s.takeFault w e).hostData = s.hostData := rfl
@[simp] theorem State.takeFault_freeIx (s : State) (w : InsnWord) (e : Raise) :
    (s.takeFault w e).freeIx = s.freeIx := rfl

/-! ### start -/

@[simp] theorem State.start_caps (s : State) : s.start.caps = s.caps := rfl
@[simp] theorem State.start_skyRc (s : State) : s.start.skyRc = s.skyRc := rfl
@[simp] theorem State.start_f (s : State) : s.start.f = s.f := rfl
@[simp] theorem State.start_fValid (s : State) : s.start.fValid = s.fValid := rfl
@[simp] theorem State.start_x (s : State) : s.start.x = s.x := rfl
@[simp] theorem State.start_xValid (s : State) : s.start.xValid = s.xValid := rfl
@[simp] theorem State.start_v (s : State) : s.start.v = s.v := rfl
@[simp] theorem State.start_vValid (s : State) : s.start.vValid = s.vValid := rfl
@[simp] theorem State.start_pc (s : State) : s.start.pc = s.entry := rfl
@[simp] theorem State.start_pcCarry (s : State) : s.start.pcCarry = false := rfl
@[simp] theorem State.start_rmode (s : State) : s.start.rmode = s.rmode := rfl
@[simp] theorem State.start_gs (s : State) : s.start.gs = s.gs := rfl
@[simp] theorem State.start_twb (s : State) : s.start.twb = s.twb := rfl
@[simp] theorem State.start_imem (s : State) : s.start.imem = s.imem := rfl
@[simp] theorem State.start_dmem (s : State) : s.start.dmem = s.dmem := rfl
@[simp] theorem State.start_busy (s : State) : s.start.busy = true := rfl
@[simp] theorem State.start_doneBit (s : State) : s.start.doneBit = false := rfl
@[simp] theorem State.start_faultBit (s : State) : s.start.faultBit = false := rfl
@[simp] theorem State.start_irqEn (s : State) : s.start.irqEn = s.irqEn := rfl
@[simp] theorem State.start_entry (s : State) : s.start.entry = s.entry := rfl
@[simp] theorem State.start_pcReg (s : State) : s.start.pcReg = s.pcReg := rfl
@[simp] theorem State.start_cause (s : State) : s.start.cause = 0 := rfl
@[simp] theorem State.start_finsn (s : State) : s.start.finsn = 0 := rfl
@[simp] theorem State.start_finfo (s : State) : s.start.finfo = 0 := rfl
@[simp] theorem State.start_host (s : State) : s.start.host = s.host := rfl
@[simp] theorem State.start_hostData (s : State) : s.start.hostData = s.hostData := rfl
@[simp] theorem State.start_freeIx (s : State) : s.start.freeIx = s.freeIx := rfl

/-! ### withHost -/

@[simp] theorem State.withHost_caps (s : State) (acts : List HostAction) : (s.withHost acts).caps = s.caps := rfl
@[simp] theorem State.withHost_skyRc (s : State) (acts : List HostAction) : (s.withHost acts).skyRc = s.skyRc := rfl
@[simp] theorem State.withHost_f (s : State) (acts : List HostAction) : (s.withHost acts).f = s.f := rfl
@[simp] theorem State.withHost_fValid (s : State) (acts : List HostAction) :
    (s.withHost acts).fValid = s.fValid := rfl
@[simp] theorem State.withHost_x (s : State) (acts : List HostAction) : (s.withHost acts).x = s.x := rfl
@[simp] theorem State.withHost_xValid (s : State) (acts : List HostAction) :
    (s.withHost acts).xValid = s.xValid := rfl
@[simp] theorem State.withHost_v (s : State) (acts : List HostAction) : (s.withHost acts).v = s.v := rfl
@[simp] theorem State.withHost_vValid (s : State) (acts : List HostAction) :
    (s.withHost acts).vValid = s.vValid := rfl
@[simp] theorem State.withHost_pc (s : State) (acts : List HostAction) : (s.withHost acts).pc = s.pc := rfl
@[simp] theorem State.withHost_pcCarry (s : State) (acts : List HostAction) :
    (s.withHost acts).pcCarry = s.pcCarry := rfl
@[simp] theorem State.withHost_rmode (s : State) (acts : List HostAction) : (s.withHost acts).rmode = s.rmode := rfl
@[simp] theorem State.withHost_gs (s : State) (acts : List HostAction) : (s.withHost acts).gs = s.gs := rfl
@[simp] theorem State.withHost_twb (s : State) (acts : List HostAction) : (s.withHost acts).twb = s.twb := rfl
@[simp] theorem State.withHost_imem (s : State) (acts : List HostAction) : (s.withHost acts).imem = s.imem := rfl
@[simp] theorem State.withHost_dmem (s : State) (acts : List HostAction) : (s.withHost acts).dmem = s.dmem := rfl
@[simp] theorem State.withHost_busy (s : State) (acts : List HostAction) : (s.withHost acts).busy = s.busy := rfl
@[simp] theorem State.withHost_doneBit (s : State) (acts : List HostAction) :
    (s.withHost acts).doneBit = s.doneBit := rfl
@[simp] theorem State.withHost_faultBit (s : State) (acts : List HostAction) :
    (s.withHost acts).faultBit = s.faultBit := rfl
@[simp] theorem State.withHost_irqEn (s : State) (acts : List HostAction) : (s.withHost acts).irqEn = s.irqEn := rfl
@[simp] theorem State.withHost_entry (s : State) (acts : List HostAction) : (s.withHost acts).entry = s.entry := rfl
@[simp] theorem State.withHost_pcReg (s : State) (acts : List HostAction) : (s.withHost acts).pcReg = s.pcReg := rfl
@[simp] theorem State.withHost_cause (s : State) (acts : List HostAction) : (s.withHost acts).cause = s.cause := rfl
@[simp] theorem State.withHost_finsn (s : State) (acts : List HostAction) : (s.withHost acts).finsn = s.finsn := rfl
@[simp] theorem State.withHost_finfo (s : State) (acts : List HostAction) : (s.withHost acts).finfo = s.finfo := rfl
@[simp] theorem State.withHost_host (s : State) (acts : List HostAction) : (s.withHost acts).host = acts := rfl
@[simp] theorem State.withHost_hostData (s : State) (acts : List HostAction) :
    (s.withHost acts).hostData = s.hostData := rfl
@[simp] theorem State.withHost_freeIx (s : State) (acts : List HostAction) :
    (s.withHost acts).freeIx = s.freeIx := rfl

/-! ### readyToRun -/

@[simp] theorem State.readyToRun_caps (s : State) (bs : List Byte) : (s.readyToRun bs).caps = s.caps := rfl
@[simp] theorem State.readyToRun_skyRc (s : State) (bs : List Byte) : (s.readyToRun bs).skyRc = s.skyRc := rfl
@[simp] theorem State.readyToRun_f (s : State) (bs : List Byte) : (s.readyToRun bs).f = s.f := rfl
@[simp] theorem State.readyToRun_fValid (s : State) (bs : List Byte) : (s.readyToRun bs).fValid = s.fValid := rfl
@[simp] theorem State.readyToRun_x (s : State) (bs : List Byte) : (s.readyToRun bs).x = s.x := rfl
@[simp] theorem State.readyToRun_xValid (s : State) (bs : List Byte) : (s.readyToRun bs).xValid = s.xValid := rfl
@[simp] theorem State.readyToRun_v (s : State) (bs : List Byte) : (s.readyToRun bs).v = s.v := rfl
@[simp] theorem State.readyToRun_vValid (s : State) (bs : List Byte) : (s.readyToRun bs).vValid = s.vValid := rfl
@[simp] theorem State.readyToRun_pc (s : State) (bs : List Byte) : (s.readyToRun bs).pc = s.pc := rfl
@[simp] theorem State.readyToRun_pcCarry (s : State) (bs : List Byte) : (s.readyToRun bs).pcCarry = s.pcCarry := rfl
@[simp] theorem State.readyToRun_rmode (s : State) (bs : List Byte) : (s.readyToRun bs).rmode = s.rmode := rfl
@[simp] theorem State.readyToRun_gs (s : State) (bs : List Byte) : (s.readyToRun bs).gs = s.gs := rfl
@[simp] theorem State.readyToRun_twb (s : State) (bs : List Byte) : (s.readyToRun bs).twb = s.twb := rfl
@[simp] theorem State.readyToRun_imem (s : State) (bs : List Byte) :
    (s.readyToRun bs).imem = writeBytes s.imem s.pcAddr bs := rfl
@[simp] theorem State.readyToRun_dmem (s : State) (bs : List Byte) : (s.readyToRun bs).dmem = s.dmem := rfl
@[simp] theorem State.readyToRun_busy (s : State) (bs : List Byte) : (s.readyToRun bs).busy = true := rfl
@[simp] theorem State.readyToRun_doneBit (s : State) (bs : List Byte) : (s.readyToRun bs).doneBit = s.doneBit := rfl
@[simp] theorem State.readyToRun_faultBit (s : State) (bs : List Byte) :
    (s.readyToRun bs).faultBit = s.faultBit := rfl
@[simp] theorem State.readyToRun_irqEn (s : State) (bs : List Byte) : (s.readyToRun bs).irqEn = s.irqEn := rfl
@[simp] theorem State.readyToRun_entry (s : State) (bs : List Byte) : (s.readyToRun bs).entry = s.entry := rfl
@[simp] theorem State.readyToRun_pcReg (s : State) (bs : List Byte) : (s.readyToRun bs).pcReg = s.pcReg := rfl
@[simp] theorem State.readyToRun_cause (s : State) (bs : List Byte) : (s.readyToRun bs).cause = s.cause := rfl
@[simp] theorem State.readyToRun_finsn (s : State) (bs : List Byte) : (s.readyToRun bs).finsn = s.finsn := rfl
@[simp] theorem State.readyToRun_finfo (s : State) (bs : List Byte) : (s.readyToRun bs).finfo = s.finfo := rfl
@[simp] theorem State.readyToRun_host (s : State) (bs : List Byte) : (s.readyToRun bs).host = [] := rfl
@[simp] theorem State.readyToRun_hostData (s : State) (bs : List Byte) :
    (s.readyToRun bs).hostData = s.hostData := rfl
@[simp] theorem State.readyToRun_freeIx (s : State) (bs : List Byte) : (s.readyToRun bs).freeIx = s.freeIx := rfl

/-! ### resetKeepingMemory -/

@[simp] theorem State.resetKeepingMemory_caps (s : State) : s.resetKeepingMemory.caps = s.caps := rfl
@[simp] theorem State.resetKeepingMemory_skyRc (s : State) : s.resetKeepingMemory.skyRc = s.skyRc := rfl
@[simp] theorem State.resetKeepingMemory_f (s : State) : s.resetKeepingMemory.f = State.reset.f := rfl
@[simp] theorem State.resetKeepingMemory_fValid (s : State) : s.resetKeepingMemory.fValid = State.reset.fValid := rfl
@[simp] theorem State.resetKeepingMemory_x (s : State) : s.resetKeepingMemory.x = State.reset.x := rfl
@[simp] theorem State.resetKeepingMemory_xValid (s : State) : s.resetKeepingMemory.xValid = State.reset.xValid := rfl
@[simp] theorem State.resetKeepingMemory_v (s : State) : s.resetKeepingMemory.v = State.reset.v := rfl
@[simp] theorem State.resetKeepingMemory_vValid (s : State) : s.resetKeepingMemory.vValid = State.reset.vValid := rfl
@[simp] theorem State.resetKeepingMemory_pc (s : State) : s.resetKeepingMemory.pc = State.reset.pc := rfl
@[simp] theorem State.resetKeepingMemory_pcCarry (s : State) :
    s.resetKeepingMemory.pcCarry = State.reset.pcCarry := rfl
@[simp] theorem State.resetKeepingMemory_rmode (s : State) : s.resetKeepingMemory.rmode = State.reset.rmode := rfl
@[simp] theorem State.resetKeepingMemory_gs (s : State) : s.resetKeepingMemory.gs = State.reset.gs := rfl
@[simp] theorem State.resetKeepingMemory_twb (s : State) : s.resetKeepingMemory.twb = State.reset.twb := rfl
@[simp] theorem State.resetKeepingMemory_imem (s : State) : s.resetKeepingMemory.imem = s.imem := rfl
@[simp] theorem State.resetKeepingMemory_dmem (s : State) : s.resetKeepingMemory.dmem = s.dmem := rfl
@[simp] theorem State.resetKeepingMemory_busy (s : State) : s.resetKeepingMemory.busy = State.reset.busy := rfl
@[simp] theorem State.resetKeepingMemory_doneBit (s : State) :
    s.resetKeepingMemory.doneBit = State.reset.doneBit := rfl
@[simp] theorem State.resetKeepingMemory_faultBit (s : State) :
    s.resetKeepingMemory.faultBit = State.reset.faultBit := rfl
@[simp] theorem State.resetKeepingMemory_irqEn (s : State) : s.resetKeepingMemory.irqEn = State.reset.irqEn := rfl
@[simp] theorem State.resetKeepingMemory_entry (s : State) : s.resetKeepingMemory.entry = State.reset.entry := rfl
@[simp] theorem State.resetKeepingMemory_pcReg (s : State) : s.resetKeepingMemory.pcReg = State.reset.pcReg := rfl
@[simp] theorem State.resetKeepingMemory_cause (s : State) : s.resetKeepingMemory.cause = State.reset.cause := rfl
@[simp] theorem State.resetKeepingMemory_finsn (s : State) : s.resetKeepingMemory.finsn = State.reset.finsn := rfl
@[simp] theorem State.resetKeepingMemory_finfo (s : State) : s.resetKeepingMemory.finfo = State.reset.finfo := rfl
@[simp] theorem State.resetKeepingMemory_host (s : State) : s.resetKeepingMemory.host = s.host := rfl
@[simp] theorem State.resetKeepingMemory_hostData (s : State) : s.resetKeepingMemory.hostData = s.hostData := rfl
@[simp] theorem State.resetKeepingMemory_freeIx (s : State) : s.resetKeepingMemory.freeIx = s.freeIx := rfl

end Sys2Proof.Machine
end

