-- ==== Sys2Proof/Laws/Exec.lean ====
section
/-! SUPPORT. What each shared operation can do, said once: the end of an instruction, the register reads, the
checks, the frames of the writes and the fault entry. -/

namespace Sys2Proof.Machine

/-! ### Sequencing of checks -/

/-! These are not proved by `rfl`, so that `simp` leaves a rewriting step in the proof: to see `bind (.ok a) f` and
`f a` equal by unfolding, the kernel may evaluate the arithmetic inside `f`. -/

@[simp] theorem ok_bind {ε α β : Type} (a : α) (f : α → Except ε β) : (Except.ok a >>= f) = f a := by
  simp only [bind, Except.bind]

@[simp] theorem error_bind {ε α β : Type} (e : ε) (f : α → Except ε β) :
    ((Except.error e : Except ε α) >>= f) = .error e := by
  simp only [bind, Except.bind]

@[simp] theorem pure_eq_ok {ε α : Type} (a : α) : (pure a : Except ε α) = .ok a := by
  simp only [pure, Except.pure]

@[simp] theorem throw_eq_error {ε α : Type} (e : ε) : (throw e : Except ε α) = .error e := by
  simp only [throw, throwThe, MonadExceptOf.throw]

@[simp] theorem raiseAssertion_ok (y : Nat) : raiseAssertion (.ok y) = .ok y := by
  simp only [raiseAssertion]

@[simp] theorem raiseAssertion_error (j : Nat) :
    raiseAssertion (.error j) = .error ⟨.assertion, BitVec.ofNat 64 j⟩ := by
  simp only [raiseAssertion]

theorem require_of {ok : Prop} [Decidable ok] (h : ok) (c : Cause) (info : Word64) : require ok c info = .ok () :=
  if_pos h

theorem require_of_not {ok : Prop} [Decidable ok] (h : ¬ok) (c : Cause) (info : Word64) :
    require ok c info = .error ⟨c, info⟩ := if_neg h

theorem require_eq_ok {ok : Prop} [Decidable ok] (c : Cause) (info : Word64) (u : Unit) :
    require ok c info = .ok u ↔ ok := by
  unfold require; split <;> simp_all

/-! ### The end of an instruction -/

theorem execute_ok (i : Instr) (s t : State) (h : i.wellFormed = true) : execute i s (.ok t) = .next t.advance := by
  simp [execute, h]

theorem execute_error (i : Instr) (s : State) (e : Raise) (h : i.wellFormed = true) :
    execute i s (.error e) = .next (s.takeFault (encode i) e) := by
  simp [execute, h]

/-- Everything `execute` can answer: the effect and the next word, or a fault on the state it found. -/
theorem execute_cases (i : Instr) (s t : State) (body : Except Raise State) (h : execute i s body = .next t) :
    (i.wellFormed = true ∧ ∃ u, body = .ok u ∧ t = u.advance) ∨ ∃ e, t = s.takeFault (encode i) e := by
  unfold execute at h
  split at h
  · split at h
    · rename_i u
      exact .inl ⟨by assumption, u, rfl, by simpa using h.symm⟩
    · exact .inr ⟨_, by simpa using h.symm⟩
  · exact .inr ⟨_, by simpa using h.symm⟩

theorem execute_isNext (i : Instr) (s : State) (body : Except Raise State) : ∃ t, execute i s body = .next t := by
  unfold execute
  split
  · split <;> exact ⟨_, rfl⟩
  · exact ⟨_, rfl⟩

/-- The fault entry of `takeFault`. -/
theorem takeFault_entry (s : State) (w : InsnWord) (e : Raise) : FaultEntry s (s.takeFault w e) w e.cause e.info := by
  constructor <;> (try constructor) <;> (try constructor) <;> simp [unwoundMode]

/-- The entry of HALT. -/
theorem halt_entry (s : State) : HaltEntry s s.halt := by
  constructor <;> (try constructor) <;> simp [unwoundMode]

/-- A well-formed instruction whose body raises `⟨c, info⟩` takes that fault. -/
theorem faults_of (i : Instr) (s : State) (body : Except Raise State) (c : Cause) (info : Word64)
    (hx : exec i s = execute i s body) (hw : i.wellFormed = true) (hb : body = .error ⟨c, info⟩) :
    Faults i s c info :=
  ⟨_, by rw [hx, hb, execute_error i s _ hw], takeFault_entry s _ _⟩

/-! ### Register reads -/

theorem readX_written (s : State) (r : RegNo) (h : (Source.x r).unwritten s = false) :
    readX s r = .ok (xValue s r) := by
  unfold readX xValue
  by_cases hr : r = 0
  · rw [if_pos hr, if_pos hr]
  · have hv : s.xValid[r.toNat]'r.isLt = true := by simpa [Source.unwritten, show r ≠ 0#4 from hr] using h
    rw [if_neg hr, if_neg hr, if_pos hv]

theorem readX_unwritten (s : State) (r : RegNo) (h : (Source.x r).unwritten s = true) :
    readX s r = .error ⟨.unwrittenRegister, (Source.x r).finfo⟩ := by
  simp [Source.unwritten] at h
  simp [readX, h, Source.finfo]

theorem readX_eq_ok (s : State) (r : RegNo) (v : Word64) (h : readX s r = .ok v) :
    (Source.x r).unwritten s = false ∧ v = xValue s r := by
  unfold readX at h
  split at h
  · rename_i hr; subst hr; simp_all [Source.unwritten, xValue]
  · split at h <;> simp_all [Source.unwritten, xValue]

theorem readF_written (s : State) (r : RegNo) (h : (Source.f r).unwritten s = false) :
    readF s r = .ok (s.f[r.toNat]'r.isLt) := by
  simp [Source.unwritten] at h
  simp [readF, h]

theorem readF_unwritten (s : State) (r : RegNo) (h : (Source.f r).unwritten s = true) :
    readF s r = .error ⟨.unwrittenRegister, (Source.f r).finfo⟩ := by
  simp [Source.unwritten] at h
  simp [readF, h, Source.finfo]

theorem readF_eq_ok (s : State) (r : RegNo) (v : FieldWord) (h : readF s r = .ok v) :
    (Source.f r).unwritten s = false ∧ v = s.f[r.toNat]'r.isLt := by
  unfold readF at h
  split at h <;> simp_all [Source.unwritten]

theorem readV_written (s : State) (r : RegNo) (h : (Source.v r).unwritten s = false) :
    readV s r = .ok s.v[vIndex r] := by
  simp [Source.unwritten] at h
  simp [readV, h]

theorem readV_unwritten (s : State) (r : RegNo) (h : (Source.v r).unwritten s = true) :
    readV s r = .error ⟨.unwrittenRegister, (Source.v r).finfo⟩ := by
  simp [Source.unwritten] at h
  simp [readV, h, Source.finfo]

theorem readV_eq_ok (s : State) (r : RegNo) (v : VReg) (h : readV s r = .ok v) :
    (Source.v r).unwritten s = false ∧ v = s.v[vIndex r] := by
  unfold readV at h
  split at h <;> simp_all [Source.unwritten]

/-- A register read after a write of that register. -/
theorem readF_writeF (s : State) (r : RegNo) (v : FieldWord) : readF (s.writeF r v) r = .ok v := by
  simp [readF]

theorem readV_writeV (s : State) (r : RegNo) (v : VReg) : readV (s.writeV r v) r = .ok v := by
  simp [readV]

theorem readX_writeX (s : State) (r : RegNo) (v : Word64) :
    readX (s.writeX r v) r = .ok (if r = 0 then 0 else v) := by
  by_cases h : r = 0
  · rw [readX, if_pos h, if_pos h]
  · rw [readX, if_neg h, if_neg h, State.writeX, if_neg h]
    simp

@[simp] theorem readF_advance (s : State) (r : RegNo) : readF s.advance r = readF s r := rfl
@[simp] theorem readV_advance (s : State) (r : RegNo) : readV s.advance r = readV s r := rfl
@[simp] theorem readX_advance (s : State) (r : RegNo) : readX s.advance r = readX s r := rfl

/-! ### Addresses -/

/-- Everything `accessAddr` can answer. -/
theorem accessAddr_eq (s : State) (a : RegNo) (imm : BitVec 18) (size : Nat) (base : Word64)
    (hx : readX s a = .ok base) :
    accessAddr s a imm size =
      if (effectiveAddr base imm).toNat % 8 = 0 then
        if (effectiveAddr base imm).toNat + size ≤ s.dmemBytes then .ok (effectiveAddr base imm).toNat
        else .error ⟨.dataRange, effectiveAddr base imm⟩
      else .error ⟨.misaligned, effectiveAddr base imm⟩ := by
  simp only [accessAddr, hx, ok_bind, checkAligned, checkRange, require]
  split
  · simp only [ok_bind]
    split <;> rfl
  · rfl

/-! ### Frames -/

theorem HostSideSame.refl (s : State) : HostSideSame s s := by constructor <;> rfl

/-- An update that leaves pc alone, followed by an advance, advances pc: by 4, as a mathematical integer, from every
address below `2^32`. -/
theorem advanced_of {s u : State} (hpc : u.pc = s.pc) (hc : u.pcCarry = s.pcCarry) : Advanced s u.advance := by
  have hlt := s.pc.isLt
  have h4 : (4 : BitVec 32).toNat = 4 := rfl
  refine ⟨by rw [State.advance_pc, hpc], by rw [State.advance_pcCarry, hpc, hc], fun h => ?_⟩
  have hs : s.pcCarry = false := by
    cases he : s.pcCarry
    · rfl
    · simp [State.pcAddr, he] at h
  simp only [State.pcAddr, State.advance_pc, State.advance_pcCarry, hpc, hc, hs, Bool.false_or, decide_eq_true_eq,
    BitVec.toNat_add, Bool.false_eq_true, if_false]
  split <;> omega

/-- An advance changes pc alone. -/
theorem frame_advance (s : State) : Frame s s.advance [] [] [] noByte := by
  constructor
  case pc => exact advanced_of rfl rfl
  all_goals ((try constructor) <;> intros <;> rfl)

theorem frame_writeF (s : State) (r : RegNo) (v : FieldWord) :
    Frame s (s.writeF r v).advance [r] [] [] noByte := by
  constructor
  case pc => exact advanced_of rfl rfl
  all_goals ((try constructor) <;> intros <;> (try rfl))
  rename_i r' h
  have h' : r.toNat ≠ r'.toNat := by
    intro e; exact h (by simp [BitVec.eq_of_toNat_eq e.symm])
  simp [fCell, h']

theorem frame_writeV (s : State) (r : RegNo) (v : VReg) :
    Frame s (s.writeV r v).advance [] [] [vIndex r] noByte := by
  constructor
  case pc => exact advanced_of rfl rfl
  all_goals ((try constructor) <;> intros <;> (try rfl))
  rename_i r' h
  have h' : (vIndex r).val ≠ r'.val := by
    intro e; exact h (by simp [Fin.ext e])
  simp [vCell, h']

theorem frame_writeX (s : State) (r : RegNo) (v : Word64) :
    Frame s (s.writeX r v).advance [] (xDest r) [] noByte := by
  by_cases h0 : r = 0
  · simp only [State.writeX, h0, if_true, xDest]
    exact frame_advance s
  · rw [State.writeX, xDest, if_neg h0, if_neg h0]
    constructor
    case pc => exact advanced_of rfl rfl
    all_goals ((try constructor) <;> intros <;> (try rfl))
    rename_i r' h
    have h' : r.toNat ≠ r'.toNat := by
      intro e; exact h (by simp [BitVec.eq_of_toNat_eq e.symm])
    simp [xCell, h']

theorem frame_store (s : State) (a : Nat) (bs : List Byte) (n : Nat) (hn : bs.length = n) :
    Frame s (s.store a bs).advance [] [] [] (bytesAt a n) := by
  subst hn
  constructor
  case pc => exact advanced_of rfl rfl
  all_goals ((try constructor) <;> intros <;> (try rfl))
  rename_i k h
  exact readByte_writeBytes_outside s.dmem a bs k h

end Sys2Proof.Machine
end

