-- ==== Sys2Proof/Laws/Arith.lean ====
section
/-! SUPPORT. What each function of the field arithmetic answers, said once: CIOS, the reductions, Bar and the
rounds of the compression. -/

namespace Sys2Proof.Machine

theorem p_lt : 4 * p < 2 ^ 256 := by decide

theorem p_pos : 0 < p := by decide

theorem redpMax_lt : Spec.redpMax < 2 * p := by decide

theorem coprime_p_montR : Nat.Coprime p (2 ^ 256) := by
  apply Nat.Coprime.pow_right
  decide

/-! ### CIOS -/

/-- One iteration: the exact division of `t + limb * b + m * p` by `2^64`. -/
theorem ciosStep_spec (a b t i : Nat) :
    ∃ m, m < 2 ^ 64 ∧ ciosStep a b t i * 2 ^ 64 = t + limb i a * b + m * p := by
  refine ⟨(t + limb i a * b) % 2 ^ 64 * mu0 % 2 ^ 64, Nat.mod_lt _ (by norm_num), ?_⟩
  simp only [ciosStep]
  set u := t + limb i a * b
  apply Nat.div_mul_cancel
  have h : (u + u % 2 ^ 64 * mu0 % 2 ^ 64 * p) % 2 ^ 64 = 0 := by
    have hp : p * mu0 + 1 ≡ 0 [MOD 2 ^ 64] := by decide
    have h1 : u % 2 ^ 64 * mu0 % 2 ^ 64 * p ≡ u * mu0 * p [MOD 2 ^ 64] :=
      Nat.ModEq.mul_right _ ((Nat.mod_modEq _ _).trans ((Nat.mod_modEq _ _).mul_right _))
    have h2 : u + u % 2 ^ 64 * mu0 % 2 ^ 64 * p ≡ u * (p * mu0 + 1) [MOD 2 ^ 64] := by
      calc _ ≡ u + u * mu0 * p [MOD 2 ^ 64] := Nat.ModEq.add_left _ h1
        _ = u * (p * mu0 + 1) := by ring
    simpa [Nat.ModEq] using h2.trans (Nat.ModEq.mul_left u hp)
  exact Nat.dvd_of_mod_eq_zero h

theorem limbs_sum (a : Nat) (h : a < 2 ^ 256) :
    limb 0 a + limb 1 a * 2 ^ 64 + limb 2 a * 2 ^ 128 + limb 3 a * 2 ^ 192 = a := by
  simp only [limb]
  omega

/-- Four chained iterations. -/
theorem ciosStep_chain (t0 t1 t2 t3 a0 a1 a2 a3 b n m0 m1 m2 m3 : Nat) (e0 : t0 * 2 ^ 64 = a0 * b + m0 * n)
    (e1 : t1 * 2 ^ 64 = t0 + a1 * b + m1 * n) (e2 : t2 * 2 ^ 64 = t1 + a2 * b + m2 * n)
    (e3 : t3 * 2 ^ 64 = t2 + a3 * b + m3 * n) :
    t3 * 2 ^ 256 = (a0 + a1 * 2 ^ 64 + a2 * 2 ^ 128 + a3 * 2 ^ 192) * b +
      (m0 + m1 * 2 ^ 64 + m2 * 2 ^ 128 + m3 * 2 ^ 192) * n := by
  have h1 : (2 : Nat) ^ 256 = 2 ^ 64 * 2 ^ 64 * 2 ^ 64 * 2 ^ 64 := by norm_num
  have h2 : (2 : Nat) ^ 128 = 2 ^ 64 * 2 ^ 64 := by norm_num
  have h3 : (2 : Nat) ^ 192 = 2 ^ 64 * 2 ^ 64 * 2 ^ 64 := by norm_num
  rw [h1, h2, h3]
  generalize (2 : Nat) ^ 64 = B at *
  calc t3 * (B * B * B * B) = (t3 * B) * (B * B * B) := by ring
    _ = (t2 * B) * (B * B) + (a3 * b + m3 * n) * (B * B * B) := by rw [e3]; ring
    _ = (t1 * B) * B + (a2 * b + m2 * n) * (B * B) + (a3 * b + m3 * n) * (B * B * B) := by rw [e2]; ring
    _ = t0 * B + (a1 * b + m1 * n) * B + (a2 * b + m2 * n) * (B * B) + (a3 * b + m3 * n) * (B * B * B) := by
        rw [e1]; ring
    _ = _ := by rw [e0]; ring

/-- `cios a b` is the exact quotient by `2^256`. -/
theorem cios_spec (a b : Nat) (h : a < 2 ^ 256) : ∃ m, m < 2 ^ 256 ∧ cios a b * 2 ^ 256 = a * b + m * p := by
  unfold cios
  have ha := limbs_sum a h
  obtain ⟨m0, h0, e0⟩ := ciosStep_spec a b 0 0
  rw [Nat.zero_add] at e0
  generalize ciosStep a b 0 0 = t0 at *
  obtain ⟨m1, h1, e1⟩ := ciosStep_spec a b t0 1
  generalize ciosStep a b t0 1 = t1 at *
  obtain ⟨m2, h2, e2⟩ := ciosStep_spec a b t1 2
  generalize ciosStep a b t1 2 = t2 at *
  obtain ⟨m3, h3, e3⟩ := ciosStep_spec a b t2 3
  generalize ciosStep a b t2 3 = t3 at *
  refine ⟨m0 + m1 * 2 ^ 64 + m2 * 2 ^ 128 + m3 * 2 ^ 192, by omega, ?_⟩
  conv_rhs => rw [← ha]
  exact ciosStep_chain t0 t1 t2 t3 _ _ _ _ b p m0 m1 m2 m3 e0 e1 e2 e3

/-! ### Reduction -/

theorem reducePartial_eq (x : Nat) (h : x < 2 ^ 256) : reducePartial x = Spec.reducePartial x := by
  simp only [reducePartial, Spec.reducePartial, multTable, redIndex]
  congr 3
  simp only [limb]
  omega

/-- The multiple that partial reduction subtracts is at most the value, and the rest at most `REDP_MAX`. -/
theorem spec_reducePartial_le (x : Nat) (h : x < 2 ^ 256) :
    Spec.reducePartial x ≤ Spec.redpMax ∧ x / 2 ^ 192 / (0x30644e72e131a029 + 1) * p ≤ x := by
  simp only [Spec.reducePartial, Spec.redpMax]
  have hk : x / 2 ^ 192 / (0x30644e72e131a029 + 1) < 6 := by omega
  have hx := Nat.div_add_mod x (2 ^ 192)
  have : p = 0x30644e72e131a029b85045b68181585d2833e84879b9709143e1f593f0000001 := rfl
  rw [this]
  generalize hkk : x / 2 ^ 192 / (0x30644e72e131a029 + 1) = k at *
  interval_cases k <;> omega

theorem spec_reducePartial_mod (x : Nat) (h : x < 2 ^ 256) : Spec.reducePartial x % p = x % p := by
  have := (spec_reducePartial_le x h).2
  simp only [Spec.reducePartial]
  generalize x / 2 ^ 192 / (0x30644e72e131a029 + 1) = k at *
  conv_rhs => rw [← Nat.sub_add_cancel this]
  exact (Nat.add_mul_mod_self_right _ _ _).symm

theorem reduce1_eq (x : Nat) (h : x < 2 ^ 256) : reduce1 x = if p ≤ x then x - p else x := by
  simp only [reduce1, subBorrow256]
  have hp := p_lt
  by_cases hx : x < p
  · simp [hx]
    try omega
  · simp [hx, Nat.not_lt.mp hx]
    have : x + 2 ^ 256 - p = (x - p) + 2 ^ 256 := by omega
    norm_num at this ⊢
    omega

/-- One conditional subtraction is the canonical representative of a value below `2p`. -/
theorem reduce1_mod (x : Nat) (h : x < 2 * p) : reduce1 x = x % p := by
  have hp := p_lt
  rw [reduce1_eq _ (by omega)]
  split
  · rw [Nat.mod_eq_sub_mod (by assumption), Nat.mod_eq_of_lt (by omega)]
  · rw [Nat.mod_eq_of_lt (by omega)]

theorem reduce_eq (x : Nat) (h : x < 2 ^ 256) : reduce x = x % p := by
  rw [reduce, reducePartial_eq x h, ← spec_reducePartial_mod x h]
  have h1 := (spec_reducePartial_le x h).1
  have := redpMax_lt
  exact reduce1_mod _ (by omega)

theorem State.rc_lt (s : State) (h : Spec.rcLegal s) (i : Nat) : s.rc i < p := by
  unfold State.rc
  split
  · decide
  · split
    · rename_i h2
      exact h ⟨i - 2, by omega⟩
    · decide

theorem reducePartialAddRc_eq (rc : Nat → Nat) (i x : Nat) (hr : rc i < p) (h : x < 2 ^ 256) :
    reducePartialAddRc rc x i =
      if 2 * p ≤ Spec.reducePartial x + rc i then .error i else .ok (Spec.reducePartial x + rc i) := by
  have hp := p_lt
  have hm := redpMax_lt
  obtain ⟨h1, h2⟩ := spec_reducePartial_le x h
  have hi : redIndex x = x / 2 ^ 192 / (0x30644e72e131a029 + 1) := by
    have hp3 : p3 = 0x30644e72e131a029 := by decide
    rw [redIndex, hp3]
    simp only [limb]
    omega
  have e : (x + 2 ^ 256 - mnrc rc (redIndex x) i) % 2 ^ 256 = Spec.reducePartial x + rc i := by
    rw [mnrc, multTable, hi]
    simp only [Spec.reducePartial] at *
    generalize x / 2 ^ 192 / (0x30644e72e131a029 + 1) * p = kp at *
    omega
  simp only [reducePartialAddRc, e]

/-! ### Bar -/

theorem getElem_leBytes (n v j : Nat) (h : j < (leBytes n v).length) :
    (leBytes n v)[j] = BitVec.ofNat 8 (byteOf v j) := by
  have h' : j < n := by simpa using h
  have := getD_leBytes n v j h'
  apply BitVec.eq_of_toNat_eq
  rw [List.getD_eq_getElem _ _ h] at this
  rw [this]
  simp [byteOf]

theorem byteOf_low (A B n j : Nat) (h : j < n) : byteOf (A + B * 256 ^ n) j = byteOf A j := by
  obtain ⟨k, rfl⟩ : ∃ k, n = j + 1 + k := ⟨n - j - 1, by omega⟩
  have e : A + B * 256 ^ (j + 1 + k) = A + 256 ^ j * (256 * (B * 256 ^ k)) := by ring
  rw [byteOf, byteOf, e, Nat.add_mul_div_left _ _ (by positivity), Nat.add_mul_mod_self_left]

theorem byteOf_high (A B n j : Nat) (h : n ≤ j) (hA : A < 256 ^ n) : byteOf (A + B * 256 ^ n) j = byteOf B (j - n) := by
  obtain ⟨k, rfl⟩ : ∃ k, j = n + k := ⟨j - n, by omega⟩
  rw [byteOf, byteOf, Nat.pow_add, ← Nat.div_div_eq_div_mul, Nat.add_mul_div_right _ _ (by positivity),
    Nat.div_eq_of_lt hA]
  simp

/-- The swap moves byte `j` sixteen places round. -/
theorem byteOf_swap16 (y j : Nat) (h : y < 2 ^ 256) (hj : j < 32) :
    byteOf (swap16 y) j = byteOf y ((j + 16) % 32) := by
  have e : (256 : Nat) ^ 16 = 2 ^ 128 := by norm_num
  have hy : y = y % 2 ^ 128 + y / 2 ^ 128 * 256 ^ 16 := by rw [e]; omega
  have hs : swap16 y = y / 2 ^ 128 + y % 2 ^ 128 * 256 ^ 16 := by rw [e]; rfl
  rw [hs]
  conv_rhs => rw [hy]
  have h1 : y / 2 ^ 128 < 256 ^ 16 := by rw [e]; omega
  have h2 : y % 2 ^ 128 < 256 ^ 16 := by rw [e]; omega
  by_cases hj2 : j < 16
  · rw [byteOf_low _ _ _ _ hj2, show (j + 16) % 32 = j + 16 by omega, byteOf_high _ _ _ _ (by omega) h2]
    congr 1
  · rw [byteOf_high _ _ _ _ (by omega) h1, show (j + 16) % 32 = j - 16 by omega, byteOf_low _ _ _ _ (by omega)]

theorem sboxBytes_lt (z : Nat) : sboxBytes z < 2 ^ 256 := by
  rw [sboxBytes]
  have := leNat_lt ((leBytes 32 z).map sbox)
  simpa using this

theorem byteOf_sboxBytes (z j : Nat) (h : j < 32) :
    byteOf (sboxBytes z) j = (sbox (BitVec.ofNat 8 (byteOf z j))).toNat := by
  rw [sboxBytes, byteOf_leNat, List.getD_eq_getElem?_getD, List.getElem?_map,
    List.getElem?_eq_getElem (by simpa using h), getElem_leBytes]
  simp only [Option.map_some, Option.getD_some]

theorem bar_eq (x : Nat) (h : x < 2 * p) : bar x = Spec.reducePartial (sboxBytes (swap16 (x % p))) := by
  rw [bar, reduce1_mod x h, reducePartial_eq _ (sboxBytes_lt _)]

/-! ### The rounds -/

/-- One round with a square or a Bar below `2p`. -/
theorem skyRound_eq (sq rc : Nat → Nat) (i l r : Nat) (hrc : rc i < p) (hf : skyF sq i l < 2 * p) (hr : r < 2 * p) :
    skyRound sq rc i (l, r) =
      if 2 * p ≤ Spec.reducePartial (r + skyF sq i l) + rc i then .error i
      else .ok (Spec.reducePartial (r + skyF sq i l) + rc i, l) := by
  have hp := p_lt
  have h := reducePartialAddRc_eq rc i (r + skyF sq i l) hrc (by omega)
  unfold skyRound
  rw [h]
  by_cases h2 : 2 * p ≤ Spec.reducePartial (r + skyF sq i l) + rc i
  · rw [if_pos h2, if_pos h2, error_bind]
  · rw [if_neg h2, if_neg h2, ok_bind, pure_eq_ok]

/-- Rounds of a list in two parts. -/
theorem skyRounds_append (sq rc : Nat → Nat) (a b : List Nat) (lr : Nat × Nat) :
    skyRounds sq rc (a ++ b) lr = skyRounds sq rc a lr >>= skyRounds sq rc b := by
  induction a generalizing lr with
  | nil => rw [List.nil_append, skyRounds, ok_bind]
  | cons i a ih =>
    rw [List.cons_append, skyRounds, skyRounds]
    cases skyRound sq rc i lr with
    | ok x => rw [ok_bind, ok_bind, ih]
    | error e => rw [error_bind, error_bind, error_bind]

end Sys2Proof.Machine
end

