-- ==== Sys2Proof/Laws/Checks.lean ====
section
/-! SUPPORT. What each check of Machine/Operands.lean answers, against the lists of checks of Safety.lean: a body
that passes where every check of a list holds, and raises the first that fails. -/

namespace Sys2Proof.Machine

/-! ### Lists of checks -/

theorem checksHold_append (cs ds : List Check) : checksHold (cs ++ ds) ↔ checksHold cs ∧ checksHold ds := by
  simp only [checksHold, List.mem_append]
  exact ⟨fun h => ⟨fun k hk => h k (.inl hk), fun k hk => h k (.inr hk)⟩,
    fun h k hk => hk.elim (h.1 k) (h.2 k)⟩

theorem checksHold_cons (k : Check) (cs : List Check) : checksHold (k :: cs) ↔ k.holds ∧ checksHold cs := by
  simp only [checksHold, List.mem_cons, forall_eq_or_imp]

theorem checksHold_nil : checksHold [] := by simp [checksHold]

theorem checksHold_map (n : Nat) (g : Nat → Check) (h : ∀ j, j < n → (g j).holds) :
    checksHold ((List.range n).map g) := by
  intro k hk
  obtain ⟨j, hj, rfl⟩ := List.mem_map.1 hk
  exact h j (List.mem_range.1 hj)

theorem firstFails_append (cs ds : List Check) (c : Cause) (info : Word64) :
    firstFails (cs ++ ds) c info ↔ firstFails cs c info ∨ checksHold cs ∧ firstFails ds c info := by
  induction cs with
  | nil => simp [firstFails, checksHold]
  | cons k ks ih =>
    simp only [List.cons_append, firstFails, ih, checksHold_cons]
    tauto

/-- Either every check of a list holds or a first one fails. -/
theorem holds_or_fails (cs : List Check) : checksHold cs ∨ ∃ c info, firstFails cs c info := by
  induction cs with
  | nil => exact .inl checksHold_nil
  | cons k ks ih =>
    by_cases hk : k.holds
    · rcases ih with h | ⟨c, info, h⟩
      · exact .inl ((checksHold_cons _ _).2 ⟨hk, h⟩)
      · exact .inr ⟨c, info, .inr ⟨hk, h⟩⟩
    · exact .inr ⟨_, _, .inl ⟨hk, rfl, rfl⟩⟩

/-- `body` makes the checks `cs`: where they all hold it answers a value with the property `Q`, and otherwise it
raises the first that fails. -/
def Decides {α : Type} (body : Except Raise α) (cs : List Check) (Q : α → Prop) : Prop :=
  (checksHold cs → ∃ a, body = .ok a ∧ Q a) ∧ ∀ c info, firstFails cs c info → body = .error ⟨c, info⟩

theorem Decides.ok {α : Type} {a : α} {Q : α → Prop} (h : Q a) : Decides (.ok a) [] Q :=
  ⟨fun _ => ⟨a, rfl, h⟩, fun _ _ h => h.elim⟩

/-- A body that is known to answer a value makes no check. -/
theorem Decides.of_eq {α : Type} {body : Except Raise α} {a : α} {Q : α → Prop} (e : body = .ok a) (h : Q a) :
    Decides body [] Q := e ▸ Decides.ok h

/-- Bodies in sequence. -/
theorem Decides.bind {α β : Type} {x : Except Raise α} {f : α → Except Raise β} {cs ds : List Check} {P : α → Prop}
    {Q : β → Prop} (hx : Decides x cs P) (hf : ∀ a, P a → Decides (f a) ds Q) :
    Decides (x >>= f) (cs ++ ds) Q := by
  constructor
  · intro h
    obtain ⟨h1, h2⟩ := (checksHold_append _ _).1 h
    obtain ⟨a, e, ha⟩ := hx.1 h1
    obtain ⟨b, e', hb⟩ := (hf a ha).1 h2
    exact ⟨b, by rw [e, ok_bind, e'], hb⟩
  · intro c info h
    rcases (firstFails_append _ _ _ _).1 h with h | ⟨h1, h2⟩
    · rw [hx.2 c info h, error_bind]
    · obtain ⟨a, e, ha⟩ := hx.1 h1
      rw [e, ok_bind, (hf a ha).2 c info h2]

theorem Decides.require {ok : Prop} [Decidable ok] (c : Cause) (info : Word64) :
    Decides (require ok c info) [⟨ok, c, info⟩] fun _ => ok := by
  constructor
  · intro h
    have h : ok := ((checksHold_cons _ _).1 h).1
    exact ⟨(), require_of h c info, h⟩
  · rintro c' info' (⟨h, rfl, rfl⟩ | ⟨_, h⟩)
    · exact require_of_not h _ _
    · exact h.elim

/-- A guard before a body: it holds, or it is the first that fails. -/
theorem Decides.guard {β : Type} {ok : Prop} [Decidable ok] {c : Cause} {info : Word64} {f : Unit → Except Raise β}
    {ds : List Check} {Q : β → Prop} (hf : ok → Decides (f ()) ds Q) :
    Decides (Machine.require ok c info >>= f) (⟨ok, c, info⟩ :: ds) Q := by
  by_cases h : ok
  · rw [require_of h, ok_bind]
    constructor
    · intro hc
      exact (hf h).1 ((checksHold_cons _ _).1 hc).2
    · rintro c' info' (⟨hn, _⟩ | ⟨_, h2⟩)
      · exact (hn h).elim
      · exact (hf h).2 _ _ h2
  · rw [require_of_not h, error_bind]
    constructor
    · intro hc
      exact (h ((checksHold_cons _ _).1 hc).1).elim
    · rintro c' info' (⟨_, rfl, rfl⟩ | ⟨hk, _⟩)
      · rfl
      · exact (h hk).elim

/-- The checks of a list may be replaced by equal ones. -/
theorem Decides.cast {α : Type} {body : Except Raise α} {cs ds : List Check} {Q : α → Prop} (h : Decides body cs Q)
    (e : cs = ds) : Decides body ds Q := e ▸ h

/-- A weaker property of the answer. -/
theorem Decides.mono {α : Type} {body : Except Raise α} {cs : List Check} {P Q : α → Prop} (h : Decides body cs P)
    (w : checksHold cs → ∀ a, P a → Q a) : Decides body cs Q :=
  ⟨fun hc => let ⟨a, e, ha⟩ := h.1 hc; ⟨a, e, w hc a ha⟩, h.2⟩

/-- An `if` on the condition of a check. -/
theorem Decides.ite {α : Type} {ok : Prop} [Decidable ok] {c : Cause} {info : Word64} {body : Except Raise α}
    {ds : List Check} {Q : α → Prop} (hf : ok → Decides body ds Q) :
    Decides (if ok then body else .error ⟨c, info⟩) (⟨ok, c, info⟩ :: ds) Q := by
  by_cases h : ok
  · rw [if_pos h]
    constructor
    · intro hc
      exact (hf h).1 ((checksHold_cons _ _).1 hc).2
    · rintro c' info' (⟨hn, _⟩ | ⟨_, h2⟩)
      · exact (hn h).elim
      · exact (hf h).2 _ _ h2
  · rw [if_neg h]
    constructor
    · intro hc
      exact (h ((checksHold_cons _ _).1 hc).1).elim
    · rintro c' info' (⟨_, rfl, rfl⟩ | ⟨hk, _⟩)
      · rfl
      · exact (h hk).elim

/-! ### The end of an instruction -/

/-- A well-formed instruction whose body makes the checks `cs`. -/
theorem execute_decides (i : Instr) (s : State) (body : Except Raise State) (cs : List Check) (Q : State → Prop)
    (hw : i.wellFormed = true) (hx : exec i s = execute i s body) (h : Decides body cs Q) :
    (checksHold cs → ∃ u, exec i s = .next u.advance ∧ Q u) ∧
      ∀ c info, firstFails cs c info → Faults i s c info := by
  constructor
  · intro hc
    obtain ⟨u, e, hu⟩ := h.1 hc
    exact ⟨u, by rw [hx, e, execute_ok _ _ _ hw], hu⟩
  · intro c info hf
    exact faults_of i s body c info hx hw (h.2 c info hf)

/-! ### Registers -/

/-- The group read answers the registers from `r` on. -/
theorem readGroup_written (s : State) (n : Nat) : ∀ r : RegNo,
    (∀ k, k < n → (Source.f (r + BitVec.ofNat 4 k)).unwritten s = false) →
    readGroup s r n = .ok ((List.range n).map fun k => s.f[(r + BitVec.ofNat 4 k).toNat]'(r + BitVec.ofNat 4 k).isLt) := by
  induction n with
  | zero => intro r _; rfl
  | succ n ih =>
    intro r h
    have h0 := h 0 (by omega)
    rw [show r + BitVec.ofNat 4 0 = r by simp] at h0
    have e : ∀ k, r + 1 + BitVec.ofNat 4 k = r + BitVec.ofNat 4 (k + 1) := by
      intro k
      apply BitVec.eq_of_toNat_eq
      simp [BitVec.toNat_add]
      omega
    have hs := ih (r + 1) (fun k hk => by rw [e]; exact h (k + 1) (by omega))
    simp only [readGroup, readF_written s r h0, hs]
    rw [List.range_succ_eq_map, List.map_cons, List.map_map]
    congr 2
    · simp
    · apply List.map_congr_left
      intro k _
      simp only [Function.comp, e]

/-! ### Limbs -/

theorem checkLimbs_decides (xs : List Word64) :
    Decides (checkLimbs xs) (xs.map fun x => ⟨x.toNat < 2 ^ 52, .operandBound, 0⟩) fun _ => True := by
  induction xs with
  | nil => exact Decides.ok trivial
  | cons x xs ih => exact Decides.ite fun _ => ih

theorem checkLimbPairs_decides (xys : List (Word64 × Word64)) :
    Decides (checkLimbPairs xys) (xys.flatMap fun xy =>
      [⟨xy.1.toNat < 2 ^ 52, .operandBound, 0⟩, ⟨xy.2.toNat < 2 ^ 52, .operandBound, 1⟩]) fun _ => True := by
  induction xys with
  | nil => exact Decides.ok trivial
  | cons x xs ih => exact Decides.ite fun _ => Decides.ite fun _ => ih

theorem length_limbs (r : VReg) : r.limbs.length = 10 := by simp [VReg.limbs]

/-- Limb `k` of a register in the unit's order. -/
theorem getElem_limbs (r : VReg) (k : Fin 10) :
    r.limbs[k.val]'(by rw [length_limbs]; exact k.isLt) = (r.lane[k.val / 5]'(by omega))[k.val % 5] := by
  fin_cases k <;> simp [VReg.limbs]

theorem limbs_eq (r : VReg) :
    r.limbs = (List.finRange 10).map fun k : Fin 10 => (r.lane[k.val / 5]'(by omega))[k.val % 5] := by
  apply List.ext_getElem
  · simp [length_limbs]
  · intro i h1 h2
    rw [length_limbs] at h1
    rw [getElem_limbs r ⟨i, h1⟩]
    simp

/-- The limb check of VSQR is that of `Spec.checks`. -/
theorem checkLimbs_register (s : State) (r : RegNo) :
    Decides (checkLimbs (s.v[vIndex r]).limbs)
      ((List.finRange 10).map fun k => ⟨limbAt s r k < 2 ^ 52, .operandBound, 0⟩) fun _ => True := by
  refine (checkLimbs_decides _).cast ?_
  rw [limbs_eq, List.map_map]
  rfl

/-- The limb check of VMUL is that of `Spec.checks`. -/
theorem checkLimbPairs_registers (s : State) (a b : RegNo) :
    Decides (checkLimbPairs ((s.v[vIndex a]).limbs.zip (s.v[vIndex b]).limbs))
      ((List.finRange 10).flatMap fun k =>
        [⟨limbAt s a k < 2 ^ 52, .operandBound, 0⟩, ⟨limbAt s b k < 2 ^ 52, .operandBound, 1⟩]) fun _ => True := by
  refine (checkLimbPairs_decides _).cast ?_
  rw [limbs_eq, limbs_eq, List.zip_map', List.flatMap_map]
  rfl

/-! ### Products -/

theorem checkProducts_decides (xys : List (FieldWord × FieldWord)) : ∀ i,
    Decides (checkProducts i xys) ((xys.zipIdx i).map fun e =>
      ⟨productBounded e.1.1 e.1.2, .operandBound, BitVec.ofNat 64 e.2⟩) fun _ => True := by
  induction xys with
  | nil => intro i; exact Decides.ok trivial
  | cons x xs ih => intro i; exact Decides.ite fun _ => ih (i + 1)

/-- The product checks of a block on the registers from `a` and from `b` on. -/
theorem checkProducts_registers (n : Nat) (x y : Nat → FieldWord) :
    Decides (checkProducts 0 (((List.range n).map x).zip ((List.range n).map y)))
      ((List.range n).map fun k => ⟨(x k).toNat * (y k).toNat < p * 2 ^ 256, .operandBound, BitVec.ofNat 64 k⟩)
      fun _ => True := by
  refine (checkProducts_decides _ 0).cast ?_
  rw [List.zip_map']
  apply List.ext_getElem
  · simp
  · intro i h1 h2
    simp [montR]

/-- The results of a block, pair by pair. -/
theorem blockResults_eq (lane : FieldWord → FieldWord → FieldWord) (scalars : Nat) (xys : List (FieldWord × FieldWord)) :
    blockResults lane scalars xys = xys.zipIdx.map fun e =>
      if e.2 < scalars then BitVec.ofNat 256 (cios e.1.1.toNat e.1.2.toNat) else lane e.1.1 e.1.2 := by
  have gen : ∀ (xys : List (FieldWord × FieldWord)) (n i : Nat), blockResults lane n xys = (xys.zipIdx i).map fun e =>
      if e.2 < n + i then BitVec.ofNat 256 (cios e.1.1.toNat e.1.2.toNat) else lane e.1.1 e.1.2 := by
    intro xys
    induction xys with
    | nil => intro n i; cases n <;> rfl
    | cons x xs ih =>
      intro n i
      rw [List.zipIdx_cons, List.map_cons]
      cases n with
      | zero => rw [blockResults, if_neg (by simp), ih 0 (i + 1)]; congr 1; apply List.map_congr_left; intro e he; have := List.le_snd_of_mem_zipIdx he; rw [if_neg (by omega), if_neg (by omega)]
      | succ n => rw [blockResults, if_pos (by simp), ih n (i + 1)]; congr 2; funext e; congr 2; omega
  simpa using gen xys scalars 0

end Sys2Proof.Machine
end

