-- ==== Sys2Proof/Laws/Buffers.lean ====
section
/-! SUPPORT. Buffers of field elements and vectors of CM31 elements in data memory: what reading one checks and
answers, and what a stored one reads as; and groups of field registers. -/

namespace Sys2Proof.Machine

/-! ### Field elements -/

theorem range_succ_map {α : Type} (n : Nat) (f : Nat → α) :
    (List.range (n + 1)).map f = f 0 :: (List.range n).map fun k => f (k + 1) := by
  rw [List.range_succ_eq_map, List.map_cons, List.map_map]
  rfl

/-- The `n` message pairs at `a`: their addresses and elements, each element below `p`. -/
theorem readPairs_decides (m : Memory) (n : Nat) : ∀ a,
    Decides (readPairs m a n)
      ((List.range (2 * n)).map fun k => ⟨memRead m (a + 32 * k) 32 < p, .operandBound, BitVec.ofNat 64 (a + 32 * k)⟩)
      fun ps => ps = (List.range n).map fun j =>
        (a + 64 * j, memRead m (a + 32 * (2 * j)) 32, memRead m (a + 32 * (2 * j + 1)) 32) := by
  induction n with
  | zero => intro a; exact Decides.ok rfl
  | succ n ih =>
    intro a
    rw [show 2 * (n + 1) = 2 * n + 1 + 1 by omega, range_succ_map, range_succ_map]
    refine Decides.ite fun _ => Decides.ite fun _ => ?_
    have h := ih (a + 64)
    have e : ∀ k, a + 32 * (k + 1 + 1) = a + 64 + 32 * k := by intro k; omega
    simp only [e]
    constructor
    · intro hc
      obtain ⟨ps, hp, hq⟩ := h.1 hc
      refine ⟨_, by rw [hp], ?_⟩
      rw [range_succ_map, hq]
      simp only [Nat.mul_zero, Nat.add_zero, List.cons.injEq, Nat.zero_add, Nat.mul_one, true_and]
      apply List.map_congr_left
      intro j _
      rw [show a + 64 + 64 * j = a + 64 * (j + 1) by omega, show a + 64 + 32 * (2 * j) = a + 32 * (2 * (j + 1)) by omega,
        show a + 64 + 32 * (2 * j + 1) = a + 32 * (2 * (j + 1) + 1) by omega]
    · intro c info hf
      rw [h.2 c info hf]

/-! ### CM31 elements -/

theorem memRead_split (m : Memory) (a n k : Nat) : memRead m a (n + k) = memRead m a n + 256 ^ n * memRead m (a + n) k := by
  simp only [memRead, readBytes, List.range_add, List.map_append, List.map_map, leNat_append, List.length_map,
    List.length_range, Function.comp_def, Nat.add_assoc]

/-- The element the unit reads is the pair of its two 32-bit parts. -/
theorem cmUnpack_memRead (m : Memory) (a j : Nat) :
    cmUnpack (BitVec.ofNat 64 (memRead m (a + 8 * j) 8)) = Spec.elem m a j := by
  have h := memRead_lt m (a + 8 * j) 8
  have h1 := memRead_lt m (a + 8 * j) 4
  have h2 := memRead_lt m (a + 8 * j + 4) 4
  have e := memRead_split m (a + 8 * j) 4 4
  norm_num at h h1 h2 e
  simp only [cmUnpack, Spec.elem, BitVec.toNat_ofNat, Cm31.mk.injEq]
  omega

/-- The `n` elements of the vector at `a`, each canonical. -/
theorem readElems_decides (m : Memory) (n : Nat) : ∀ a,
    Decides (readElems m a n)
      ((List.range n).map fun j => ⟨(Spec.elem m a j).canonical, .operandBound, BitVec.ofNat 64 (a + 8 * j)⟩)
      fun zs => zs = (List.range n).map (Spec.elem m a) := by
  induction n with
  | zero => intro a; exact Decides.ok rfl
  | succ n ih =>
    intro a
    have e0 := cmUnpack_memRead m a 0
    rw [Nat.mul_zero, Nat.add_zero] at e0
    rw [range_succ_map, readElems, e0]
    refine Decides.ite fun _ => ?_
    have h := ih (a + 8)
    have e : ∀ k, Spec.elem m a (k + 1) = Spec.elem m (a + 8) k := by
      intro k
      simp only [Spec.elem, show a + 8 * (k + 1) = a + 8 + 8 * k by omega]
    have e' : ∀ k, a + 8 * (k + 1) = a + 8 + 8 * k := by intro k; omega
    simp only [e, e']
    constructor
    · intro hc
      obtain ⟨zs, hz, hq⟩ := h.1 hc
      refine ⟨_, by rw [hz], ?_⟩
      rw [range_succ_map, hq]
      congr 1
      apply List.map_congr_left
      intro k _
      rw [e]
    · intro c info hf
      rw [h.2 c info hf]

theorem q_lt : q < 2 ^ 31 := by decide

theorem length_elemBytes (zs : List Cm31) : (elemBytes zs).length = 8 * zs.length := by
  induction zs with
  | nil => rfl
  | cons z zs ih =>
    rw [elemBytes, List.flatMap_cons, List.length_append, length_leBytes]
    rw [elemBytes] at ih
    rw [ih, List.length_cons]
    omega

theorem cmUnpack_cmPack (z : Cm31) (h : z.canonical) : cmUnpack (cmPack z) = z := by
  obtain ⟨h1, h2⟩ := h
  have := q_lt
  cases z with
  | mk re im =>
    simp only [cmPack, cmUnpack, BitVec.toNat_ofNat, Cm31.mk.injEq] at *
    omega

/-- The bytes of element `j` within a packed vector. -/
theorem elemBytes_part (zs : List Cm31) : ∀ j (h : j < zs.length),
    ((elemBytes zs).drop (8 * j)).take 8 = leBytes 8 (cmPack zs[j]).toNat := by
  induction zs with
  | nil => intro j h; simp at h
  | cons z zs ih =>
    intro j h
    rw [elemBytes, List.flatMap_cons]
    cases j with
    | zero => rw [Nat.mul_zero, List.drop_zero, List.take_append_of_le_length (by simp)]; simp [List.take_of_length_le]
    | succ j =>
      rw [show 8 * (j + 1) = (leBytes 8 (cmPack z).toNat).length + 8 * j by simp; omega, List.drop_append]
      have hd : (leBytes 8 (cmPack z).toNat).drop (8 + 8 * j) = [] := List.drop_eq_nil_of_le (by simp)
      simpa [elemBytes, hd] using ih j (by simpa using h)

/-- A packed vector of canonical elements reads back element by element. -/
theorem elem_writeBytes (m : Memory) (e j : Nat) (zs : List Cm31) (h : j < zs.length) (hc : zs[j].canonical) :
    Spec.elem (writeBytes m e (elemBytes zs)) e j = zs[j] := by
  rw [← cmUnpack_memRead, memRead_writeBytes_part _ _ _ _ _ (by rw [length_elemBytes]; omega), elemBytes_part zs j h,
    leNat_leBytes, ← cmUnpack_cmPack zs[j] hc]
  congr 1
  apply BitVec.eq_of_toNat_eq
  have := (cmPack zs[j]).isLt
  rw [cmUnpack_cmPack _ hc, BitVec.toNat_ofNat]
  norm_num at this ⊢
  omega

/-! ### Groups of field registers -/

theorem writeGroup_other (vs : List FieldWord) : ∀ (s : State) (r r' : RegNo),
    (∀ k, k < vs.length → r' ≠ r + BitVec.ofNat 4 k) →
    fCell (s.writeGroup r vs) r' = fCell s r' := by
  induction vs with
  | nil => intro s r r' _; rfl
  | cons v vs ih =>
    intro s r r' h
    have e : ∀ k, r + 1 + BitVec.ofNat 4 k = r + BitVec.ofNat 4 (k + 1) := by
      intro k
      apply BitVec.eq_of_toNat_eq
      simp [BitVec.toNat_add]
      omega
    rw [State.writeGroup, ih _ _ _ (fun k hk => by rw [e]; exact h (k + 1) (by simpa using hk))]
    have h0 := h 0 (by simp)
    rw [show r + BitVec.ofNat 4 0 = r by simp] at h0
    exact (frame_writeF s r v).data.f r' (by simpa using h0)

theorem readF_fCell (s t : State) (r : RegNo) (h : fCell t r = fCell s r) : readF t r = readF s r := by
  simp only [fCell, Prod.mk.injEq] at h
  simp only [readF, h.1, h.2]

/-- Register `r + k` of a written group of at most sixteen. -/
theorem readF_writeGroup (vs : List FieldWord) : ∀ (s : State) (r : RegNo) (k : Nat) (h : k < vs.length),
    vs.length ≤ 16 → readF (s.writeGroup r vs) (r + BitVec.ofNat 4 k) = .ok vs[k] := by
  induction vs with
  | nil => intro s r k h; simp at h
  | cons v vs ih =>
    intro s r k h hl
    rw [State.writeGroup]
    cases k with
    | zero =>
      rw [show r + BitVec.ofNat 4 0 = r by simp]
      rw [readF_fCell _ _ _ (writeGroup_other vs (s.writeF r v) (r + 1) r ?_), readF_writeF]
      · rfl
      · intro k hk hc
        have := congrArg BitVec.toNat hc
        simp [BitVec.toNat_add] at this
        simp at hl
        omega
    | succ k =>
      have e : r + BitVec.ofNat 4 (k + 1) = r + 1 + BitVec.ofNat 4 k := by
        apply BitVec.eq_of_toNat_eq
        simp [BitVec.toNat_add]
        omega
      rw [e, ih _ _ k (by simpa using h) (by simp at hl; omega)]
      rfl

/-- A written group changes nothing but its registers. -/
theorem writeGroup_rest (vs : List FieldWord) : ∀ (s : State) (r : RegNo),
    ∃ f fValid, s.writeGroup r vs = { s with f := f, fValid := fValid } := by
  induction vs with
  | nil => intro s r; exact ⟨s.f, s.fValid, rfl⟩
  | cons v vs ih =>
    intro s r
    obtain ⟨f, g, e⟩ := ih (s.writeF r v) (r + 1)
    exact ⟨f, g, by rw [State.writeGroup, e]; rfl⟩

/-- The frame of a block instruction: the `n` registers from `r` on. -/
theorem frame_writeGroup (s : State) (r : RegNo) (vs : List FieldWord) :
    Frame s (s.writeGroup r vs).advance ((List.range vs.length).map fun k => r + BitVec.ofNat 4 k) [] [] noByte := by
  obtain ⟨f, g, e⟩ := writeGroup_rest vs s r
  have hf : ∀ r', r' ∉ ((List.range vs.length).map fun k => r + BitVec.ofNat 4 k) →
      fCell (s.writeGroup r vs).advance r' = fCell s r' := by
    intro r' h
    refine Eq.trans ?_ (writeGroup_other vs s r r' ?_)
    · rfl
    · intro k hk hc
      exact h (List.mem_map.2 ⟨k, List.mem_range.2 hk, hc.symm⟩)
  constructor
  · rw [e]; constructor <;> rfl
  · exact ⟨hf, by rw [e]; intros; rfl, by rw [e]; intros; rfl, by rw [e]; intros; rfl⟩
  · exact advanced_of (by rw [e]) (by rw [e])
  all_goals rw [e]; rfl

/-! ### Free bytes -/

@[simp] theorem length_freeBytes (k n : Nat) : (freeBytes k n).length = n := by simp [freeBytes]

end Sys2Proof.Machine
end

