-- ==== Sys2Proof/Laws/Cm31.lean ====
section
/-! SUPPORT. The algebra of CM31: the operations as computed, canonical results, powers, and the transform against
the spec's sum; and the transform sizes against the spec's forms. -/

namespace Sys2Proof.Machine

/-! ### The operations -/

theorem modQ_lt (x : Int) : modQ x < q := by
  have h := Int.emod_lt_of_pos x (show (0 : Int) < q by decide)
  have h' := Int.emod_nonneg x (show (q : Int) ≠ 0 by decide)
  simp only [modQ]
  omega

theorem modQ_cast (x : Int) : ((modQ x : Nat) : ZMod q) = (x : ZMod q) := by
  have h' := Int.emod_nonneg x (show (q : Int) ≠ 0 by decide)
  have e : ((modQ x : Nat) : Int) = x % (q : Int) := Int.toNat_of_nonneg h'
  have : (((modQ x : Nat) : Int) : ZMod q) = (x : ZMod q) := by rw [e]; simp
  simpa using this

/-- Integers equal modulo `q` have the same remainder. -/
theorem modQ_congr (x y : Int) (h : (x : ZMod q) = (y : ZMod q)) : modQ x = modQ y := by
  rw [ZMod.intCast_eq_intCast_iff] at h
  unfold modQ
  rw [h]

theorem modQ_of_lt (n : Nat) (h : n < q) : modQ n = n := by
  unfold modQ
  rw [Int.emod_eq_of_lt (by omega) (by omega)]
  rfl

theorem cmAdd_canonical (x y : Cm31) : (cmAdd x y).canonical := by
  simp only [Cm31.canonical, cmAdd]
  exact ⟨modQ_lt _, modQ_lt _⟩

theorem cmMul_canonical (x y : Cm31) : (cmMul x y).canonical := by
  simp only [Cm31.canonical, cmMul]
  exact ⟨modQ_lt _, modQ_lt _⟩

theorem cmOne_canonical : cmOne.canonical := by decide
theorem cmZero_canonical : cmZero.canonical := by decide

theorem cm_ext (a b c d : Int) (h : (a : ZMod q) = c) (h' : (b : ZMod q) = d) :
    (⟨modQ a, modQ b⟩ : Cm31) = ⟨modQ c, modQ d⟩ := by
  rw [modQ_congr a c h, modQ_congr b d h']

theorem cmMul_comm (x y : Cm31) : cmMul x y = cmMul y x := by
  apply cm_ext <;> push_cast <;> ring

theorem cmMul_assoc (x y z : Cm31) : cmMul (cmMul x y) z = cmMul x (cmMul y z) := by
  apply cm_ext <;> simp only [cmMul] <;> push_cast <;> simp only [modQ_cast] <;> push_cast <;> ring

theorem cmAdd_comm (x y : Cm31) : cmAdd x y = cmAdd y x := by
  apply cm_ext <;> push_cast <;> ring

theorem cmAdd_assoc (x y z : Cm31) : cmAdd (cmAdd x y) z = cmAdd x (cmAdd y z) := by
  apply cm_ext <;> simp only [cmAdd] <;> push_cast <;> simp only [modQ_cast] <;> push_cast <;> ring

theorem cmMul_add (x y z : Cm31) : cmMul x (cmAdd y z) = cmAdd (cmMul x y) (cmMul x z) := by
  apply cm_ext <;> simp only [cmAdd, cmMul] <;> push_cast <;> simp only [modQ_cast] <;> push_cast <;> ring

theorem cmMul_one (x : Cm31) (h : x.canonical) : cmMul x cmOne = x := by
  cases x with
  | mk re im =>
    have e : cmMul ⟨re, im⟩ cmOne = ⟨modQ re, modQ im⟩ := by
      apply cm_ext <;> simp [cmOne]
    rw [e, modQ_of_lt _ h.1, modQ_of_lt _ h.2]

theorem one_cmMul (x : Cm31) (h : x.canonical) : cmMul cmOne x = x := by rw [cmMul_comm, cmMul_one x h]

theorem cmAdd_zero (x : Cm31) (h : x.canonical) : cmAdd x cmZero = x := by
  cases x with
  | mk re im =>
    have e : cmAdd ⟨re, im⟩ cmZero = ⟨modQ re, modQ im⟩ := by
      apply cm_ext <;> simp [cmZero]
    rw [e, modQ_of_lt _ h.1, modQ_of_lt _ h.2]

theorem cmMul_zero (x : Cm31) : cmMul x cmZero = cmZero := by
  have e : cmMul x cmZero = ⟨modQ 0, modQ 0⟩ := by
    apply cm_ext <;> simp [cmZero]
  rw [e]
  rfl

/-! ### The field -/

theorem q_prime : Nat.Prime q := by
  have h : LucasLehmer.LucasLehmerTest 31 := by norm_num
  have := lucas_lehmer_sufficiency 31 (by norm_num) h
  rwa [show mersenne 31 = q by norm_num [mersenne, q]] at this

theorem sum_squares_zero (a b : ZMod q) (h : a * a + b * b = 0) : a = 0 ∧ b = 0 := by
  have : Fact (Nat.Prime q) := ⟨q_prime⟩
  have key : ∀ a b : ZMod q, a * a + b * b = 0 → b = 0 := by
    intro a b h
    by_contra hb
    have hs : IsSquare (-1 : ZMod q) := by
      refine ⟨a * b⁻¹, ?_⟩
      have : b * b⁻¹ = 1 := mul_inv_cancel₀ hb
      linear_combination (-b⁻¹ * b⁻¹) * h + (b * b⁻¹ + 1) * this
    exact (ZMod.exists_sq_eq_neg_one_iff.1 hs) (by decide)
  exact ⟨key b a (by rw [add_comm]; exact h), key a b h⟩

theorem cm_zero_of (x : Cm31) (h : x.canonical) (h1 : (x.re : ZMod q) = 0) (h2 : (x.im : ZMod q) = 0) :
    x = cmZero := by
  rw [ZMod.natCast_eq_zero_iff] at h1 h2
  cases x with
  | mk re im =>
    have e1 : re = 0 := Nat.eq_zero_of_dvd_of_lt h1 h.1
    have e2 : im = 0 := Nat.eq_zero_of_dvd_of_lt h2 h.2
    rw [e1, e2, cmZero]

/-- CM31 has no zero divisors. -/
theorem cmMul_eq_zero (x y : Cm31) (hx : x.canonical) (hy : y.canonical) (h : cmMul x y = cmZero) :
    x = cmZero ∨ y = cmZero := by
  have : Fact (Nat.Prime q) := ⟨q_prime⟩
  have h1 : ((cmMul x y).re : ZMod q) = 0 := by rw [h]; simp [cmZero]
  have h2 : ((cmMul x y).im : ZMod q) = 0 := by rw [h]; simp [cmZero]
  simp only [cmMul, modQ_cast] at h1 h2
  push_cast at h1 h2
  by_cases hz : (x.re : ZMod q) * x.re + x.im * x.im = 0
  · obtain ⟨a, b⟩ := sum_squares_zero _ _ hz
    exact .inl (cm_zero_of x hx a b)
  · right
    refine cm_zero_of y hy ?_ ?_
    · have : ((x.re : ZMod q) * x.re + x.im * x.im) * y.re = 0 := by
        linear_combination (x.re : ZMod q) * h1 + (x.im : ZMod q) * h2
      exact (mul_eq_zero.1 this).resolve_left hz
    · have : ((x.re : ZMod q) * x.re + x.im * x.im) * y.im = 0 := by
        linear_combination (x.re : ZMod q) * h2 - (x.im : ZMod q) * h1
      exact (mul_eq_zero.1 this).resolve_left hz

/-! ### Powers -/

theorem spec_pow_canonical (w : Cm31) (n : Nat) : (Spec.pow w n).canonical := by
  cases n with
  | zero => exact cmOne_canonical
  | succ n => exact cmMul_canonical _ _

theorem spec_pow_add (w : Cm31) (m n : Nat) : Spec.pow w (m + n) = cmMul (Spec.pow w m) (Spec.pow w n) := by
  induction n with
  | zero => rw [Spec.pow, Nat.add_zero, cmMul_one _ (spec_pow_canonical w m)]
  | succ n ih => rw [← Nat.add_assoc, Spec.pow, Spec.pow, ih, cmMul_assoc]

theorem spec_pow_square (w : Cm31) (n : Nat) : Spec.pow (cmMul w w) n = Spec.pow w (2 * n) := by
  induction n with
  | zero => rfl
  | succ n ih =>
    rw [Spec.pow, ih, show 2 * (n + 1) = 2 * n + 1 + 1 by omega, Spec.pow, Spec.pow, cmMul_assoc]

theorem cmPowFuel_eq (fuel : Nat) : ∀ (w : Cm31) (n : Nat), n < 2 ^ fuel → cmPowFuel fuel w n = Spec.pow w n := by
  induction fuel with
  | zero =>
    intro w n h
    rw [show n = 0 by omega]
    rfl
  | succ fuel ih =>
    intro w n h
    rw [cmPowFuel, ih (cmMul w w) (n / 2) (by rw [Nat.pow_succ] at h; omega), spec_pow_square]
    by_cases hn : n % 2 = 0
    · rw [if_pos hn, show 2 * (n / 2) = n by omega]
    · rw [if_neg hn]
      conv_rhs => rw [show n = 2 * (n / 2) + 1 by omega]
      rw [Spec.pow]

/-- Square and multiply computes the spec's power. -/
theorem cmPow_eq (w : Cm31) (n : Nat) : cmPow w n = Spec.pow w n := by
  apply cmPowFuel_eq
  exact Nat.lt_log2_self

/-! ### The transform -/

theorem length_dft (f : List Cm31) (w : Cm31) : (dft f w).length = f.length := by simp [dft]

theorem dftSum_succ (f : Nat → Cm31) (w : Cm31) (k n : Nat) :
    Spec.dftSum f w k (n + 1) = cmAdd (f 0) (cmMul (Spec.pow w k) (Spec.dftSum (fun j => f (j + 1)) w k n)) := by
  induction n with
  | zero =>
    simp only [Spec.dftSum, cmMul_zero, Nat.zero_mul, Spec.pow]
    apply cm_ext <;> simp [cmMul, cmOne, cmZero, modQ_cast]
  | succ n ih =>
    rw [Spec.dftSum, ih, Spec.dftSum, cmMul_add, cmAdd_assoc]
    congr 2
    rw [show (n + 1) * k = k + n * k by ring, spec_pow_add, ← cmMul_assoc, ← cmMul_assoc, cmMul_comm (f (n + 1))]

theorem cmEval_eq (w : Cm31) (k : Nat) : ∀ f : List Cm31,
    cmEval (Spec.pow w k) f = Spec.dftSum (fun j => f.getD j cmZero) w k f.length := by
  intro f
  induction f with
  | nil => rfl
  | cons c cs ih =>
    rw [cmEval, List.length_cons, dftSum_succ, ih]
    rfl

/-- Element `k` of the transform is the spec's sum. -/
theorem getElem_dft (f : List Cm31) (w : Cm31) (k : Nat) (h : k < (dft f w).length) :
    (dft f w)[k] = Spec.dftSum (fun j => f.getD j cmZero) w k f.length := by
  simp only [dft, List.getElem_map, List.getElem_range, cmPow_eq, cmEval_eq]

theorem cmEval_canonical (x : Cm31) (f : List Cm31) : (cmEval x f).canonical := by
  cases f with
  | nil => exact cmZero_canonical
  | cons c cs => exact cmAdd_canonical _ _

theorem dft_canonical (f : List Cm31) (w : Cm31) (z : Cm31) (h : z ∈ dft f w) : z.canonical := by
  simp only [dft, List.mem_map] at h
  obtain ⟨k, _, rfl⟩ := h
  exact cmEval_canonical _ _

theorem dftSum_congr (f g : Nat → Cm31) (w : Cm31) (k n : Nat) (h : ∀ j, j < n → f j = g j) :
    Spec.dftSum f w k n = Spec.dftSum g w k n := by
  induction n with
  | zero => rfl
  | succ n ih => rw [Spec.dftSum, Spec.dftSum, ih (fun j hj => h j (by omega)), h n (by omega)]

/-! ### Sizes -/

theorem sizeForm_iff (lo r n : Nat) :
    sizeForm lo r n = true ↔ ∃ m, lo ≤ m ∧ m % 3 = r ∧ n = 2 ^ m := by
  simp only [sizeForm, Bool.and_eq_true, beq_iff_eq, decide_eq_true_eq]
  constructor
  · rintro ⟨⟨h1, h2⟩, h3⟩
    exact ⟨n.log2, h2, h3, h1⟩
  · rintro ⟨m, h2, h3, rfl⟩
    rw [Nat.log2_two_pow]
    exact ⟨⟨rfl, h2⟩, h3⟩

theorem eight_pow (k : Nat) : 8 ^ k = 2 ^ (3 * k) := by rw [Nat.pow_mul]

theorem isPure_iff (n : Nat) : isPure n = true ↔ Spec.pureSize n := by
  rw [isPure, sizeForm_iff, Spec.pureSize]
  constructor
  · rintro ⟨m, h1, h2, rfl⟩
    exact ⟨m / 3, by omega, by rw [eight_pow]; congr 1; omega⟩
  · rintro ⟨k, h, rfl⟩
    exact ⟨3 * k, by omega, by omega, eight_pow k⟩

theorem isStride2_iff (n : Nat) : isStride2 n = true ↔ Spec.stride2Size n := by
  rw [isStride2, sizeForm_iff, Spec.stride2Size]
  constructor
  · rintro ⟨m, h1, h2, rfl⟩
    exact ⟨m / 3, by omega, by rw [eight_pow, ← pow_succ']; congr 1; omega⟩
  · rintro ⟨k, h, rfl⟩
    exact ⟨3 * k + 1, by omega, by omega, by rw [eight_pow, ← pow_succ']⟩

theorem isStride4_iff (n : Nat) : isStride4 n = true ↔ Spec.stride4Size n := by
  rw [isStride4, sizeForm_iff, Spec.stride4Size]
  constructor
  · rintro ⟨m, h1, h2, rfl⟩
    refine ⟨m / 3, by omega, ?_⟩
    rw [eight_pow, show 4 = 2 ^ 2 from rfl, ← Nat.pow_add]
    congr 1
    omega
  · rintro ⟨k, h, rfl⟩
    refine ⟨3 * k + 2, by omega, by omega, ?_⟩
    rw [eight_pow, show 4 = 2 ^ 2 from rfl, ← Nat.pow_add]
    congr 1
    omega

end Sys2Proof.Machine
end

