-- ==== Sys2Proof/Laws/Bodies.lean ====
section
/-! SUPPORT. What the bodies shared by several instructions answer, said once: addresses, blocks, transforms and
the batched compression. -/

namespace Sys2Proof.Machine

theorem sourcesWritten_iff (i : Instr) (s : State) :
    sourcesWritten i s = true ↔ ∀ r ∈ sources i, r.unwritten s = false := by
  simp [sourcesWritten, List.all_eq_true]

/-! ### Loads and stores -/

theorem accessAddr_decides (s : State) (a : RegNo) (imm : BitVec 18) (size : Nat)
    (h : (Source.x a).unwritten s = false) :
    Decides (accessAddr s a imm size) (accessChecks s a imm size) fun ea =>
      ea = (effectiveAddr (xValue s a) imm).toNat := by
  rw [accessAddr, readX_written s a h, ok_bind]
  exact Decides.guard fun _ => Decides.guard fun _ => Decides.ok rfl

/-! ### Blocks -/

theorem blockBody_decides (lane : FieldWord → FieldWord → FieldWord) (scalars n : Nat) (d : RegNo)
    (x y : Nat → FieldWord) (s : State) :
    Decides (blockBody lane scalars d (((List.range n).map x).zip ((List.range n).map y)) s)
      (rtzCheck s :: (List.range n).map fun k =>
        ⟨(x k).toNat * (y k).toNat < p * 2 ^ 256, .operandBound, BitVec.ofNat 64 k⟩)
      fun t => t = s.writeGroup d (blockResults lane scalars (((List.range n).map x).zip ((List.range n).map y))) := by
  refine Decides.guard fun _ => ?_
  have h := Decides.bind (checkProducts_registers n x y)
    (f := fun _ => (pure (s.writeGroup d (blockResults lane scalars (((List.range n).map x).zip ((List.range n).map y)))) :
      Except Raise State)) (ds := []) (Q := fun t =>
        t = s.writeGroup d (blockResults lane scalars (((List.range n).map x).zip ((List.range n).map y))))
    (fun _ _ => Decides.ok rfl)
  rwa [List.append_nil] at h

/-! ### Transforms -/

theorem checkRoot_decides (u : Word64) (position : Word64) :
    Decides (checkRoot u position) [⟨(cmUnpack u).canonical, .operandBound, position⟩] fun w => w = cmUnpack u :=
  Decides.ite fun _ => Decides.ok rfl

/-- The elements of a vector, after which nothing can fail. -/
theorem readElems_then {β : Type} (s : State) (e n : Nat) (g : List Cm31 → β) :
    Decides (readElems s.dmem e n >>= fun f => (pure (g f) : Except Raise β)) (elementChecks s e n)
      fun b => b = g ((List.range n).map (Spec.elem s.dmem e)) := by
  have h := Decides.bind (readElems_decides s.dmem n e) (f := fun f => (pure (g f) : Except Raise β)) (ds := [])
    (Q := fun b => b = g ((List.range n).map (Spec.elem s.dmem e))) (fun zs hz => Decides.ok (by rw [hz]))
  rwa [List.append_nil] at h

/-- The hybrid transforms. -/
theorem hybridNtt_decides (form : Nat → Bool) (P : Nat → Prop) (hP : ∀ n, form n = true ↔ P n) (a b c : RegNo)
    (s : State) (ha : (Source.x a).unwritten s = false) (hb : (Source.x b).unwritten s = false)
    (hc : (Source.x c).unwritten s = false) :
    Decides (hybridNtt form a b c s) (hybridChecks s P a b c) fun t =>
      t = (s.store (xValue s a).toNat (elemBytes (dft ((List.range (xValue s b).toNat).map
        (Spec.elem s.dmem (xValue s a).toNat)) (root (xValue s b).toNat)))).havoc (xValue s c).toNat (8 * nttLeaf) := by
  have e : hybridChecks s P a b c = hybridChecks s (fun n => form n = true) a b c := by
    simp only [hybridChecks, hP]
  rw [e, hybridNtt, readX_written s a ha, ok_bind, readX_written s b hb, ok_bind, readX_written s c hc, ok_bind]
  exact Decides.guard fun _ => Decides.guard fun _ => Decides.guard fun _ => Decides.guard fun _ =>
    Decides.guard fun _ => Decides.guard fun _ => Decides.guard fun _ => readElems_then s _ _ _

/-! ### The batched compression -/

/-- The checks of CMPRM before its computation. -/
def jobChecks (s : State) (d a b c : RegNo) : List Check :=
  [⟨(xValue s b).toNat % 64 = 0 ∧ (xValue s c).toNat % 32 = 0 ∧ (xValue s b).toNat / 64 = (xValue s c).toNat / 32,
    .invalidBufferShape, 0⟩,
   ⟨(xValue s a).toNat % 8 = 0, .misaligned, xValue s a⟩,
   ⟨(xValue s d).toNat % 8 = 0, .misaligned, xValue s d⟩,
   ⟨(xValue s a).toNat + (xValue s b).toNat ≤ s.dmemBytes, .dataRange, xValue s a⟩,
   ⟨(xValue s d).toNat + (xValue s c).toNat ≤ s.dmemBytes, .dataRange, xValue s d⟩,
   ⟨(xValue s b).toNat / 64 = 0 ∨ (xValue s a).toNat + (xValue s b).toNat ≤ (xValue s d).toNat ∨
      (xValue s d).toNat + (xValue s c).toNat ≤ (xValue s a).toNat, .bufferOverlap, xValue s d⟩]
  ++ (List.range (2 * ((xValue s b).toNat / 64))).map fun k =>
    ⟨message s (xValue s a).toNat k < p, .operandBound, BitVec.ofNat 64 ((xValue s a).toNat + 32 * k)⟩

theorem cmprmJob_decides (d a b c : RegNo) (s : State) (hd : (Source.x d).unwritten s = false)
    (ha : (Source.x a).unwritten s = false) (hb : (Source.x b).unwritten s = false)
    (hc : (Source.x c).unwritten s = false) :
    Decides (cmprmJob d a b c s) (jobChecks s d a b c) fun job =>
      job = ((xValue s d).toNat, (xValue s c).toNat, (List.range ((xValue s b).toNat / 64)).map fun j =>
        ((xValue s a).toNat + 64 * j, message s (xValue s a).toNat (2 * j),
          message s (xValue s a).toNat (2 * j + 1))) := by
  rw [cmprmJob, readX_written s d hd, ok_bind, readX_written s a ha, ok_bind, readX_written s b hb, ok_bind,
    readX_written s c hc, ok_bind]
  refine Decides.guard fun _ => Decides.guard fun _ => Decides.guard fun _ => Decides.guard fun _ =>
    Decides.guard fun _ => Decides.guard fun _ => ?_
  have h := Decides.bind (readPairs_decides s.dmem ((xValue s b).toNat / 64) (xValue s a).toNat)
    (f := fun pairs => (pure ((xValue s d).toNat, (xValue s c).toNat, pairs) :
      Except Raise (Nat × Nat × List (Nat × Nat × Nat)))) (ds := [])
    (Q := fun job => job = ((xValue s d).toNat, (xValue s c).toNat,
      (List.range ((xValue s b).toNat / 64)).map fun j => ((xValue s a).toNat + 64 * j,
        message s (xValue s a).toNat (2 * j), message s (xValue s a).toNat (2 * j + 1))))
    (fun ps hp => Decides.ok (by rw [hp]; rfl))
  rwa [List.append_nil] at h

/-- Where every pair compresses, the hash buffer's bytes are the hashes in order. -/
theorem hashPairs_ok (rc : Nat → Nat) (hash : Nat × Nat × Nat → Nat) : ∀ ps : List (Nat × Nat × Nat),
    (∀ x ∈ ps, compress rc x.2.1 x.2.2 = .ok (hash x)) →
    hashPairs rc ps = .ok (ps.flatMap fun x => leBytes 32 (hash x)) := by
  intro ps
  induction ps with
  | nil => intro _; rw [hashPairs, List.flatMap_nil]
  | cons x ps ih =>
    intro h
    obtain ⟨a, l, r⟩ := x
    have h1 := h (a, l, r) (by simp)
    simp only at h1
    rw [hashPairs, h1, ih (fun y hy => h y (by simp [hy])), List.flatMap_cons]
    rw [Except.mapError, ok_bind, ok_bind, pure_eq_ok]

/-- The first pair whose compression raises ASSERTION. -/
theorem hashPairs_error (rc : Nat → Nat) (hash : Nat × Nat × Nat → Nat) (a l r e : Nat) (qs : List (Nat × Nat × Nat)) :
    ∀ ps : List (Nat × Nat × Nat), (∀ x ∈ ps, compress rc x.2.1 x.2.2 = .ok (hash x)) →
    compress rc l r = .error e → hashPairs rc (ps ++ (a, l, r) :: qs) = .error a := by
  intro ps
  induction ps with
  | nil =>
    intro _ h
    rw [List.nil_append, hashPairs, h, Except.mapError, error_bind]
  | cons x ps ih =>
    intro h he
    obtain ⟨a', l', r'⟩ := x
    have h1 := h (a', l', r') (by simp)
    simp only at h1
    rw [List.cons_append, hashPairs, h1, ih (fun y hy => h y (by simp [hy])) he, Except.mapError, ok_bind, error_bind]

/-- A hash buffer has 32 bytes for each pair. -/
theorem length_hashPairs (rc : Nat → Nat) : ∀ (ps : List (Nat × Nat × Nat)) (bs : List Byte),
    hashPairs rc ps = .ok bs → bs.length = 32 * ps.length := by
  intro ps
  induction ps with
  | nil =>
    intro bs h
    rw [hashPairs] at h
    rw [← Except.ok.inj h]
    rfl
  | cons x ps ih =>
    intro bs h
    obtain ⟨a, l, r⟩ := x
    rw [hashPairs] at h
    cases hc : compress rc l r with
    | error e => rw [hc, Except.mapError, error_bind] at h; cases h
    | ok v =>
      rw [hc, Except.mapError, ok_bind] at h
      cases hq : hashPairs rc ps with
      | error e => rw [hq, error_bind] at h; cases h
      | ok b =>
        rw [hq, ok_bind, pure_eq_ok] at h
        rw [← Except.ok.inj h, List.length_append, length_leBytes, ih b hq, List.length_cons]
        omega

/-- What a job's check found: its ranges are the operands', in bounds, and its pairs fill its output. -/
theorem cmprmJob_ok (d a b c : RegNo) (s : State) (job : Nat × Nat × List (Nat × Nat × Nat))
    (h : cmprmJob d a b c s = .ok job) :
    job.1 = (xValue s d).toNat ∧ job.2.1 = (xValue s c).toNat ∧ job.1 + job.2.1 ≤ s.dmemBytes ∧
      32 * job.2.2.length = job.2.1 := by
  have hsw : (Source.x d).unwritten s = false ∧ (Source.x a).unwritten s = false ∧
      (Source.x b).unwritten s = false ∧ (Source.x c).unwritten s = false := by
    by_contra hn
    rw [cmprmJob] at h
    cases hd : (Source.x d).unwritten s
    · rw [readX_written s d hd, ok_bind] at h
      cases ha : (Source.x a).unwritten s
      · rw [readX_written s a ha, ok_bind] at h
        cases hb : (Source.x b).unwritten s
        · rw [readX_written s b hb, ok_bind] at h
          cases hc : (Source.x c).unwritten s
          · exact hn ⟨hd, ha, hb, hc⟩
          · rw [readX_unwritten s c hc, error_bind] at h; cases h
        · rw [readX_unwritten s b hb, error_bind] at h; cases h
      · rw [readX_unwritten s a ha, error_bind] at h; cases h
    · rw [readX_unwritten s d hd, error_bind] at h; cases h
  have hd := cmprmJob_decides d a b c s hsw.1 hsw.2.1 hsw.2.2.1 hsw.2.2.2
  rcases holds_or_fails (jobChecks s d a b c) with hc | ⟨c', i', hf⟩
  · obtain ⟨job', hj', rfl⟩ := hd.1 hc
    rw [h] at hj'
    rw [Except.ok.inj hj']
    have hr := hc ⟨(xValue s d).toNat + (xValue s c).toNat ≤ s.dmemBytes, .dataRange, xValue s d⟩
      (by simp [jobChecks])
    have hsh := hc ⟨(xValue s b).toNat % 64 = 0 ∧ (xValue s c).toNat % 32 = 0 ∧
      (xValue s b).toNat / 64 = (xValue s c).toNat / 32, .invalidBufferShape, 0⟩ (by simp [jobChecks])
    refine ⟨rfl, rfl, hr, ?_⟩
    simp only [List.length_map, List.length_range] at hsh ⊢
    omega
  · rw [hd.2 _ _ hf] at h
    cases h

end Sys2Proof.Machine
end

