-- ==== Sys2Proof/Laws/Encoding.lean ====
section
/-! SUPPORT. Laws of the encoding: every field of a packed word, and a word as the sum of its fields. -/

namespace Sys2Proof

open Machine

theorem toNat_bitField (w : InsnWord) (lo len : Nat) :
    (bitField w lo len).toNat = w.toNat / 2 ^ lo % 2 ^ len := by
  simp [bitField, BitVec.extractLsb'_toNat, Nat.shiftRight_eq_div_pow]

theorem toNat_pack (op : BitVec 6) (d a b c : RegNo) (imm : BitVec 10) :
    (pack op d a b c imm).toNat = op.toNat * 2 ^ 26 + d.toNat * 2 ^ 22 + a.toNat * 2 ^ 18 + b.toNat * 2 ^ 14
      + c.toNat * 2 ^ 10 + imm.toNat := by
  have h1 := op.isLt; have h2 := d.isLt; have h3 := a.isLt; have h4 := b.isLt; have h5 := c.isLt
  have h6 := imm.isLt
  simp only [pack, BitVec.toNat_ofNat]
  omega

theorem toNat_packM (op : BitVec 6) (d a : RegNo) (imm : BitVec 18) :
    (packM op d a imm).toNat = op.toNat * 2 ^ 26 + d.toNat * 2 ^ 22 + a.toNat * 2 ^ 18 + imm.toNat := by
  have h1 := op.isLt; have h2 := d.isLt; have h3 := a.isLt; have h6 := imm.isLt
  simp only [packM, BitVec.toNat_ofNat]
  omega

theorem toNat_packL (op : BitVec 6) (d : RegNo) (imm : BitVec 22) :
    (packL op d imm).toNat = op.toNat * 2 ^ 26 + d.toNat * 2 ^ 22 + imm.toNat := by
  have h1 := op.isLt; have h2 := d.isLt; have h6 := imm.isLt
  simp only [packL, BitVec.toNat_ofNat]
  omega

/-! ### The fields of a packed word -/

section
variable (op : BitVec 6) (d a b c : RegNo) (imm : BitVec 10) (imm18 : BitVec 18) (imm22 : BitVec 22)

@[simp] theorem fieldOp_pack : fieldOp (pack op d a b c imm) = op := by
  have h1 := op.isLt; have h2 := d.isLt; have h3 := a.isLt; have h4 := b.isLt; have h5 := c.isLt
  have h6 := imm.isLt
  apply BitVec.eq_of_toNat_eq; rw [fieldOp, toNat_bitField, toNat_pack]; omega

@[simp] theorem fieldD_pack : fieldD (pack op d a b c imm) = d := by
  have h1 := op.isLt; have h2 := d.isLt; have h3 := a.isLt; have h4 := b.isLt; have h5 := c.isLt
  have h6 := imm.isLt
  apply BitVec.eq_of_toNat_eq; rw [fieldD, toNat_bitField, toNat_pack]; omega

@[simp] theorem fieldA_pack : fieldA (pack op d a b c imm) = a := by
  have h1 := op.isLt; have h2 := d.isLt; have h3 := a.isLt; have h4 := b.isLt; have h5 := c.isLt
  have h6 := imm.isLt
  apply BitVec.eq_of_toNat_eq; rw [fieldA, toNat_bitField, toNat_pack]; omega

@[simp] theorem fieldB_pack : fieldB (pack op d a b c imm) = b := by
  have h1 := op.isLt; have h2 := d.isLt; have h3 := a.isLt; have h4 := b.isLt; have h5 := c.isLt
  have h6 := imm.isLt
  apply BitVec.eq_of_toNat_eq; rw [fieldB, toNat_bitField, toNat_pack]; omega

@[simp] theorem fieldC_pack : fieldC (pack op d a b c imm) = c := by
  have h1 := op.isLt; have h2 := d.isLt; have h3 := a.isLt; have h4 := b.isLt; have h5 := c.isLt
  have h6 := imm.isLt
  apply BitVec.eq_of_toNat_eq; rw [fieldC, toNat_bitField, toNat_pack]; omega

@[simp] theorem fieldImm10_pack : fieldImm10 (pack op d a b c imm) = imm := by
  have h1 := op.isLt; have h2 := d.isLt; have h3 := a.isLt; have h4 := b.isLt; have h5 := c.isLt
  have h6 := imm.isLt
  apply BitVec.eq_of_toNat_eq; rw [fieldImm10, toNat_bitField, toNat_pack]; omega

@[simp] theorem fieldOp_packM : fieldOp (packM op d a imm18) = op := by
  have h1 := op.isLt; have h2 := d.isLt; have h3 := a.isLt; have h6 := imm18.isLt
  apply BitVec.eq_of_toNat_eq; rw [fieldOp, toNat_bitField, toNat_packM]; omega

@[simp] theorem fieldD_packM : fieldD (packM op d a imm18) = d := by
  have h1 := op.isLt; have h2 := d.isLt; have h3 := a.isLt; have h6 := imm18.isLt
  apply BitVec.eq_of_toNat_eq; rw [fieldD, toNat_bitField, toNat_packM]; omega

@[simp] theorem fieldA_packM : fieldA (packM op d a imm18) = a := by
  have h1 := op.isLt; have h2 := d.isLt; have h3 := a.isLt; have h6 := imm18.isLt
  apply BitVec.eq_of_toNat_eq; rw [fieldA, toNat_bitField, toNat_packM]; omega

@[simp] theorem fieldImm18_packM : fieldImm18 (packM op d a imm18) = imm18 := by
  have h1 := op.isLt; have h2 := d.isLt; have h3 := a.isLt; have h6 := imm18.isLt
  apply BitVec.eq_of_toNat_eq; rw [fieldImm18, toNat_bitField, toNat_packM]; omega

@[simp] theorem fieldOp_packL : fieldOp (packL op d imm22) = op := by
  have h1 := op.isLt; have h2 := d.isLt; have h6 := imm22.isLt
  apply BitVec.eq_of_toNat_eq; rw [fieldOp, toNat_bitField, toNat_packL]; omega

@[simp] theorem fieldD_packL : fieldD (packL op d imm22) = d := by
  have h1 := op.isLt; have h2 := d.isLt; have h6 := imm22.isLt
  apply BitVec.eq_of_toNat_eq; rw [fieldD, toNat_bitField, toNat_packL]; omega

@[simp] theorem fieldImm22_packL : fieldImm22 (packL op d imm22) = imm22 := by
  have h1 := op.isLt; have h2 := d.isLt; have h6 := imm22.isLt
  apply BitVec.eq_of_toNat_eq; rw [fieldImm22, toNat_bitField, toNat_packL]; omega

end

/-! ### The reserved-zero bits of a packed word -/

section
variable (op : BitVec 6) (d a b c : RegNo) (imm : BitVec 10)

@[simp] theorem bitField_pack_0_26 : bitField (pack op 0#4 0#4 0#4 0#4 0#10) 0 26 = 0#26 := by
  have h1 := op.isLt
  apply BitVec.eq_of_toNat_eq; rw [toNat_bitField, toNat_pack]; simp

@[simp] theorem bitField_pack_10_16 : bitField (pack op 0#4 0#4 0#4 0#4 imm) 10 16 = 0#16 := by
  have h1 := op.isLt; have h6 := imm.isLt
  apply BitVec.eq_of_toNat_eq; rw [toNat_bitField, toNat_pack]; simp; omega

@[simp] theorem bitField_pack_0_18 : bitField (pack op d a 0#4 0#4 0#10) 0 18 = 0#18 := by
  have h1 := op.isLt; have h2 := d.isLt; have h3 := a.isLt
  apply BitVec.eq_of_toNat_eq; rw [toNat_bitField, toNat_pack]; simp; omega

@[simp] theorem bitField_pack_0_14 : bitField (pack op d a b 0#4 0#10) 0 14 = 0#14 := by
  have h1 := op.isLt; have h2 := d.isLt; have h3 := a.isLt; have h4 := b.isLt
  apply BitVec.eq_of_toNat_eq; rw [toNat_bitField, toNat_pack]; simp; omega

@[simp] theorem bitField_pack_0_10 : bitField (pack op d a b c 0#10) 0 10 = 0#10 := by
  have h1 := op.isLt; have h2 := d.isLt; have h3 := a.isLt; have h4 := b.isLt; have h5 := c.isLt
  apply BitVec.eq_of_toNat_eq; rw [toNat_bitField, toNat_pack]; simp; omega

@[simp] theorem bitField_pack_10_8 : bitField (pack op d a 0#4 0#4 imm) 10 8 = 0#8 := by
  have h1 := op.isLt; have h2 := d.isLt; have h3 := a.isLt; have h6 := imm.isLt
  apply BitVec.eq_of_toNat_eq; rw [toNat_bitField, toNat_pack]; simp; omega

@[simp] theorem bitField_pack_22_4 : bitField (pack op 0#4 a b c imm) 22 4 = 0#4 := by
  have h1 := op.isLt; have h3 := a.isLt; have h4 := b.isLt; have h5 := c.isLt
  have h6 := imm.isLt
  apply BitVec.eq_of_toNat_eq; rw [toNat_bitField, toNat_pack]; simp; omega

end

/-- What `checked` answers where it answers an instruction. -/
theorem checked_eq_ok (z : Bool) (i j : Instr) :
    checked z i = .ok j ↔ z = true ∧ i.fieldError = none ∧ i = j := by
  unfold checked
  split
  · split <;> simp_all
  · simp_all

/-- The decoder of the four bytes of a word. -/
theorem decode_leBytes (w : InsnWord) (rest : List Byte) :
    decode (leBytes 4 w.toNat ++ rest) = (decodeWord w).map fun i => (i, rest) := by
  have h : BitVec.ofNat 32 (leNat (leBytes 4 w.toNat)) = w := by
    rw [leNat_leBytes]
    apply BitVec.eq_of_toNat_eq
    have := w.isLt
    simp only [BitVec.toNat_ofNat]
    omega
  simp only [leBytes] at h
  simp only [leBytes, List.cons_append, List.nil_append, decode, h]
  cases decodeWord w <;> rfl

end Sys2Proof
end

