-- ==== Sys2Proof/Laws/FpDatapath.lean ====
section
/-! SUPPORT. In round-toward-zero the two fused multiply-adds of the fp-SIMD datapath split a product exactly
(43_fp_simd.md R211). -/

namespace Sys2Proof.Machine

theorem fma_of (mode : BitVec 2) (x y c : Int) (u : Nat) (h : spacing (x * y + c) = u) :
    fma mode x y c = roundTo mode u (x * y + c) := by rw [fma, h]

/-- Towards zero, a value that is not negative rounds down. -/
theorem roundTo_rtz (u : Nat) (v : Int) (h : 0 ≤ v) : roundTo 0b11 u v = v / u * u := by
  have h0 : ¬(0b11 : BitVec 2) = 0b00 := by decide
  have h1 : ¬(0b11 : BitVec 2) = 0b01 := by decide
  have h2 : ¬(0b11 : BitVec 2) = 0b10 := by decide
  simp only [roundTo, if_neg h0, if_neg h1, if_neg h2, if_pos h]

theorem spacing_of {v : Nat} {e : Nat} (lo : 2 ^ e ≤ v) (hi : v < 2 ^ (e + 1)) : spacing v = 2 ^ (e - 52) := by
  have h0 : v ≠ 0 := by have := Nat.two_pow_pos e; omega
  rw [spacing, Int.natAbs_natCast, (Nat.log2_eq_iff h0).2 ⟨lo, hi⟩]

theorem binary64_of {v : Nat} {e : Nat} (lo : 2 ^ e ≤ v) (hi : v < 2 ^ (e + 1)) :
    binary64 v = (e + 1022) * 2 ^ 52 + v * 2 ^ 52 / 2 ^ e := by
  have h0 : v ≠ 0 := by have := Nat.two_pow_pos e; omega
  simp only [binary64, Int.natAbs_natCast, (Nat.log2_eq_iff h0).2 ⟨lo, hi⟩]

theorem mul_lt_of_limbs {x y : Nat} (hx : x < 2 ^ 52) (hy : y < 2 ^ 52) : x * y < 2 ^ 104 :=
  calc x * y < 2 ^ 52 * 2 ^ 52 := Nat.mul_lt_mul'' hx hy
    _ = 2 ^ 104 := by norm_num

/-- `hi` is `2^104 + H * 2^52`, for `x * y = H * 2^52 + L`. -/
theorem fmaHi_rtz {x y : Nat} (hx : x < 2 ^ 52) (hy : y < 2 ^ 52) :
    fmaHi 0b11 x y = ((c1 + x * y / 2 ^ 52 * 2 ^ 52 : Nat) : Int) := by
  have hp := mul_lt_of_limbs hx hy
  have hs : spacing ((x : Int) * y + c1) = 2 ^ 52 := by
    have : ((x : Int) * y + c1) = ((x * y + c1 : Nat) : Int) := by push_cast; rfl
    rw [this, spacing_of (e := 104) (by unfold c1; omega) (by unfold c1; omega)]
  have hm : ((x : Int) * y) = ((x * y : Nat) : Int) := by push_cast; rfl
  rw [fmaHi, fma_of _ _ _ _ _ hs, hm, roundTo_rtz _ _ (by omega)]
  generalize x * y = P
  unfold c1
  omega

/-- `lo` is `2^52 + L`. -/
theorem fmaLo_rtz {x y : Nat} (hx : x < 2 ^ 52) (hy : y < 2 ^ 52) :
    fmaLo 0b11 x y = ((2 ^ 52 + x * y % 2 ^ 52 : Nat) : Int) := by
  have hv : ((x : Int) * y + (c2 - fmaHi 0b11 x y)) = ((2 ^ 52 + x * y % 2 ^ 52 : Nat) : Int) := by
    rw [fmaHi_rtz hx hy]
    have : ((x : Int) * y) = ((x * y : Nat) : Int) := by push_cast; rfl
    rw [this]
    generalize x * y = P
    unfold c1 c2
    omega
  have hs : spacing ((x : Int) * y + (c2 - fmaHi 0b11 x y)) = 2 ^ (52 - 52) := by
    rw [hv, spacing_of (e := 52) (by omega) (by omega)]
  rw [fmaLo, fma_of _ _ _ _ _ hs, hv, roundTo_rtz _ _ (by omega)]
  generalize x * y = P
  omega

/-- The bit patterns of `hi` and `lo`, less those of `C1` and `2^52`, are `H` and `L`. -/
theorem fma_split {x y : Nat} (hx : x < 2 ^ 52) (hy : y < 2 ^ 52) :
    binary64 (fmaHi 0b11 x y) = binary64 c1 + x * y / 2 ^ 52 ∧
    binary64 (fmaLo 0b11 x y) = binary64 ((2 ^ 52 : Nat) : Int) + x * y % 2 ^ 52 := by
  have hp := mul_lt_of_limbs hx hy
  rw [fmaHi_rtz hx hy, fmaLo_rtz hx hy]
  generalize x * y = P at *
  constructor
  · rw [binary64_of (e := 104) (by unfold c1; omega) (by unfold c1; omega),
      binary64_of (e := 104) (by unfold c1; omega) (by unfold c1; omega)]
    unfold c1
    omega
  · rw [binary64_of (e := 52) (by omega) (by omega), binary64_of (e := 52) (by omega) (by omega)]
    omega

end Sys2Proof.Machine
end

