-- ==== Sys2Proof/Laws/FpLane.lean ====
section
/-! SUPPORT. The open lane functions have the properties the spec promises of them, whatever their raw constants
are. -/

namespace Sys2Proof.Machine

theorem val5_limbs5 (x : Nat) (h : x < 2 ^ 260) : val5 (limbs5 x) = x := by
  simp only [val5, limbs5, Vector.getElem_ofFn, BitVec.toNat_ofNat]
  norm_num
  have : ∀ y, y % 4503599627370496 % 18446744073709551616 = y % 4503599627370496 := by intro y; omega
  omega

theorem p_le_simd52Bound : p ≤ simd52Bound := by
  unfold simd52Bound
  split <;> omega

theorem simd52Canonical_ok (a b : Lane) : Simd52Ok a b (simd52Canonical a b) := by
  have hp := p_lt
  have hlt : val5 a * val5 b * r52Inv % p < p := Nat.mod_lt _ p_pos
  have hb := p_le_simd52Bound
  have hv : val5 (simd52Canonical a b) = val5 a * val5 b * r52Inv % p := val5_limbs5 _ (by omega)
  refine ⟨?_, ?_, ?_⟩
  · intro j
    simp only [simd52Canonical, limbs5, Fin.getElem_fin, Vector.getElem_ofFn, BitVec.toNat_ofNat]
    omega
  · intro _
    rw [hv]
    have : r52Inv * r52 % p = 1 := by decide
    rw [Nat.mod_mul_mod, Nat.mul_assoc, Nat.mul_mod, this, Nat.mul_one, Nat.mod_mod]
  · intro _ _
    rw [hv]
    omega

theorem simd52_ok (a b : Lane) : Simd52Ok a b (simd52 a b) := by
  unfold simd52
  split
  · assumption
  · exact simd52Canonical_ok a b

theorem simd52Sqr_ok (a : Lane) : Simd52Ok a a (simd52Sqr a) := by
  unfold simd52Sqr
  split
  · assumption
  · exact simd52Canonical_ok a a

theorem simdLaneCanonical_ok {bound : Nat} (hb : p ≤ bound) (a b : FieldWord) :
    SimdLaneOk bound a b (simdLaneCanonical a b) := by
  intro _
  have hp := p_lt
  have hlt : a.toNat * b.toNat * rInv % p < p := Nat.mod_lt _ p_pos
  have hv : (simdLaneCanonical a b).toNat = a.toNat * b.toNat * rInv % p := by
    rw [simdLaneCanonical, BitVec.toNat_ofNat, Nat.mod_eq_of_lt (by omega)]
  rw [hv]
  have : rInv * montR % p = 1 := by decide
  refine ⟨?_, by omega⟩
  rw [Nat.mod_mul_mod, Nat.mul_assoc, Nat.mul_mod, this, Nat.mul_one, Nat.mod_mod]

theorem simdLane_ok {bound : Nat} (hb : p ≤ bound) (a b : FieldWord) : SimdLaneOk bound a b (simdLane bound a b) := by
  unfold simdLane
  split
  · assumption
  · exact simdLaneCanonical_ok hb a b

theorem simdLaneSqr_ok {bound : Nat} (hb : p ≤ bound) (a : FieldWord) : SimdLaneOk bound a a (simdLaneSqr bound a) := by
  unfold simdLaneSqr
  split
  · assumption
  · exact simdLaneCanonical_ok hb a a

end Sys2Proof.Machine
end

