-- ==== Sys2Proof/Laws/Step.lean ====
section
/-! SUPPORT. What an instruction can do, said once: it completes with an effect of a limited kind and goes on to the
next word, halts, or takes a fault. -/

namespace Sys2Proof.Machine

/-- What the effect of an instruction keeps: the host's side, pc, the place of `X0`, RMODE and the guard stack but
where `guard`, a legal TWB, and data memory's form and bound. -/
structure Effect (guard : Prop) (s u : State) : Prop where
  same : HostSideSame s u
  pc : u.pc = s.pc
  carry : u.pcCarry = s.pcCarry
  x0 : u.x[0] = s.x[0] ∧ u.xValid[0] = s.xValid[0]
  depth : s.gs.length ≤ s.caps.guardDepth → u.gs.length ≤ u.caps.guardDepth
  mode : guard ∨ u.rmode = s.rmode ∧ u.gs = s.gs
  twb : u.twb = s.twb ∨ ∃ n, u.twb = some n ∧ (isPure n.toNat || isStride2 n.toNat || isStride4 n.toNat) ∧
    n.toNat ≤ 2 ^ s.caps.twMaxLog2N
  wf : Memory.wf s.dmem → Memory.wf u.dmem
  bound : (∀ c ∈ s.dmem, c.1 < s.dmemBytes) → ∀ c ∈ u.dmem, c.1 < s.dmemBytes

/-! ### The effects -/

theorem Effect.refl (g : Prop) (s : State) : Effect g s s :=
  ⟨HostSideSame.refl s, rfl, rfl, ⟨rfl, rfl⟩, id, .inr ⟨rfl, rfl⟩, .inl rfl, id, id⟩

theorem Effect.trans {g : Prop} {s u v : State} (h : Effect g s u) (h' : Effect g u v) : Effect g s v := by
  obtain ⟨⟨⟩, a2, a3, a4, a5, a9, a6, a7, a8⟩ := h
  obtain ⟨⟨⟩, b2, b3, b4, b5, b9, b6, b7, b8⟩ := h'
  have hd : u.dmemBytes = s.dmemBytes := by simp only [State.dmemBytes, *]
  constructor
  · constructor <;> simp only [*]
  · simp only [*]
  · simp only [*]
  · rw [b4.1, b4.2]; exact a4
  · exact fun h => b5 (a5 h)
  · rcases a9 with h | ⟨h1, h2⟩
    · exact .inl h
    · rcases b9 with h | ⟨h3, h4⟩
      · exact .inl h
      · exact .inr ⟨h3.trans h1, h4.trans h2⟩
  · rcases b6 with h | ⟨n, h1, h2, h3⟩
    · rw [h]; exact a6
    · refine .inr ⟨n, h1, h2, ?_⟩; simp_all
  · exact fun h => b7 (a7 h)
  · intro h
    have := b8 (by rw [hd]; exact a8 h)
    rwa [hd] at this

theorem effect_writeX (g : Prop) (s : State) (r : RegNo) (v : Word64) : Effect g s (s.writeX r v) := by
  by_cases h : r = 0
  · rw [State.writeX, if_pos h]
    exact Effect.refl g s
  · have h' : r.toNat ≠ 0 := by
      intro e
      exact h (BitVec.eq_of_toNat_eq (by simpa using e))
    rw [State.writeX, if_neg h]
    exact ⟨by constructor <;> rfl, rfl, rfl, by simp [h'], id, .inr ⟨rfl, rfl⟩, .inl rfl, id, id⟩

theorem effect_writeF (g : Prop) (s : State) (r : RegNo) (v : FieldWord) : Effect g s (s.writeF r v) :=
  ⟨by constructor <;> rfl, rfl, rfl, ⟨rfl, rfl⟩, id, .inr ⟨rfl, rfl⟩, .inl rfl, id, id⟩

theorem effect_writeV (g : Prop) (s : State) (r : RegNo) (v : VReg) : Effect g s (s.writeV r v) :=
  ⟨by constructor <;> rfl, rfl, rfl, ⟨rfl, rfl⟩, id, .inr ⟨rfl, rfl⟩, .inl rfl, id, id⟩

theorem effect_writeGroup (g : Prop) (s : State) (r : RegNo) (vs : List FieldWord) :
    Effect g s (s.writeGroup r vs) := by
  obtain ⟨f, fv, e⟩ := writeGroup_rest vs s r
  rw [e]
  exact ⟨by constructor <;> rfl, rfl, rfl, ⟨rfl, rfl⟩, id, .inr ⟨rfl, rfl⟩, .inl rfl, id, id⟩

theorem effect_store (g : Prop) (s : State) (a : Nat) (bs : List Byte) (h : a + bs.length ≤ s.dmemBytes) :
    Effect g s (s.store a bs) := by
  refine ⟨by constructor <;> rfl, rfl, rfl, ⟨rfl, rfl⟩, id, .inr ⟨rfl, rfl⟩, .inl rfl, Memory.wf_writeBytes _ _ _, ?_⟩
  intro hb c hc
  rcases mem_writeBytes _ _ _ _ hc with h1 | h1
  · exact hb c h1
  · omega

theorem effect_havoc (g : Prop) (s : State) (a n : Nat) (h : a + n ≤ s.dmemBytes) : Effect g s (s.havoc a n) :=
  (effect_store g s a (freeBytes s.freeIx n) (by simpa using h)).trans
    ⟨by constructor <;> rfl, rfl, rfl, ⟨rfl, rfl⟩, id, .inr ⟨rfl, rfl⟩, .inl rfl, id, id⟩

/-! ### Bodies -/

/-- Whatever state a body answers is such an effect. -/
def Yields (g : Prop) (s : State) (body : Except Raise State) : Prop := ∀ u, body = .ok u → Effect g s u

theorem yields_ok {g : Prop} {s u : State} (h : Effect g s u) : Yields g s (.ok u) := by
  intro v hv
  rw [← Except.ok.inj hv]
  exact h

theorem yields_of {α : Type} {g : Prop} {s : State} {x : Except Raise α} {f : α → Except Raise State} (P : α → Prop)
    (hx : ∀ a, x = .ok a → P a) (hf : ∀ a, P a → Yields g s (f a)) : Yields g s (x >>= f) := by
  intro u h
  cases hc : x with
  | ok a => rw [hc, ok_bind] at h; exact hf a (hx a hc) u h
  | error e => rw [hc, error_bind] at h; cases h

theorem yields_bind {α : Type} {g : Prop} {s : State} {x : Except Raise α} {f : α → Except Raise State}
    (hf : ∀ a, Yields g s (f a)) : Yields g s (x >>= f) :=
  yields_of (fun _ => True) (fun _ _ => trivial) fun a _ => hf a

theorem yields_guard {g ok : Prop} [Decidable ok] {c : Cause} {info : Word64} {s : State}
    {f : Unit → Except Raise State} (hf : ok → Yields g s (f ())) : Yields g s (require ok c info >>= f) :=
  yields_of (fun _ => ok) (fun a h => (require_eq_ok c info a).1 h) fun _ h => hf h

theorem accessAddr_ok (s : State) (a : RegNo) (imm : BitVec 18) (n ea : Nat) (h : accessAddr s a imm n = .ok ea) :
    ea + n ≤ s.dmemBytes := by
  cases hx : readX s a with
  | error e => rw [accessAddr, hx, error_bind] at h; cases h
  | ok b =>
    rw [accessAddr_eq s a imm n b hx] at h
    split at h
    · split at h
      · rw [← Except.ok.inj h]; assumption
      · cases h
    · cases h

theorem length_readElems (m : Memory) (n a : Nat) (zs : List Cm31) (h : readElems m a n = .ok zs) :
    zs.length = n := by
  rcases holds_or_fails ((List.range n).map fun j =>
      (⟨(Spec.elem m a j).canonical, .operandBound, BitVec.ofNat 64 (a + 8 * j)⟩ : Check)) with hc | ⟨c, i, hf⟩
  · obtain ⟨zs', e, h'⟩ := (readElems_decides m n a).1 hc
    rw [h] at e
    rw [Except.ok.inj e, h']
    simp
  · rw [(readElems_decides m n a).2 _ _ hf] at h
    cases h

theorem length_bytes (v : VReg) : v.bytes.length = 80 := by simp [VReg.bytes, VReg.limbs]

theorem yields_hybrid (g : Prop) (form : Nat → Bool) (a b c : RegNo) (s : State) :
    Yields g s (hybridNtt form a b c s) := by
  unfold hybridNtt
  refine yields_bind fun e => yields_bind fun n => yields_bind fun z => yields_bind fun _ => yields_bind fun _ =>
    yields_bind fun _ => yields_bind fun _ => yields_guard fun h5 => yields_guard fun h6 => yields_bind fun _ =>
    yields_of (fun zs => zs.length = n.toNat) (length_readElems _ _ _) fun zs hz => yields_ok ?_
  refine (effect_store g s _ _ ?_).trans (effect_havoc g _ _ _ h6)
  rw [length_elemBytes, length_dft, hz]
  exact h5

/-- Every instruction but HALT and CMPRM is a body with such an effect. -/
theorem body_yields (i : Instr) (s : State) (h1 : i ≠ .halt) (h2 : ∀ d a b c, i ≠ .cmprm d a b c) :
    ∃ body, exec i s = execute i s body ∧ Yields ((∃ m, i = .rmacq m) ∨ i = .rmrel) s body := by
  cases i
  case nop => exact ⟨_, rfl, yields_ok (Effect.refl _ s)⟩
  case halt => exact (h1 rfl).elim
  case cmprm d a b c => exact (h2 _ _ _ _ rfl).elim
  case rmacq m =>
    refine ⟨_, rfl, yields_guard fun h => yields_ok ?_⟩
    refine ⟨by constructor <;> rfl, rfl, rfl, ⟨rfl, rfl⟩, ?_, .inl (.inl ⟨m, rfl⟩), .inl rfl, id, id⟩
    intro hd
    simp
    omega
  case rmrel =>
    refine ⟨_, rfl, ?_⟩
    intro u hu
    cases hg : s.gs with
    | nil => rw [hg] at hu; cases hu
    | cons m ms =>
      rw [hg] at hu
      rw [← Except.ok.inj hu]
      refine ⟨by constructor <;> rfl, rfl, rfl, ⟨rfl, rfl⟩, ?_, .inl (.inr rfl), .inl rfl, id, id⟩
      intro hd
      rw [hg] at hd
      simp at *
      omega
  case xli => exact ⟨_, rfl, yields_ok (effect_writeX _ _ _ _)⟩
  case xaddi => exact ⟨_, rfl, yields_bind fun _ => yields_ok (effect_writeX _ _ _ _)⟩
  case ldx => exact ⟨_, rfl, yields_bind fun _ => yields_ok (effect_writeX _ _ _ _)⟩
  case ldf => exact ⟨_, rfl, yields_bind fun _ => yields_ok (effect_writeF _ _ _ _)⟩
  case ldv => exact ⟨_, rfl, yields_bind fun _ => yields_ok (effect_writeV _ _ _ _)⟩
  case stx =>
    exact ⟨_, rfl, yields_bind fun _ => yields_of _ (accessAddr_ok s _ _ _) fun _ h =>
      yields_ok (effect_store _ _ _ _ (by simpa using h))⟩
  case stf =>
    exact ⟨_, rfl, yields_bind fun _ => yields_of _ (accessAddr_ok s _ _ _) fun _ h =>
      yields_ok (effect_store _ _ _ _ (by simpa using h))⟩
  case stv =>
    exact ⟨_, rfl, yields_bind fun v => yields_of _ (accessAddr_ok s _ _ _) fun _ h =>
      yields_ok (effect_store _ _ _ _ (by rw [length_bytes]; exact h))⟩
  case fmov | redp | red1 | red => exact ⟨_, rfl, yields_bind fun _ => yields_ok (effect_writeF _ _ _ _)⟩
  case fadd | sqr | bar | redprc =>
    exact ⟨_, rfl, yields_bind fun _ => yields_bind fun _ => yields_ok (effect_writeF _ _ _ _)⟩
  case mul =>
    exact ⟨_, rfl, yields_bind fun _ => yields_bind fun _ => yields_bind fun _ => yields_ok (effect_writeF _ _ _ _)⟩
  case cmpr =>
    exact ⟨_, rfl, yields_bind fun _ => yields_bind fun _ => yields_bind fun _ => yields_bind fun _ =>
      yields_bind fun _ => yields_ok (effect_writeF _ _ _ _)⟩
  case vmul =>
    exact ⟨_, rfl, yields_bind fun _ => yields_bind fun _ => yields_bind fun _ => yields_bind fun _ =>
      yields_ok (effect_writeV _ _ _ _)⟩
  case vsqr =>
    exact ⟨_, rfl, yields_bind fun _ => yields_bind fun _ => yields_bind fun _ => yields_ok (effect_writeV _ _ _ _)⟩
  case bmul3 | bmul4 =>
    exact ⟨_, rfl, yields_bind fun _ => yields_bind fun _ => yields_bind fun _ => yields_bind fun _ =>
      yields_ok (effect_writeGroup _ _ _ _)⟩
  case bsqr3 | bsqr4 =>
    exact ⟨_, rfl, yields_bind fun _ => yields_bind fun _ => yields_bind fun _ =>
      yields_ok (effect_writeGroup _ _ _ _)⟩
  case nttb8 =>
    exact ⟨_, rfl, yields_bind fun _ => yields_bind fun _ => yields_bind fun _ => yields_guard fun h =>
      yields_bind fun _ => yields_of _ (length_readElems _ _ _) fun _ hz =>
      yields_ok (effect_store _ _ _ _ (by rw [length_elemBytes, length_dft, hz]; exact h))⟩
  case ntt8 =>
    exact ⟨_, rfl, yields_bind fun _ => yields_bind fun _ => yields_bind fun _ => yields_bind fun _ =>
      yields_bind fun _ => yields_guard fun h => yields_bind fun _ => yields_bind fun _ =>
      yields_of _ (length_readElems _ _ _) fun _ hz =>
      yields_ok (effect_store _ _ _ _ (by rw [length_elemBytes, length_dft, hz]; exact h))⟩
  case nttroot => exact ⟨_, rfl, yields_bind fun _ => yields_bind fun _ => yields_ok (effect_writeX _ _ _ _)⟩
  case nttpre =>
    exact ⟨_, rfl, yields_bind fun n => yields_guard fun h1 => yields_bind fun _ => yields_guard fun h2 =>
      yields_ok ⟨by constructor <;> rfl, rfl, rfl, ⟨rfl, rfl⟩, id, .inr ⟨rfl, rfl⟩, .inr ⟨n, rfl, h1, h2⟩, id, id⟩⟩
  case ntth | ntts2 | ntts4 => exact ⟨_, rfl, yields_hybrid _ _ _ _ _ _⟩

/-! ### What an instruction can answer -/

/-- `t` is what instruction `i` leaves of `s`. -/
inductive Answers (i : Instr) (s t : State) : Prop where
  /-- it completed with an effect -/
  | done (u : State) : i ≠ .halt → Effect ((∃ m, i = .rmacq m) ∨ i = .rmrel) s u → t = u.advance → Answers i s t
  /-- it is HALT -/
  | halted : i = .halt → t = s.halt → Answers i s t
  /-- it took a fault on the state it found -/
  | fault (e : Raise) : t = s.takeFault (encode i) e → Answers i s t
  /-- it is a CMPRM whose computation raised ASSERTION -/
  | spoiled (d a b c : RegNo) (info : Word64) : i = .cmprm d a b c →
      (xValue s d).toNat + (xValue s c).toNat ≤ s.dmemBytes →
      t = (s.havoc (xValue s d).toNat (xValue s c).toNat).takeFault (encode i) ⟨.assertion, info⟩ → Answers i s t

/-- Everything an instruction can answer. -/
theorem exec_answers (i : Instr) (s t : State) (h : exec i s = .next t) : Answers i s t := by
  by_cases h1 : i = .halt
  · subst h1
    have : Host.Outcome.next s.halt = (.next t : Host.Outcome State Fault Refusal) := h
    injection this with this
    exact .halted rfl this.symm
  by_cases h2 : ∀ d a b c, i ≠ .cmprm d a b c
  · obtain ⟨body, hx, ho⟩ := body_yields i s h1 h2
    rw [hx] at h
    rcases execute_cases i s t body h with ⟨_, u, hu, rfl⟩ | ⟨e, rfl⟩
    · exact .done u h1 (ho u hu) rfl
    · exact .fault e rfl
  · push Not at h2
    obtain ⟨d, a, b, c, rfl⟩ := h2
    have h : execCmprm d a b c s = .next t := h
    rw [execCmprm] at h
    cases hj : cmprmJob d a b c s with
    | error e =>
      rw [hj] at h
      injection h with h
      exact .fault e h.symm
    | ok job =>
      rw [hj] at h
      injection h with h
      obtain ⟨g1, g2, f1, f2⟩ := cmprmJob_ok _ _ _ _ _ _ hj
      cases hh : hashPairs s.rc job.2.2 with
      | ok bs =>
        rw [hh] at h
        refine .done _ (by simp) (effect_store _ s job.1 bs ?_) h.symm
        rw [length_hashPairs _ _ _ hh, f2]
        exact f1
      | error e =>
        rw [hh] at h
        rw [g1, g2] at h f1
        exact .spoiled d a b c _ rfl f1 h.symm

end Sys2Proof.Machine
end

