-- ==== Sys2Proof/Laws/Host.lean ====
section
/-! SUPPORT. What the host's accesses do, said once. -/

namespace Sys2Proof.Machine

/-! ### Control -/

@[simp] theorem State.softResetIf_false (s : State) : s.softResetIf false = s := rfl
@[simp] theorem State.softResetIf_true (s : State) : s.softResetIf true = s.softReset := rfl
@[simp] theorem State.startIf_false (s : State) : s.startIf false = s := rfl

theorem State.startIf_idle (s : State) (h : s.busy = false) : s.startIf true = s.start := by
  simp [State.startIf, h]

theorem State.startIf_busy (s : State) (bit : Bool) (h : s.busy = true) : s.startIf bit = s := by
  simp [State.startIf, h]

theorem start_started (s : State) : Started s s.start := by
  constructor <;> rfl

/-! ### SOFT_RESET -/

theorem resetKeepingMemory_values (s : State) : ResetValues s.resetKeepingMemory := by
  constructor
  case fValid => intro r; exact (Vector.getElem_replicate ..)
  case xValid => intro r; exact (Vector.getElem_replicate ..)
  case vValid => intro r; exact (Vector.getElem_replicate ..)
  all_goals simp [State.resetKeepingMemory, State.reset, State.irq]

/-- Of two bytes, one or the other. -/
theorem getD_chooseBytes : ∀ (os ns cs : List Byte) (k : Nat), os.length = ns.length → os.length = cs.length →
    (chooseBytes os ns cs).getD k 0 = os.getD k 0 ∨ (chooseBytes os ns cs).getD k 0 = ns.getD k 0 := by
  intro os
  induction os with
  | nil => intro ns cs k h h'; exact .inl (by cases ns <;> cases cs <;> simp_all [chooseBytes])
  | cons o os ih =>
    intro ns cs k h h'
    cases ns with
    | nil => simp at h
    | cons n ns =>
      cases cs with
      | nil => simp at h'
      | cons c cs =>
        cases k with
        | zero =>
          by_cases hc : c.getLsbD 0 = true
          · exact .inr (by rw [chooseBytes, if_pos hc]; rfl)
          · exact .inl (by rw [chooseBytes, if_neg hc]; rfl)
        | succ k =>
          have := ih ns cs k (by simpa using h) (by simpa using h')
          simpa [chooseBytes] using this

theorem length_chooseBytes : ∀ (os ns cs : List Byte), os.length = ns.length → os.length = cs.length →
    (chooseBytes os ns cs).length = os.length := by
  intro os
  induction os with
  | nil => intro ns cs _ _; cases ns <;> cases cs <;> simp [chooseBytes]
  | cons o os ih =>
    intro ns cs h h'
    cases ns with
    | nil => simp at h
    | cons n ns =>
      cases cs with
      | nil => simp at h'
      | cons c cs => simp [chooseBytes, ih ns cs (by simpa using h) (by simpa using h')]

/-- Free ranges change no byte outside them, and nothing but data memory and the count of free bytes. -/
theorem havocAll_spec : ∀ (rs : List (Nat × Nat)) (s : State),
    (∃ m n, s.havocAll rs = { s with dmem := m, freeIx := n }) ∧
      ∀ k, (∀ r ∈ rs, ¬bytesAt r.1 r.2 k) → readByte (s.havocAll rs).dmem k = readByte s.dmem k := by
  intro rs
  induction rs with
  | nil => intro s; exact ⟨⟨_, _, rfl⟩, fun _ _ => rfl⟩
  | cons r rs ih =>
    intro s
    obtain ⟨a, n⟩ := r
    obtain ⟨⟨m, i, e⟩, h⟩ := ih (s.havoc a n)
    refine ⟨⟨m, i, by rw [State.havocAll, e]; rfl⟩, fun k hk => ?_⟩
    rw [State.havocAll, h k (fun r hr => hk r (by simp [hr]))]
    show readByte (writeBytes s.dmem a (freeBytes s.freeIx n)) k = _
    rw [readByte_writeBytes_outside]
    have := hk (a, n) (by simp)
    simpa [bytesAt] using this

/-! ### What a host access changes -/

/-- A read of the register block changes nothing but the host's data and the count of free bytes drawn. -/
theorem hostRegRead_frame (off width : Nat) (s : State) : hostRegRead off width s =
    { s with hostData := (hostRegRead off width s).hostData, freeIx := (hostRegRead off width s).freeIx } := by
  by_cases h : wholeRegister off width
  · by_cases hb : off = 0x20 ∧ s.busy = true
    · have e : hostRegRead off width s = { s.drawn 4 with hostData := freeBytes s.freeIx 4 ++ List.replicate 4 0 } := by
        rw [hostRegRead, if_pos h, if_pos hb]
      rw [e]
      rfl
    · have e : hostRegRead off width s = { s with hostData := leBytes 8 (hostRegValue s off) } := by
        rw [hostRegRead, if_pos h, if_neg hb]
      rw [e]
  · have e : hostRegRead off width s = { s with hostData := List.replicate width 0 } := by
      rw [hostRegRead, if_neg h]
    rw [e]

/-- A read of PC while the engine is busy draws free bytes; no other read of the block does. -/
theorem hostRegRead_freeIx (off width : Nat) (s : State) (h : ¬(off = 0x20 ∧ s.busy = true)) :
    (hostRegRead off width s).freeIx = s.freeIx := by
  rw [hostRegRead, if_neg h]
  split <;> rfl

theorem hostMemRead_busy (sp : Space) (a n : Nat) (s : State) (h : s.busy = true) :
    hostMemRead sp a n s = { s.drawn n with hostData := (List.range n).map fun i =>
      (if a + i < s.spaceBytes sp then Config.freeByte (s.freeIx + i) else 0 : Byte) } := by
  rw [hostMemRead, if_pos h]

theorem hostMemRead_idle (sp : Space) (a n : Nat) (s : State) (h : ¬s.busy = true) :
    hostMemRead sp a n s = { s with hostData := (List.range n).map fun i =>
      (if a + i < s.spaceBytes sp then readByte (s.space sp) (a + i) else 0 : Byte) } := by
  rw [hostMemRead, if_neg h]

/-- A read of a memory changes nothing but the host's data and the count of free bytes drawn. -/
theorem hostMemRead_frame (sp : Space) (a n : Nat) (s : State) : hostMemRead sp a n s =
    { s with hostData := (hostMemRead sp a n s).hostData, freeIx := (hostMemRead sp a n s).freeIx } := by
  by_cases h : s.busy = true
  · rw [hostMemRead_busy sp a n s h]
    rfl
  · rw [hostMemRead_idle sp a n s h]

/-- A write of a memory changes nothing but the memories. -/
theorem hostMemWrite_frame (sp : Space) (a : Nat) (bs : List Byte) (s : State) : hostMemWrite sp a bs s =
    { s with imem := (hostMemWrite sp a bs s).imem, dmem := (hostMemWrite sp a bs s).dmem } := by
  by_cases h : s.busy = true
  · have e : hostMemWrite sp a bs s = s := by cases sp <;> simp only [hostMemWrite, if_pos h]
    rw [e]
  · cases sp <;> simp only [hostMemWrite, if_neg h]

/-- A step that finds a host access performs it. -/
theorem step_host (s : State) (act : HostAction) (acts : List HostAction) (h : s.host = act :: acts)
    (hr : act ≠ .run) : step s = .next (hostAccess act (s.withHost acts)) := by
  unfold step
  rw [h]
  cases act <;> first | rfl | exact (hr rfl).elim

/-! ### The engine's turn -/

@[simp] theorem State.turned_busy (s : State) : s.turned.busy = s.busy := rfl
@[simp] theorem State.turned_imemBytes (s : State) : s.turned.imemBytes = s.imemBytes := rfl
@[simp] theorem State.turned_fetchWord (s : State) : s.turned.fetchWord = s.fetchWord := rfl
@[simp] theorem State.turned_pcAddr (s : State) : s.turned.pcAddr = s.pcAddr := rfl
@[simp] theorem State.turned_dmem (s : State) : s.turned.dmem = s.dmem := rfl
@[simp] theorem State.turned_host (s : State) : s.turned.host = s.host.tail := rfl

/-- Where the engine has its turn, a step is the engine's. -/
theorem step_turn (s : State) (h : engineTurn s) : step s = engineStep s.turned := by
  rcases h with h | ⟨acts, h⟩
  · have e : s.turned = s := by
      rw [State.turned, h]
      unfold State.withHost
      rw [List.tail_nil, ← h]
    rw [step, h, e]
  · rw [step, h, State.turned, h, List.tail_cons]

end Sys2Proof.Machine
end

