-- ==== Sys2Proof/Laws/PerInstr.lean ====
section
/-! SUPPORT. A statement about every instruction as syntax, one lemma per constructor: the opcode field of its word
is the opcode of its row (30_encoding.md R101, R105). -/

/-- The opcode of an instruction's row (30_encoding.md R105). -/
def Sys2Proof.Laws.OpcodeMatch.opcode : Sys2Proof.Instr → BitVec 6
  | .nop => 0x01
  | .halt => 0x02
  | .rmacq _ => 0x03
  | .rmrel => 0x04
  | .xli _ _ => 0x08
  | .xaddi _ _ _ => 0x09
  | .ldx _ _ _ => 0x0A
  | .stx _ _ _ => 0x0B
  | .ldf _ _ _ => 0x10
  | .stf _ _ _ => 0x11
  | .fmov _ _ => 0x12
  | .fadd _ _ _ => 0x13
  | .ldv _ _ _ => 0x14
  | .stv _ _ _ => 0x15
  | .mul _ _ _ => 0x18
  | .sqr _ _ => 0x19
  | .redp _ _ => 0x1C
  | .red1 _ _ => 0x1D
  | .red _ _ => 0x1E
  | .redprc _ _ _ => 0x1F
  | .vmul _ _ _ => 0x20
  | .vsqr _ _ => 0x21
  | .bmul3 _ _ _ => 0x24
  | .bmul4 _ _ _ => 0x25
  | .bsqr3 _ _ => 0x26
  | .bsqr4 _ _ => 0x27
  | .bar _ _ => 0x28
  | .cmpr _ _ _ => 0x29
  | .cmprm _ _ _ _ => 0x2A
  | .nttb8 _ _ => 0x30
  | .ntt8 _ _ _ => 0x31
  | .nttroot _ _ => 0x32
  | .nttpre _ => 0x33
  | .ntth _ _ _ => 0x34
  | .ntts2 _ _ _ => 0x35
  | .ntts4 _ _ _ => 0x36

/-- The opcode field of the instruction's word is its row's opcode. -/
def Sys2Proof.Laws.OpcodeMatch.Statement (i : Sys2Proof.Instr) : Prop :=
  Sys2Proof.fieldOp (Sys2Proof.encode i) = Sys2Proof.Laws.OpcodeMatch.opcode i

namespace Sys2Proof.Laws

theorem OpcodeMatch.nop : OpcodeMatch.Statement (.nop) :=
  fieldOp_pack ..

theorem OpcodeMatch.halt : OpcodeMatch.Statement (.halt) :=
  fieldOp_pack ..

theorem OpcodeMatch.rmacq (mode : BitVec 10) : OpcodeMatch.Statement (.rmacq mode) :=
  fieldOp_pack ..

theorem OpcodeMatch.rmrel : OpcodeMatch.Statement (.rmrel) :=
  fieldOp_pack ..

theorem OpcodeMatch.xli (d : RegNo) (imm : BitVec 22) : OpcodeMatch.Statement (.xli d imm) :=
  fieldOp_packL ..

theorem OpcodeMatch.xaddi (d : RegNo) (a : RegNo) (imm : BitVec 18) : OpcodeMatch.Statement (.xaddi d a imm) :=
  fieldOp_packM ..

theorem OpcodeMatch.ldx (d : RegNo) (a : RegNo) (imm : BitVec 18) : OpcodeMatch.Statement (.ldx d a imm) :=
  fieldOp_packM ..

theorem OpcodeMatch.stx (d : RegNo) (a : RegNo) (imm : BitVec 18) : OpcodeMatch.Statement (.stx d a imm) :=
  fieldOp_packM ..

theorem OpcodeMatch.ldf (d : RegNo) (a : RegNo) (imm : BitVec 18) : OpcodeMatch.Statement (.ldf d a imm) :=
  fieldOp_packM ..

theorem OpcodeMatch.stf (d : RegNo) (a : RegNo) (imm : BitVec 18) : OpcodeMatch.Statement (.stf d a imm) :=
  fieldOp_packM ..

theorem OpcodeMatch.fmov (d : RegNo) (a : RegNo) : OpcodeMatch.Statement (.fmov d a) :=
  fieldOp_pack ..

theorem OpcodeMatch.fadd (d : RegNo) (a : RegNo) (b : RegNo) : OpcodeMatch.Statement (.fadd d a b) :=
  fieldOp_pack ..

theorem OpcodeMatch.ldv (d : RegNo) (a : RegNo) (imm : BitVec 18) : OpcodeMatch.Statement (.ldv d a imm) :=
  fieldOp_packM ..

theorem OpcodeMatch.stv (d : RegNo) (a : RegNo) (imm : BitVec 18) : OpcodeMatch.Statement (.stv d a imm) :=
  fieldOp_packM ..

theorem OpcodeMatch.mul (d : RegNo) (a : RegNo) (b : RegNo) : OpcodeMatch.Statement (.mul d a b) :=
  fieldOp_pack ..

theorem OpcodeMatch.sqr (d : RegNo) (a : RegNo) : OpcodeMatch.Statement (.sqr d a) :=
  fieldOp_pack ..

theorem OpcodeMatch.redp (d : RegNo) (a : RegNo) : OpcodeMatch.Statement (.redp d a) :=
  fieldOp_pack ..

theorem OpcodeMatch.red1 (d : RegNo) (a : RegNo) : OpcodeMatch.Statement (.red1 d a) :=
  fieldOp_pack ..

theorem OpcodeMatch.red (d : RegNo) (a : RegNo) : OpcodeMatch.Statement (.red d a) :=
  fieldOp_pack ..

theorem OpcodeMatch.redprc (d : RegNo) (a : RegNo) (i : BitVec 10) : OpcodeMatch.Statement (.redprc d a i) :=
  fieldOp_pack ..

theorem OpcodeMatch.vmul (d : RegNo) (a : RegNo) (b : RegNo) : OpcodeMatch.Statement (.vmul d a b) :=
  fieldOp_pack ..

theorem OpcodeMatch.vsqr (d : RegNo) (a : RegNo) : OpcodeMatch.Statement (.vsqr d a) :=
  fieldOp_pack ..

theorem OpcodeMatch.bmul3 (d : RegNo) (a : RegNo) (b : RegNo) : OpcodeMatch.Statement (.bmul3 d a b) :=
  fieldOp_pack ..

theorem OpcodeMatch.bmul4 (d : RegNo) (a : RegNo) (b : RegNo) : OpcodeMatch.Statement (.bmul4 d a b) :=
  fieldOp_pack ..

theorem OpcodeMatch.bsqr3 (d : RegNo) (a : RegNo) : OpcodeMatch.Statement (.bsqr3 d a) :=
  fieldOp_pack ..

theorem OpcodeMatch.bsqr4 (d : RegNo) (a : RegNo) : OpcodeMatch.Statement (.bsqr4 d a) :=
  fieldOp_pack ..

theorem OpcodeMatch.bar (d : RegNo) (a : RegNo) : OpcodeMatch.Statement (.bar d a) :=
  fieldOp_pack ..

theorem OpcodeMatch.cmpr (d : RegNo) (a : RegNo) (b : RegNo) : OpcodeMatch.Statement (.cmpr d a b) :=
  fieldOp_pack ..

theorem OpcodeMatch.cmprm (d : RegNo) (a : RegNo) (b : RegNo) (c : RegNo) : OpcodeMatch.Statement (.cmprm d a b c) :=
  fieldOp_pack ..

theorem OpcodeMatch.nttb8 (a : RegNo) (b : RegNo) : OpcodeMatch.Statement (.nttb8 a b) :=
  fieldOp_pack ..

theorem OpcodeMatch.ntt8 (a : RegNo) (b : RegNo) (c : RegNo) : OpcodeMatch.Statement (.ntt8 a b c) :=
  fieldOp_pack ..

theorem OpcodeMatch.nttroot (d : RegNo) (a : RegNo) : OpcodeMatch.Statement (.nttroot d a) :=
  fieldOp_pack ..

theorem OpcodeMatch.nttpre (a : RegNo) : OpcodeMatch.Statement (.nttpre a) :=
  fieldOp_pack ..

theorem OpcodeMatch.ntth (a : RegNo) (b : RegNo) (c : RegNo) : OpcodeMatch.Statement (.ntth a b c) :=
  fieldOp_pack ..

theorem OpcodeMatch.ntts2 (a : RegNo) (b : RegNo) (c : RegNo) : OpcodeMatch.Statement (.ntts2 a b c) :=
  fieldOp_pack ..

theorem OpcodeMatch.ntts4 (a : RegNo) (b : RegNo) (c : RegNo) : OpcodeMatch.Statement (.ntts4 a b c) :=
  fieldOp_pack ..

end Sys2Proof.Laws
end

