-- ==== Sys2Proof/Tests/Slice0.lean ====
section
/-! SUPPORT. Tests of this model: ill-formed terms refused, words written out from the opcode map, instructions on
the vectors of 95_test_vectors.md, and for every statement with hypotheses a state and operands that meet them. -/

-- One after the other: kernel evaluations side by side, all waiting for the text before them, exhaust the threads.
set_option Elab.async false

namespace Sys2Proof.Tests

open Machine

/-! ### Ill-formed terms (30_encoding.md R106) -/

theorem test_illformed_mode : (Instr.rmacq 4).fieldError = some .mode := by decide
theorem test_illformed_rcIndex : (Instr.redprc 1 1 18).fieldError = some .rcIndex := by decide
theorem test_illformed_ldv : (Instr.ldv 8 1 0).fieldError = some .vRegister := by decide
theorem test_illformed_stv : (Instr.stv 8 1 0).fieldError = some .vRegister := by decide
theorem test_illformed_vmul : (Instr.vmul 8 0 0).wellFormed = false ∧ (Instr.vmul 0 8 0).wellFormed = false ∧
    (Instr.vmul 0 0 8).wellFormed = false := by decide
theorem test_illformed_vsqr : (Instr.vsqr 8 0).wellFormed = false ∧ (Instr.vsqr 0 8).wellFormed = false := by decide
theorem test_illformed_bmul3 : (Instr.bmul3 14 0 3).wellFormed = false ∧ (Instr.bmul3 0 14 3).wellFormed = false ∧
    (Instr.bmul3 0 3 14).fieldError = some .registerGroup := by decide
theorem test_illformed_bmul4 : (Instr.bmul4 13 0 3).wellFormed = false ∧ (Instr.bmul4 0 13 3).wellFormed = false ∧
    (Instr.bmul4 0 3 13).fieldError = some .registerGroup := by decide
theorem test_illformed_bsqr3 : (Instr.bsqr3 14 0).wellFormed = false ∧ (Instr.bsqr3 0 14).wellFormed = false := by
  decide
theorem test_illformed_bsqr4 : (Instr.bsqr4 13 0).wellFormed = false ∧ (Instr.bsqr4 0 13).wellFormed = false := by
  decide

/-! ### Words (30_encoding.md R101, R102, R105): opcode, d, a, b, c, immediate -/

theorem test_decode_nop : decodeWord 0b000001_00000000000000000000000000 = .ok (.nop) := by decide
theorem test_decode_halt : decodeWord 0b000010_00000000000000000000000000 = .ok (.halt) := by decide
theorem test_decode_rmacq : decodeWord 0b000011_0000000000000000_0000000010 = .ok (.rmacq 2) := by decide
theorem test_decode_rmrel : decodeWord 0b000100_00000000000000000000000000 = .ok (.rmrel) := by decide
theorem test_decode_xli : decodeWord 0b001000_1011_1011001001101000110101 = .ok (.xli 11 0x2c9a35) := by decide
theorem test_decode_xaddi : decodeWord 0b001001_1011_0110_101011010110100111 = .ok (.xaddi 11 6 0x2b5a7) := by decide
theorem test_decode_ldx : decodeWord 0b001010_1011_0110_101011010110100111 = .ok (.ldx 11 6 0x2b5a7) := by decide
theorem test_decode_stx : decodeWord 0b001011_1011_0110_101011010110100111 = .ok (.stx 11 6 0x2b5a7) := by decide
theorem test_decode_ldf : decodeWord 0b010000_1011_0110_101011010110100111 = .ok (.ldf 11 6 0x2b5a7) := by decide
theorem test_decode_stf : decodeWord 0b010001_1011_0110_101011010110100111 = .ok (.stf 11 6 0x2b5a7) := by decide
theorem test_decode_fmov : decodeWord 0b010010_1011_0110_000000000000000000 = .ok (.fmov 11 6) := by decide
theorem test_decode_fadd : decodeWord 0b010011_1011_0110_1001_00000000000000 = .ok (.fadd 11 6 9) := by decide
theorem test_decode_ldv : decodeWord 0b010100_0101_0110_101011010110100111 = .ok (.ldv 5 6 0x2b5a7) := by decide
theorem test_decode_stv : decodeWord 0b010101_0111_0110_101011010110100111 = .ok (.stv 7 6 0x2b5a7) := by decide
theorem test_decode_mul : decodeWord 0b011000_1011_0110_1001_00000000000000 = .ok (.mul 11 6 9) := by decide
theorem test_decode_sqr : decodeWord 0b011001_1011_0110_000000000000000000 = .ok (.sqr 11 6) := by decide
theorem test_decode_redp : decodeWord 0b011100_1011_0110_000000000000000000 = .ok (.redp 11 6) := by decide
theorem test_decode_red1 : decodeWord 0b011101_1011_0110_000000000000000000 = .ok (.red1 11 6) := by decide
theorem test_decode_red : decodeWord 0b011110_1011_0110_000000000000000000 = .ok (.red 11 6) := by decide
theorem test_decode_redprc : decodeWord 0b011111_1011_0110_00000000_0000010001 = .ok (.redprc 11 6 17) := by decide
theorem test_decode_vmul : decodeWord 0b100000_0101_0011_0110_00000000000000 = .ok (.vmul 5 3 6) := by decide
theorem test_decode_vsqr : decodeWord 0b100001_0101_0011_000000000000000000 = .ok (.vsqr 5 3) := by decide
theorem test_decode_bmul3 : decodeWord 0b100100_1101_1010_0111_00000000000000 = .ok (.bmul3 13 10 7) := by decide
theorem test_decode_bmul4 : decodeWord 0b100101_1100_1001_0111_00000000000000 = .ok (.bmul4 12 9 7) := by decide
theorem test_decode_bsqr3 : decodeWord 0b100110_1101_1010_000000000000000000 = .ok (.bsqr3 13 10) := by decide
theorem test_decode_bsqr4 : decodeWord 0b100111_1100_1001_000000000000000000 = .ok (.bsqr4 12 9) := by decide
theorem test_decode_bar : decodeWord 0b101000_1011_0110_000000000000000000 = .ok (.bar 11 6) := by decide
theorem test_decode_cmpr : decodeWord 0b101001_1011_0110_1001_00000000000000 = .ok (.cmpr 11 6 9) := by decide
theorem test_decode_cmprm : decodeWord 0b101010_1011_0110_1001_1101_0000000000 = .ok (.cmprm 11 6 9 13) := by decide
theorem test_decode_nttb8 : decodeWord 0b110000_0000_0110_1001_00000000000000 = .ok (.nttb8 6 9) := by decide
theorem test_decode_ntt8 : decodeWord 0b110001_0000_0110_1001_1101_0000000000 = .ok (.ntt8 6 9 13) := by decide
theorem test_decode_nttroot : decodeWord 0b110010_1011_0110_000000000000000000 = .ok (.nttroot 11 6) := by decide
theorem test_decode_nttpre : decodeWord 0b110011_0000_0110_000000000000000000 = .ok (.nttpre 6) := by decide
theorem test_decode_ntth : decodeWord 0b110100_0000_0110_1001_1101_0000000000 = .ok (.ntth 6 9 13) := by decide
theorem test_decode_ntts2 : decodeWord 0b110101_0000_0110_1001_1101_0000000000 = .ok (.ntts2 6 9 13) := by decide
theorem test_decode_ntts4 : decodeWord 0b110110_0000_0110_1001_1101_0000000000 = .ok (.ntts4 6 9 13) := by decide

/-! ### Words of 95_test_vectors.md section 3.1 -/

theorem test_decode_vectors :
    decodeWord 0x24cbfff8 = .ok (.xaddi 3 2 0x3fff8) ∧ decodeWord 0x20600000 = .ok (.xli 1 0x200000) ∧
    decodeWord 0x55c40050 = .ok (.stv 7 1 80) ∧ decodeWord 0x7c440011 = .ok (.redprc 1 1 17) ∧
    decodeWord 0x9f000000 = .ok (.bsqr4 12 0) ∧ decodeWord 0xd4049800 = .ok (.ntts2 1 2 6) := by decide

theorem test_illegal_vectors :
    decodeWord 0xfc000000 = .error .reservedOpcode ∧ decodeWord 0x08000001 = .error .reservedBits ∧
    decodeWord 0x0c000004 = .error (.field .mode) ∧ decodeWord 0x7c440012 = .error (.field .rcIndex) ∧
    decodeWord 0x82000000 = .error (.field .vRegister) ∧ decodeWord 0x52040000 = .error (.field .vRegister) ∧
    decodeWord 0x9380c000 = .error (.field .registerGroup) ∧
    decodeWord 0x97410000 = .error (.field .registerGroup) ∧ decodeWord 0xcc480000 = .error .reservedBits := by
  decide

theorem test_decode_bytes : decode [0x00, 0xc0, 0x44, 0x61, 7] = .ok (.mul 5 1 3, [7]) ∧
    decode [0x00, 0xc0, 0x44] = .error .truncated := by decide

theorem test_decodeTableWord : decodeTableWord 32 0xa884d000 = some (.cmprm 2 1 3 4) ∧
    decodeTableWord 32 0 = none := by decide

/-! ### States -/

/-- A busy engine with no register written, and the open round constants 0 (the TEST-INSTANCE of
47_skyscraper.md R324). -/
def fresh : State := { State.reset with skyRc := Vector.replicate 15 0, busy := true }

/-- `fresh` with address registers written. -/
def withX (xs : List (RegNo × Word64)) : State := xs.foldl (fun s x => s.writeX x.1 x.2) fresh

/-- `fresh` with field registers written. -/
def withF (fs : List (RegNo × FieldWord)) : State := fs.foldl (fun s x => s.writeF x.1 x.2) fresh

/-- A state with 64-bit words in data memory. -/
def words (s : State) (a : Nat) (ws : List Nat) : State := s.store a (ws.flatMap (leBytes 8))

/-- A state with 256-bit values in data memory. -/
def values (s : State) (a : Nat) (vs : List Nat) : State := s.store a (vs.flatMap (leBytes 32))

/-- The state an instruction leaves. -/
def after (i : Instr) (s : State) : State :=
  match exec i s with
  | .next t => t
  | .fault _ | .refused _ => s

/-- The state a step leaves. -/
def stepped (s : State) : State :=
  match step s with
  | .next t => t
  | .fault _ | .refused _ => s

/-- The cause, FINFO and FAULT of a state. -/
def faultOf (s : State) : Bool × Nat × Nat := (s.faultBit, s.cause.toNat, s.finfo.toNat)

/-! ### Control and data movement (95_test_vectors.md sections 3.2, 3.3) -/

theorem test_nop : (after .nop fresh).pc = 4 ∧ (after .nop fresh).busy = true := by decide +kernel

theorem test_halt_unwinds : (after .halt { fresh with gs := [3, 0], rmode := 1 }).rmode = 0 ∧
    (after .halt { fresh with gs := [3, 0], rmode := 1 }).doneBit = true := by decide +kernel

theorem test_rmacq : (after (.rmacq 3) fresh).rmode = 3 ∧ (after (.rmacq 3) fresh).gs = [0] := by decide +kernel

theorem test_rmacq_full : faultOf (after (.rmacq 3) { fresh with gs := List.replicate 8 3 }) = (true, 6, 8) := by
  decide +kernel

theorem test_rmrel : (after .rmrel { fresh with gs := [3, 0], rmode := 1 }).rmode = 3 ∧
    (after .rmrel { fresh with gs := [3, 0], rmode := 1 }).gs = [0] := by decide +kernel

theorem test_rmrel_empty : faultOf (after .rmrel fresh) = (true, 7, 0) := by decide +kernel

theorem test_xli : (after (.xli 1 0x3fffff) fresh).x[1] = 0xffffffffffffffff ∧
    (after (.xli 1 0x200000) fresh).x[1] = 0xffffffffffe00000 := by decide +kernel

theorem test_xaddi_wraps : (after (.xaddi 3 2 0x3fff8) (withX [(2, 0)])).x[3] = 0xfffffffffffffff8 := by
  decide +kernel

theorem test_xaddi_x0 : (after (.xaddi 0 1 5) (withX [(1, 7)])).x[0] = 0 ∧
    (after (.xaddi 1 0 0) fresh).xValid[1] = true := by decide +kernel

theorem test_ldx : (after (.ldx 5 1 0) (words (withX [(1, 0x100)]) 0x100 [0x0102030405060708])).x[5]
    = 0x0102030405060708 := by decide +kernel

theorem test_ldx_unwritten : faultOf (after (.ldx 5 1 0) fresh) = (true, 16, 1) := by decide +kernel

theorem test_stx : readBytes (after (.stx 4 1 0) (withX [(1, 0x100), (4, 0x0102030405060708)])).dmem 0x100 8
    = [8, 7, 6, 5, 4, 3, 2, 1] := by decide +kernel

theorem test_stx_x0 : (after (.stx 0 1 0) (words (withX [(1, 0x100)]) 0x100 [5])).dmem = [] := by decide +kernel

theorem test_ldf : (after (.ldf 2 1 0) ((withX [(1, 0x100)]).store 0x100 ((List.range 32).map (BitVec.ofNat 8)))).f[2]
    = 0x1f1e1d1c1b1a191817161514131211100f0e0d0c0b0a09080706050403020100 := by decide +kernel

theorem test_ldf_range : faultOf (after (.ldf 1 1 0) (withX [(1, 2 ^ 24 - 24)])) = (true, 4, 2 ^ 24 - 24) ∧
    (after (.ldf 1 1 0) (withX [(1, 2 ^ 24 - 32)])).fValid[1] = true := by decide +kernel

theorem test_stf : readBytes (after (.stf 2 1 32) ((withX [(1, 0x100)]).writeF 2 0x0102)).dmem 0x120 3 = [2, 1, 0] := by
  decide +kernel

theorem test_stf_unwritten : faultOf (after (.stf 2 1 0) (withX [(1, 4)])) = (true, 16, 0x12) := by decide +kernel

theorem test_fmov : (after (.fmov 3 2) (withF [(2, 77)])).f[3] = 77 := by decide +kernel

theorem test_fadd_wraps : (after (.fadd 4 2 3) (withF [(2, BitVec.ofNat 256 (2 ^ 256 - 1)), (3, 2)])).f[4] = 1 := by
  decide +kernel

theorem test_fadd_unreduced : (after (.fadd 4 2 3) (withF [(2, BitVec.ofNat 256 (2 * p - 1)),
    (3, BitVec.ofNat 256 (2 * p - 1))])).f[4].toNat = 4 * p - 2 := by decide +kernel

theorem test_ldv : (after (.ldv 0 1 0) (words (withX [(1, 0x100)]) 0x100 [1, 2, 3, 4, 5, 6, 7, 8, 9, 10])).v[0]
    = ⟨#v[#v[1, 2, 3, 4, 5], #v[6, 7, 8, 9, 10]]⟩ := by decide +kernel

theorem test_stv : (List.range 10).map (fun k => memRead (after (.stv 7 1 80) ((withX [(1, 0x100)]).writeV 7
    ⟨#v[#v[1, 2, 3, 4, 5], #v[6, 7, 8, 9, 10]]⟩)).dmem (0x150 + 8 * k) 8) = [1, 2, 3, 4, 5, 6, 7, 8, 9, 10] := by
  decide +kernel

theorem test_stv_unwritten : faultOf (after (.stv 7 1 0) fresh) = (true, 16, 0x27) := by decide +kernel

/-! ### Scalar products and reduction (95_test_vectors.md section 4) -/

theorem test_mul : (after (.mul 3 1 2) (withF [(1, BitVec.ofNat 256 (2 ^ 256 - 1)), (2, 1)])).f[3]
    = 0x1a7855215e6c4b0cf02a37d1d2c8fb001f24f29e98a784096786558e824ee6b4 := by decide +kernel

theorem test_mul_bound : faultOf (after (.mul 3 1 2) (withF [(1, BitVec.ofNat 256 (2 ^ 256 - 1)),
    (2, BitVec.ofNat 256 (p + 1))])) = (true, 8, 0) := by decide +kernel

theorem test_sqr : (after (.sqr 1 1) (withF [(1, BitVec.ofNat 256 (2 * p - 1))])).f[1]
    = 0x465047c463f6f5468076539b3039b5ba3142ddf25acb5d19203d95995db1194f := by decide +kernel

theorem test_sqr_bound : faultOf (after (.sqr 1 1) (withF [(1, BitVec.ofNat 256 (2 ^ 255))])) = (true, 8, 0) := by
  decide +kernel

theorem test_redp : (after (.redp 2 1) (withF [(1, BitVec.ofNat 256 (5 * p))])).f[2].toNat = p ∧
    (after (.redp 2 1) (withF [(1, BitVec.ofNat 256 (2 ^ 256 - 1))])).f[2]
      = 0x0e0a77c19a07df2f666ea36f7879462e36fc76959f60cd29ac96341c4ffffffa := by decide +kernel

theorem test_red1 : (after (.red1 2 1) (withF [(1, BitVec.ofNat 256 (5 * p))])).f[2].toNat = 4 * p ∧
    (after (.red1 2 1) (withF [(1, BitVec.ofNat 256 (p - 1))])).f[2].toNat = p - 1 := by decide +kernel

theorem test_red : (after (.red 2 1) (withF [(1, BitVec.ofNat 256 (5 * p))])).f[2] = 0 ∧
    (after (.red 2 1) (withF [(1, 0x30644e72e131a02b1ebee925f9fa9e8b5f305ede191a3dbaf07829b03ffffffb)])).f[2]
      = 0x0000000000000001666ea36f7879462e36fc76959f60cd29ac96341c4ffffffa := by decide +kernel

theorem test_redprc : (after (.redprc 2 1 1) (withF [(1, BitVec.ofNat 256 (3 * p + 5))])).f[2]
    = 0x57cf6696cb9f1690c06e182f884990b2af650e3f826142fad41e38b8170bd74a := by decide +kernel

theorem test_redprc_assertion : faultOf (after (.redprc 2 1 5) { withF [(1, BitVec.ofNat 256 (p + 1))] with
    skyRc := Vector.replicate 15 (BitVec.ofNat 256 (p - 1)) }) = (true, 9, 5) := by decide +kernel

/-! ### The fp-SIMD unit and the blocks (95_test_vectors.md sections 5, 6.1) -/

/-- The lanes `[x, 0, 0, 0, 0]` and `[y, 0, 0, 0, 0]`. -/
def lanes (x y : Word64) : VReg := ⟨#v[#v[x, 0, 0, 0, 0], #v[y, 0, 0, 0, 0]]⟩

theorem test_vmul_mode : faultOf (after (.vmul 2 1 1) { fresh.writeV 1 (lanes 1 2) with rmode := 1 })
    = (true, 5, 1) := by decide +kernel

theorem test_vmul_limbs : faultOf (after (.vmul 2 0 1)
    { (fresh.writeV 1 (lanes 1 0x10000000000000)).writeV 0 (lanes 1 1) with rmode := 3 }) = (true, 8, 1) := by decide +kernel

theorem test_vsqr_mode : faultOf (after (.vsqr 3 1) (fresh.writeV 1 (lanes 1 2))) = (true, 5, 0) := by decide +kernel

theorem test_vsqr_limbs : faultOf (after (.vsqr 3 1) { fresh.writeV 1 (lanes 0x10000000000000 1) with rmode := 3 })
    = (true, 8, 0) := by decide +kernel

theorem test_bmul3 : (after (.bmul3 6 0 3)
    { withF [(0, 3), (1, 1), (2, 1), (3, 5), (4, 1), (5, 1)] with rmode := 3 }).f[6]
    = 0x2679c51562663bb568592e1f33c5664496a8f34155b4388e52129ed9cd607b8c := by decide +kernel

theorem test_bmul3_unwritten : faultOf (after (.bmul3 6 0 3) (withF [(0, 3), (1, 1), (2, 1), (3, 5), (5, 1)]))
    = (true, 16, 0x14) := by decide +kernel

theorem test_bmul4 : (after (.bmul4 8 0 4) { withF [(0, 2), (1, 3), (2, 5), (3, 7), (4, 11), (5, 13), (6, 17), (7, 19)]
    with rmode := 3 }).f[9] = 0x2049c5c9f7c4549d40777cb8047f5afcb5d50011346a8f0d0ff41200c5fadad1 := by decide +kernel

theorem test_bsqr3 : (after (.bsqr3 3 0) { withF [(0, BitVec.ofNat 256 rc1), (1, 1), (2, 1)] with rmode := 3 }).f[3]
    = 0x2e76ed9c4caaa271b579dbe1e09b6c42664e97483c0adb42d1e6f6ac14b9f82a := by decide +kernel

theorem test_bsqr3_bound : faultOf (after (.bsqr3 3 0) { withF [(0, 1), (1, 1), (2, BitVec.ofNat 256 (2 ^ 255))]
    with rmode := 3 }) = (true, 8, 2) := by decide +kernel

theorem test_bsqr4_bound : faultOf (after (.bsqr4 12 0)
    { withF [(0, BitVec.ofNat 256 (2 ^ 255)), (1, 1), (2, 1), (3, 1)] with rmode := 3 }) = (true, 8, 0) := by decide +kernel

/-! ### Bar and Skyscraper (95_test_vectors.md sections 6.2, 6.3) -/

theorem test_bar : (after (.bar 2 1) (withF [(1, 0xCD)])).f[2].toNat = 0xD3 * 2 ^ 128 ∧
    (after (.bar 2 1) (withF [(1, BitVec.ofNat 256 (2 * p - 1))])).f[2]
      = 0x2013871e0f494201de7b9d81637ea7a33996f49e51a9d0c12cbe94b81b0b3039 := by decide +kernel

theorem test_bar_bound : faultOf (after (.bar 2 1) (withF [(1, BitVec.ofNat 256 (2 * p))])) = (true, 8, 0) := by
  decide +kernel

theorem test_cmpr : (after (.cmpr 3 1 2) (withF [(1, 1), (2, 2)])).f[3]
    = 0x1893431d4347f4450c91610d9314084ec0b98fecdf86249ec8c97024a10c2f56 := by decide +kernel

theorem test_cmpr_bound : faultOf (after (.cmpr 3 1 2) (withF [(1, BitVec.ofNat 256 p), (2, 0)])) = (true, 8, 0) := by
  decide +kernel

/-- Two message pairs at `0x6000`, with an output buffer of two hashes at `0x6100`. -/
def batch : State := values (withX [(1, 0x6000), (2, 0x6100), (3, 128), (4, 64)]) 0x6000 [0, 0, 1, 2]

theorem test_cmprm : memRead (after (.cmprm 2 1 3 4) batch).dmem 0x6120 32
    = 0x1893431d4347f4450c91610d9314084ec0b98fecdf86249ec8c97024a10c2f56 := by decide +kernel

theorem test_cmprm_overlap : faultOf (after (.cmprm 2 1 3 4) (withX [(1, 0x6000), (2, 0x6020), (3, 64), (4, 32)]))
    = (true, 15, 0x6020) := by decide +kernel

/-! ### The NTT unit (95_test_vectors.md section 7) -/

/-- `1, …, 8` at `0x5000`, with `w8` in `X3`, `n = 8` in `X2` and a scratch address in `X6`. -/
def vector8 : State := words (withX [(1, 0x5000), (2, 8), (3, 0x0000800000008000), (6, 0x10000)]) 0x5000
  [1, 2, 3, 4, 5, 6, 7, 8]

/-- The words at `0x5000`. -/
def vectorAt (s : State) (n : Nat) : List Nat := (List.range n).map fun k => memRead s.dmem (0x5000 + 8 * k) 8

theorem test_nttb8 : vectorAt (after (.nttb8 1 3) vector8) 8 = [0x24, 0x7ffbfffb7ffffffb, 0x7ffffffb7ffffffb,
    0x7ffc00037ffffffb, 0x7ffffffb, 0x3fffc7ffffffb, 0x47ffffffb, 0x400047ffffffb] := by decide +kernel

theorem test_nttb8_canonical : faultOf (after (.nttb8 1 3) (words vector8 0x5010 [q])) = (true, 8, 0x5010) := by
  decide +kernel

theorem test_ntt8 : vectorAt (after (.ntt8 1 2 3) (words vector8 0x5000 [0, 1, 0, 0, 0, 0, 0, 0])) 8 = [0x1,
    0x800000008000, 0x100000000, 0x80007fff7fff, 0x7ffffffe, 0x7fff7fff7fff7fff, 0x7ffffffe00000000,
    0x7fff7fff00008000] := by decide +kernel

theorem test_ntt8_root : faultOf (after (.ntt8 1 2 3) (vector8.writeX 3 1)) = (true, 13, 1) := by decide +kernel

theorem test_nttroot_none : faultOf (after (.nttroot 3 2) (withX [(2, 5)])) = (true, 12, 5) ∧
    faultOf (after (.nttroot 3 2) (withX [(2, 0)])) = (true, 12, 0) := by decide +kernel

theorem test_nttroot_generator : cmPow generator (groupOrder / 2) = ⟨q - 1, 0⟩ ∧
    hasOrder generator groupOrder = true := by decide +kernel

theorem test_nttpre : (after (.nttpre 2) (withX [(2, 64)])).twb = some 64 ∧
    faultOf (after (.nttpre 2) (withX [(2, 48)])) = (true, 11, 48) := by decide +kernel

theorem test_nttpre_order : faultOf (after (.nttpre 2) (withX [(2, 2 ^ 33)])) = (true, 12, 2 ^ 33) ∧
    faultOf (after (.nttpre 2) (withX [(2, 2 ^ 30)])) = (true, 11, 2 ^ 30) := by decide +kernel

theorem test_ntth : (after (.ntth 1 2 6) { vector8 with twb := some 8 }).busy = true ∧
    faultOf (after (.ntth 1 2 6) { vector8.writeX 6 0x4ff8 with twb := some 8 }) = (true, 15, 0x4ff8) := by
  decide +kernel

theorem test_ntts2 : (after (.ntts2 1 2 6) { vector8.writeX 2 16 with twb := some 16 }).busy = true ∧
    faultOf (after (.ntts2 1 2 6) { vector8 with twb := some 8 }) = (true, 11, 8) := by decide +kernel

theorem test_ntts4 : (after (.ntts4 1 2 6) { vector8.writeX 2 32 with twb := some 32 }).busy = true ∧
    faultOf (after (.ntts4 1 2 6) { vector8.writeX 2 32 with twb := some 16 }) = (true, 14, 32) := by decide +kernel

/-! ### Steps and the host (95_test_vectors.md section 8, 10_state.md) -/

theorem test_step_fetches : (stepped (State.reset.withFetchWord 32 0x207fffff)).x[1] = 0xffffffffffffffff ∧
    (stepped (State.reset.withFetchWord 32 0x207fffff)).pc = 4 := by decide +kernel

theorem test_step_illegal : faultOf (stepped (State.reset.withFetchWord 32 0x0c000004)) = (true, 1, 0) := by
  decide +kernel

theorem test_step_end : faultOf (stepped { fresh with pc := 0x10000 }) = (true, 2, 0x10000) := by decide +kernel

theorem test_host_id : (stepped { fresh with host := [.regRead 0 8] }).hostData
    = [0x01, 0x00, 0x45, 0x52, 0x4F, 0x43, 0x4B, 0x50] := by decide +kernel

theorem test_host_start : (stepped { State.reset with host := [.regWrite 8 8 1], entry := 0x40, doneBit := true }).pc
    = 0x40 ∧ (stepped { State.reset with host := [.regWrite 8 8 1], doneBit := true }).doneBit = false := by
  decide +kernel

theorem test_host_soft_reset : (stepped { withX [(1, 9)] with host := [.regWrite 8 8 4] }).xValid[1] = false ∧
    (stepped { withX [(1, 9)] with host := [.regWrite 8 8 4] }).busy = false := by decide +kernel

/-! ### Constants and the FMA split (00_scope.md R8, 43_fp_simd.md R212, 95_test_vectors.md sections 1, 5.1) -/

theorem test_constants : p * np0 % 2 ^ 52 = 2 ^ 52 - 1 ∧ p * mu0 % 2 ^ 64 = 2 ^ 64 - 1 ∧
    r52Inv * r52 % p = 1 ∧ rInv * montR % p = 1 := by decide +kernel

theorem test_limbs5_p : limbs5 p = #v[0x1f593f0000001, 0x4879b9709143e, 0x181585d2833e8, 0xa029b85045b68,
      0x30644e72e131] ∧
    limbs5 (2 * p) = #v[0x3eb27e0000002, 0x90f372e12287c, 0x302b0ba5067d0, 0x405370a08b6d0, 0x60c89ce5c263] := by
  decide +kernel

theorem test_fma_patterns : binary64 c1 = 0x4670000000000000 ∧ binary64 c2 = 0x4670000000000001 ∧
    binary64 ((2 ^ 52 : Nat) : Int) = 0x4330000000000000 := by decide +kernel

/-- The patterns of `hi` and `lo`. -/
def fmaPatterns (mode : BitVec 2) (x y : Nat) : Nat × Nat := (binary64 (fmaHi mode x y), binary64 (fmaLo mode x y))

theorem test_fma_split : fmaPatterns 0b11 (2 ^ 52 - 1) (2 ^ 52 - 1) = (0x467ffffffffffffe, 0x4330000000000001) ∧
    fmaPatterns 0b11 3 (2 ^ 51 + 1) = (0x4670000000000001, 0x4338000000000003) ∧
    fmaPatterns 0b11 0x1f593f0000001 np0 = (0x46703d6bc5edd80f, 0x433fffffffffffff) ∧
    fmaPatterns 0b11 (2 ^ 51) 3 = (0x4670000000000001, 0x4338000000000000) := by decide +kernel

theorem test_fma_nearest : fmaPatterns 0b00 1 1 = (0x4670000000000000, 0x4330000000000001) ∧
    fmaPatterns 0b00 3 (2 ^ 51 + 1) = (0x4670000000000002, 0x4320000000000006) ∧
    fmaPatterns 0b00 (2 ^ 52 - 1) 1 = (0x4670000000000001, 0x432ffffffffffffe) ∧
    fmaPatterns 0b00 (2 ^ 51) 3 = (0x4670000000000002, 0x4320000000000000) := by decide +kernel

/-! ### States and operands that meet the hypotheses of the statements -/

/-- A check holds. -/
theorem holds_of {P : Prop} {c : Cause} {i : Word64} (h : P) : (⟨P, c, i⟩ : Check).holds := h

/-- `fresh` at a word. -/
def atWord (w : Nat) : State := fresh.withFetchWord 32 w

/-- `fresh` before a host access. -/
def hosted (act : HostAction) : State := { fresh with host := [act] }

/-- The reset state before a host access. -/
def idleHosted (act : HostAction) : State := { State.reset with host := [act] }

/-- The outcome is a next state. -/
def isNext : Host.Outcome State Fault Refusal → Bool
  | .next _ => true
  | .fault _ | .refused _ => false

theorem step_stepped (s : State) (h : isNext (step s) = true) : step s = .next (stepped s) := by
  unfold stepped
  cases hs : step s with
  | next t => rfl
  | fault e => rw [hs] at h; cases h
  | refused e => rw [hs] at h; cases h

theorem exec_after (i : Instr) (s : State) (h : isNext (exec i s) = true) : exec i s = .next (after i s) := by
  unfold after
  cases hs : exec i s with
  | next t => rfl
  | fault e => rw [hs] at h; cases h
  | refused e => rw [hs] at h; cases h

theorem witness_DecodeEncodeRoundTrip : (Instr.redprc 15 15 17).wellFormed = true ∧
    (Instr.bmul4 12 12 12).wellFormed = true := by decide

theorem witness_EncodeDecodeRoundTrip : decodeWord 0x7c440011 = .ok (.redprc 1 1 17) := by decide

theorem witness_IllegalWordFaults : (atWord 0x7c440012).host = [] ∧ (atWord 0x7c440012).busy = true ∧
    ¬(atWord 0x7c440012).fetchPastEnd ∧ ¬Spec.isInstruction (atWord 0x7c440012).fetchWord := by
  unfold Spec.isInstruction
  decide +kernel

/-- The three kinds of stop where the list `host` lets the engine run. -/
theorem witness_engineTurn_run : engineTurn ((atWord 0x7c440012).withHost [.run, .regRead 0 8]) ∧
    ((atWord 0x7c440012).withHost [.run, .regRead 0 8]).busy = true ∧
    ¬((atWord 0x7c440012).withHost [.run, .regRead 0 8]).fetchPastEnd ∧
    ((atWord 0x7c440012).withHost [.run, .regRead 0 8]).fetchWord = (atWord 0x7c440012).fetchWord ∧
    engineTurn { fresh with pc := 0x10000, host := [.run] } ∧
    { fresh with pc := 0x10000, host := [.run] }.imemBytes < { fresh with pc := 0x10000, host := [.run] }.pcAddr + 4 ∧
    step ((atWord 0x0c000004).withHost [.run]) = .next (stepped ((atWord 0x0c000004).withHost [.run])) ∧
    (stepped ((atWord 0x0c000004).withHost [.run])).busy = false :=
  ⟨.inr ⟨_, rfl⟩, by decide +kernel, by decide +kernel, by decide +kernel, .inr ⟨_, rfl⟩, by decide +kernel,
    step_stepped _ (by decide +kernel), by decide +kernel⟩

/-- The last word of an IMEM of `2^32` bytes. -/
def lastWord : State := { fresh with caps := { fresh.caps with imemLog2 := 32 }, pc := 0xfffffffc }

/-- pc does not wrap there (10_state.md R35): the address after it is `2^32`, and the fetch there faults. -/
theorem test_pc_never_wraps : (after .nop lastWord).pcAddr = 2 ^ 32 ∧ (after .nop lastWord).fetchPastEnd ∧
    faultOf (stepped (after .nop lastWord)) = (true, 2, 2 ^ 32) := by decide +kernel

theorem witness_NopAdvances : lastWord.pcAddr < 2 ^ 32 ∧ lastWord.pcAddr = 2 ^ 32 - 4 := by decide +kernel

theorem witness_StepRunsDecodedInstruction : (atWord 0x207fffff).busy = true ∧
    (atWord 0x207fffff).pcAddr + 4 ≤ (atWord 0x207fffff).imemBytes ∧
    decode (readBytes (atWord 0x207fffff).imem (atWord 0x207fffff).pcAddr 4) = .ok (.xli 1 0x3fffff, []) ∧
    (atWord 0x207fffff).host = [] ∧ ((atWord 0x207fffff).withHost [.run]).host = [.run] := by decide +kernel

theorem witness_StepRunsDecodedInstruction_last :
    ({ fresh with pc := 0xfffc }.withFetchWord 32 0x207fffff).pcAddr + 4
      = ({ fresh with pc := 0xfffc }.withFetchWord 32 0x207fffff).imemBytes ∧
    decode (readBytes ({ fresh with pc := 0xfffc }.withFetchWord 32 0x207fffff).imem 0xfffc 4)
      = .ok (.xli 1 0x3fffff, []) := by decide +kernel

theorem witness_FetchPastEndFaults : { fresh with pc := 0x10000 }.host = [] ∧
    { fresh with pc := 0x10000 }.busy = true ∧
    { fresh with pc := 0x10000 }.imemBytes < { fresh with pc := 0x10000 }.pcAddr + 4 := by decide +kernel

/-- A busy engine inside a guarded block with registers, memory and TWB written. -/
def working : State :=
  { (words ((atWord 0x207fffff).writeX 1 7) 0x100 [5]).writeF 2 9 with gs := [0], rmode := 3, twb := some 64 }

theorem working_inv : working.Inv := by
  constructor
  case twb =>
    intro n hn
    have : n = 64 := (Option.some.inj hn).symm
    subst this
    decide +kernel
  all_goals decide +kernel

theorem witness_StepKeepsInvariant : working.Inv ∧ step working = .next (stepped working) :=
  ⟨working_inv, step_stepped _ (by decide +kernel)⟩

theorem witness_ImemFixedDuringRun : BusyRun working (stepped working) ∧ working.busy = true ∧
    step (idleHosted (.memWrite .imem 0xffff [7])) = .next (stepped (idleHosted (.memWrite .imem 0xffff [7]))) ∧
    (stepped (idleHosted (.memWrite .imem 0xffff [7]))).imem ≠ (idleHosted (.memWrite .imem 0xffff [7])).imem :=
  ⟨.step _ _ _ (.refl _) (by decide +kernel) (step_stepped _ (by decide +kernel)), by decide +kernel,
    step_stepped _ (by decide +kernel), by decide +kernel⟩

theorem witness_RmodeChangedOnlyByGuard : exec (.rmacq 2) fresh = .next (after (.rmacq 2) fresh) ∧
    (after (.rmacq 2) fresh).busy = true ∧ (after (.rmacq 2) fresh).rmode ≠ fresh.rmode ∧
    working.busy = true ∧ (hostAccess (.regWrite 8 8 4) working).rmode ≠ working.rmode :=
  ⟨exec_after _ _ (by decide +kernel), by decide +kernel⟩

theorem witness_FaultsArePrecise : (atWord 0x0c000004).host = [] ∧ (atWord 0x0c000004).busy = true ∧
    step (atWord 0x0c000004) = .next (stepped (atWord 0x0c000004)) ∧ (stepped (atWord 0x0c000004)).busy = false ∧
    step (atWord 0x08000000) = .next (stepped (atWord 0x08000000)) ∧ (stepped (atWord 0x08000000)).busy = false :=
  ⟨by decide +kernel, by decide +kernel, step_stepped _ (by decide +kernel), by decide +kernel,
    step_stepped _ (by decide +kernel), by decide +kernel⟩

theorem witness_UnwrittenSourceFaults : (Instr.bmul4 0 12 12).wellFormed = true ∧
    sources (.bmul4 0 12 12) = [.f 12, .f 13, .f 14] ++ .f 15 :: [.f 12, .f 13, .f 14, .f 15] ∧
    (∀ r ∈ [Source.f 12, .f 13, .f 14], r.unwritten (withF [(12, 1), (13, 1), (14, 1)]) = false) ∧
    (Source.f 15).unwritten (withF [(12, 1), (13, 1), (14, 1)]) = true := by decide +kernel

theorem witness_UnwrittenSourceFaults_kinds : sources (.stv 7 15 0) = [] ++ .v 7 :: [.x 15] ∧
    (Source.v 7).unwritten fresh = true ∧ sources (.stx 0 15 0) = [.x 0] ++ .x 15 :: [] ∧
    (Source.x 0).unwritten fresh = false ∧ (Source.x 15).unwritten fresh = true := by decide +kernel

theorem fresh_rcLegal : Spec.rcLegal fresh := by
  unfold Spec.rcLegal
  decide +kernel

theorem witness_FirstFailingCheckFaults : (Instr.ldf 1 1 0).wellFormed = true ∧
    sourcesWritten (.ldf 1 1 0) (withX [(1, 2 ^ 24 - 24)]) = true ∧ Spec.rcLegal (withX [(1, 2 ^ 24 - 24)]) ∧
    firstFails (Spec.checks (.ldf 1 1 0) (withX [(1, 2 ^ 24 - 24)])) .dataRange (2 ^ 24 - 24) :=
  ⟨by decide, by decide +kernel, by unfold Spec.rcLegal; decide +kernel, .inr ⟨by decide +kernel,
    .inl ⟨by decide +kernel, rfl, by decide +kernel⟩⟩⟩

/-- The checks of `LDF` at the last place of data memory. -/
theorem witness_CompletesWhenChecksHold : (Instr.ldf 1 1 0).wellFormed = true ∧ Instr.ldf 1 1 0 ≠ .halt ∧
    sourcesWritten (.ldf 1 1 0) (withX [(1, 2 ^ 24 - 32)]) = true ∧ Spec.rcLegal (withX [(1, 2 ^ 24 - 32)]) ∧
    checksHold (Spec.checks (.ldf 1 1 0) (withX [(1, 2 ^ 24 - 32)])) :=
  ⟨by decide, by decide, by decide +kernel, by unfold Spec.rcLegal; decide +kernel,
    (checksHold_cons _ _).2 ⟨holds_of (by decide +kernel), (checksHold_cons _ _).2
      ⟨holds_of (by decide +kernel), checksHold_nil⟩⟩⟩

theorem witness_X0IsHardwired : exec (.xli 0 5) fresh = .next (after (.xli 0 5) fresh) :=
  exec_after _ _ (by decide +kernel)

theorem witness_ActivityStates : State.reset.busy = false ∧ State.reset.host = [] ∧
    (idleHosted .run).host = .run :: [] ∧
    step (idleHosted (.regWrite 8 8 1)) = .next (stepped (idleHosted (.regWrite 8 8 1))) ∧
    (stepped (idleHosted (.regWrite 8 8 1))).busy = true ∧
    step (hosted (.regWrite 8 8 4)) = .next (stepped (hosted (.regWrite 8 8 4))) ∧
    (stepped (hosted (.regWrite 8 8 4))).busy = false ∧ (hosted (.regWrite 8 8 4)).busy = true :=
  ⟨rfl, rfl, rfl, step_stepped _ (by decide +kernel), by decide +kernel, step_stepped _ (by decide +kernel),
    by decide +kernel, by decide +kernel⟩

theorem witness_RmacqPushesMode : (3 : BitVec 10).toNat ≤ 3 ∧
    { fresh with gs := List.replicate 7 3 }.gs.length ≠ fresh.caps.guardDepth ∧
    { fresh with gs := List.replicate 8 3 }.gs.length = fresh.caps.guardDepth := by decide +kernel

theorem witness_RmrelPopsMode : working.gs = 0 :: [] ∧ fresh.gs = [] := by decide +kernel

theorem witness_BalancedGuardRestoresMode : Balanced [.rmacq 3, .nop, .rmacq 1, .rmrel, .rmrel, .xli 1 5] ∧
    (∃ t, runAll [.rmacq 3, .nop, .rmacq 1, .rmrel, .rmrel, .xli 1 5] fresh = some t) ∧
    Balanced [.nop] ∧ ∃ t, runAll [.rmacq 2, .nop] fresh = some t := by
  refine ⟨.guarded 3 [.nop, .rmacq 1, .rmrel] [.xli 1 5] (.other _ _ (by simp) (by simp)
    (.guarded 1 [] [] .nil .nil)) (.other _ _ (by simp) (by simp) .nil),
    Option.isSome_iff_exists.1 (by decide +kernel), .other _ _ (by simp) (by simp) .nil,
    Option.isSome_iff_exists.1 (by decide +kernel)⟩

theorem witness_AddressRegisterResults : readX (withX [(1, 7)]) 1 = .ok 7 ∧ readX fresh 0 = .ok 0 := by
  decide +kernel

theorem witness_LoadResults : readX (withX [(1, 2 ^ 24)]) 1 = .ok (2 ^ 24) ∧
    (effectiveAddr (2 ^ 24) 0x3fff8).toNat % 8 = 0 ∧ (effectiveAddr (2 ^ 24) 0x3ffe0).toNat % 8 = 0 ∧
    (effectiveAddr (2 ^ 24) 0x3ffb0).toNat % 8 = 0 ∧
    (effectiveAddr (2 ^ 24) 0x3fff8).toNat + 8 = (withX [(1, 2 ^ 24)]).dmemBytes ∧
    (effectiveAddr (2 ^ 24) 0x3ffe0).toNat + 32 = (withX [(1, 2 ^ 24)]).dmemBytes ∧
    (effectiveAddr (2 ^ 24) 0x3ffb0).toNat + 80 = (withX [(1, 2 ^ 24)]).dmemBytes ∧ (7 : RegNo).toNat ≤ 7 := by
  decide +kernel

/-- One register of each file written, and the end of data memory in `X1`. -/
def atEnd : State := ((withX [(1, 2 ^ 24), (2, 5)]).writeF 2 6).writeV 7 (lanes 7 8)

theorem witness_StoreResults : readX atEnd 1 = .ok (2 ^ 24) ∧ readX atEnd 2 = .ok 5 ∧ readF atEnd 2 = .ok 6 ∧
    readV atEnd 7 = .ok (lanes 7 8) ∧ (7 : RegNo).toNat ≤ 7 ∧
    (effectiveAddr (2 ^ 24) 0x3fff8).toNat + 8 = atEnd.dmemBytes ∧
    (effectiveAddr (2 ^ 24) 0x3ffe0).toNat + 32 = atEnd.dmemBytes ∧
    (effectiveAddr (2 ^ 24) 0x3ffb0).toNat + 80 = atEnd.dmemBytes := by decide +kernel

theorem witness_StoreThenLoad : readX atEnd 1 = .ok (2 ^ 24) ∧ readX atEnd 0 = .ok 0 ∧ readF atEnd 2 = .ok 6 ∧
    readV atEnd 7 = .ok (lanes 7 8) ∧ (effectiveAddr 0 0).toNat % 8 = 0 ∧
    (effectiveAddr 0 0).toNat + 80 ≤ atEnd.dmemBytes := by decide +kernel

theorem witness_FieldMoveAndAdd : readF atEnd 2 = .ok 6 := by decide +kernel

theorem witness_CiosClosedForm : 2 ^ 256 - 1 < 2 ^ 256 ∧ p < 2 ^ 256 ∧ (2 ^ 256 - 1) * p < p * 2 ^ 256 ∧
    p - 1 < p ∧ (1 : Nat) < 2 ^ 256 ∧ ((2 ^ 256 - 1) * p + 1 * p) % 2 ^ 256 = 0 := by
  decide +kernel

/-- The largest value whose square the scalar unit accepts. -/
def sqMax : Nat := 0x6f4d8248eeb859fcc6fb4e9fc7b81b19c00000000000000076e0252804a2e0af

/-- Field registers at the bounds of the scalar product. -/
def bounds : State :=
  withF [(1, BitVec.ofNat 256 (2 ^ 256 - 1)), (2, BitVec.ofNat 256 p), (3, BitVec.ofNat 256 (p + 1)),
    (4, BitVec.ofNat 256 sqMax), (5, BitVec.ofNat 256 (sqMax + 1))]

theorem witness_ScalarProducts : readF bounds 1 = .ok (BitVec.ofNat 256 (2 ^ 256 - 1)) ∧
    readF bounds 2 = .ok (BitVec.ofNat 256 p) ∧ readF bounds 3 = .ok (BitVec.ofNat 256 (p + 1)) ∧
    readF bounds 4 = .ok (BitVec.ofNat 256 sqMax) ∧ readF bounds 5 = .ok (BitVec.ofNat 256 (sqMax + 1)) ∧
    (2 ^ 256 - 1) * p < p * 2 ^ 256 ∧ p * 2 ^ 256 ≤ (2 ^ 256 - 1) * (p + 1) ∧
    sqMax * sqMax < p * 2 ^ 256 ∧ p * 2 ^ 256 ≤ (sqMax + 1) * (sqMax + 1) := by decide +kernel

theorem witness_ReductionResults : readF bounds 1 = .ok (BitVec.ofNat 256 (2 ^ 256 - 1)) ∧
    readF bounds 2 = .ok (BitVec.ofNat 256 p) := by decide +kernel

/-- `bounds` with every open round constant at `p - 1`. -/
def boundsRc : State := { bounds with skyRc := Vector.replicate 15 (BitVec.ofNat 256 (p - 1)) }

theorem witness_RedprcAddsConstant : Spec.rcLegal boundsRc ∧ Spec.rcLegal bounds ∧ (17 : BitVec 10).toNat ≤ 17 ∧
    readF boundsRc 2 = .ok (BitVec.ofNat 256 p) ∧ readF boundsRc 3 = .ok (BitVec.ofNat 256 (p + 1)) ∧
    Spec.reducePartial p + boundsRc.rc (2 : BitVec 10).toNat = 2 * p - 1 ∧
    Spec.reducePartial (p + 1) + boundsRc.rc (16 : BitVec 10).toNat = 2 * p ∧
    bounds.rc (17 : BitVec 10).toNat < Spec.skyRcSafe := by
  unfold Spec.rcLegal
  decide +kernel

/-- All ten limbs at `2^52 - 1`, in round-toward-zero. -/
def simdState : State :=
  { fresh.writeV 7 ⟨Vector.replicate 2 (Vector.replicate 5 0xfffffffffffff)⟩ with rmode := 0b11 }

theorem witness_SimdResults : (7 : RegNo).toNat ≤ 7 ∧
    readV simdState 7 = .ok ⟨Vector.replicate 2 (Vector.replicate 5 0xfffffffffffff)⟩ ∧ simdState.rmode = 0b11 ∧
    ∀ (l : Fin 2) (j : Fin 5), ((Vector.replicate 2 (Vector.replicate 5 (0xfffffffffffff : Word64)))[l][j]).toNat
      < 2 ^ 52 := by decide +kernel

theorem witness_RoundingModeRequired : needsRtz (.vmul 7 7 7) = true ∧ (Instr.vmul 7 7 7).wellFormed = true ∧
    sourcesWritten (.vmul 7 7 7) { simdState with rmode := 0b10 } = true ∧
    { simdState with rmode := 0b10 }.rmode ≠ 0b11 := by decide +kernel

/-- The last group of three or four field registers, in round-toward-zero. -/
def blockState (x y : Nat) : State :=
  { withF [(12, BitVec.ofNat 256 x), (13, BitVec.ofNat 256 x), (14, BitVec.ofNat 256 x), (15, BitVec.ofNat 256 x),
      (0, BitVec.ofNat 256 y), (1, BitVec.ofNat 256 y), (2, BitVec.ofNat 256 y), (3, BitVec.ofNat 256 y)]
    with rmode := 0b11 }

theorem witness_BlockResults_caps : (blockState (2 ^ 256 - 1) p).caps.legal ∧ (blockState sqMax 0).caps.legal := by
  decide +kernel

theorem witness_BlockResults3 : (13 : RegNo).toNat ≤ 13 ∧ (0 : RegNo).toNat ≤ 13 ∧
    sourcesWritten (.bmul3 13 13 0) (blockState (2 ^ 256 - 1) p) = true ∧
    (∀ k, k < 3 → fValue (blockState (2 ^ 256 - 1) p) (13 + BitVec.ofNat 4 k) *
      fValue (blockState (2 ^ 256 - 1) p) (0 + BitVec.ofNat 4 k) < p * 2 ^ 256) ∧
    sourcesWritten (.bsqr3 13 13) (blockState sqMax 0) = true ∧ (blockState sqMax 0).rmode = 0b11 ∧
    ∀ k, k < 3 → fValue (blockState sqMax 0) (13 + BitVec.ofNat 4 k) *
      fValue (blockState sqMax 0) (13 + BitVec.ofNat 4 k) < p * 2 ^ 256 := by decide +kernel

theorem witness_BlockResults4 : (12 : RegNo).toNat ≤ 12 ∧
    sourcesWritten (.bmul4 12 12 0) (blockState (2 ^ 256 - 1) p) = true ∧
    (∀ k, k < 4 → fValue (blockState (2 ^ 256 - 1) p) (12 + BitVec.ofNat 4 k) *
      fValue (blockState (2 ^ 256 - 1) p) (0 + BitVec.ofNat 4 k) < p * 2 ^ 256) ∧
    sourcesWritten (.bsqr4 12 12) (blockState sqMax 0) = true ∧ (blockState sqMax 0).rmode = 0b11 ∧
    ∀ k, k < 4 → fValue (blockState sqMax 0) (12 + BitVec.ofNat 4 k) *
      fValue (blockState sqMax 0) (12 + BitVec.ofNat 4 k) < p * 2 ^ 256 := by decide +kernel

theorem witness_LanesAgreeAfterRed : p ≤ simdBlockBoundDefault ∧ simdBlockBoundDefault ≤ 2 * p ∧ p ≤ p ∧ p ≤ 2 * p ∧
    (BitVec.ofNat 256 sqMax).toNat * (BitVec.ofNat 256 sqMax).toNat < p * 2 ^ 256 ∧
    (BitVec.ofNat 256 (2 ^ 256 - 1)).toNat * (BitVec.ofNat 256 p).toNat < p * 2 ^ 256 := by decide +kernel

theorem witness_SboxAndRoundConstants : sbox 0x01 = sbox 0x01 ∧ Spec.rcLegal fresh ∧ 17 ≤ 17 :=
  ⟨rfl, fresh_rcLegal, Nat.le_refl _⟩

/-- The bounds of Bar. -/
def barState : State := withF [(1, BitVec.ofNat 256 (2 * p - 1)), (2, BitVec.ofNat 256 (2 * p))]

theorem witness_BarResult : readF barState 1 = .ok (BitVec.ofNat 256 (2 * p - 1)) ∧
    readF barState 2 = .ok (BitVec.ofNat 256 (2 * p)) ∧ (BitVec.ofNat 256 (2 * p - 1)).toNat < 2 * p ∧
    2 * p ≤ (BitVec.ofNat 256 (2 * p)).toNat := by decide +kernel

theorem witness_BarDependsOnResidue : p - 1 < p := by decide +kernel

/-! ### Skyscraper -/

theorem noAssertion_of (rc : Nat → Nat) (l r : Nat)
    (h : ∀ i, i < 17 → 1 ≤ i → (Spec.skyRound rc l r i).1 < 2 * p) : Spec.noAssertion rc l r :=
  fun i h1 h2 => h i (by omega) h1

theorem firstAssertion_of (rc : Nat → Nat) (l r i : Nat) (h1 : 1 ≤ i ∧ i ≤ 16 ∧ 2 * p ≤ (Spec.skyRound rc l r i).1)
    (h : ∀ j, j < i → 1 ≤ j → (Spec.skyRound rc l r j).1 < 2 * p) : Spec.firstAssertion rc l r i :=
  ⟨h1.1, h1.2.1, h1.2.2, fun j h2 h3 => h j h3 h2⟩

/-- A pair whose compression raises ASSERTION in round 2, with every open round constant at `p - 1`. -/
def early : State :=
  { withF [(1, 0x21d6791360575d7ae148f513acbf3a94a3d1d2f22be0b6f49b1c77a5c8aed9fd),
      (2, 0x20406501759ae1b3c8e2ed0fca1d0c6a52db6693646699e2f270b09cc64fb134)]
    with skyRc := Vector.replicate 15 (BitVec.ofNat 256 (p - 1)) }

/-- A pair whose compression raises ASSERTION in round 16, with `RC[16] = p - 1`. -/
def late : State :=
  { withF [(1, 0x1d659542d782fce4fbe0d8dd4d1bf768a17cd8b5f9fdbeb91c1640a71d85f552),
      (2, 0x2157aa004058536fb166745b4d57793936b004c002d59a96cf912f74363a7477)]
    with skyRc := (Vector.replicate 15 0).set 14 (BitVec.ofNat 256 (p - 1)) }

/-- Canonical inputs at their bounds. -/
def canonicalPair : State := withF [(1, BitVec.ofNat 256 (p - 1)), (2, 0), (3, BitVec.ofNat 256 p)]

theorem early_asserts : Spec.firstAssertion early.rc (fValue early 1) (fValue early 2) 2 :=
  firstAssertion_of _ _ _ _ (by decide +kernel) (by decide +kernel)

theorem late_asserts : Spec.firstAssertion late.rc (fValue late 1) (fValue late 2) 16 :=
  firstAssertion_of _ _ _ _ (by decide +kernel) (by decide +kernel)

theorem canonicalPair_hashes : Spec.noAssertion canonicalPair.rc (fValue canonicalPair 1) (fValue canonicalPair 2) :=
  noAssertion_of _ _ _ (by decide +kernel)

theorem witness_CompressionBounds : (Spec.rcLegal canonicalPair ∧ Spec.rcSafe canonicalPair ∧
      fValue canonicalPair 1 < p ∧ fValue canonicalPair 2 < p ∧
      Spec.noAssertion canonicalPair.rc (fValue canonicalPair 1) (fValue canonicalPair 2)) ∧
    (Spec.rcLegal late ∧ fValue late 1 < p ∧ fValue late 2 < p ∧
      Spec.firstAssertion late.rc (fValue late 1) (fValue late 2) 16) := by
  refine ⟨⟨?_, ?_, ?_, ?_, canonicalPair_hashes⟩, ?_, ?_, ?_, late_asserts⟩ <;>
    first | decide +kernel | (unfold Spec.rcLegal; decide +kernel) | (unfold Spec.rcSafe; decide +kernel)

theorem witness_CmprResults : Spec.rcLegal canonicalPair ∧ Spec.rcLegal early ∧
    readF canonicalPair 1 = .ok (BitVec.ofNat 256 (p - 1)) ∧ readF canonicalPair 3 = .ok (BitVec.ofNat 256 p) ∧
    readF early 1 = .ok 0x21d6791360575d7ae148f513acbf3a94a3d1d2f22be0b6f49b1c77a5c8aed9fd ∧
    fValue canonicalPair 1 = p - 1 ∧ p ≤ fValue canonicalPair 3 ∧ fValue early 1 < p ∧ fValue early 2 < p := by
  unfold Spec.rcLegal
  decide +kernel

theorem witness_CmprResults_clauses :
    Spec.noAssertion canonicalPair.rc (fValue canonicalPair 1) (fValue canonicalPair 2) ∧
    Spec.firstAssertion early.rc (fValue early 1) (fValue early 2) 2 ∧
    Spec.firstAssertion late.rc (fValue late 1) (fValue late 2) 16 :=
  ⟨canonicalPair_hashes, early_asserts, late_asserts⟩

theorem batch_hashes (j i : Nat) (hj : j < 2) (h1 : 1 ≤ i) (h2 : i ≤ 16) :
    (Spec.skyRound batch.rc (message batch (xValue batch 1).toNat (2 * j))
      (message batch (xValue batch 1).toNat (2 * j + 1)) i).1 < 2 * p := by
  have : ∀ j, j < 2 → ∀ i, i < 17 → 1 ≤ i → (Spec.skyRound batch.rc (message batch (xValue batch 1).toNat (2 * j))
      (message batch (xValue batch 1).toNat (2 * j + 1)) i).1 < 2 * p := by decide +kernel
  exact this j hj i (by omega) h1

theorem witness_CmprmResults : Spec.rcLegal batch ∧ sourcesWritten (.cmprm 2 1 3 4) batch = true ∧
    checksHold (Spec.checks (.cmprm 2 1 3 4) batch) := by
  refine ⟨by unfold Spec.rcLegal; decide +kernel, by decide +kernel, ?_⟩
  refine (checksHold_append _ _).2 ⟨(checksHold_append _ _).2 ⟨?_, ?_⟩, ?_⟩
  · iterate 6 refine (checksHold_cons _ _).2 ⟨holds_of (by decide +kernel), ?_⟩
    exact checksHold_nil
  · have : 2 * ((xValue batch 3).toNat / 64) = 4 := by decide +kernel
    rw [this]
    refine checksHold_map _ _ fun j hj => holds_of ?_
    revert j
    decide +kernel
  · have : (xValue batch 3).toNat / 64 = 2 := by decide +kernel
    rw [this]
    exact checksHold_map _ _ fun j hj => holds_of fun i h1 h2 => batch_hashes j i hj h1 h2

/-- Empty buffers at the end of data memory. -/
def emptyBatch : State := withX [(1, 2 ^ 24), (2, 2 ^ 24), (3, 0)]

theorem witness_CmprmResults_empty : sourcesWritten (.cmprm 2 1 3 0) emptyBatch = true ∧
    checksHold (Spec.checks (.cmprm 2 1 3 0) emptyBatch) := by
  refine ⟨by decide +kernel, ?_⟩
  refine (checksHold_append _ _).2 ⟨(checksHold_append _ _).2 ⟨?_, ?_⟩, ?_⟩
  · iterate 6 refine (checksHold_cons _ _).2 ⟨holds_of (by decide +kernel), ?_⟩
    exact checksHold_nil
  · have : 2 * ((xValue emptyBatch 3).toNat / 64) = 0 := by decide +kernel
    rw [this]
    exact checksHold_nil
  · have : (xValue emptyBatch 3).toNat / 64 = 0 := by decide +kernel
    rw [this]
    exact checksHold_nil

/-- Two pairs, the second of which raises ASSERTION, with every open round constant at `p - 1`. -/
def assertingBatch : State :=
  { values (withX [(1, 0x6000), (2, 0x6100), (3, 128), (4, 64)]) 0x6000
      [0, 0, 0x21d6791360575d7ae148f513acbf3a94a3d1d2f22be0b6f49b1c77a5c8aed9fd,
        0x20406501759ae1b3c8e2ed0fca1d0c6a52db6693646699e2f270b09cc64fb134]
    with skyRc := Vector.replicate 15 (BitVec.ofNat 256 (p - 1)) }

theorem assertingBatch_first : ∀ i, i < 17 → 1 ≤ i →
    (Spec.skyRound assertingBatch.rc (message assertingBatch (xValue assertingBatch 1).toNat (2 * 0))
      (message assertingBatch (xValue assertingBatch 1).toNat (2 * 0 + 1)) i).1 < 2 * p := by decide +kernel

theorem assertingBatch_second : 2 * p ≤
    (Spec.skyRound assertingBatch.rc (message assertingBatch (xValue assertingBatch 1).toNat (2 * 1))
      (message assertingBatch (xValue assertingBatch 1).toNat (2 * 1 + 1)) 2).1 := by decide +kernel

/-- A CMPRM whose first failing check is the ASSERTION of its second pair. -/
theorem witness_FirstFailingCheckFaults_cmprm : (Instr.cmprm 2 1 3 4).wellFormed = true ∧
    Spec.rcLegal assertingBatch ∧ sourcesWritten (.cmprm 2 1 3 4) assertingBatch = true ∧
    firstFails (Spec.checks (.cmprm 2 1 3 4) assertingBatch) .assertion 0x6040 ∧
    Spec.spoiled (.cmprm 2 1 3 4) assertingBatch .assertion 0x6100 ∧
    Spec.spoiled (.cmprm 2 1 3 4) assertingBatch .assertion 0x613f := by
  refine ⟨by decide, by unfold Spec.rcLegal; decide +kernel, by decide +kernel, ?_,
    ⟨rfl, by unfold bytesAt; decide +kernel⟩, ⟨rfl, by unfold bytesAt; decide +kernel⟩⟩
  refine (firstFails_append _ _ _ _).2 (.inr ⟨(checksHold_append _ _).2 ⟨?_, ?_⟩, ?_⟩)
  · iterate 6 refine (checksHold_cons _ _).2 ⟨holds_of (by decide +kernel), ?_⟩
    exact checksHold_nil
  · have : 2 * ((xValue assertingBatch 3).toNat / 64) = 4 := by decide +kernel
    rw [this]
    have h : ∀ k, k < 4 → message assertingBatch (xValue assertingBatch 1).toNat k < p := by decide +kernel
    exact checksHold_map _ _ fun j hj => holds_of (h j hj)
  · have : (xValue assertingBatch 3).toNat / 64 = 2 := by decide +kernel
    rw [this]
    exact .inr ⟨noAssertion_of _ _ _ assertingBatch_first,
      .inl ⟨fun h => absurd (h 2 (by decide) (by decide)) (Nat.not_lt.2 assertingBatch_second), rfl,
        by decide +kernel⟩⟩

/-- The step of a busy engine at that CMPRM: it stops with ASSERTION, and its hash buffer may be changed. -/
theorem witness_FaultsArePrecise_cmprm : (assertingBatch.withFetchWord 32 0xa884d000).host = [] ∧
    (assertingBatch.withFetchWord 32 0xa884d000).busy = true ∧
    step (assertingBatch.withFetchWord 32 0xa884d000)
      = .next (stepped (assertingBatch.withFetchWord 32 0xa884d000)) ∧
    faultOf (stepped (assertingBatch.withFetchWord 32 0xa884d000)) = (true, 9, 0x6040) ∧
    (stepped (assertingBatch.withFetchWord 32 0xa884d000)).busy = false ∧
    ¬(assertingBatch.withFetchWord 32 0xa884d000).fetchPastEnd ∧
    decodeWord (assertingBatch.withFetchWord 32 0xa884d000).fetchWord = .ok (.cmprm 2 1 3 4) ∧
    Spec.spoiled (.cmprm 2 1 3 4) (assertingBatch.withFetchWord 32 0xa884d000) .assertion 0x6100 :=
  ⟨by decide +kernel, by decide +kernel, step_stepped _ (by decide +kernel), by decide +kernel, by decide +kernel,
    by decide +kernel, by decide +kernel, ⟨rfl, by unfold bytesAt; decide +kernel⟩⟩

theorem witness_BatchEqualsSingle : (withF [(1, 1), (2, 2)]).skyRc = batch.skyRc ∧
    exec (.cmprm 2 1 3 4) batch = .next (after (.cmprm 2 1 3 4) batch) ∧ batch.busy = true ∧
    (after (.cmprm 2 1 3 4) batch).busy = true ∧ 1 < (xValue batch 3).toNat / 64 ∧
    readF (withF [(1, 1), (2, 2)]) 1 = .ok 1 ∧ readF (withF [(1, 1), (2, 2)]) 2 = .ok 2 ∧
    (1 : FieldWord).toNat = message batch (xValue batch 1).toNat (2 * 1) ∧
    (2 : FieldWord).toNat = message batch (xValue batch 1).toNat (2 * 1 + 1) :=
  ⟨by decide +kernel, exec_after _ _ (by decide +kernel), by decide +kernel⟩

/-- `2^(-256)` modulo `p`. -/
def montInverse : Nat := 0x15ebf95182c5551cc8260de4aeb85d5d090ef5a9e111ec87dc5ba0056db1194e

/-- A squaring kernel that always returns the canonical representative. -/
def canonicalSquare (x : Nat) : Nat := x * x * montInverse % p

theorem canonicalSquare_spec (x : Nat) :
    canonicalSquare x * 2 ^ 256 % p = x * x % p ∧ canonicalSquare x < 2 * p := by
  have h : montInverse * 2 ^ 256 % p = 1 := by decide +kernel
  have h2 : canonicalSquare x < p := Nat.mod_lt _ (by decide +kernel)
  refine ⟨?_, by omega⟩
  rw [canonicalSquare, Nat.mod_mul_mod, Nat.mul_assoc, Nat.mul_mod, h, Nat.mul_one, Nat.mod_mod]

theorem witness_RepresentativeIndependence : (∀ x, x < 2 * p →
      canonicalSquare x * 2 ^ 256 % p = x * x % p ∧ canonicalSquare x < 2 * p) ∧ (∀ i, (fun _ => 0 : Nat → Nat) i < p) ∧
    compress (fun _ => 0) (p - 1) 2 = .ok 0x11312a0a0124ab70461a9ba646bea27dd0cf38fe3ce174e7870bfc934d9b766e ∧
    compressWith canonicalSquare (fun _ => 0) (p - 1) 2 =
      .ok 0x11312a0a0124ab70461a9ba646bea27dd0cf38fe3ce174e7870bfc934d9b766e ∧
    canonicalSquare (2 * p - 1) ≠ montSq (2 * p - 1) :=
  ⟨fun x _ => canonicalSquare_spec x, fun _ => (by decide +kernel : 0 < p), by decide +kernel, by decide +kernel,
    by decide +kernel⟩

/-! ### Transforms -/

theorem witness_Nttb8Results : sourcesWritten (.nttb8 1 3) vector8 = true ∧
    checksHold (Spec.checks (.nttb8 1 3) vector8) := by
  refine ⟨by decide +kernel, (checksHold_append _ _).2 ⟨?_, ?_⟩⟩
  · iterate 3 refine (checksHold_cons _ _).2 ⟨holds_of (by decide +kernel), ?_⟩
    exact checksHold_nil
  · refine checksHold_map _ _ fun j hj => holds_of ?_
    revert j
    decide +kernel

theorem witness_Ntt8Results : sourcesWritten (.ntt8 1 2 3) vector8 = true ∧
    checksHold (Spec.checks (.ntt8 1 2 3) vector8) := by
  refine ⟨by decide +kernel, (checksHold_append _ _).2 ⟨?_, ?_⟩⟩
  · refine (checksHold_cons _ _).2 ⟨holds_of ((isPure_iff _).1 (by decide +kernel)), ?_⟩
    iterate 4 refine (checksHold_cons _ _).2 ⟨holds_of (by decide +kernel), ?_⟩
    exact checksHold_nil
  · have : (xValue vector8 2).toNat = 8 := by decide +kernel
    rw [this]
    refine checksHold_map _ _ fun j hj => holds_of ?_
    revert j
    decide +kernel

theorem witness_RootsHaveExactOrder : 1 ≤ q ^ 2 - 1 ∧ (q ^ 2 - 1) % (q ^ 2 - 1) = 0 ∧ (q ^ 2 - 1) % 1 = 0 ∧
    (q ^ 2 - 1) % 2 ^ 32 = 0 := by decide +kernel

theorem witness_NttrootResults : readX (withX [(2, BitVec.ofNat 64 (q ^ 2 - 1))]) 2
      = .ok (BitVec.ofNat 64 (q ^ 2 - 1)) ∧
    (q ^ 2 - 1) % (BitVec.ofNat 64 (q ^ 2 - 1)).toNat = 0 ∧ BitVec.ofNat 64 (q ^ 2 - 1) ≠ (0 : Word64) ∧
    readX (withX [(2, 0)]) 2 = .ok 0 ∧ ¬((0 : Word64) ≠ 0 ∧ (q ^ 2 - 1) % (0 : Word64).toNat = 0) ∧
    readX (withX [(2, 2 ^ 33)]) 2 = .ok (2 ^ 33) ∧
    ¬((2 ^ 33 : Word64) ≠ 0 ∧ (q ^ 2 - 1) % (2 ^ 33 : Word64).toNat = 0) := by decide +kernel

theorem witness_NttpreResults : fresh.caps.twMaxLog2N ≤ 32 ∧ readX (withX [(2, 2 ^ 20)]) 2 = .ok (2 ^ 20) ∧
    Spec.stride4Size (2 ^ 20 : Word64).toNat ∧ (2 ^ 20 : Word64).toNat ≤ 2 ^ fresh.caps.twMaxLog2N ∧
    Spec.stride2Size (2 ^ 19 : Word64).toNat ∧ Spec.pureSize (2 ^ 21 : Word64).toNat ∧
    2 ^ fresh.caps.twMaxLog2N < (2 ^ 21 : Word64).toNat ∧ Spec.stride4Size (2 ^ 32 : Word64).toNat ∧
    (2 ^ 32 : Word64).toNat ≤ 2 ^ 32 ∧ Spec.pureSize (2 ^ 33 : Word64).toNat ∧
    2 ^ 32 < (2 ^ 33 : Word64).toNat ∧
    ¬(Spec.pureSize (1 : Word64).toNat ∨ Spec.stride2Size (1 : Word64).toNat ∨ Spec.stride4Size (1 : Word64).toNat) := by
  simp only [← isPure_iff, ← isStride2_iff, ← isStride4_iff]
  decide +kernel

/-- A vector of `n` elements at `0x5000` with its twiddles declared, the scratch directly after it. -/
def hybrid (n : Nat) : State :=
  { (vector8.writeX 2 (BitVec.ofNat 64 n)).writeX 6 (BitVec.ofNat 64 (0x5000 + 8 * n))
    with twb := some (BitVec.ofNat 64 n) }

theorem hybrid_checks (form : Nat → Prop) (s : State) (n : Nat) (hn : (xValue s 2).toNat = n)
    (h : form (xValue s 2).toNat)
    (hc : s.twb = some (xValue s 2) ∧ (xValue s 1).toNat % 8 = 0 ∧
      (xValue s 6).toNat % 8 = 0 ∧
      (xValue s 1).toNat + 8 * (xValue s 2).toNat ≤ s.dmemBytes ∧
      (xValue s 6).toNat + 8 * 32768 ≤ s.dmemBytes ∧
      (xValue s 1).toNat + 8 * (xValue s 2).toNat ≤ (xValue s 6).toNat)
    (he : ∀ j, j < n → (Spec.elem s.dmem (xValue s 1).toNat j).canonical) :
    checksHold (hybridChecks s form 1 2 6) := by
  refine (checksHold_append _ _).2 ⟨?_, ?_⟩
  · refine (checksHold_cons _ _).2 ⟨holds_of h, (checksHold_cons _ _).2 ⟨holds_of hc.1, (checksHold_cons _ _).2
      ⟨holds_of hc.2.1, (checksHold_cons _ _).2 ⟨holds_of hc.2.2.1, (checksHold_cons _ _).2
      ⟨holds_of hc.2.2.2.1, (checksHold_cons _ _).2 ⟨holds_of hc.2.2.2.2.1, (checksHold_cons _ _).2
      ⟨holds_of (.inl hc.2.2.2.2.2), checksHold_nil⟩⟩⟩⟩⟩⟩⟩
  · rw [hn]
    exact checksHold_map _ _ fun j hj => holds_of (he j hj)

theorem witness_HybridResults : sourcesWritten (.ntth 1 2 6) (hybrid 8) = true ∧
    checksHold (Spec.checks (.ntth 1 2 6) (hybrid 8)) :=
  ⟨by decide +kernel, hybrid_checks _ _ 8 (by decide +kernel) ((isPure_iff _).1 (by decide +kernel))
    (by decide +kernel) (by decide +kernel)⟩

theorem witness_HybridResults_stride2 : sourcesWritten (.ntts2 1 2 6) (hybrid 16) = true ∧
    checksHold (Spec.checks (.ntts2 1 2 6) (hybrid 16)) :=
  ⟨by decide +kernel, hybrid_checks _ _ 16 (by decide +kernel) ((isStride2_iff _).1 (by decide +kernel))
    (by decide +kernel) (by decide +kernel)⟩

theorem witness_HybridResults_stride4 : sourcesWritten (.ntts4 1 2 6) (hybrid 32) = true ∧
    checksHold (Spec.checks (.ntts4 1 2 6) (hybrid 32)) :=
  ⟨by decide +kernel, hybrid_checks _ _ 32 (by decide +kernel) ((isStride4_iff _).1 (by decide +kernel))
    (by decide +kernel) (by decide +kernel)⟩

/-- `hybrid 8` with `ROOT(8)` in `X7`. -/
def rooted : State := (hybrid 8).writeX 7 (cmPack (root 8))

theorem rooted_inv : rooted.Inv := by
  constructor
  case twb =>
    intro n hn
    have : n = 8 := (Option.some.inj hn).symm
    subst this
    decide +kernel
  all_goals decide +kernel

theorem witness_NttAgreement : rooted.Inv ∧ sourcesWritten (.ntth 1 2 6) rooted = true ∧
    checksHold (Spec.checks (.ntth 1 2 6) rooted) ∧
    readX rooted 7 = .ok (cmPack (root (xValue rooted 2).toNat)) := by
  refine ⟨rooted_inv, by decide +kernel, hybrid_checks _ _ 8 (by decide +kernel)
    ((isPure_iff _).1 (by decide +kernel)) (by decide +kernel) (by decide +kernel), ?_⟩
  have : (xValue rooted 2).toNat = 8 := by decide +kernel
  rw [this, rooted, readX_writeX]
  rfl

theorem witness_NttAgreement_strided : exec (.ntts2 1 2 6) (hybrid 16) = .next (after (.ntts2 1 2 6) (hybrid 16)) ∧
    exec (.ntts4 1 2 6) (hybrid 32) = .next (after (.ntts4 1 2 6) (hybrid 32)) :=
  ⟨exec_after _ _ (by decide +kernel), exec_after _ _ (by decide +kernel)⟩

theorem witness_InverseTransform : (cmUnpack 0x0000800000008000).canonical ∧
    Spec.orderIs (cmUnpack 0x0000800000008000)
      [cmOne, cmZero, cmOne, cmOne, ⟨q - 1, q - 1⟩, ⟨5, 6⟩, cmZero, cmOne].length ∧
    ∀ z ∈ [cmOne, cmZero, cmOne, cmOne, ⟨q - 1, q - 1⟩, ⟨5, 6⟩, cmZero, cmOne], z.canonical := by
  refine ⟨by decide +kernel, ⟨by decide +kernel, ?_⟩, by decide +kernel⟩
  have : ∀ m, m < 8 → 1 ≤ m → Spec.pow (cmUnpack 0x0000800000008000) m ≠ cmOne := by decide +kernel
  exact fun m h1 h2 => this m h2 h1

/-! ### The host -/

theorem witness_StartBeginsRun : (idleHosted (.regWrite 8 8 1)).host = [.regWrite 0x08 8 1] ∧
    (1 : Word64).getLsbD 0 = true ∧ (1 : Word64).getLsbD 2 = false ∧ (idleHosted (.regWrite 8 8 1)).busy = false ∧
    (hosted (.regWrite 8 8 3)).busy = true ∧ (3 : Word64).getLsbD 0 = true ∧ (3 : Word64).getLsbD 2 = false ∧
    (5 : Word64).getLsbD 0 = true ∧ (5 : Word64).getLsbD 2 = true := by decide +kernel

/-- A busy engine at `STX X2, X1, 0`. -/
def storing : State := (withX [(1, 0x100), (2, 5)]).withFetchWord 32 0x2c840000

theorem witness_SoftResetResets_step : (hosted (.regWrite 8 8 4)).host = .regWrite 0x08 8 4 :: [] ∧
    (4 : Word64).getLsbD 0 = false ∧ (4 : Word64).getLsbD 2 = true ∧ (hosted (.regWrite 8 8 4)).busy = true ∧
    (idleHosted (.regWrite 8 8 6)).host = .regWrite 0x08 8 6 :: [] ∧ (6 : Word64).getLsbD 0 = false ∧
    (6 : Word64).getLsbD 2 = true ∧ (6 : Word64).getLsbD 1 = true := by decide +kernel

theorem witness_SoftResetResets : State.reset.busy = false ∧ ¬storing.fetchPastEnd ∧
    decodeWord storing.fetchWord = .ok (.stx 2 1 0) ∧ storeRange (.stx 2 1 0) storing = some (0x100, 8) ∧
    exec (.stx 2 1 0) storing = .next (after (.stx 2 1 0) storing) ∧
    outputRanges (.stx 2 1 0) storing = [(0x100, 8)] :=
  ⟨by decide +kernel, by decide +kernel, by decide +kernel, by decide +kernel, exec_after _ _ (by decide +kernel),
    by decide +kernel⟩

theorem witness_HostMemoryAccess : (idleHosted (.memWrite .dmem 0xffffff [1, 2])).busy = false ∧
    (idleHosted (.memWrite .dmem 0xffffff [1, 2])).host = [.memWrite .dmem 0xffffff [1, 2]] ∧
    (hosted (.memWrite .imem 0 [1])).busy = true ∧
    0xffffff < (idleHosted (.memWrite .dmem 0xffffff [1, 2])).spaceBytes .dmem ∧
    (idleHosted (.memRead .imem 0xffff 2)).spaceBytes .imem = 0xffff + 1 ∧
    (idleHosted (.memRead .imem 0xffff 2)).host = [.memRead .imem 0xffff 2] := by decide +kernel

theorem witness_RegisterBlockReads : (idleHosted (.regRead 0x20 8)).host = [.regRead 0x20 8] ∧
    (idleHosted (.regRead 0x20 8)).busy = false ∧ ¬((4 : Nat) = 8 ∧ 0 % 8 = 0 ∧ 0 < 256) ∧
    0xf8 % 8 = 0 ∧ 0x58 ≤ 0xf8 ∧ 0xf8 < 256 ∧ ¬((8 : Nat) = 8 ∧ 256 % 8 = 0 ∧ 256 < 256) ∧
    (idleHosted (.regRead 0x40 8)).gs.length < 256 ∧ (idleHosted (.regRead 0x48 8)).caps.legal ∧
    (idleHosted (.regRead 0x50 8)).twb = none ∧ working.twb = some 64 := by decide +kernel

theorem witness_RegisterBlockWrites : (hosted (.regWrite 0x18 8 7)).host = [.regWrite 0x18 8 7] ∧
    (hosted (.regWrite 0x18 8 7)).busy = true ∧ (idleHosted (.regWrite 0x40 8 3)).busy = false ∧
    (2 : Word64).getLsbD 0 = false ∧ (2 : Word64).getLsbD 2 = false ∧
    ¬((8 : Nat) = 8 ∧ 0x20 ∈ [0x08, 0x10, 0x18, 0x40]) ∧ ¬((4 : Nat) = 8 ∧ 0x18 ∈ [0x08, 0x10, 0x18, 0x40]) := by
  decide +kernel

theorem witness_InterruptLine_exec : { fresh with irqEn := true }.busy = true ∧
    exec .halt { fresh with irqEn := true } = .next (after .halt { fresh with irqEn := true }) ∧
    (after .halt { fresh with irqEn := true }).busy = false :=
  ⟨by decide +kernel, exec_after _ _ (by decide +kernel), by decide +kernel⟩

/-- A run that stops raises the line, whether by a fetch past IMEM, an illegal word, or HALT under a list entry
`run`. -/
theorem witness_InterruptLine_step :
    (engineTurn { fresh with pc := 0x10000, irqEn := true } ∧
      step { fresh with pc := 0x10000, irqEn := true } = .next (stepped { fresh with pc := 0x10000, irqEn := true }) ∧
      (stepped { fresh with pc := 0x10000, irqEn := true }).busy = false) ∧
    (engineTurn { atWord 0x0c000004 with irqEn := true } ∧
      step { atWord 0x0c000004 with irqEn := true } = .next (stepped { atWord 0x0c000004 with irqEn := true }) ∧
      (stepped { atWord 0x0c000004 with irqEn := true }).busy = false) ∧
    (engineTurn { atWord 0x08000000 with irqEn := true, host := [.run] } ∧
      step { atWord 0x08000000 with irqEn := true, host := [.run] } =
        .next (stepped { atWord 0x08000000 with irqEn := true, host := [.run] }) ∧
      (stepped { atWord 0x08000000 with irqEn := true, host := [.run] }).busy = false) :=
  ⟨⟨.inl rfl, step_stepped _ (by decide +kernel), by decide +kernel⟩,
    ⟨.inl (by decide +kernel), step_stepped _ (by decide +kernel), by decide +kernel⟩,
    ⟨.inr ⟨[], rfl⟩, step_stepped _ (by decide +kernel), by decide +kernel⟩⟩

theorem witness_InterruptLine : step { idleHosted (.regWrite 8 8 2) with doneBit := true }
      = .next (stepped { idleHosted (.regWrite 8 8 2) with doneBit := true }) ∧
    step (idleHosted (.regWrite 8 8 0)) = .next (stepped (idleHosted (.regWrite 8 8 0))) ∧
    step (idleHosted (.regWrite 8 8 3)) = .next (stepped (idleHosted (.regWrite 8 8 3))) ∧
    step (hosted (.regWrite 8 8 6)) = .next (stepped (hosted (.regWrite 8 8 6))) ∧
    step (idleHosted (.regWrite 0x10 8 6)) = .next (stepped (idleHosted (.regWrite 0x10 8 6))) ∧
    (2 : Word64).getLsbD 0 = false ∧ (2 : Word64).getLsbD 2 = false ∧ (2 : Word64).getLsbD 1 = true ∧
    (0 : Word64).getLsbD 1 = false ∧ (3 : Word64).getLsbD 0 = true ∧ (6 : Word64).getLsbD 2 = true ∧
    (6 : Word64).getLsbD 1 = true :=
  ⟨step_stepped _ (by decide +kernel), step_stepped _ (by decide +kernel), step_stepped _ (by decide +kernel),
    step_stepped _ (by decide +kernel), step_stepped _ (by decide +kernel), by decide +kernel⟩

end Sys2Proof.Tests
end

/-! PROOFS. Every step keeps the invariant of the state (00_scope.md R10, 10_state.md R32 to R48). First what the
invariant needs beyond Laws/: an instruction that reaches data memory has checked its ranges, so that what SOFT_RESET
abandons stays inside the memory. Then the invariant under each operation of the engine and of the host. -/

namespace Sys2Proof.Machine

/-! ### Writes stay inside the memory -/

/-- A cell after a write is an old one or lies in the bytes written. -/
theorem mem_writeBytes_within {m : Memory} {a : Nat} {bs : List Byte} {c : Host.Cell} (h : c ∈ writeBytes m a bs) :
    c ∈ m ∨ a ≤ c.1 ∧ c.1 < a + bs.length := by
  rw [writeBytes, List.append_assoc, List.mem_append, List.mem_append] at h
  rcases h with h | h | h
  · exact .inl (List.mem_filter.mp h).1
  · obtain ⟨hlo, hhi, _⟩ := mem_cellsOf a bs c h
    exact .inr ⟨hlo, hhi⟩
  · exact .inl (List.mem_filter.mp h).1

/-- The host's write, cut at the memory's size, adds no cell outside it, wherever it begins (20_memory.md R81). -/
theorem bound_writeBytes_take {m : Memory} {size : Nat} (a : Nat) (bs : List Byte) (hm : ∀ c ∈ m, c.1 < size) :
    ∀ c ∈ writeBytes m a (bs.take (size - a)), c.1 < size := by
  intro c hc
  rcases mem_writeBytes_within hc with h | ⟨hlo, hhi⟩
  · exact hm c h
  · rw [List.length_take] at hhi
    omega

/-! ### Checks before a write of data memory -/

/-- `body` stops at a check, and not with ASSERTION, unless `R` holds. -/
def StopsUnless {α : Type} (R : Prop) (body : Except Raise α) : Prop :=
  R ∨ ∃ e, body = .error e ∧ e.cause ≠ .assertion

theorem stopsUnless_then {α β : Type} {R : Prop} {x : Except Raise α} (f : α → Except Raise β)
    (h : StopsUnless R x) : StopsUnless R (x >>= f) := by
  rcases h with h | ⟨e, rfl, he⟩
  · exact .inl h
  · exact .inr ⟨e, error_bind e f, he⟩

theorem stopsUnless_readX {β : Type} {R : Prop} {s : State} {r : RegNo} {f : Word64 → Except Raise β}
    (h : StopsUnless R (f (xValue s r))) : StopsUnless R (readX s r >>= f) := by
  cases hr : (Source.x r).unwritten s
  · rwa [readX_written s r hr, ok_bind]
  · exact .inr ⟨_, by rw [readX_unwritten s r hr, error_bind], Cause.noConfusion⟩

theorem stopsUnless_readF {β : Type} {R : Prop} {s : State} {r : RegNo} {f : FieldWord → Except Raise β}
    (h : ∀ v, StopsUnless R (f v)) : StopsUnless R (readF s r >>= f) := by
  cases hr : (Source.f r).unwritten s
  · rw [readF_written s r hr, ok_bind]
    exact h _
  · exact .inr ⟨_, by rw [readF_unwritten s r hr, error_bind], Cause.noConfusion⟩

theorem stopsUnless_readV {β : Type} {R : Prop} {s : State} {r : RegNo} {f : VReg → Except Raise β}
    (h : ∀ v, StopsUnless R (f v)) : StopsUnless R (readV s r >>= f) := by
  cases hr : (Source.v r).unwritten s
  · rw [readV_written s r hr, ok_bind]
    exact h _
  · exact .inr ⟨_, by rw [readV_unwritten s r hr, error_bind], Cause.noConfusion⟩

theorem stopsUnless_guard {β : Type} {R ok : Prop} [Decidable ok] {c : Cause} {info : Word64}
    {f : Unit → Except Raise β} (hc : c ≠ .assertion) (h : ok → StopsUnless R (f ())) :
    StopsUnless R (require ok c info >>= f) := by
  by_cases hok : ok
  · rw [require_of hok, ok_bind]
    exact h hok
  · exact .inr ⟨_, by rw [require_of_not hok, error_bind], hc⟩

theorem stopsUnless_aligned {β : Type} {R : Prop} {a : Word64} {f : Unit → Except Raise β}
    (h : StopsUnless R (f ())) : StopsUnless R (checkAligned a >>= f) :=
  stopsUnless_guard (by decide) fun _ => h

theorem stopsUnless_range {β : Type} {R : Prop} {s : State} {a : Word64} {n : Nat} {f : Unit → Except Raise β}
    (h : a.toNat + n ≤ s.dmemBytes → StopsUnless R (f ())) : StopsUnless R (checkRange s a n >>= f) :=
  stopsUnless_guard (by decide) h

theorem stopsUnless_accessAddr (s : State) (a : RegNo) (imm : BitVec 18) (n : Nat) :
    StopsUnless ((effectiveAddr (xValue s a) imm).toNat + n ≤ s.dmemBytes) (accessAddr s a imm n) :=
  stopsUnless_readX <| stopsUnless_aligned <| stopsUnless_range fun h => .inl h

/-- Ranges of data memory that lie inside it. -/
def InBounds (s : State) (rs : List (Nat × Nat)) : Prop := ∀ r ∈ rs, r.1 + r.2 ≤ s.dmemBytes

theorem inBounds_nil (s : State) : InBounds s [] := fun _ hr => (List.not_mem_nil hr).elim

theorem inBounds_cons {s : State} {a n : Nat} {rs : List (Nat × Nat)} :
    InBounds s ((a, n) :: rs) ↔ a + n ≤ s.dmemBytes ∧ InBounds s rs := List.forall_mem_cons

theorem inBounds_singleton {s : State} {a n : Nat} (h : a + n ≤ s.dmemBytes) : InBounds s [(a, n)] :=
  inBounds_cons.2 ⟨h, inBounds_nil s⟩

theorem stopsUnless_hybrid (form : Nat → Bool) (a b c : RegNo) (s : State) :
    StopsUnless (InBounds s [((xValue s a).toNat, 8 * (xValue s b).toNat), ((xValue s c).toNat, 8 * nttLeaf)])
      (hybridNtt form a b c s) :=
  stopsUnless_readX <| stopsUnless_readX <| stopsUnless_readX <| stopsUnless_guard (by decide) fun _ =>
    stopsUnless_guard (by decide) fun _ => stopsUnless_aligned <| stopsUnless_aligned <|
    stopsUnless_range fun hv => stopsUnless_range fun hz => .inl (inBounds_cons.2 ⟨hv, inBounds_singleton hz⟩)

theorem stopsUnless_cmprmJob (d a b c : RegNo) (s : State) :
    StopsUnless (InBounds s [((xValue s d).toNat, (xValue s c).toNat)]) (cmprmJob d a b c s) :=
  stopsUnless_readX <| stopsUnless_readX <| stopsUnless_readX <| stopsUnless_readX <|
    stopsUnless_guard (by decide) fun _ => stopsUnless_aligned <| stopsUnless_aligned <|
    stopsUnless_range fun _ => stopsUnless_range fun h => .inl (inBounds_singleton h)

/-! ### Instructions that reach data memory -/

theorem code_eq_assertion {c : Cause} : c.code = Cause.assertion.code → c = .assertion := by
  cases c <;> decide

/-- A fault other than ASSERTION leaves memory as it was (20_memory.md R83). -/
theorem not_reachesMemory_takeFault (s : State) (w : InsnWord) {e : Raise} (he : e.cause ≠ .assertion) :
    ¬reachesMemory (s.takeFault w e) := by
  rintro (h | h)
  · exact Bool.false_ne_true h
  · exact he (code_eq_assertion h)

theorem execute_reaches {i : Instr} {s t : State} {body : Except Raise State} {R : Prop} (h : exec i s = .next t)
    (hr : reachesMemory t) (hx : exec i s = execute i s body) (hR : StopsUnless R body) : R := by
  rw [hx] at h
  rcases hR with hR | ⟨e, rfl, he⟩
  · exact hR
  · cases hw : i.wellFormed
    · rw [execute, hw] at h
      injection h with h
      subst h
      exact (not_reachesMemory_takeFault s _ (by decide) hr).elim
    · rw [execute_error i s e hw] at h
      injection h with h
      subst h
      exact (not_reachesMemory_takeFault s _ he hr).elim

theorem execCmprm_reaches {d a b c : RegNo} {s t : State} (h : execCmprm d a b c s = .next t)
    (hr : reachesMemory t) : InBounds s [((xValue s d).toNat, (xValue s c).toNat)] := by
  rcases stopsUnless_cmprmJob d a b c s with hR | ⟨e, hj, he⟩
  · exact hR
  · rw [execCmprm, hj] at h
    injection h with h
    subst h
    exact (not_reachesMemory_takeFault s _ he hr).elim

/-- What an instruction that reaches data memory writes lies inside it (20_memory.md R79, R82, R83). -/
theorem outputRanges_inBounds {i : Instr} {s t : State} (h : exec i s = .next t) (hr : reachesMemory t) :
    InBounds s (outputRanges i s) := by
  cases i
  case stx d a imm =>
    exact inBounds_singleton <| execute_reaches h hr rfl <|
      stopsUnless_readX <| stopsUnless_then _ <| stopsUnless_accessAddr s a imm 8
  case stf d a imm =>
    exact inBounds_singleton <| execute_reaches h hr rfl <|
      stopsUnless_readF fun _ => stopsUnless_then _ <| stopsUnless_accessAddr s a imm 32
  case stv d a imm =>
    exact inBounds_singleton <| execute_reaches h hr rfl <|
      stopsUnless_readV fun _ => stopsUnless_then _ <| stopsUnless_accessAddr s a imm 80
  case cmprm => exact execCmprm_reaches h hr
  case nttb8 =>
    exact execute_reaches h hr rfl <| stopsUnless_readX <| stopsUnless_readX <| stopsUnless_aligned <|
      stopsUnless_range fun hv => .inl (inBounds_singleton hv)
  case ntt8 =>
    exact execute_reaches h hr rfl <| stopsUnless_readX <| stopsUnless_readX <| stopsUnless_readX <|
      stopsUnless_guard (by decide) fun _ => stopsUnless_aligned <|
      stopsUnless_range fun hv => .inl (inBounds_singleton hv)
  case ntth a b c => exact execute_reaches h hr rfl (stopsUnless_hybrid isPure a b c s)
  case ntts2 a b c => exact execute_reaches h hr rfl (stopsUnless_hybrid isStride2 a b c s)
  case ntts4 a b c => exact execute_reaches h hr rfl (stopsUnless_hybrid isStride4 a b c s)
  all_goals exact inBounds_nil s

/-! ### An abandoned instruction -/

theorem effect_drawn (g : Prop) (s : State) (n : Nat) : Effect g s (s.drawn n) :=
  ⟨by constructor <;> rfl, rfl, rfl, ⟨rfl, rfl⟩, id, .inr ⟨rfl, rfl⟩, .inl rfl, id, id⟩

theorem effect_havocAll (g : Prop) (rs : List (Nat × Nat)) : ∀ s : State, InBounds s rs →
    Effect g s (s.havocAll rs) := by
  induction rs with
  | nil => exact fun s _ => Effect.refl g s
  | cons r rs ih =>
    intro s h
    obtain ⟨hr, hrs⟩ := inBounds_cons.1 h
    exact (effect_havoc g s r.1 r.2 hr).trans (ih _ hrs)

/-- SOFT_RESET's abandoned instruction spoils bytes inside data memory and nothing else (60_exceptions.md R434). -/
theorem effect_abandon (s : State) : Effect False s s.abandon := by
  unfold State.abandon
  split
  next => exact Effect.refl _ s
  next =>
    split
    next => exact Effect.refl _ s
    next i _ =>
      split
      next t ht =>
        split
        next hr =>
          have hb : InBounds s (outputRanges i s) := outputRanges_inBounds ht hr
          rw [outputRanges] at hb
          split
          next a n hst =>
            rw [hst] at hb
            refine (effect_store _ s a _ ?_).trans (effect_drawn _ _ n)
            rw [length_chooseBytes _ _ _ (by simp) (by simp), length_readBytes]
            exact (inBounds_cons.1 hb).1
          next hst =>
            rw [hst] at hb
            exact effect_havocAll _ _ s hb
        next => exact Effect.refl _ s
      next => exact Effect.refl _ s
      next => exact Effect.refl _ s

/-! ### The invariant under the engine's operations -/

/-- Nothing in the invariant speaks of IRQ_EN or of the model's own fields. -/
theorem inv_hostSide {s : State} (hs : s.Inv) (irq : Bool) (acts : List HostAction) (data : List Byte) (k : Nat) :
    State.Inv { s with irqEn := irq, host := acts, hostData := data, freeIx := k } :=
  { hs with }

/-- The effect of an instruction of a running engine. -/
theorem inv_effect {g : Prop} {s u : State} (hs : s.Inv) (hb : s.busy = true) (he : Effect g s u) : u.Inv := by
  obtain ⟨same, hpc, hcarry, ⟨hx, hxv⟩, hdepth, _, htwb, hwf, hbound⟩ := he
  have himem : u.imemBytes = s.imemBytes := congrArg (2 ^ ·.imemLog2) same.caps
  have hdmem : u.dmemBytes = s.dmemBytes := congrArg (2 ^ ·.dmemLog2) same.caps
  constructor
  case caps => rw [same.caps]; exact hs.caps
  case rc => rw [same.skyRc]; exact hs.rc
  case imem => rw [same.imem]; exact hs.imem
  case dmem => exact hwf hs.dmem
  case imemBound => rw [same.imem, himem]; exact hs.imemBound
  case dmemBound => rw [hdmem]; exact hbound hs.dmemBound
  case pc => rw [hpc]; exact hs.pc
  case carry => rw [hpc, hcarry]; exact hs.carry
  case entry => rw [same.entry]; exact hs.entry
  case depth => exact hdepth hs.depth
  case idle => rw [same.busy, hb]; exact fun h => nomatch h
  case twb =>
    rw [same.caps]
    rcases htwb with h | ⟨n, h, hform, hcap⟩
    · rw [h]; exact hs.twb
    · rw [h]
      intro m hm
      rw [← Option.mem_some.1 hm]
      exact ⟨hform, hcap⟩
  case running =>
    rw [same.busy, same.doneBit, same.faultBit, same.cause, same.finsn, same.finfo]
    exact hs.running
  case status => rw [same.doneBit, same.faultBit]; exact hs.status
  case cause => rw [same.cause, same.faultBit]; exact hs.cause
  case x0 => rw [hx, hxv]; exact hs.x0

/-- An instruction is fetched below `2^32` (10_state.md R35, log 13). -/
theorem carry_of_fetch {s : State} (hs : s.Inv) (hf : ¬s.fetchPastEnd) : s.pcCarry = false := by
  cases hc : s.pcCarry
  · rfl
  · obtain ⟨_, himem, _⟩ := hs.caps
    have hsize : s.imemBytes ≤ 2 ^ 32 := Nat.pow_le_pow_right (by decide) himem
    have haddr : s.pcAddr = s.pc.toNat + 2 ^ 32 := by rw [State.pcAddr, if_pos hc]
    exact (hf (by rw [State.fetchPastEnd]; omega)).elim

theorem inv_advance {s : State} (hs : s.Inv) (hc : s.pcCarry = false) : s.advance.Inv :=
  have hpc := hs.pc
  have hlt := s.pc.isLt
  { hs with
    pc := by
      rw [State.advance_pc, BitVec.toNat_add, show (4 : BitVec 32).toNat = 4 from rfl]
      omega
    carry := by
      rw [State.advance_pcCarry, State.advance_pc, hc, Bool.false_or, decide_eq_true_eq]
      intro h
      apply BitVec.eq_of_toNat_eq
      rw [BitVec.toNat_add, show (4 : BitVec 32).toNat = 4 from rfl, show (0 : BitVec 32).toNat = 0 from rfl]
      omega }

theorem code_bounds (c : Cause) : c.code.toNat ≤ 16 ∧ c.code ≠ 0 := by
  cases c <;> decide

/-- The fault entry of a running engine (60_exceptions.md R401). -/
theorem inv_takeFault {s : State} (hs : s.Inv) (hb : s.busy = true) (w : InsnWord) (e : Raise) :
    (s.takeFault w e).Inv :=
  have ⟨hdone, _⟩ := hs.running hb
  { hs with
    depth := Nat.zero_le _
    idle := fun _ => rfl
    running := fun h => nomatch h
    status := by
      rintro ⟨h, _⟩
      rw [State.takeFault_doneBit, hdone] at h
      exact nomatch h
    cause := ⟨(code_bounds e.cause).1, fun _ => (code_bounds e.cause).2⟩ }

/-- HALT in a running engine (41_rounding_and_control.md R173). -/
theorem inv_halt {s : State} (hs : s.Inv) (hb : s.busy = true) : s.halt.Inv :=
  have ⟨_, hfault, _⟩ := hs.running hb
  { hs with
    depth := Nat.zero_le _
    idle := fun _ => rfl
    running := fun h => nomatch h
    status := by
      rintro ⟨_, h⟩
      rw [State.halt_faultBit, hfault] at h
      exact nomatch h }

theorem inv_exec {i : Instr} {s t : State} (hs : s.Inv) (hb : s.busy = true) (hc : s.pcCarry = false)
    (h : exec i s = .next t) : t.Inv := by
  cases exec_answers i s t h with
  | done u _ he ht =>
    rw [ht]
    exact inv_advance (inv_effect hs hb he) (he.carry.trans hc)
  | halted _ ht =>
    rw [ht]
    exact inv_halt hs hb
  | fault e ht =>
    rw [ht]
    exact inv_takeFault hs hb _ e
  | spoiled d a b c info _ hrange ht =>
    rw [ht]
    exact inv_takeFault (inv_effect hs hb (effect_havoc False s _ _ hrange)) hb _ _

theorem inv_runInstruction {s t : State} (hs : s.Inv) (hb : s.busy = true) (h : runInstruction s = .next t) :
    t.Inv := by
  unfold runInstruction at h
  split at h
  · injection h with h
    rw [← h]
    exact inv_takeFault hs hb _ _
  next hf =>
    split at h
    · injection h with h
      rw [← h]
      exact inv_takeFault hs hb _ _
    · exact inv_exec hs hb (carry_of_fetch hs hf) h

theorem inv_engineStep {s t : State} (hs : s.Inv) (h : engineStep s = .next t) : t.Inv := by
  unfold engineStep at h
  split at h
  next hb => exact inv_runInstruction hs hb h
  next =>
    injection h with h
    rwa [← h]

/-! ### The invariant under the host's accesses -/

theorem inv_start {s : State} (hs : s.Inv) : s.start.Inv :=
  { hs with
    pc := hs.entry
    carry := fun h => nomatch h
    idle := fun h => nomatch h
    running := fun _ => ⟨rfl, rfl, rfl, rfl, rfl⟩
    status := fun h => nomatch h.1
    cause := ⟨Nat.zero_le _, fun h => nomatch h⟩ }

theorem inv_resetKeepingMemory {s : State} (hs : s.Inv) : s.resetKeepingMemory.Inv :=
  { hs with
    pc := rfl
    carry := fun _ => rfl
    entry := rfl
    depth := Nat.zero_le _
    idle := fun _ => rfl
    twb := fun _ hn => nomatch hn
    running := fun h => nomatch h
    status := fun h => nomatch h.1
    cause := ⟨Nat.zero_le _, fun h => nomatch h⟩
    x0 := ⟨rfl, rfl⟩ }

theorem inv_softReset {s : State} (hs : s.Inv) : s.softReset.Inv := by
  unfold State.softReset
  split
  next hb => exact inv_resetKeepingMemory (inv_effect hs hb (effect_abandon s))
  next => exact inv_resetKeepingMemory hs

theorem inv_softResetIf {s : State} (hs : s.Inv) (bit : Bool) : (s.softResetIf bit).Inv := by
  cases bit
  · exact hs
  · exact inv_softReset hs

theorem inv_startIf {s : State} (hs : s.Inv) (bit : Bool) : (s.startIf bit).Inv := by
  unfold State.startIf
  split
  · exact inv_start hs
  · exact hs

theorem inv_writeCtrl {s : State} (hs : s.Inv) (v : Word64) : (writeCtrl v s).Inv :=
  inv_startIf (inv_hostSide (inv_softResetIf hs _) _ _ _ _) _

theorem inv_writeStatus {s : State} (hs : s.Inv) (v : Word64) : (writeStatus v s).Inv :=
  { hs with
    running := fun hb => by
      obtain ⟨hdone, hfault, hrecord⟩ := hs.running hb
      refine ⟨?_, ?_, hrecord⟩
      · show (s.doneBit && !v.getLsbD 1) = false
        rw [hdone, Bool.false_and]
      · show (s.faultBit && !v.getLsbD 2) = false
        rw [hfault, Bool.false_and]
    status := fun ⟨hdone, hfault⟩ => hs.status ⟨Bool.and_elim_left hdone, Bool.and_elim_left hfault⟩
    cause := ⟨hs.cause.1, fun h => hs.cause.2 (Bool.and_elim_left h)⟩ }

theorem inv_writeEntry {s : State} (hs : s.Inv) (v : Word64) : (writeEntry v s).Inv := by
  unfold writeEntry
  split
  · exact hs
  · exact { hs with entry := by rw [BitVec.toNat_ofNat]; omega }

theorem inv_writeRmode {s : State} (hs : s.Inv) (v : Word64) : (writeRmode v s).Inv := by
  unfold writeRmode
  split
  · exact hs
  · exact { hs with }

theorem inv_hostRegWrite {s : State} (hs : s.Inv) (off width : Nat) (v : Word64) :
    (hostRegWrite off width v s).Inv := by
  unfold hostRegWrite
  split
  · split
    · exact inv_writeCtrl hs v
    · exact inv_writeStatus hs v
    · exact inv_writeEntry hs v
    · exact inv_writeRmode hs v
    · exact hs
  · exact hs

theorem inv_hostMemWrite {s : State} (hs : s.Inv) (sp : Space) (a : Nat) (bs : List Byte) :
    (hostMemWrite sp a bs s).Inv := by
  unfold hostMemWrite
  split
  · exact hs
  · cases sp
    case imem =>
      exact { hs with
        imem := Memory.wf_writeBytes _ _ _ hs.imem
        imemBound := bound_writeBytes_take a bs hs.imemBound }
    case dmem =>
      exact { hs with
        dmem := Memory.wf_writeBytes _ _ _ hs.dmem
        dmemBound := bound_writeBytes_take a bs hs.dmemBound }

theorem inv_hostAccess {s : State} (hs : s.Inv) (act : HostAction) : (hostAccess act s).Inv := by
  cases act with
  | run => exact hs
  | regRead off width =>
    show (hostRegRead off width s).Inv
    rw [hostRegRead_frame]
    exact inv_hostSide hs _ _ _ _
  | regWrite off width v => exact inv_hostRegWrite hs off width v
  | memRead sp a n =>
    show (hostMemRead sp a n s).Inv
    rw [hostMemRead_frame]
    exact inv_hostSide hs _ _ _ _
  | memWrite sp a bs => exact inv_hostMemWrite hs sp a bs

/-! ### The step -/

/-- A step is the engine's turn, or the host's next access. -/
theorem step_cases {s t : State} (h : step s = .next t) :
    engineStep s.turned = .next t ∨ ∃ act, t = hostAccess act s.turned := by
  cases hh : s.host with
  | nil => exact .inl (step_turn s (.inl hh) ▸ h)
  | cons act acts =>
    by_cases hr : act = .run
    · subst hr
      exact .inl (step_turn s (.inr ⟨acts, hh⟩) ▸ h)
    · rw [step_host s act acts hh hr] at h
      injection h with h
      exact .inr ⟨act, by rw [State.turned, hh, List.tail_cons, h]⟩

theorem inv_step {s t : State} (hs : s.Inv) (h : step s = .next t) : t.Inv := by
  have hturned : s.turned.Inv := inv_hostSide hs _ _ _ _
  rcases step_cases h with h | ⟨act, rfl⟩
  · exact inv_engineStep hturned h
  · exact inv_hostAccess hturned act

end Sys2Proof.Machine

/-- Settles O9: the engine's turn keeps the invariant by what an instruction can answer (`exec_answers`), the host's
by each of its accesses, SOFT_RESET of a busy engine by the bounds an abandoned instruction has checked. -/
theorem stepKeepsInvariant : Obligations.StepKeepsInvariant := fun _ _ hs h => Sys2Proof.Machine.inv_step hs h

/-! PROOFS. The registers and the host register block (10_state.md R31 to R50). First the read order of an
instruction's sources: a body reads its registers before anything else, so that its first unwritten one decides the
answer. Then `X0`, and what the host's accesses to the register block answer and change. -/

namespace Sys2Proof.Machine

/-! ### Sources in the read order -/

/-- The first register of a read order whose valid bit is clear. -/
def firstUnwritten (s : State) (rs : List Source) : Option Source := rs.find? fun r => r.unwritten s

theorem firstUnwritten_split {s : State} {before after : List Source} {r : Source}
    (hb : ∀ r' ∈ before, r'.unwritten s = false) (hr : r.unwritten s = true) :
    firstUnwritten s (before ++ r :: after) = some r :=
  List.find?_eq_some_iff_append.2 ⟨hr, before, after, rfl, fun r' h => by rw [hb r' h]; rfl⟩

theorem firstUnwritten_cons_written {s : State} {r : Source} (rs : List Source) (h : r.unwritten s = false) :
    firstUnwritten s (r :: rs) = firstUnwritten s rs :=
  List.find?_cons_of_neg (by rw [h]; exact Bool.false_ne_true)

theorem firstUnwritten_cons_unwritten {s : State} {r : Source} (rs : List Source) (h : r.unwritten s = true) :
    firstUnwritten s (r :: rs) = some r :=
  List.find?_cons_of_pos h

/-- `body` reads the registers `rs` in their order before it can stop for any other reason: the first unwritten one
is what it raises (60_exceptions.md R420 point 3). -/
def ReadsFirst {α : Type} (s : State) (rs : List Source) (body : Except Raise α) : Prop :=
  ∀ r, firstUnwritten s rs = some r → body = .error ⟨.unwrittenRegister, r.finfo⟩

section
variable {α β : Type} {s : State} {rs : List Source}

theorem readsFirst_nil {body : Except Raise α} : ReadsFirst s [] body := fun _ h => nomatch h

theorem readsFirst_then {x : Except Raise α} {f : α → Except Raise β} (h : ReadsFirst s rs x) :
    ReadsFirst s rs (x >>= f) := fun r hr => by rw [h r hr, error_bind]

/-- A read that answers behind the register's valid bit, before the rest of a body. -/
theorem readsFirst_cons {src : Source} {x : Except Raise α} {v : α} {f : α → Except Raise β}
    (hok : src.unwritten s = false → x = .ok v)
    (herr : src.unwritten s = true → x = .error ⟨.unwrittenRegister, src.finfo⟩) (h : ReadsFirst s rs (f v)) :
    ReadsFirst s (src :: rs) (x >>= f) := by
  intro r hr
  cases hsrc : src.unwritten s
  · rw [firstUnwritten_cons_written rs hsrc] at hr
    rw [hok hsrc, ok_bind, h r hr]
  · rw [firstUnwritten_cons_unwritten rs hsrc] at hr
    rw [herr hsrc, error_bind, Option.some.inj hr]

theorem readsFirst_readX {r : RegNo} {f : Word64 → Except Raise β} (h : ReadsFirst s rs (f (xValue s r))) :
    ReadsFirst s (.x r :: rs) (readX s r >>= f) :=
  readsFirst_cons (readX_written s r) (readX_unwritten s r) h

theorem readsFirst_readF {r : RegNo} {f : FieldWord → Except Raise β}
    (h : ReadsFirst s rs (f (s.f[r.toNat]'r.isLt))) : ReadsFirst s (.f r :: rs) (readF s r >>= f) :=
  readsFirst_cons (readF_written s r) (readF_unwritten s r) h

theorem readsFirst_readV {r : RegNo} {f : VReg → Except Raise β} (h : ReadsFirst s rs (f s.v[vIndex r])) :
    ReadsFirst s (.v r :: rs) (readV s r >>= f) :=
  readsFirst_cons (readV_written s r) (readV_unwritten s r) h

theorem readsFirst_accessAddr {a : RegNo} {imm : BitVec 18} {n : Nat} :
    ReadsFirst s [.x a] (accessAddr s a imm n) :=
  readsFirst_readX readsFirst_nil

/-- The field registers of a group of `n` from `r` on (44_block_multiplier.md R244). -/
def groupSources (r : RegNo) : Nat → List Source
  | 0 => []
  | n + 1 => .f r :: groupSources (r + 1) n

theorem readGroup_succ (s : State) (r : RegNo) (n : Nat) :
    readGroup s r (n + 1) = readF s r >>= fun v => readGroup s (r + 1) n >>= fun vs => .ok (v :: vs) := by
  rw [readGroup]
  cases readF s r with
  | error e => rw [error_bind]
  | ok v =>
    rw [ok_bind]
    cases readGroup s (r + 1) n with
    | error e => rw [error_bind]
    | ok vs => rw [ok_bind]

theorem readsFirst_readGroup {n : Nat} : ∀ {r : RegNo} {f : List FieldWord → Except Raise β},
    (∀ vs, ReadsFirst s rs (f vs)) → ReadsFirst s (groupSources r n ++ rs) (readGroup s r n >>= f) := by
  induction n with
  | zero =>
    intro r f h
    rw [readGroup, ok_bind]
    exact h []
  | succ n ih =>
    intro r f h
    rw [readGroup_succ, bind_assoc]
    refine readsFirst_readF ?_
    rw [bind_assoc]
    exact ih fun vs => by rw [ok_bind]; exact h _

end

theorem groupSources_three (r : RegNo) : groupSources r 3 = [.f r, .f (r + 1), .f (r + 2)] := by
  simp [groupSources, BitVec.add_assoc]

theorem groupSources_four (r : RegNo) : groupSources r 4 = [.f r, .f (r + 1), .f (r + 2), .f (r + 3)] := by
  simp [groupSources, BitVec.add_assoc]

theorem sources_bmul3 (d a b : RegNo) :
    sources (.bmul3 d a b) = groupSources a 3 ++ (groupSources b 3 ++ []) := by
  rw [groupSources_three, groupSources_three]; rfl

theorem sources_bmul4 (d a b : RegNo) :
    sources (.bmul4 d a b) = groupSources a 4 ++ (groupSources b 4 ++ []) := by
  rw [groupSources_four, groupSources_four]; rfl

theorem sources_bsqr3 (d a : RegNo) : sources (.bsqr3 d a) = groupSources a 3 ++ [] := by
  rw [groupSources_three]; rfl

theorem sources_bsqr4 (d a : RegNo) : sources (.bsqr4 d a) = groupSources a 4 ++ [] := by
  rw [groupSources_four]; rfl

theorem readsFirst_hybrid {form : Nat → Bool} {a b c : RegNo} {s : State} :
    ReadsFirst s [.x a, .x b, .x c] (hybridNtt form a b c s) :=
  readsFirst_readX <| readsFirst_readX <| readsFirst_readX readsFirst_nil

theorem readsFirst_cmprmJob {d a b c : RegNo} {s : State} :
    ReadsFirst s [.x d, .x a, .x b, .x c] (cmprmJob d a b c s) :=
  readsFirst_readX <| readsFirst_readX <| readsFirst_readX <| readsFirst_readX readsFirst_nil

theorem faults_of_readsFirst {i : Instr} {s : State} {r : Source} {body : Except Raise State}
    (hw : i.wellFormed = true) (hr : firstUnwritten s (sources i) = some r) (hx : exec i s = execute i s body)
    (hb : ReadsFirst s (sources i) body) : Faults i s .unwrittenRegister r.finfo :=
  faults_of i s body _ _ hx hw (hb r hr)

/-- An error of CMPRM's checks is a fault entry on the state it found (47_skyscraper.md R311). -/
theorem execCmprm_faults {d a b c : RegNo} {s : State} {cause : Cause} {info : Word64}
    (h : cmprmJob d a b c s = .error ⟨cause, info⟩) : Faults (.cmprm d a b c) s cause info :=
  ⟨_, by show execCmprm d a b c s = _; rw [execCmprm, h], takeFault_entry s _ _⟩

/-- Every instruction reads its sources in their order before any other check. -/
theorem firstUnwritten_faults {i : Instr} {s : State} {r : Source} (hw : i.wellFormed = true)
    (hr : firstUnwritten s (sources i) = some r) : Faults i s .unwrittenRegister r.finfo := by
  cases i
  case nop | halt | rmacq | rmrel | xli => exact nomatch hr
  case xaddi | nttroot | nttpre => exact faults_of_readsFirst hw hr rfl (readsFirst_readX readsFirst_nil)
  case ldx | ldf | ldv => exact faults_of_readsFirst hw hr rfl (readsFirst_then readsFirst_accessAddr)
  case stx =>
    exact faults_of_readsFirst hw hr rfl (readsFirst_readX <| readsFirst_then readsFirst_accessAddr)
  case stf =>
    exact faults_of_readsFirst hw hr rfl (readsFirst_readF <| readsFirst_then readsFirst_accessAddr)
  case stv =>
    exact faults_of_readsFirst hw hr rfl (readsFirst_readV <| readsFirst_then readsFirst_accessAddr)
  case fmov | sqr | redp | red1 | red | redprc | bar =>
    exact faults_of_readsFirst hw hr rfl (readsFirst_readF readsFirst_nil)
  case fadd | mul | cmpr =>
    exact faults_of_readsFirst hw hr rfl (readsFirst_readF <| readsFirst_readF readsFirst_nil)
  case vmul => exact faults_of_readsFirst hw hr rfl (readsFirst_readV <| readsFirst_readV readsFirst_nil)
  case vsqr => exact faults_of_readsFirst hw hr rfl (readsFirst_readV readsFirst_nil)
  case bmul3 d a b =>
    exact faults_of_readsFirst hw hr rfl (sources_bmul3 d a b ▸
      readsFirst_readGroup fun _ => readsFirst_readGroup fun _ => readsFirst_nil)
  case bmul4 d a b =>
    exact faults_of_readsFirst hw hr rfl (sources_bmul4 d a b ▸
      readsFirst_readGroup fun _ => readsFirst_readGroup fun _ => readsFirst_nil)
  case bsqr3 d a =>
    exact faults_of_readsFirst hw hr rfl (sources_bsqr3 d a ▸ readsFirst_readGroup fun _ => readsFirst_nil)
  case bsqr4 d a =>
    exact faults_of_readsFirst hw hr rfl (sources_bsqr4 d a ▸ readsFirst_readGroup fun _ => readsFirst_nil)
  case cmprm => exact execCmprm_faults (readsFirst_cmprmJob r hr)
  case nttb8 => exact faults_of_readsFirst hw hr rfl (readsFirst_readX <| readsFirst_readX readsFirst_nil)
  case ntt8 =>
    exact faults_of_readsFirst hw hr rfl (readsFirst_readX <| readsFirst_readX <| readsFirst_readX readsFirst_nil)
  case ntth | ntts2 | ntts4 => exact faults_of_readsFirst hw hr rfl readsFirst_hybrid

/-! ### `X0` -/

@[simp] theorem xCell_advance (s : State) (r : RegNo) : xCell s.advance r = xCell s r := rfl
@[simp] theorem xCell_halt (s : State) (r : RegNo) : xCell s.halt r = xCell s r := rfl
@[simp] theorem xCell_takeFault (s : State) (w : InsnWord) (e : Raise) (r : RegNo) :
    xCell (s.takeFault w e) r = xCell s r := rfl
@[simp] theorem xCell_havoc (s : State) (a n : Nat) (r : RegNo) : xCell (s.havoc a n) r = xCell s r := rfl

theorem xCell_zero_of_effect {g : Prop} {s u : State} (h : Effect g s u) : xCell u 0 = xCell s 0 :=
  Prod.ext h.x0.2 h.x0.1

/-- An effect keeps the place of `X0`, and a stop changes no register. -/
theorem exec_xCell_zero {i : Instr} {s t : State} (h : exec i s = .next t) : xCell t 0 = xCell s 0 := by
  cases exec_answers i s t h with
  | done u _ he ht => rw [ht, xCell_advance, xCell_zero_of_effect he]
  | halted _ ht => rw [ht, xCell_halt]
  | fault e ht => rw [ht, xCell_takeFault]
  | spoiled d a b c info _ _ ht => rw [ht, xCell_takeFault, xCell_havoc]

/-! ### Reads of the register block -/

/-- What one whole aligned read answers, PC while busy apart (10_state.md R40, R46). -/
theorem hostRegRead_data {off : Nat} {s : State} (ha : off % 8 = 0 ∧ off < 256)
    (hpc : ¬(off = 0x20 ∧ s.busy = true)) : (hostRegRead off 8 s).hostData = leBytes 8 (hostRegValue s off) := by
  rw [hostRegRead, if_pos ⟨rfl, ha⟩, if_neg hpc]

theorem hostRegRead_data_not_whole {off width : Nat} {s : State} (h : ¬wholeRegister off width) :
    (hostRegRead off width s).hostData = List.replicate width 0 := by
  rw [hostRegRead, if_neg h]

/-- An answer has the width of the access, free bytes included (logs 16, 24). -/
theorem length_hostRegRead_data (off width : Nat) (s : State) :
    (hostRegRead off width s).hostData.length = width := by
  by_cases h : wholeRegister off width
  · obtain ⟨rfl, ha⟩ := h
    by_cases hpc : off = 0x20 ∧ s.busy = true
    · rw [hostRegRead, if_pos ⟨rfl, ha⟩, if_pos hpc, List.length_append, length_freeBytes, List.length_replicate]
    · rw [hostRegRead_data ha hpc, length_leBytes]
  · rw [hostRegRead_data_not_whole h, List.length_replicate]

theorem leNat_replicate_zero (n : Nat) : leNat (List.replicate n 0) = 0 := by
  induction n with
  | zero => rfl
  | succ n ih => rw [List.replicate_succ, leNat, ih]; rfl

/-- The number a whole aligned read answers is the register's value, where that is one of 64 bits. -/
theorem leNat_hostRegRead {off v : Nat} {s : State} (ha : off % 8 = 0 ∧ off < 256)
    (hpc : ¬(off = 0x20 ∧ s.busy = true)) (hv : hostRegValue s off = v) (hlt : v < 2 ^ 64) :
    leNat (hostRegRead off 8 s).hostData = v := by
  rw [hostRegRead_data ha hpc, hv, leNat_leBytes]
  exact Nat.mod_eq_of_lt hlt

/-- Bit `k` of a register as a number. -/
theorem bitAt_eq (k : Nat) (b : Bool) : bitAt k b = 2 ^ k * b.toNat := by
  cases b <;> simp [bitAt]

/-- CTRL reads IRQ_EN alone (10_state.md R43). -/
theorem hostRegValue_ctrl (s : State) : hostRegValue s 0x08 = 2 * s.irqEn.toNat := bitAt_eq 1 _

/-- STATUS (10_state.md R45). -/
theorem hostRegValue_status (s : State) :
    hostRegValue s 0x10 = s.busy.toNat + 2 * s.doneBit.toNat + 4 * s.faultBit.toNat := by
  simp [hostRegValue, bitAt_eq]

/-- RMODE with GDEPTH above it (10_state.md R48). -/
theorem hostRegValue_rmode (s : State) : hostRegValue s 0x40 = s.rmode.toNat + 2 ^ 8 * s.gs.length := by
  rw [Nat.mul_comm]; rfl

/-- CAPS (10_state.md R49). -/
theorem hostRegValue_caps (s : State) : hostRegValue s 0x48 =
    s.caps.imemLog2 + 2 ^ 8 * s.caps.dmemLog2 + 2 ^ 16 * s.caps.guardDepth + 2 ^ 24 * s.caps.twMaxLog2N := by
  show s.caps.word = _
  rw [Caps.word]
  omega

/-- The offsets from 0x58 on are reserved (10_state.md R40). -/
theorem hostRegValue_reserved {s : State} {off : Nat} (h : 0x58 ≤ off) : hostRegValue s off = 0 := by
  unfold hostRegValue
  split
  case h_12 => rfl
  all_goals omega

/-! ### Writes of the register block -/

/-- A write that is not of one whole register that the host can write does nothing (10_state.md R40, R41). -/
theorem hostRegWrite_ignored {off width : Nat} (v : Word64) (s : State)
    (h : ¬(width = 8 ∧ off ∈ [0x08, 0x10, 0x18, 0x40])) : hostRegWrite off width v s = s := by
  unfold hostRegWrite
  split
  next hw =>
    split
    case h_5 => rfl
    all_goals exact (h ⟨hw.1, by decide⟩).elim
  next => rfl

/-- Without START and SOFT_RESET a write of CTRL sets IRQ_EN (10_state.md R43). -/
theorem writeCtrl_irqEn {v : Word64} (s : State) (hstart : v.getLsbD 0 = false) (hreset : v.getLsbD 2 = false) :
    writeCtrl v s = s.withIrqEn (v.getLsbD 1) := by
  rw [writeCtrl, hstart, hreset, State.softResetIf_false, State.startIf_false]

@[simp] theorem hostRegWrite_ctrl (v : Word64) (s : State) : hostRegWrite 0x08 8 v s = writeCtrl v s := rfl
@[simp] theorem hostRegWrite_status (v : Word64) (s : State) : hostRegWrite 0x10 8 v s = writeStatus v s := rfl
@[simp] theorem hostRegWrite_entry (v : Word64) (s : State) : hostRegWrite 0x18 8 v s = writeEntry v s := rfl
@[simp] theorem hostRegWrite_rmode (v : Word64) (s : State) : hostRegWrite 0x40 8 v s = writeRmode v s := rfl

theorem writeEntry_busy {v : Word64} {s : State} (h : s.busy = true) : writeEntry v s = s := if_pos h

theorem writeRmode_busy {v : Word64} {s : State} (h : s.busy = true) : writeRmode v s = s := if_pos h

theorem writeRmode_idle {v : Word64} {s : State} (h : s.busy = false) :
    writeRmode v s = { s with rmode := v.setWidth 2 } := if_neg (Bool.not_eq_true _ ▸ h)

/-- Bits 31:2 of a word as a number: cut at bit 32, and the low two bits taken away (10_state.md R44). -/
theorem ofNat_wordAligned (v : Word64) :
    BitVec.ofNat 32 (v.toNat % 2 ^ 32 / 4 * 4) = v.setWidth 32 &&& 0xfffffffc := by
  have hmask : (0xfffffffc : BitVec 32) = BitVec.allOnes 32 <<< 2 := by decide
  apply BitVec.eq_of_getLsbD_eq
  intro k hk
  rw [hmask, show 4 = 2 ^ 2 from rfl, BitVec.getLsbD_ofNat, Nat.testBit_mul_two_pow, Nat.testBit_div_two_pow,
    Nat.testBit_mod_two_pow, BitVec.getLsbD_and, BitVec.getLsbD_setWidth, BitVec.getLsbD_shiftLeft,
    BitVec.getLsbD_allOnes, BitVec.testBit_toNat]
  by_cases h2 : 2 ≤ k
  · simp [hk, h2, Nat.sub_add_cancel h2, Nat.not_lt.2 h2, show k - 2 < 32 by omega]
  · simp [h2, Nat.lt_of_not_le h2]

theorem writeEntry_idle {v : Word64} {s : State} (h : s.busy = false) :
    writeEntry v s = { s with entry := v.setWidth 32 &&& 0xfffffffc } := by
  rw [writeEntry, if_neg (Bool.not_eq_true _ ▸ h), ofNat_wordAligned]

end Sys2Proof.Machine

/-- Settles O15: a body reads its sources in order (`ReadsFirst`), so the first unwritten one is what it raises. -/
theorem unwrittenSourceFaults : Obligations.UnwrittenSourceFaults :=
  fun _ _ _ _ _ hw hsrc hbefore hr => Sys2Proof.Machine.firstUnwritten_faults hw
    (hsrc ▸ Sys2Proof.Machine.firstUnwritten_split hbefore hr)

/-- Settles O18: reads and writes by their own case for `X0`, the frame by what an instruction can answer
(`exec_answers`). -/
theorem x0IsHardwired : Obligations.X0IsHardwired :=
  ⟨fun _ => if_pos rfl, fun _ _ => if_pos rfl, fun _ _ _ h => Sys2Proof.Machine.exec_xCell_zero h⟩

/-- Settles O57: the answer of each register is its value (`leNat_hostRegRead`), which its fields keep below `2^64`. -/
theorem registerBlockReads : Obligations.RegisterBlockReads := by
  open Sys2Proof.Machine in
  intro s off width acts hs
  refine ⟨hostRegRead off width (s.withHost acts), step_host s _ acts hs nofun, hostRegRead_frame ..,
    fun h => hostRegRead_freeIx _ _ _ h, length_hostRegRead_data .., ?_, ?_, ?_⟩
  · intro h
    rw [hostRegRead_data_not_whole h, leNat_replicate_zero]
  · rintro rfl hal hlo hhi
    exact leNat_hostRegRead ⟨hal, hhi⟩ (by omega) (hostRegValue_reserved hlo) (by decide)
  · rintro rfl
    refine ⟨?_, ?_, ?_, ?_, ?_, ?_, ?_, ?_, ?_, ?_, ?_, ?_⟩ <;> rintro rfl
    · exact leNat_hostRegRead (by decide) (by omega) rfl (by decide)
    · have := s.irqEn.toNat_le
      exact leNat_hostRegRead (by decide) (by omega) (hostRegValue_ctrl _) (by omega)
    · have := s.busy.toNat_le
      have := s.doneBit.toNat_le
      have := s.faultBit.toNat_le
      exact leNat_hostRegRead (by decide) (by omega) (hostRegValue_status _) (by omega)
    · exact leNat_hostRegRead (by decide) (by omega) rfl (by omega)
    · intro hidle
      exact leNat_hostRegRead (by decide) (fun h => Bool.false_ne_true (hidle.symm.trans h.2)) rfl (by omega)
    · exact leNat_hostRegRead (by decide) (by omega) rfl (by omega)
    · exact leNat_hostRegRead (by decide) (by omega) rfl (by omega)
    · exact leNat_hostRegRead (by decide) (by omega) rfl (by omega)
    · intro hdepth
      exact leNat_hostRegRead (by decide) (by omega) (hostRegValue_rmode _) (by omega)
    · rintro ⟨_, himem, _, hdmem, _, hguard, _, htw, _⟩
      exact leNat_hostRegRead (by decide) (by omega) (hostRegValue_caps _) (by omega)
    · intro n hn
      exact leNat_hostRegRead (by decide) (by omega) (congrArg (fun b => (b.getD 0).toNat) hn) n.isLt
    · intro hn
      exact leNat_hostRegRead (by decide) (by omega) (congrArg (fun b => (b.getD 0).toNat) hn) (by decide)

/-- Settles O58: a write of a register that is none of the four does nothing (`hostRegWrite_ignored`), and each of
the four is written by its own operation. -/
theorem registerBlockWrites : Obligations.RegisterBlockWrites := by
  open Sys2Proof.Machine in
  intro s off width v acts hs
  refine ⟨hostRegWrite off width v (s.withHost acts), step_host s _ acts hs nofun,
    hostRegWrite_ignored v _, ?_, ?_, ?_, ?_, ?_, ?_⟩ <;> rintro rfl rfl
  · rw [hostRegWrite_ctrl]; exact writeCtrl_irqEn _
  · rw [hostRegWrite_status]; rfl
  · rw [hostRegWrite_entry]; exact fun h => writeEntry_busy h
  · rw [hostRegWrite_entry]; exact fun h => writeEntry_idle h
  · rw [hostRegWrite_rmode]; exact fun h => writeRmode_busy h
  · rw [hostRegWrite_rmode]; exact fun h => writeRmode_idle h

/-! PROOFS. The memories (20_memory.md): addresses wrap modulo `2^64`, the host reaches IMEM and DMEM as byte arrays
while the engine is idle, and nothing else writes IMEM. -/

namespace Sys2Proof.Machine

/-! ### Effective addresses -/

/-- Sign extension as an integer modulo `2^64` (20_memory.md R77). -/
theorem toNat_sext18 (imm : BitVec 18) : ((sext18 imm).toNat : Int) = imm.toInt % 2 ^ 64 := by
  rw [sext18, BitVec.signExtend, BitVec.toNat_ofInt]
  exact Int.toNat_of_nonneg (Int.emod_nonneg _ (by decide))

theorem toNat_effectiveAddr (base : Word64) (imm : BitVec 18) :
    ((effectiveAddr base imm).toNat : Int) = (base.toNat + imm.toInt) % 2 ^ 64 := by
  calc ((effectiveAddr base imm).toNat : Int)
      = ((base.toNat : Int) + (sext18 imm).toNat) % 2 ^ 64 := by rw [effectiveAddr, BitVec.toNat_add]; push_cast; rfl
    _ = (base.toNat + imm.toInt) % 2 ^ 64 := by rw [toNat_sext18, Int.add_emod_emod]

/-! ### Host writes of a memory -/

/-- Written bytes past the memory's size are ignored, wherever the write begins (20_memory.md R81, log 15). -/
theorem readByte_writeBytes_take (m : Memory) (size a : Nat) (bs : List Byte) (k : Nat) :
    readByte (writeBytes m a (bs.take (size - a))) k =
      if a ≤ k ∧ k < a + bs.length ∧ k < size then bs.getD (k - a) 0 else readByte m k := by
  have hin : (a ≤ k ∧ k < a + (bs.take (size - a)).length) ↔ a ≤ k ∧ k < a + bs.length ∧ k < size := by
    rw [List.length_take]; omega
  rw [readByte_writeBytes]
  by_cases h : a ≤ k ∧ k < a + bs.length ∧ k < size
  · rw [if_pos (hin.2 h), if_pos h, List.getD_eq_getElem?_getD, List.getD_eq_getElem?_getD,
      List.getElem?_take_of_lt (by omega)]
  · rw [if_neg (mt hin.1 h), if_neg h]

theorem hostMemWrite_busy {sp : Space} {a : Nat} {bs : List Byte} {s : State} (h : s.busy = true) :
    hostMemWrite sp a bs s = s := if_pos h

theorem hostMemWrite_space_same {sp : Space} {a : Nat} {bs : List Byte} {s : State} (h : s.busy = false) :
    (hostMemWrite sp a bs s).space sp = writeBytes (s.space sp) a (bs.take (s.spaceBytes sp - a)) := by
  unfold hostMemWrite
  rw [if_neg (Bool.not_eq_true _ ▸ h)]
  cases sp <;> rfl

theorem hostMemWrite_space_other {sp sp' : Space} {a : Nat} {bs : List Byte} {s : State} (hne : sp' ≠ sp) :
    (hostMemWrite sp a bs s).space sp' = s.space sp' := by
  unfold hostMemWrite
  split
  · rfl
  · cases sp <;> cases sp'
    case imem.dmem | dmem.imem => rfl
    all_goals exact (hne rfl).elim

/-- A byte of either memory after a write by the host to one of them, with the engine idle (20_memory.md R81). -/
theorem readByte_hostMemWrite {s : State} (h : s.busy = false) (sp sp' : Space) (a k : Nat) (bs : List Byte) :
    readByte ((hostMemWrite sp a bs s).space sp') k =
      if sp' = sp ∧ a ≤ k ∧ k < a + bs.length ∧ k < s.spaceBytes sp then bs.getD (k - a) 0
      else readByte (s.space sp') k := by
  by_cases hsp : sp' = sp
  · subst hsp
    simp only [hostMemWrite_space_same h, readByte_writeBytes_take, true_and]
  · rw [hostMemWrite_space_other hsp, if_neg fun hin => hsp hin.1]

/-! ### Host reads of a memory -/

theorem hostMemRead_freeIx_idle {s : State} (h : s.busy = false) (sp : Space) (a n : Nat) :
    (hostMemRead sp a n s).freeIx = s.freeIx := by
  rw [hostMemRead_idle sp a n s (Bool.not_eq_true _ ▸ h)]

theorem length_hostMemRead_data (sp : Space) (a n : Nat) (s : State) :
    (hostMemRead sp a n s).hostData.length = n := by
  unfold hostMemRead
  split <;> exact (List.length_map ..).trans List.length_range

theorem getD_map_range {n k : Nat} (f : Nat → Byte) (h : k < n) : ((List.range n).map f).getD k 0 = f k := by
  simp [List.getD, h]

/-- A byte outside the memory reads as 0, busy or not (20_memory.md R81, log 15). -/
theorem hostMemRead_outside {sp : Space} {a n k : Nat} {s : State} (hk : k < n) (hout : s.spaceBytes sp ≤ a + k) :
    (hostMemRead sp a n s).hostData.getD k 0 = 0 := by
  by_cases hb : s.busy = true
  · rw [hostMemRead_busy sp a n s hb, getD_map_range _ hk, if_neg (Nat.not_lt.2 hout)]
  · rw [hostMemRead_idle sp a n s hb, getD_map_range _ hk, if_neg (Nat.not_lt.2 hout)]

theorem hostMemRead_inside {sp : Space} {a n k : Nat} {s : State} (h : s.busy = false) (hk : k < n)
    (hin : a + k < s.spaceBytes sp) : (hostMemRead sp a n s).hostData.getD k 0 = readByte (s.space sp) (a + k) := by
  rw [hostMemRead_idle sp a n s (Bool.not_eq_true _ ▸ h), getD_map_range _ hk, if_pos hin]

/-! ### IMEM under the engine -/

/-- No instruction writes IMEM: neither an effect nor a stop does. -/
theorem exec_imem {i : Instr} {s t : State} (h : exec i s = .next t) : t.imem = s.imem := by
  cases exec_answers i s t h with
  | done u _ he ht => rw [ht, State.advance_imem, he.same.imem]
  | halted _ ht => rw [ht, State.halt_imem]
  | fault e ht => rw [ht, State.takeFault_imem]
  | spoiled d a b c info _ _ ht => rw [ht, State.takeFault_imem, State.havoc_imem]

/-- A busy engine runs an instruction, or takes a fault before it has one. -/
theorem runInstruction_cases {s t : State} (h : runInstruction s = .next t) :
    (∃ i, exec i s = .next t) ∨ ∃ w e, t = s.takeFault w e := by
  unfold runInstruction at h
  split at h
  · injection h with h
    exact .inr ⟨_, _, h.symm⟩
  · split at h
    · injection h with h
      exact .inr ⟨_, _, h.symm⟩
    · exact .inl ⟨_, h⟩

theorem engineStep_imem {s t : State} (h : engineStep s = .next t) : t.imem = s.imem := by
  unfold engineStep at h
  split at h
  · rcases runInstruction_cases h with ⟨i, hi⟩ | ⟨w, e, rfl⟩
    · exact exec_imem hi
    · exact State.takeFault_imem s w e
  · injection h with h
    rw [← h]

/-! ### IMEM under the host -/

@[simp] theorem State.withIrqEn_imem (s : State) (bit : Bool) : (s.withIrqEn bit).imem = s.imem := rfl

@[simp] theorem State.softReset_imem (s : State) : s.softReset.imem = s.imem := by
  rw [State.softReset, State.resetKeepingMemory_imem]
  split
  · exact (effect_abandon s).same.imem
  · rfl

@[simp] theorem State.softResetIf_imem (s : State) (bit : Bool) : (s.softResetIf bit).imem = s.imem := by
  cases bit
  · rfl
  · exact s.softReset_imem

@[simp] theorem State.startIf_imem (s : State) (bit : Bool) : (s.startIf bit).imem = s.imem := by
  unfold State.startIf
  split <;> rfl

@[simp] theorem writeCtrl_imem (v : Word64) (s : State) : (writeCtrl v s).imem = s.imem := by
  rw [writeCtrl, State.startIf_imem, State.withIrqEn_imem, State.softResetIf_imem]

@[simp] theorem hostRegWrite_imem (off width : Nat) (v : Word64) (s : State) :
    (hostRegWrite off width v s).imem = s.imem := by
  unfold hostRegWrite
  split
  · split
    · exact writeCtrl_imem v s
    · rfl
    · unfold writeEntry; split <;> rfl
    · unfold writeRmode; split <;> rfl
    · rfl
  · rfl

theorem hostRegRead_imem (off width : Nat) (s : State) : (hostRegRead off width s).imem = s.imem := by
  rw [hostRegRead_frame]

theorem hostMemRead_imem (sp : Space) (a n : Nat) (s : State) : (hostMemRead sp a n s).imem = s.imem := by
  rw [hostMemRead_frame]

/-- Of the host's accesses only a write to IMEM changes IMEM, and only with the engine idle (20_memory.md R81). -/
theorem hostAccess_imem_changed {act : HostAction} {s : State} (h : (hostAccess act s).imem ≠ s.imem) :
    s.busy = false ∧ ∃ a bytes, act = .memWrite .imem a bytes := by
  cases act with
  | run => exact (h rfl).elim
  | regRead off width => exact (h (hostRegRead_imem off width s)).elim
  | regWrite off width v => exact (h (hostRegWrite_imem off width v s)).elim
  | memRead sp a n => exact (h (hostMemRead_imem sp a n s)).elim
  | memWrite sp a bytes =>
    refine ⟨Bool.eq_false_of_not_eq_true fun hb => h (congrArg State.imem (hostMemWrite_busy hb)), ?_⟩
    cases sp with
    | imem => exact ⟨a, bytes, rfl⟩
    | dmem => exact (h (hostMemWrite_space_other (sp' := .imem) nofun)).elim

/-! ### IMEM under a step -/

/-- Where the engine has no turn, the host has an access to make (log 9). -/
theorem host_of_not_engineTurn {s : State} (h : ¬engineTurn s) :
    ∃ act acts, s.host = act :: acts ∧ act ≠ .run := by
  cases hh : s.host with
  | nil => exact (h (.inl hh)).elim
  | cons act acts => exact ⟨act, acts, rfl, fun hr => h (.inr ⟨acts, hr ▸ hh⟩)⟩

theorem step_imem_changed {s t : State} (h : step s = .next t) (hne : t.imem ≠ s.imem) :
    s.busy = false ∧ ∃ a bytes acts, s.host = .memWrite .imem a bytes :: acts := by
  by_cases ht : engineTurn s
  · rw [step_turn s ht] at h
    exact (hne (engineStep_imem (s := s.turned) h)).elim
  · obtain ⟨act, acts, hh, hr⟩ := host_of_not_engineTurn ht
    rw [step_host s act acts hh hr] at h
    injection h with h
    subst h
    obtain ⟨hidle, a, bytes, rfl⟩ := hostAccess_imem_changed (s := s.withHost acts) hne
    exact ⟨hidle, a, bytes, acts, hh⟩

theorem step_imem_of_busy {s t : State} (hb : s.busy = true) (h : step s = .next t) : t.imem = s.imem := by
  by_contra hne
  exact Bool.false_ne_true ((step_imem_changed h hne).1.symm.trans hb)

theorem busyRun_imem {s t : State} (h : BusyRun s t) : t.imem = s.imem := by
  induction h with
  | refl => rfl
  | step t u _ hb hstep ih => exact (step_imem_of_busy hb hstep).trans ih

end Sys2Proof.Machine

/-- Settles O12: no instruction writes IMEM (`exec_imem`) and of the host's accesses only a write to it while the
engine is idle (`hostAccess_imem_changed`); along a busy run by induction on its steps. -/
theorem imemFixedDuringRun : Obligations.ImemFixedDuringRun :=
  ⟨fun _ _ h => Sys2Proof.Machine.busyRun_imem h, fun _ _ h hne => Sys2Proof.Machine.step_imem_changed h hne⟩

/-- Settles O56: a write is a byte string cut at the memory's size (`readByte_hostMemWrite`), and a read answers
byte by byte (`hostMemRead_outside`, `hostMemRead_inside`). -/
theorem hostMemoryAccess : Obligations.HostMemoryAccess := by
  open Sys2Proof.Machine in
  constructor
  · intro s sp a bytes acts hs
    exact ⟨hostMemWrite sp a bytes (s.withHost acts), step_host s _ acts hs nofun, hostMemWrite_frame ..,
      fun hbusy => hostMemWrite_busy hbusy,
      fun hidle sp' k => readByte_hostMemWrite (s := s.withHost acts) hidle sp sp' a k bytes⟩
  · intro s sp a n acts hs
    exact ⟨hostMemRead sp a n (s.withHost acts), step_host s _ acts hs nofun, hostMemRead_frame ..,
      fun hidle => hostMemRead_freeIx_idle (s := s.withHost acts) hidle sp a n, length_hostMemRead_data ..,
      fun k hk => ⟨hostMemRead_outside (s := s.withHost acts) hk,
        fun hidle hin => hostMemRead_inside (s := s.withHost acts) hidle hk hin⟩⟩

/-- Settles O26: sign extension adds a multiple of `2^64` to the offset (`toNat_sext18`). -/
theorem effectiveAddressWraps : Obligations.EffectiveAddressWraps := Sys2Proof.Machine.toNat_effectiveAddr

/-! PROOFS. The encoding (30_encoding.md R100 to R110). A row of the opcode map masks the opcode and the reserved-zero
bits of its format, so a word matches the row where its opcode is the row's and those bits are 0; the decoder's arm for
that opcode asks the same, and the encoder puts the fields back into the word. -/

namespace Sys2Proof

open Machine

/-! ### A word as its fields -/

section
variable (w : InsnWord)

theorem toNat_fieldOp : (fieldOp w).toNat = w.toNat / 2 ^ 26 := by
  have := w.isLt
  rw [fieldOp, toNat_bitField]
  omega

theorem toNat_fieldD : (fieldD w).toNat = w.toNat / 2 ^ 22 % 2 ^ 4 := toNat_bitField w 22 4

theorem toNat_fieldA : (fieldA w).toNat = w.toNat / 2 ^ 18 % 2 ^ 4 := toNat_bitField w 18 4

theorem toNat_fieldB : (fieldB w).toNat = w.toNat / 2 ^ 14 % 2 ^ 4 := toNat_bitField w 14 4

theorem toNat_fieldC : (fieldC w).toNat = w.toNat / 2 ^ 10 % 2 ^ 4 := toNat_bitField w 10 4

/-- A word is its opcode, its four register fields and its low ten bits. -/
theorem pack_fields :
    pack (fieldOp w) (fieldD w) (fieldA w) (fieldB w) (fieldC w) (fieldImm10 w) = w := by
  apply BitVec.eq_of_toNat_eq
  rw [toNat_pack, toNat_fieldOp, toNat_fieldD, toNat_fieldA, toNat_fieldB, toNat_fieldC, fieldImm10, toNat_bitField]
  omega

theorem packM_fields : packM (fieldOp w) (fieldD w) (fieldA w) (fieldImm18 w) = w := by
  apply BitVec.eq_of_toNat_eq
  rw [toNat_packM, toNat_fieldOp, toNat_fieldD, toNat_fieldA, fieldImm18, toNat_bitField]
  omega

theorem packL_fields : packL (fieldOp w) (fieldD w) (fieldImm22 w) = w := by
  apply BitVec.eq_of_toNat_eq
  rw [toNat_packL, toNat_fieldOp, toNat_fieldD, fieldImm22, toNat_bitField]
  omega

end

/-- A field inside bits that are all 0 is 0. -/
theorem bitField_eq_zero_of_within {w : InsnWord} {lo len : Nat} (h : bitField w lo len = 0) (lo' len' : Nat)
    (hin : lo ≤ lo' ∧ lo' + len' ≤ lo + len) : bitField w lo' len' = 0 := by
  obtain ⟨hlo, hhi⟩ := hin
  apply BitVec.eq_of_getLsbD_eq
  intro k hk
  have hbit := congrArg (BitVec.getLsbD · (lo' - lo + k)) h
  simp only [bitField, BitVec.getLsbD_extractLsb', BitVec.ofNat_eq_ofNat, BitVec.getLsbD_zero] at hbit ⊢
  grind

/-! ### A word of each format as its fields -/

section
variable (w : InsnWord)

theorem pack_fieldsN (h : bitField w 0 26 = 0) : pack (fieldOp w) 0 0 0 0 0 = w := by
  have hd : fieldD w = 0 := bitField_eq_zero_of_within h 22 4 (by decide)
  have ha : fieldA w = 0 := bitField_eq_zero_of_within h 18 4 (by decide)
  have hb : fieldB w = 0 := bitField_eq_zero_of_within h 14 4 (by decide)
  have hc : fieldC w = 0 := bitField_eq_zero_of_within h 10 4 (by decide)
  have hi : fieldImm10 w = 0 := bitField_eq_zero_of_within h 0 10 (by decide)
  simpa only [hd, ha, hb, hc, hi] using pack_fields w

theorem pack_fieldsK (h : bitField w 10 16 = 0) : pack (fieldOp w) 0 0 0 0 (fieldImm10 w) = w := by
  have hd : fieldD w = 0 := bitField_eq_zero_of_within h 22 4 (by decide)
  have ha : fieldA w = 0 := bitField_eq_zero_of_within h 18 4 (by decide)
  have hb : fieldB w = 0 := bitField_eq_zero_of_within h 14 4 (by decide)
  have hc : fieldC w = 0 := bitField_eq_zero_of_within h 10 4 (by decide)
  simpa only [hd, ha, hb, hc] using pack_fields w

theorem pack_fieldsRI (h : bitField w 10 8 = 0) :
    pack (fieldOp w) (fieldD w) (fieldA w) 0 0 (fieldImm10 w) = w := by
  have hb : fieldB w = 0 := bitField_eq_zero_of_within h 14 4 (by decide)
  have hc : fieldC w = 0 := bitField_eq_zero_of_within h 10 4 (by decide)
  simpa only [hb, hc] using pack_fields w

theorem pack_fieldsR4 (h : bitField w 0 10 = 0) :
    pack (fieldOp w) (fieldD w) (fieldA w) (fieldB w) (fieldC w) 0 = w := by
  have hi : fieldImm10 w = 0 := h
  simpa only [hi] using pack_fields w

theorem pack_fieldsR3 (h : bitField w 0 14 = 0) :
    pack (fieldOp w) (fieldD w) (fieldA w) (fieldB w) 0 0 = w := by
  have hc : fieldC w = 0 := bitField_eq_zero_of_within h 10 4 (by decide)
  simpa only [hc] using pack_fieldsR4 w (bitField_eq_zero_of_within h 0 10 (by decide))

theorem pack_fieldsR2 (h : bitField w 0 18 = 0) : pack (fieldOp w) (fieldD w) (fieldA w) 0 0 0 = w := by
  have hb : fieldB w = 0 := bitField_eq_zero_of_within h 14 4 (by decide)
  simpa only [hb] using pack_fieldsR3 w (bitField_eq_zero_of_within h 0 14 (by decide))

end

/-! ### The masks of the opcode map -/

/-- The mask of the bits `lo + len - 1 .. lo` of a word. -/
def fieldMask (lo len : Nat) : InsnWord := (BitVec.allOnes len).setWidth 32 <<< lo

/-- The mask of the fields at the given places and lengths. -/
def fieldsMask : List (Nat × Nat) → InsnWord
  | [] => 0
  | f :: fs => fieldMask f.1 f.2 ||| fieldsMask fs

theorem getLsbD_fieldMask (lo len k : Nat) :
    (fieldMask lo len).getLsbD k = (decide (k < 32) && decide (lo ≤ k) && decide (k < lo + len)) := by
  simp only [fieldMask, BitVec.getLsbD_shiftLeft, BitVec.getLsbD_setWidth, BitVec.getLsbD_allOnes]
  grind

/-- Two words agree under a field's mask where they have the same field. -/
theorem and_fieldMask_eq_iff (w v : InsnWord) (lo len : Nat) :
    w &&& fieldMask lo len = v &&& fieldMask lo len ↔ bitField w lo len = bitField v lo len := by
  constructor
  · intro hw
    apply BitVec.eq_of_getLsbD_eq
    intro k hk
    have hbit := congrArg (BitVec.getLsbD · (lo + k)) hw
    simp only [BitVec.getLsbD_and, getLsbD_fieldMask] at hbit
    simp only [bitField, BitVec.getLsbD_extractLsb']
    grind
  · intro hw
    apply BitVec.eq_of_getLsbD_eq
    intro k hk
    have hbit := congrArg (BitVec.getLsbD · (k - lo)) hw
    simp only [bitField, BitVec.getLsbD_extractLsb'] at hbit
    simp only [BitVec.getLsbD_and, getLsbD_fieldMask]
    grind

/-- Two words agree under two masks together where they agree under each. -/
theorem and_or_eq_iff (w v m n : InsnWord) :
    w &&& (m ||| n) = v &&& (m ||| n) ↔ w &&& m = v &&& m ∧ w &&& n = v &&& n := by
  constructor
  · intro h
    have hbit (k : Nat) := congrArg (BitVec.getLsbD · k) h
    simp only [BitVec.getLsbD_and, BitVec.getLsbD_or] at hbit
    constructor <;> apply BitVec.eq_of_getLsbD_eq <;> intro k _ <;> rw [BitVec.getLsbD_and, BitVec.getLsbD_and]
    all_goals grind
  · rintro ⟨hm, hn⟩
    rw [BitVec.and_or_distrib_left, hm, hn, ← BitVec.and_or_distrib_left]

theorem and_fieldsMask_eq_iff (w v : InsnWord) (fs : List (Nat × Nat)) :
    w &&& fieldsMask fs = v &&& fieldsMask fs ↔ ∀ f ∈ fs, bitField w f.1 f.2 = bitField v f.1 f.2 := by
  induction fs with
  | nil => simp [fieldsMask]
  | cons f fs ih => rw [fieldsMask, and_or_eq_iff, ih, and_fieldMask_eq_iff, List.forall_mem_cons]

/-- The word of an opcode has no bit outside the opcode field. -/
theorem opWord_and_or_mask (op : BitVec 6) (m : InsnWord) :
    pack op 0 0 0 0 0 &&& (fieldMask 26 6 ||| m) = pack op 0 0 0 0 0 := by
  apply BitVec.eq_of_getLsbD_eq
  intro k hk
  have hlow := congrArg (BitVec.getLsbD · k) (bitField_pack_0_26 op)
  simp only [bitField, BitVec.getLsbD_extractLsb', BitVec.getLsbD_zero] at hlow
  simp only [BitVec.getLsbD_and, BitVec.getLsbD_or, getLsbD_fieldMask]
  grind

/-- A field below the opcode is 0 in the word of an opcode. -/
theorem bitField_opWord (op : BitVec 6) {lo len : Nat} (h : lo + len ≤ 26) :
    bitField (pack op 0 0 0 0 0) lo len = 0 :=
  bitField_eq_zero_of_within (bitField_pack_0_26 op) lo len (by omega)

/-- A word matches an opcode under a row's mask where its opcode is that one and the row's reserved-zero fields
are 0. -/
theorem and_mask_eq_opWord_iff (w : InsnWord) (op : BitVec 6) {fs : List (Nat × Nat)}
    (hfs : ∀ f ∈ fs, f.1 + f.2 ≤ 26) :
    w &&& fieldsMask ((26, 6) :: fs) = pack op 0 0 0 0 0 ↔
      fieldOp w = op ∧ ∀ f ∈ fs, bitField w f.1 f.2 = 0 := by
  have h := and_fieldsMask_eq_iff w (pack op 0 0 0 0 0) ((26, 6) :: fs)
  rw [fieldsMask, opWord_and_or_mask, List.forall_mem_cons] at h
  rw [fieldsMask, h]
  refine and_congr (by rw [← fieldOp, ← fieldOp, fieldOp_pack]) (forall₂_congr fun f hf => ?_)
  rw [bitField_opWord op (hfs f hf)]

/-! ### A row of the opcode map -/

/-- The decoder reads the words of an opcode by `arm`. -/
def ReadsOpcode (op : BitVec 6) (arm : InsnWord → Except Reject Instr) : Prop :=
  ∀ w, fieldOp w = op → decodeWord w = arm w

/-- The decoder agrees with a row: of the words with the row's opcode it accepts those that match the row, each as
the one word of a well-formed instruction. -/
structure DecodesRow (r : Spec.Row) : Prop where
  accepts : ∀ w, w &&& r.mask = r.matchBits ∧ r.constraint w = true ↔
    fieldOp w = fieldOp r.matchBits ∧ ∃ i, decodeWord w = .ok i
  canonical : ∀ w i, fieldOp w = fieldOp r.matchBits → decodeWord w = .ok i → i.wellFormed = true ∧ encode i = w

/-- A row whose opcode the decoder reads in a format: `z` holds of the words whose reserved-zero fields `fs` are 0 and
`j` is the instruction of a word's fields. -/
theorem decodesRow_of_checked {op : BitVec 6} {mask : InsnWord} {c : InsnWord → Bool} (fs : List (Nat × Nat))
    (z : InsnWord → Bool) (j : InsnWord → Instr) (hz : ∀ w, z w = true ↔ ∀ f ∈ fs, bitField w f.1 f.2 = 0)
    (hdec : ReadsOpcode op fun w => checked (z w) (j w))
    (henc : ∀ w, fieldOp w = op → z w = true → encode (j w) = w)
    (hc : ∀ w, c w = true ↔ (j w).fieldError = none)
    (hfs : ∀ f ∈ fs, f.1 + f.2 ≤ 26) (hmask : fieldsMask ((26, 6) :: fs) = mask) :
    DecodesRow ⟨mask, pack op 0 0 0 0 0, c⟩ := by
  subst hmask
  constructor
  · intro w
    simp only [and_mask_eq_opWord_iff w op hfs, fieldOp_pack, and_assoc]
    refine and_congr_right fun hop => ?_
    simp only [hdec w hop, checked_eq_ok, hz, hc, exists_and_left, exists_eq', and_true]
  · intro w i hop hi
    rw [fieldOp_pack] at hop
    rw [hdec w hop, checked_eq_ok] at hi
    obtain ⟨hzero, hfield, rfl⟩ := hi
    exact ⟨by rw [Instr.wellFormed, hfield]; rfl, henc w hop hzero⟩

/-! ### A row of each format

The mask is the opcode field and the format's reserved-zero bits (30_encoding.md R102). `mk` makes the instruction of
the format's fields: the decoder's arm for the opcode reads it (`hdec`), the encoder's word holds it (`henc`), and the
row's constraint is the one on its fields (`hc`). -/

section
variable {c : InsnWord → Bool} (op : BitVec 6)

theorem decodesRow_formatN (i : Instr) (hdec : ReadsOpcode op (formatN · i))
    (henc : encode i = pack op 0 0 0 0 0) (hc : ∀ w, c w = true ↔ i.fieldError = none) :
    DecodesRow ⟨0xffffffff, pack op 0 0 0 0 0, c⟩ := by
  refine decodesRow_of_checked [(0, 26)] _ _ (by simp) hdec (fun w hop hz => ?_) hc (by decide) (by decide)
  rw [henc, ← hop]
  exact pack_fieldsN w (eq_of_beq hz)

theorem decodesRow_formatK (mk : BitVec 10 → Instr) (hdec : ReadsOpcode op (formatK · mk))
    (henc : ∀ i, encode (mk i) = pack op 0 0 0 0 i)
    (hc : ∀ w, c w = true ↔ (mk (fieldImm10 w)).fieldError = none) :
    DecodesRow ⟨0xfffffc00, pack op 0 0 0 0 0, c⟩ := by
  refine decodesRow_of_checked [(10, 16)] _ _ (by simp) hdec (fun w hop hz => ?_) hc (by decide) (by decide)
  rw [henc, ← hop]
  exact pack_fieldsK w (eq_of_beq hz)

theorem decodesRow_formatL (mk : RegNo → BitVec 22 → Instr) (hdec : ReadsOpcode op (formatL · mk))
    (henc : ∀ d imm, encode (mk d imm) = packL op d imm)
    (hc : ∀ w, c w = true ↔ (mk (fieldD w) (fieldImm22 w)).fieldError = none) :
    DecodesRow ⟨0xfc000000, pack op 0 0 0 0 0, c⟩ := by
  refine decodesRow_of_checked [] _ _ (by simp) hdec (fun w hop hz => ?_) hc (by decide) (by decide)
  rw [henc, ← hop]
  exact packL_fields w

theorem decodesRow_formatM (mk : RegNo → RegNo → BitVec 18 → Instr) (hdec : ReadsOpcode op (formatM · mk))
    (henc : ∀ d a imm, encode (mk d a imm) = packM op d a imm)
    (hc : ∀ w, c w = true ↔ (mk (fieldD w) (fieldA w) (fieldImm18 w)).fieldError = none) :
    DecodesRow ⟨0xfc000000, pack op 0 0 0 0 0, c⟩ := by
  refine decodesRow_of_checked [] _ _ (by simp) hdec (fun w hop hz => ?_) hc (by decide) (by decide)
  rw [henc, ← hop]
  exact packM_fields w

theorem decodesRow_formatR2 (mk : RegNo → RegNo → Instr) (hdec : ReadsOpcode op (formatR2 · mk))
    (henc : ∀ d a, encode (mk d a) = pack op d a 0 0 0)
    (hc : ∀ w, c w = true ↔ (mk (fieldD w) (fieldA w)).fieldError = none) :
    DecodesRow ⟨0xfc03ffff, pack op 0 0 0 0 0, c⟩ := by
  refine decodesRow_of_checked [(0, 18)] _ _ (by simp) hdec (fun w hop hz => ?_) hc (by decide) (by decide)
  rw [henc, ← hop]
  exact pack_fieldsR2 w (eq_of_beq hz)

theorem decodesRow_formatR3 (mk : RegNo → RegNo → RegNo → Instr) (hdec : ReadsOpcode op (formatR3 · mk))
    (henc : ∀ d a b, encode (mk d a b) = pack op d a b 0 0)
    (hc : ∀ w, c w = true ↔ (mk (fieldD w) (fieldA w) (fieldB w)).fieldError = none) :
    DecodesRow ⟨0xfc003fff, pack op 0 0 0 0 0, c⟩ := by
  refine decodesRow_of_checked [(0, 14)] _ _ (by simp) hdec (fun w hop hz => ?_) hc (by decide) (by decide)
  rw [henc, ← hop]
  exact pack_fieldsR3 w (eq_of_beq hz)

theorem decodesRow_formatR4 (mk : RegNo → RegNo → RegNo → RegNo → Instr)
    (hdec : ReadsOpcode op (formatR4 · mk)) (henc : ∀ d a b c, encode (mk d a b c) = pack op d a b c 0)
    (hc : ∀ w, c w = true ↔ (mk (fieldD w) (fieldA w) (fieldB w) (fieldC w)).fieldError = none) :
    DecodesRow ⟨0xfc0003ff, pack op 0 0 0 0 0, c⟩ := by
  refine decodesRow_of_checked [(0, 10)] _ _ (by simp) hdec (fun w hop hz => ?_) hc (by decide) (by decide)
  rw [henc, ← hop]
  exact pack_fieldsR4 w (eq_of_beq hz)

theorem decodesRow_formatRI (mk : RegNo → RegNo → BitVec 10 → Instr) (hdec : ReadsOpcode op (formatRI · mk))
    (henc : ∀ d a i, encode (mk d a i) = pack op d a 0 0 i)
    (hc : ∀ w, c w = true ↔ (mk (fieldD w) (fieldA w) (fieldImm10 w)).fieldError = none) :
    DecodesRow ⟨0xfc03fc00, pack op 0 0 0 0 0, c⟩ := by
  refine decodesRow_of_checked [(10, 8)] _ _ (by simp) hdec (fun w hop hz => ?_) hc (by decide) (by decide)
  rw [henc, ← hop]
  exact pack_fieldsRI w (eq_of_beq hz)

theorem decodesRow_formatA (mk : RegNo → Instr) (hdec : ReadsOpcode op (formatA · mk))
    (henc : ∀ a, encode (mk a) = pack op 0 a 0 0 0)
    (hc : ∀ w, c w = true ↔ (mk (fieldA w)).fieldError = none) :
    DecodesRow ⟨0xffc3ffff, pack op 0 0 0 0 0, c⟩ := by
  refine decodesRow_of_checked [(22, 4), (0, 18)] _ _ (by simp) hdec (fun w hop hz => ?_) hc (by decide) (by decide)
  obtain ⟨hd, hlow⟩ := (Bool.and_eq_true ..).mp hz
  have hd : fieldD w = 0 := eq_of_beq hd
  rw [henc, ← hop]
  simpa only [hd] using pack_fieldsR2 w (eq_of_beq hlow)

theorem decodesRow_formatAB (mk : RegNo → RegNo → Instr) (hdec : ReadsOpcode op (formatAB · mk))
    (henc : ∀ a b, encode (mk a b) = pack op 0 a b 0 0)
    (hc : ∀ w, c w = true ↔ (mk (fieldA w) (fieldB w)).fieldError = none) :
    DecodesRow ⟨0xffc03fff, pack op 0 0 0 0 0, c⟩ := by
  refine decodesRow_of_checked [(22, 4), (0, 14)] _ _ (by simp) hdec (fun w hop hz => ?_) hc (by decide) (by decide)
  obtain ⟨hd, hlow⟩ := (Bool.and_eq_true ..).mp hz
  have hd : fieldD w = 0 := eq_of_beq hd
  rw [henc, ← hop]
  simpa only [hd] using pack_fieldsR3 w (eq_of_beq hlow)

theorem decodesRow_formatABC (mk : RegNo → RegNo → RegNo → Instr) (hdec : ReadsOpcode op (formatABC · mk))
    (henc : ∀ a b c, encode (mk a b c) = pack op 0 a b c 0)
    (hc : ∀ w, c w = true ↔ (mk (fieldA w) (fieldB w) (fieldC w)).fieldError = none) :
    DecodesRow ⟨0xffc003ff, pack op 0 0 0 0 0, c⟩ := by
  refine decodesRow_of_checked [(22, 4), (0, 10)] _ _ (by simp) hdec (fun w hop hz => ?_) hc (by decide) (by decide)
  obtain ⟨hd, hlow⟩ := (Bool.and_eq_true ..).mp hz
  have hd : fieldD w = 0 := eq_of_beq hd
  rw [henc, ← hop]
  simpa only [hd] using pack_fieldsR4 w (eq_of_beq hlow)

end

/-! ### The constraints on the fields -/

theorem anyFields_iff {w : InsnWord} {i : Instr} (h : i.fieldError = none) :
    Spec.anyFields w = true ↔ i.fieldError = none := iff_of_true rfl h

theorem unless_eq_none_iff (e : FieldError) (ok : Bool) : ok = true ↔ e.unless ok = none := by
  cases ok <;> simp [FieldError.unless]

section
variable (e : FieldError) (hi : RegNo) (w : InsnWord)

theorem groupBelow_d_iff : Spec.groupBelow hi [22] w = true ↔ e.unless (fieldD w ≤ hi) = none := by
  rw [← unless_eq_none_iff, Spec.groupBelow, List.all_cons, List.all_nil, Bool.and_true]
  rfl

theorem groupBelow_da_iff :
    Spec.groupBelow hi [22, 18] w = true ↔ e.unless (fieldD w ≤ hi && fieldA w ≤ hi) = none := by
  rw [← unless_eq_none_iff, Spec.groupBelow, List.all_cons, List.all_cons, List.all_nil, Bool.and_true]
  rfl

theorem groupBelow_dab_iff :
    Spec.groupBelow hi [22, 18, 14] w = true ↔
      e.unless (fieldD w ≤ hi && fieldA w ≤ hi && fieldB w ≤ hi) = none := by
  rw [← unless_eq_none_iff, Spec.groupBelow, List.all_cons, List.all_cons, List.all_cons, List.all_nil, Bool.and_true,
    ← Bool.and_assoc]
  rfl

end

/-! ### The opcode map -/

/-- The decoder agrees with every row of the opcode map (30_encoding.md R105, R106). -/
theorem opcodeMap_decodesRow : ∀ r ∈ Spec.opcodeMap, DecodesRow r := by
  rw [← List.forall_iff_forall_mem]
  refine ⟨
    decodesRow_formatN 0x01 .nop ?_ rfl fun _ => anyFields_iff rfl,
    decodesRow_formatN 0x02 .halt ?_ rfl fun _ => anyFields_iff rfl,
    decodesRow_formatK 0x03 .rmacq ?_ (fun _ => rfl) fun _ => unless_eq_none_iff .mode _,
    decodesRow_formatN 0x04 .rmrel ?_ rfl fun _ => anyFields_iff rfl,
    decodesRow_formatL 0x08 .xli ?_ (fun _ _ => rfl) fun _ => anyFields_iff rfl,
    decodesRow_formatM 0x09 .xaddi ?_ (fun _ _ _ => rfl) fun _ => anyFields_iff rfl,
    decodesRow_formatM 0x0A .ldx ?_ (fun _ _ _ => rfl) fun _ => anyFields_iff rfl,
    decodesRow_formatM 0x0B .stx ?_ (fun _ _ _ => rfl) fun _ => anyFields_iff rfl,
    decodesRow_formatM 0x10 .ldf ?_ (fun _ _ _ => rfl) fun _ => anyFields_iff rfl,
    decodesRow_formatM 0x11 .stf ?_ (fun _ _ _ => rfl) fun _ => anyFields_iff rfl,
    decodesRow_formatR2 0x12 .fmov ?_ (fun _ _ => rfl) fun _ => anyFields_iff rfl,
    decodesRow_formatR3 0x13 .fadd ?_ (fun _ _ _ => rfl) fun _ => anyFields_iff rfl,
    decodesRow_formatM 0x14 .ldv ?_ (fun _ _ _ => rfl) (groupBelow_d_iff .vRegister 7),
    decodesRow_formatM 0x15 .stv ?_ (fun _ _ _ => rfl) (groupBelow_d_iff .vRegister 7),
    decodesRow_formatR3 0x18 .mul ?_ (fun _ _ _ => rfl) fun _ => anyFields_iff rfl,
    decodesRow_formatR2 0x19 .sqr ?_ (fun _ _ => rfl) fun _ => anyFields_iff rfl,
    decodesRow_formatR2 0x1C .redp ?_ (fun _ _ => rfl) fun _ => anyFields_iff rfl,
    decodesRow_formatR2 0x1D .red1 ?_ (fun _ _ => rfl) fun _ => anyFields_iff rfl,
    decodesRow_formatR2 0x1E .red ?_ (fun _ _ => rfl) fun _ => anyFields_iff rfl,
    decodesRow_formatRI 0x1F .redprc ?_ (fun _ _ _ => rfl) fun _ => unless_eq_none_iff .rcIndex _,
    decodesRow_formatR3 0x20 .vmul ?_ (fun _ _ _ => rfl) (groupBelow_dab_iff .vRegister 7),
    decodesRow_formatR2 0x21 .vsqr ?_ (fun _ _ => rfl) (groupBelow_da_iff .vRegister 7),
    decodesRow_formatR3 0x24 .bmul3 ?_ (fun _ _ _ => rfl) (groupBelow_dab_iff .registerGroup 13),
    decodesRow_formatR3 0x25 .bmul4 ?_ (fun _ _ _ => rfl) (groupBelow_dab_iff .registerGroup 12),
    decodesRow_formatR2 0x26 .bsqr3 ?_ (fun _ _ => rfl) (groupBelow_da_iff .registerGroup 13),
    decodesRow_formatR2 0x27 .bsqr4 ?_ (fun _ _ => rfl) (groupBelow_da_iff .registerGroup 12),
    decodesRow_formatR2 0x28 .bar ?_ (fun _ _ => rfl) fun _ => anyFields_iff rfl,
    decodesRow_formatR3 0x29 .cmpr ?_ (fun _ _ _ => rfl) fun _ => anyFields_iff rfl,
    decodesRow_formatR4 0x2A .cmprm ?_ (fun _ _ _ _ => rfl) fun _ => anyFields_iff rfl,
    decodesRow_formatAB 0x30 .nttb8 ?_ (fun _ _ => rfl) fun _ => anyFields_iff rfl,
    decodesRow_formatABC 0x31 .ntt8 ?_ (fun _ _ _ => rfl) fun _ => anyFields_iff rfl,
    decodesRow_formatR2 0x32 .nttroot ?_ (fun _ _ => rfl) fun _ => anyFields_iff rfl,
    decodesRow_formatA 0x33 .nttpre ?_ (fun _ => rfl) fun _ => anyFields_iff rfl,
    decodesRow_formatABC 0x34 .ntth ?_ (fun _ _ _ => rfl) fun _ => anyFields_iff rfl,
    decodesRow_formatABC 0x35 .ntts2 ?_ (fun _ _ _ => rfl) fun _ => anyFields_iff rfl,
    decodesRow_formatABC 0x36 .ntts4 ?_ (fun _ _ _ => rfl) fun _ => anyFields_iff rfl⟩
  all_goals exact fun w hop => by rw [decodeWord, hop]; rfl

/-- The decoder accepts only words whose opcode is in the map (30_encoding.md R106 case 1). -/
theorem exists_row_of_decodeWord {w : InsnWord} {i : Instr} (h : decodeWord w = .ok i) :
    ∃ r ∈ Spec.opcodeMap, fieldOp w = fieldOp r.matchBits := by
  have hmem : (fieldOp w).toNat ∈ Spec.opcodeMap.map fun r => (fieldOp r.matchBits).toNat := by
    unfold decodeWord at h
    split at h
    case h_37 => exact nomatch h -- the arm of every other opcode
    all_goals next hop => rw [hop]; decide
  obtain ⟨r, hr, hop⟩ := List.mem_map.mp hmem
  exact ⟨r, hr, (BitVec.eq_of_toNat_eq hop).symm⟩

/-- A word is an instruction of R105 exactly where the decoder accepts it. -/
theorem decodeWord_ok_iff (w : InsnWord) : (∃ i, decodeWord w = .ok i) ↔ Spec.isInstruction w := by
  constructor
  · rintro ⟨i, h⟩
    obtain ⟨r, hr, hop⟩ := exists_row_of_decodeWord h
    exact ⟨r, hr, ((opcodeMap_decodesRow r hr).accepts w).mpr ⟨hop, i, h⟩⟩
  · rintro ⟨r, hr, hw⟩
    obtain ⟨_, hi⟩ := ((opcodeMap_decodesRow r hr).accepts w).mp hw
    exact hi

/-- A word outside the opcode map is refused. -/
theorem decodeWord_error {w : InsnWord} (h : ¬Spec.isInstruction w) : ∃ e, decodeWord w = .error e := by
  cases hd : decodeWord w with
  | ok i => exact (h ((decodeWord_ok_iff w).mp ⟨i, hd⟩)).elim
  | error e => exact ⟨e, rfl⟩

/-- A word that decodes is its instruction's word (30_encoding.md R100, R102). -/
theorem encode_of_decodeWord {w : InsnWord} {i : Instr} (h : decodeWord w = .ok i) :
    i.wellFormed = true ∧ encode i = w := by
  obtain ⟨r, hr, hop⟩ := exists_row_of_decodeWord h
  exact (opcodeMap_decodesRow r hr).canonical w i hop h

/-! ### Decoding what the encoder writes

The fields of a packed word are the ones packed, and its reserved-zero bits are 0 (Laws/Encoding). -/

theorem checked_of_wellFormed {i : Instr} {z : Bool} (hi : i.wellFormed = true) (hz : z = true) :
    checked z i = .ok i :=
  (checked_eq_ok z i i).mpr ⟨hz, Option.isNone_iff_eq_none.mp hi, rfl⟩

section
variable (op : BitVec 6) {d a b c : RegNo} {i : BitVec 10} {imm18 : BitVec 18} {imm22 : BitVec 22}

theorem decodeWord_formatN {mk : Instr} (hdec : ReadsOpcode op (formatN · mk))
    (h : mk.wellFormed = true) : decodeWord (pack op 0 0 0 0 0) = .ok mk := by
  rw [hdec _ (fieldOp_pack ..)]
  simp [formatN, checked_of_wellFormed h]

theorem decodeWord_formatK {mk : BitVec 10 → Instr} (hdec : ReadsOpcode op (formatK · mk))
    (h : (mk i).wellFormed = true) : decodeWord (pack op 0 0 0 0 i) = .ok (mk i) := by
  rw [hdec _ (fieldOp_pack ..)]
  simp [formatK, checked_of_wellFormed h]

theorem decodeWord_formatL {mk : RegNo → BitVec 22 → Instr} (hdec : ReadsOpcode op (formatL · mk))
    (h : (mk d imm22).wellFormed = true) : decodeWord (packL op d imm22) = .ok (mk d imm22) := by
  rw [hdec _ (fieldOp_packL ..)]
  simp [formatL, checked_of_wellFormed h]

theorem decodeWord_formatM {mk : RegNo → RegNo → BitVec 18 → Instr} (hdec : ReadsOpcode op (formatM · mk))
    (h : (mk d a imm18).wellFormed = true) : decodeWord (packM op d a imm18) = .ok (mk d a imm18) := by
  rw [hdec _ (fieldOp_packM ..)]
  simp [formatM, checked_of_wellFormed h]

theorem decodeWord_formatR2 {mk : RegNo → RegNo → Instr} (hdec : ReadsOpcode op (formatR2 · mk))
    (h : (mk d a).wellFormed = true) : decodeWord (pack op d a 0 0 0) = .ok (mk d a) := by
  rw [hdec _ (fieldOp_pack ..)]
  simp [formatR2, checked_of_wellFormed h]

theorem decodeWord_formatR3 {mk : RegNo → RegNo → RegNo → Instr} (hdec : ReadsOpcode op (formatR3 · mk))
    (h : (mk d a b).wellFormed = true) : decodeWord (pack op d a b 0 0) = .ok (mk d a b) := by
  rw [hdec _ (fieldOp_pack ..)]
  simp [formatR3, checked_of_wellFormed h]

theorem decodeWord_formatR4 {mk : RegNo → RegNo → RegNo → RegNo → Instr}
    (hdec : ReadsOpcode op (formatR4 · mk))
    (h : (mk d a b c).wellFormed = true) : decodeWord (pack op d a b c 0) = .ok (mk d a b c) := by
  rw [hdec _ (fieldOp_pack ..)]
  simp [formatR4, checked_of_wellFormed h]

theorem decodeWord_formatRI {mk : RegNo → RegNo → BitVec 10 → Instr} (hdec : ReadsOpcode op (formatRI · mk))
    (h : (mk d a i).wellFormed = true) : decodeWord (pack op d a 0 0 i) = .ok (mk d a i) := by
  rw [hdec _ (fieldOp_pack ..)]
  simp [formatRI, checked_of_wellFormed h]

theorem decodeWord_formatA {mk : RegNo → Instr} (hdec : ReadsOpcode op (formatA · mk))
    (h : (mk a).wellFormed = true) : decodeWord (pack op 0 a 0 0 0) = .ok (mk a) := by
  rw [hdec _ (fieldOp_pack ..)]
  simp [formatA, checked_of_wellFormed h]

theorem decodeWord_formatAB {mk : RegNo → RegNo → Instr} (hdec : ReadsOpcode op (formatAB · mk))
    (h : (mk a b).wellFormed = true) : decodeWord (pack op 0 a b 0 0) = .ok (mk a b) := by
  rw [hdec _ (fieldOp_pack ..)]
  simp [formatAB, checked_of_wellFormed h]

theorem decodeWord_formatABC {mk : RegNo → RegNo → RegNo → Instr} (hdec : ReadsOpcode op (formatABC · mk))
    (h : (mk a b c).wellFormed = true) : decodeWord (pack op 0 a b c 0) = .ok (mk a b c) := by
  rw [hdec _ (fieldOp_pack ..)]
  simp [formatABC, checked_of_wellFormed h]

end

/-- The decoder's arm for an opcode finds every field where the encoder put it, and 0 in the reserved bits. -/
theorem decodeWord_encode {i : Instr} (h : i.wellFormed = true) : decodeWord (encode i) = .ok i := by
  cases i
  case nop | halt | rmrel =>
    exact decodeWord_formatN _ (fun w hop => by rw [decodeWord, hop]; rfl) h
  case rmacq =>
    exact decodeWord_formatK _ (fun w hop => by rw [decodeWord, hop]; rfl) h
  case xli =>
    exact decodeWord_formatL _ (fun w hop => by rw [decodeWord, hop]; rfl) h
  case xaddi | ldx | stx | ldf | stf | ldv | stv =>
    exact decodeWord_formatM _ (fun w hop => by rw [decodeWord, hop]; rfl) h
  case fmov | sqr | redp | red1 | red | vsqr | bsqr3 | bsqr4 | bar | nttroot =>
    exact decodeWord_formatR2 _ (fun w hop => by rw [decodeWord, hop]; rfl) h
  case fadd | mul | vmul | bmul3 | bmul4 | cmpr =>
    exact decodeWord_formatR3 _ (fun w hop => by rw [decodeWord, hop]; rfl) h
  case cmprm =>
    exact decodeWord_formatR4 _ (fun w hop => by rw [decodeWord, hop]; rfl) h
  case redprc =>
    exact decodeWord_formatRI _ (fun w hop => by rw [decodeWord, hop]; rfl) h
  case nttpre =>
    exact decodeWord_formatA _ (fun w hop => by rw [decodeWord, hop]; rfl) h
  case nttb8 =>
    exact decodeWord_formatAB _ (fun w hop => by rw [decodeWord, hop]; rfl) h
  case ntt8 | ntth | ntts2 | ntts4 =>
    exact decodeWord_formatABC _ (fun w hop => by rw [decodeWord, hop]; rfl) h

end Sys2Proof

namespace Sys2Proof.Machine

/-! ### The step at an illegal word -/

/-- The engine answers a refused word with ILLEGAL (30_encoding.md R107). -/
theorem runInstruction_illegal {s : State} {e : Reject} (hf : ¬s.fetchPastEnd)
    (hd : decodeWord s.fetchWord = .error e) :
    runInstruction s = .next (s.takeFault s.fetchWord ⟨.illegal, 0⟩) := by
  rw [runInstruction, if_neg hf, hd]

theorem step_busy {s : State} (ht : engineTurn s) (hb : s.busy = true) : step s = runInstruction s.turned := by
  rw [step_turn s ht, engineStep, State.turned_busy, if_pos hb]

end Sys2Proof.Machine

/-- Settles O1: every field is read where it was written (`decodeWord_encode`), and the four bytes are the word's. -/
theorem decodeEncodeRoundTrip : Obligations.DecodeEncodeRoundTrip := by
  open Sys2Proof in
  intro i hi
  refine ⟨decodeWord_encode hi, fun rest => ?_⟩
  rw [encodeBytes, decode_leBytes, decodeWord_encode hi]
  rfl

/-- Settles O2: the row of the word's opcode says so (`opcodeMap_decodesRow`). -/
theorem encodeDecodeRoundTrip : Obligations.EncodeDecodeRoundTrip :=
  fun _ _ h => Sys2Proof.encode_of_decodeWord h

/-- Settles O3: the decoder agrees with each row (`opcodeMap_decodesRow`) and has no opcode beyond the map's
(`exists_row_of_decodeWord`). -/
theorem decodeMatchesOpcodeMap : Obligations.DecodeMatchesOpcodeMap := Sys2Proof.decodeWord_ok_iff

/-- Settles O4: the decoder refuses the word (O3), and the engine answers a refusal with the fault entry. -/
theorem illegalWordFaults : Obligations.IllegalWordFaults := by
  open Sys2Proof Sys2Proof.Machine in
  intro s ht hb hf hw
  obtain ⟨e, he⟩ := decodeWord_error hw
  exact ⟨_, (step_busy ht hb).trans (runInstruction_illegal hf he), takeFault_entry ..⟩

/-- Settles O5: each word is decoded by computing. -/
theorem decodeExamples : Obligations.DecodeExamples := by
  unfold Obligations.DecodeExamples
  decide

/-! PROOFS. Data movement (40_data_movement.md). A load or store whose address passes its checks completes with the
effect its body names; what it loads or stores is the register's little-endian bytes at the effective address. -/

namespace Sys2Proof.Machine

/-! ### Completion -/

/-- A body that yields an effect completes, and the engine goes on to the next word. -/
theorem exec_of_body {i : Instr} {s t : State} {body : Except Raise State} (hx : exec i s = execute i s body)
    (hw : i.wellFormed = true) (hb : body = .ok t) : exec i s = .next t.advance := by
  rw [hx, hb, execute_ok i s t hw]

theorem wellFormed_ldv {d a : RegNo} {imm : BitVec 18} (hd : d.toNat ≤ 7) :
    Instr.wellFormed (.ldv d a imm) = true := by
  have h : decide (d ≤ 7) = true := decide_eq_true hd
  rw [Instr.wellFormed, Instr.fieldError, FieldError.unless, if_pos h]
  rfl

theorem wellFormed_stv {d a : RegNo} {imm : BitVec 18} (hd : d.toNat ≤ 7) :
    Instr.wellFormed (.stv d a imm) = true :=
  wellFormed_ldv (a := a) (imm := imm) hd

/-! ### Immediates -/

theorem sext22_eq_ofInt (imm : BitVec 22) : sext22 imm = BitVec.ofInt 64 imm.toInt := rfl

/-- Adding a sign-extended offset adds the integer it stands for, modulo `2^64` (40_data_movement.md R146). -/
theorem add_sext18_eq_ofInt (x : Word64) (imm : BitVec 18) :
    x + sext18 imm = BitVec.ofInt 64 (x.toNat + imm.toInt) := by
  rw [BitVec.ofInt_add, BitVec.ofInt_natCast, BitVec.ofNat_toNat, BitVec.setWidth_eq]
  rfl

/-! ### Register moves -/

theorem exec_xli (d : RegNo) (imm : BitVec 22) (s : State) :
    exec (.xli d imm) s = .next (s.writeX d (sext22 imm)).advance :=
  exec_of_body rfl rfl rfl

theorem exec_xaddi {a : RegNo} {s : State} {x : Word64} (d : RegNo) (imm : BitVec 18) (hx : readX s a = .ok x) :
    exec (.xaddi d a imm) s = .next (s.writeX d (x + sext18 imm)).advance :=
  exec_of_body rfl rfl (by rw [hx, ok_bind, pure_eq_ok])

theorem exec_fmov {a : RegNo} {s : State} {x : FieldWord} (d : RegNo) (hx : readF s a = .ok x) :
    exec (.fmov d a) s = .next (s.writeF d x).advance :=
  exec_of_body rfl rfl (by rw [hx, ok_bind, pure_eq_ok])

theorem exec_fadd {a b : RegNo} {s : State} {x y : FieldWord} (d : RegNo) (hx : readF s a = .ok x)
    (hy : readF s b = .ok y) : exec (.fadd d a b) s = .next (s.writeF d (x + y)).advance :=
  exec_of_body rfl rfl (by rw [hx, ok_bind, hy, ok_bind, pure_eq_ok])

/-! ### Loads and stores -/

/-- A readable base, an aligned effective address and a range inside the memory pass the checks
(40_data_movement.md R140). -/
theorem accessAddr_of_checks {s : State} {a : RegNo} {imm : BitVec 18} {n : Nat} {base : Word64}
    (hb : readX s a = .ok base) (hal : (effectiveAddr base imm).toNat % 8 = 0)
    (hr : (effectiveAddr base imm).toNat + n ≤ s.dmemBytes) :
    accessAddr s a imm n = .ok (effectiveAddr base imm).toNat := by
  rw [accessAddr_eq s a imm n base hb, if_pos hal, if_pos hr]

section
variable {s : State} {d a : RegNo} {imm : BitVec 18} {e : Nat}

theorem exec_ldx (he : accessAddr s a imm 8 = .ok e) :
    exec (.ldx d a imm) s = .next (s.writeX d (BitVec.ofNat 64 (memRead s.dmem e 8))).advance :=
  exec_of_body rfl rfl (by rw [he, ok_bind, pure_eq_ok])

theorem exec_ldf (he : accessAddr s a imm 32 = .ok e) :
    exec (.ldf d a imm) s = .next (s.writeF d (BitVec.ofNat 256 (memRead s.dmem e 32))).advance :=
  exec_of_body rfl rfl (by rw [he, ok_bind, pure_eq_ok])

theorem exec_ldv (hd : d.toNat ≤ 7) (he : accessAddr s a imm 80 = .ok e) :
    exec (.ldv d a imm) s = .next (s.writeV d (loadVReg s.dmem e)).advance :=
  exec_of_body rfl (wellFormed_ldv hd) (by rw [he, ok_bind, pure_eq_ok])

theorem exec_stx {v : Word64} (hv : readX s d = .ok v) (he : accessAddr s a imm 8 = .ok e) :
    exec (.stx d a imm) s = .next (s.store e (leBytes 8 v.toNat)).advance :=
  exec_of_body rfl rfl (by rw [hv, ok_bind, he, ok_bind, pure_eq_ok])

theorem exec_stf {v : FieldWord} (hv : readF s d = .ok v) (he : accessAddr s a imm 32 = .ok e) :
    exec (.stf d a imm) s = .next (s.store e (leBytes 32 v.toNat)).advance :=
  exec_of_body rfl rfl (by rw [hv, ok_bind, he, ok_bind, pure_eq_ok])

theorem exec_stv {v : VReg} (hd : d.toNat ≤ 7) (hv : readV s d = .ok v)
    (he : accessAddr s a imm 80 = .ok e) : exec (.stv d a imm) s = .next (s.store e v.bytes).advance :=
  exec_of_body rfl (wellFormed_stv hd) (by rw [hv, ok_bind, he, ok_bind, pure_eq_ok])

/-- A store changes neither the base register nor the size of the memory: the address stays good. -/
theorem accessAddr_store (n b : Nat) (bs : List Byte) :
    accessAddr (s.store b bs).advance a imm n = accessAddr s a imm n := rfl

end

/-! ### A word in memory -/

/-- A register as wide as the bytes read holds every one of them (20_memory.md R72). -/
theorem byteOf_ofNat_memRead {w n k : Nat} (m : Memory) (e : Nat) (hw : w = 8 * n) (hk : k < n) :
    byteOf (BitVec.ofNat w (memRead m e n)).toNat k = (readByte m (e + k)).toNat := by
  have hlt : memRead m e n < 2 ^ w := by
    rw [hw, Nat.pow_mul]
    exact memRead_lt m e n
  rw [BitVec.toNat_ofNat, Nat.mod_eq_of_lt hlt, byteOf_memRead m e n k hk]

/-- A stored number's bytes (20_memory.md R72). -/
theorem readByte_writeBytes_leBytes {n k : Nat} (m : Memory) (e v : Nat) (hk : k < n) :
    (readByte (writeBytes m e (leBytes n v)) (e + k)).toNat = byteOf v k := by
  rw [readByte_writeBytes_inside m e _ k (by rwa [length_leBytes]), getD_leBytes n v k hk]

/-- Where the bytes at an address are those of a register's value, a read of them gives the value. -/
theorem ofNat_memRead_of_bytes {w n : Nat} {m : Memory} {e : Nat} (v : BitVec w) (hw : w = 8 * n)
    (h : ∀ k, k < n → (readByte m (e + k)).toNat = byteOf v.toNat k) : BitVec.ofNat w (memRead m e n) = v := by
  have hbytes : readBytes m e n = leBytes n v.toNat := by
    apply List.ext_getElem (by simp)
    intro k h1 h2
    have hk : k < n := by simpa using h1
    rw [← List.getD_eq_getElem _ 0 h1, ← List.getD_eq_getElem _ 0 h2]
    apply BitVec.eq_of_toNat_eq
    rw [getD_readBytes m e n k hk, h k hk, getD_leBytes n v.toNat k hk]
  have hlt : v.toNat < 256 ^ n :=
    calc v.toNat < 2 ^ w := v.isLt
      _ = 256 ^ n := by rw [hw, Nat.pow_mul]
  rw [memRead, hbytes, leNat_leBytes, Nat.mod_eq_of_lt hlt, BitVec.ofNat_toNat, BitVec.setWidth_eq]

theorem ofNat_memRead_writeBytes {w n : Nat} (m : Memory) (e : Nat) (v : BitVec w) (hw : w = 8 * n) :
    BitVec.ofNat w (memRead (writeBytes m e (leBytes n v.toNat)) e n) = v :=
  ofNat_memRead_of_bytes v hw fun _ hk => readByte_writeBytes_leBytes m e v.toNat hk

/-! ### A SIMD register in memory -/

/-- Byte `k` of word `i` in a string of 64-bit words. -/
theorem getD_flatMap_leBytes {k : Nat} (hk : k < 8) (ws : List Word64) : ∀ (i : Nat) (hi : i < ws.length),
    ((ws.flatMap fun w => leBytes 8 w.toNat).getD (8 * i + k) 0).toNat = byteOf ws[i].toNat k := by
  induction ws with
  | nil => exact fun _ hi => absurd hi (Nat.not_lt_zero _)
  | cons w ws ih =>
    intro i hi
    rw [List.flatMap_cons]
    cases i with
    | zero =>
      rw [Nat.mul_zero, Nat.zero_add, List.getD_append _ _ _ _ (by rwa [length_leBytes]), getD_leBytes 8 _ k hk]
      rfl
    | succ i =>
      rw [List.getD_append_right _ _ _ _ (by rw [length_leBytes]; omega), length_leBytes,
        show 8 * (i + 1) + k - 8 = 8 * i + k by omega, ih i (Nat.lt_of_succ_lt_succ hi)]
      rfl

/-- The words of a SIMD register lie lane by lane, limb by limb (20_memory.md R74). -/
theorem getElem_limbs_lane (v : VReg) (l : Fin 2) (j : Fin 5) (h : 5 * l.val + j.val < v.limbs.length) :
    v.limbs[5 * l.val + j.val] = v.lane[l][j] := by
  have hl : (5 * l.val + j.val) / 5 = l.val := by omega
  have hj : (5 * l.val + j.val) % 5 = j.val := by omega
  simpa [hl, hj] using getElem_limbs v ⟨5 * l.val + j.val, by omega⟩

/-- A stored SIMD register's bytes (40_data_movement.md R154). -/
theorem readByte_writeBytes_bytes {k : Nat} (m : Memory) (e : Nat) (v : VReg) (l : Fin 2) (j : Fin 5) (hk : k < 8) :
    (readByte (writeBytes m e v.bytes) (e + 40 * l.val + 8 * j.val + k)).toNat = byteOf v.lane[l][j].toNat k := by
  have hi : 5 * l.val + j.val < v.limbs.length := by rw [length_limbs]; omega
  rw [show e + 40 * l.val + 8 * j.val + k = e + (8 * (5 * l.val + j.val) + k) by omega,
    readByte_writeBytes_inside m e _ _ (by rw [length_bytes]; omega), VReg.bytes, getD_flatMap_leBytes hk _ _ hi,
    getElem_limbs_lane v l j hi]

theorem loadVReg_lane (m : Memory) (e : Nat) (l : Fin 2) (j : Fin 5) :
    (loadVReg m e).lane[l][j] = BitVec.ofNat 64 (memRead m (e + 40 * l.val + 8 * j.val) 8) := by
  simp [loadVReg]

/-- A loaded SIMD register's bytes (40_data_movement.md R153). -/
theorem byteOf_loadVReg {k : Nat} (m : Memory) (e : Nat) (l : Fin 2) (j : Fin 5) (hk : k < 8) :
    byteOf (loadVReg m e).lane[l][j].toNat k = (readByte m (e + 40 * l.val + 8 * j.val + k)).toNat := by
  rw [loadVReg_lane, byteOf_ofNat_memRead m _ rfl hk]

theorem VReg.ext_limbs {v v' : VReg} (h : ∀ (l : Fin 2) (j : Fin 5), v.lane[l][j] = v'.lane[l][j]) : v = v' := by
  have hlane : v.lane = v'.lane :=
    Vector.ext fun l hl => Vector.ext fun j hj => h ⟨l, hl⟩ ⟨j, hj⟩
  cases v
  cases v'
  exact congrArg VReg.mk hlane

theorem loadVReg_writeBytes (m : Memory) (e : Nat) (v : VReg) : loadVReg (writeBytes m e v.bytes) e = v :=
  VReg.ext_limbs fun l j => by
    rw [loadVReg_lane]
    exact ofNat_memRead_of_bytes _ rfl fun _ hk => readByte_writeBytes_bytes m e v l j hk

end Sys2Proof.Machine

/-- Settles O25: the immediate's sign extension is the integer it stands for modulo `2^64` (`add_sext18_eq_ofInt`), and
a write to `X0` is discarded (`readX_writeX`, `frame_writeX`). -/
theorem addressRegisterResults : Obligations.AddressRegisterResults := by
  open Sys2Proof.Machine in
  constructor
  · intro d imm s
    exact ⟨_, exec_xli d imm s, readX_writeX s d (sext22 imm), frame_writeX s d (sext22 imm)⟩
  · intro d a imm s x hx
    refine ⟨_, exec_xaddi d imm hx, ?_, frame_writeX s d (x + sext18 imm)⟩
    rw [readX_advance, readX_writeX, add_sext18_eq_ofInt]

/-- Settles O27: the register written holds the bytes read (`byteOf_ofNat_memRead`, `byteOf_loadVReg`). -/
theorem loadResults : Obligations.LoadResults := by
  open Sys2Proof.Machine in
  refine ⟨?ldx, ?ldf, ?ldv⟩
  case ldx =>
    intro d a imm s base hb hal hr
    exact ⟨_, _, exec_ldx (accessAddr_of_checks hb hal hr), readX_writeX s d _,
      fun _ hk => byteOf_ofNat_memRead s.dmem _ rfl hk, frame_writeX s d _⟩
  case ldf =>
    intro d a imm s base hb hal hr
    exact ⟨_, _, exec_ldf (accessAddr_of_checks hb hal hr), readF_writeF s d _,
      fun _ hk => byteOf_ofNat_memRead s.dmem _ rfl hk, frame_writeF s d _⟩
  case ldv =>
    intro d a imm s base hd hb hal hr
    exact ⟨_, _, exec_ldv hd (accessAddr_of_checks hb hal hr), readV_writeV s d _,
      fun l j _ hk => byteOf_loadVReg s.dmem _ l j hk, frame_writeV s d _⟩

/-- Settles O28: a byte read inside the string written is the register's (`readByte_writeBytes_leBytes`,
`readByte_writeBytes_bytes`), and the frame of a store is its byte range. -/
theorem storeResults : Obligations.StoreResults := by
  open Sys2Proof.Machine in
  refine ⟨?stx, ?stf, ?stv⟩
  case stx =>
    intro d a imm s v base hv hb hal hr
    exact ⟨_, exec_stx hv (accessAddr_of_checks hb hal hr), fun _ hk => readByte_writeBytes_leBytes s.dmem _ _ hk,
      frame_store s _ _ 8 (length_leBytes 8 _)⟩
  case stf =>
    intro d a imm s v base hv hb hal hr
    exact ⟨_, exec_stf hv (accessAddr_of_checks hb hal hr), fun _ hk => readByte_writeBytes_leBytes s.dmem _ _ hk,
      frame_store s _ _ 32 (length_leBytes 32 _)⟩
  case stv =>
    intro d a imm s v base hd hv hb hal hr
    exact ⟨_, exec_stv hd hv (accessAddr_of_checks hb hal hr),
      fun l j _ hk => readByte_writeBytes_bytes s.dmem _ v l j hk, frame_store s _ _ 80 (length_bytes v)⟩

/-- Settles O29: the load's address passes the checks the store's passed (`accessAddr_store`), and what it reads is
the value written (`ofNat_memRead_writeBytes`, `loadVReg_writeBytes`). -/
theorem storeThenLoad : Obligations.StoreThenLoad := by
  open Sys2Proof.Machine in
  refine ⟨?field, ?address, ?simd⟩
  case field =>
    intro d d' a imm s v base hv hb hal hr
    have he := accessAddr_of_checks hb hal hr
    refine ⟨_, _, exec_stf hv he, exec_ldf he, ?_, (frame_store s _ _ 32 (length_leBytes 32 _)).data.mem⟩
    rw [readF_advance, readF_writeF, State.advance_dmem, State.store_dmem, ofNat_memRead_writeBytes _ _ v rfl]
  case address =>
    intro d d' a imm s v base hv hb hal hr
    have he := accessAddr_of_checks hb hal hr
    refine ⟨_, _, exec_stx hv he, exec_ldx he, ?_, (frame_store s _ _ 8 (length_leBytes 8 _)).data.mem⟩
    rw [readX_advance, readX_writeX, State.advance_dmem, State.store_dmem, ofNat_memRead_writeBytes _ _ v rfl]
  case simd =>
    intro d d' a imm s v base hd hd' hv hb hal hr
    have he := accessAddr_of_checks hb hal hr
    refine ⟨_, _, exec_stv hd hv he, exec_ldv hd' he, ?_, (frame_store s _ _ 80 (length_bytes v)).data.mem⟩
    rw [readV_advance, readV_writeV, State.advance_dmem, State.store_dmem, loadVReg_writeBytes]

/-- Settles O30: the addition of 256-bit words is the addition modulo `2^256`, with no reduction after it. -/
theorem fieldMoveAndAdd : Obligations.FieldMoveAndAdd := by
  open Sys2Proof.Machine in
  constructor
  · intro d a s x hx
    exact ⟨_, exec_fmov d hx, readF_writeF s d x, frame_writeF s d x⟩
  · intro d a b s x y hx hy
    exact ⟨_, x + y, exec_fadd d hx hy, readF_writeF s d (x + y), BitVec.toNat_add x y, frame_writeF s d (x + y)⟩

/-! PROOFS. Control and the rounding mode (41_rounding_and_control.md). A step of a busy engine is its fetch, decode and
`exec`; RMACQ and RMREL alone change RMODE while the engine runs, as every stop leaves it idle, so that a balanced
sequence gives back the mode it found. -/

namespace Sys2Proof.Machine

/-! ### The step of a busy engine -/

/-- The decoder on the four bytes at pc is the decoder on the word fetched (30_encoding.md R100). -/
theorem decode_fetch (s : State) :
    decode (readBytes s.imem s.pcAddr 4) = (decodeWord s.fetchWord).map fun i => (i, []) := by
  have hlt : memRead s.imem s.pcAddr 4 < 2 ^ 32 := memRead_lt s.imem s.pcAddr 4
  have hbytes : readBytes s.imem s.pcAddr 4 = leBytes 4 s.fetchWord.toNat := by
    rw [State.fetchWord, BitVec.toNat_ofNat, Nat.mod_eq_of_lt hlt, memRead]
    exact (leBytes_leNat (readBytes s.imem s.pcAddr 4)).symm
  rw [hbytes, ← decode_leBytes, List.append_nil]

theorem decodeWord_of_decode_fetch {s : State} {i : Instr} (h : decode (readBytes s.imem s.pcAddr 4) = .ok (i, [])) :
    decodeWord s.fetchWord = .ok i := by
  rw [decode_fetch] at h
  cases hw : decodeWord s.fetchWord with
  | error e => rw [hw] at h; cases h
  | ok j => rw [hw] at h; cases h; rfl

theorem runInstruction_decoded {s : State} {i : Instr} (hf : ¬s.fetchPastEnd) (hd : decodeWord s.fetchWord = .ok i) :
    runInstruction s = exec i s := by
  rw [runInstruction, if_neg hf, hd]

theorem runInstruction_fetchPastEnd {s : State} (hf : s.fetchPastEnd) :
    runInstruction s = .next (s.takeFault 0 ⟨.fetchRange, BitVec.ofNat 64 s.pcAddr⟩) := by
  rw [runInstruction, if_pos hf]

theorem State.turned_of_host_nil {s : State} (h : s.host = []) : s.turned = s := by
  rw [State.turned, h, List.tail_nil, ← h]
  rfl

/-! ### The guard instructions -/

/-- RMACQ names a mode of two bits (30_encoding.md R106 case 3). -/
theorem wellFormed_rmacq {mode : BitVec 10} (h : mode.toNat ≤ 3) : Instr.wellFormed (.rmacq mode) = true := by
  have hd : decide (mode ≤ 3) = true := decide_eq_true h
  rw [Instr.wellFormed, Instr.fieldError, FieldError.unless, if_pos hd]
  rfl

/-- The state with RMODE and the guard stack replaced. -/
def State.withMode (s : State) (mode : BitVec 2) (gs : List (BitVec 2)) : State := { s with gs := gs, rmode := mode }

@[simp] theorem State.withMode_rmode (s : State) (m : BitVec 2) (ms : List (BitVec 2)) :
    (s.withMode m ms).rmode = m := rfl
@[simp] theorem State.withMode_gs (s : State) (m : BitVec 2) (ms : List (BitVec 2)) : (s.withMode m ms).gs = ms := rfl

/-- A guard instruction changes RMODE, the guard stack and pc alone (41_rounding_and_control.md R176, R177). -/
theorem withMode_advance_rest (s : State) (m : BitVec 2) (ms : List (BitVec 2)) :
    HostSideSame s (s.withMode m ms).advance ∧ DataSame s (s.withMode m ms).advance [] [] [] noByte ∧
      Advanced s (s.withMode m ms).advance ∧ (s.withMode m ms).advance.twb = s.twb ∧
      (s.withMode m ms).advance.freeIx = s.freeIx := by
  refine ⟨?host, ?data, advanced_of rfl rfl, rfl, rfl⟩
  case host => constructor <;> rfl
  case data => constructor <;> intros <;> rfl

theorem exec_rmacq {mode : BitVec 10} {s : State} (hm : mode.toNat ≤ 3) (hd : s.gs.length ≠ s.caps.guardDepth) :
    exec (.rmacq mode) s = .next (s.withMode (mode.setWidth 2) (s.rmode :: s.gs)).advance :=
  exec_of_body rfl (wellFormed_rmacq hm) (by rw [require_of hd, ok_bind, pure_eq_ok]; rfl)

theorem exec_rmacq_full {mode : BitVec 10} {s : State} (hm : mode.toNat ≤ 3) (hd : s.gs.length = s.caps.guardDepth) :
    Faults (.rmacq mode) s .guardOverflow (BitVec.ofNat 64 s.caps.guardDepth) :=
  faults_of _ _ _ _ _ rfl (wellFormed_rmacq hm) (by rw [require_of_not (not_not.2 hd), error_bind, hd])

theorem exec_rmrel {s : State} {m : BitVec 2} {ms : List (BitVec 2)} (h : s.gs = m :: ms) :
    exec .rmrel s = .next (s.withMode m ms).advance :=
  exec_of_body rfl rfl (by rw [h]; rfl)

theorem exec_rmrel_empty {s : State} (h : s.gs = []) : Faults .rmrel s .guardUnderflow 0 :=
  faults_of _ _ _ _ _ rfl rfl (by rw [h])

/-! ### RMODE under an instruction that leaves the engine running -/

/-- A body behind an instruction that leaves the engine running has completed: a fault stops the engine. -/
theorem execute_running {i : Instr} {s t : State} {body : Except Raise State} (h : execute i s body = .next t)
    (hb : t.busy = true) : ∃ u, body = .ok u ∧ t = u.advance := by
  rcases execute_cases i s t body h with ⟨_, hu⟩ | ⟨e, rfl⟩
  · exact hu
  · exact nomatch hb

theorem exec_rmacq_running {mode : BitVec 10} {s t : State} (h : exec (.rmacq mode) s = .next t)
    (hb : t.busy = true) : t = (s.withMode (mode.setWidth 2) (s.rmode :: s.gs)).advance := by
  obtain ⟨u, hu, rfl⟩ := execute_running h hb
  by_cases hd : s.gs.length = s.caps.guardDepth
  · rw [require_of_not (not_not.2 hd), error_bind] at hu
    cases hu
  · rw [require_of hd, ok_bind, pure_eq_ok] at hu
    rw [← Except.ok.inj hu]
    rfl

/-- Every stop leaves the engine idle, and an effect keeps RMODE and the guard stack but in RMACQ and RMREL
(41_rounding_and_control.md R181). -/
theorem exec_mode_running {i : Instr} {s t : State} (h : exec i s = .next t) (hb : t.busy = true) :
    ((∃ m, i = .rmacq m) ∨ i = .rmrel) ∨ t.rmode = s.rmode ∧ t.gs = s.gs := by
  cases exec_answers i s t h with
  | done u _ he ht => rw [ht, State.advance_rmode, State.advance_gs]; exact he.mode
  | halted _ ht => rw [ht] at hb; exact nomatch hb
  | fault e ht => rw [ht] at hb; exact nomatch hb
  | spoiled d a b c info _ _ ht => rw [ht] at hb; exact nomatch hb

/-! ### RMODE under the host -/

@[simp] theorem State.withIrqEn_rmode (s : State) (bit : Bool) : (s.withIrqEn bit).rmode = s.rmode := rfl

@[simp] theorem State.startIf_rmode (s : State) (bit : Bool) : (s.startIf bit).rmode = s.rmode := by
  unfold State.startIf
  split <;> rfl

/-- Of the writes to the register block only SOFT_RESET changes RMODE on a busy engine (10_state.md R43, R48). -/
theorem hostRegWrite_rmode_changed {off width : Nat} {v : Word64} {s : State} (hb : s.busy = true)
    (h : (hostRegWrite off width v s).rmode ≠ s.rmode) : off = 0x08 ∧ width = 8 ∧ v.getLsbD 2 = true := by
  unfold hostRegWrite at h
  split at h
  case isFalse => exact (h rfl).elim
  case isTrue hw =>
    split at h
    · refine ⟨rfl, hw.1, by_contra fun hv => h ?_⟩
      rw [writeCtrl, Bool.eq_false_of_not_eq_true hv, State.softResetIf_false, State.startIf_rmode,
        State.withIrqEn_rmode]
    · exact (h rfl).elim
    · exact (h (by rw [writeEntry_busy hb])).elim
    · exact (h (by rw [writeRmode_busy hb])).elim
    · exact (h rfl).elim

theorem hostAccess_rmode_changed {act : HostAction} {s : State} (hb : s.busy = true)
    (h : (hostAccess act s).rmode ≠ s.rmode) : ∃ v, act = .regWrite 0x08 8 v ∧ v.getLsbD 2 = true := by
  cases act with
  | run => exact (h rfl).elim
  | regRead off width => exact (h (by rw [hostAccess, hostRegRead_frame])).elim
  | regWrite off width v =>
    obtain ⟨rfl, rfl, hv⟩ := hostRegWrite_rmode_changed hb h
    exact ⟨v, rfl, hv⟩
  | memRead sp a n => exact (h (by rw [hostAccess, hostMemRead_frame])).elim
  | memWrite sp a bytes => exact (h (by rw [hostAccess, hostMemWrite_frame])).elim

/-! ### Balanced sequences -/

theorem runAll_cons {i : Instr} {is : List Instr} {s t : State} (h : runAll (i :: is) s = some t) :
    ∃ u, exec i s = .next u ∧ u.busy = true ∧ runAll is u = some t := by
  rw [runAll] at h
  split at h
  · rename_i u hu
    split at h
    · exact ⟨u, hu, ‹_›, h⟩
    · cases h
  · cases h
  · cases h

theorem runAll_append {is js : List Instr} : ∀ {s t : State}, runAll (is ++ js) s = some t →
    ∃ u, runAll is s = some u ∧ runAll js u = some t := by
  induction is with
  | nil => exact fun h => ⟨_, rfl, h⟩
  | cons i is ih =>
    intro s t h
    obtain ⟨u, hx, hb, hrest⟩ := runAll_cons h
    obtain ⟨v, hi, hj⟩ := ih hrest
    exact ⟨v, by rw [runAll, hx]; simpa [hb] using hi, hj⟩

/-- The release that ends a guarded sequence takes back the mode its acquisition saved. -/
theorem balanced_keeps_mode {is : List Instr} (h : Balanced is) : ∀ {s t : State}, runAll is s = some t →
    t.rmode = s.rmode ∧ t.gs = s.gs := by
  induction h with
  | nil =>
    intro s t h
    cases h
    exact ⟨rfl, rfl⟩
  | other i is hacq hrel _ ih =>
    intro s t h
    obtain ⟨u, hx, hb, hrest⟩ := runAll_cons h
    obtain ⟨hmode, hgs⟩ := ih hrest
    rcases exec_mode_running hx hb with (⟨m, hm⟩ | hr) | ⟨hmode', hgs'⟩
    · exact (hacq m hm).elim
    · exact (hrel hr).elim
    · exact ⟨hmode.trans hmode', hgs.trans hgs'⟩
  | guarded m is js _ _ ihis ihjs =>
    intro s t h
    obtain ⟨u, hacq, hb, hrest⟩ := runAll_cons h
    obtain ⟨v, his, hrest⟩ := runAll_append hrest
    obtain ⟨w, hrel, -, hjs⟩ := runAll_cons hrest
    have hgs : v.gs = s.rmode :: s.gs := by rw [(ihis his).2, exec_rmacq_running hacq hb]; rfl
    rw [exec_rmrel hgs] at hrel
    injection hrel with hrel
    subst hrel
    obtain ⟨hmode, hgs'⟩ := ihjs hjs
    exact ⟨hmode, hgs'⟩

end Sys2Proof.Machine

/-- Settles O13: an instruction that leaves the engine running has completed (`exec_mode_running`), and a busy engine
takes from the host no write but one of CTRL that could change RMODE (`hostAccess_rmode_changed`). -/
theorem rmodeChangedOnlyByGuard : Obligations.RmodeChangedOnlyByGuard := by
  open Sys2Proof.Machine in
  refine ⟨fun i s t h hb hne => ?_, fun _ _ hb h => hostAccess_rmode_changed hb h⟩
  exact (exec_mode_running h hb).resolve_right fun hsame => hne hsame.1

/-- Settles O22: RMACQ's one check compares the depth of the guard stack with GUARD_DEPTH. -/
theorem rmacqPushesMode : Obligations.RmacqPushesMode := by
  open Sys2Proof.Machine in
  intro mode s hm
  refine ⟨fun hd => ⟨_, exec_rmacq hm hd, ?_, rfl, withMode_advance_rest s _ _⟩, exec_rmacq_full hm⟩
  rw [State.advance_rmode, State.withMode_rmode, BitVec.toNat_setWidth]
  omega

/-- Settles O23: RMREL pops the guard stack or finds it empty. -/
theorem rmrelPopsMode : Obligations.RmrelPopsMode := by
  open Sys2Proof.Machine in
  exact ⟨fun s m ms h => ⟨_, exec_rmrel h, rfl, rfl, withMode_advance_rest s m ms⟩, fun _ => exec_rmrel_empty⟩

/-- Settles O24, by induction on the balanced sequence (`balanced_keeps_mode`). -/
theorem balancedGuardRestoresMode : Obligations.BalancedGuardRestoresMode := by
  open Sys2Proof.Machine in
  refine ⟨fun is s t hbal h => balanced_keeps_mode hbal h, fun m is s t hbal h => ?_⟩
  obtain ⟨u, hacq, hb, hrest⟩ := runAll_cons h
  rw [(balanced_keeps_mode hbal hrest).1, exec_rmacq_running hacq hb]
  rfl

/-- Settles O6: the four bytes at pc decode as the word fetched does (`decode_fetch`). -/
theorem stepRunsDecodedInstruction : Obligations.StepRunsDecodedInstruction := by
  open Sys2Proof.Machine in
  intro s i hb hf hd
  have hrun : runInstruction s.turned = exec i s.turned :=
    runInstruction_decoded (Nat.not_lt.2 hf) (decodeWord_of_decode_fetch (s := s) hd)
  refine ⟨fun hh => ?_, fun acts hh => ?_⟩
  · rw [step_busy (.inl hh) hb, hrun, State.turned_of_host_nil hh]
  · rw [step_busy (.inr ⟨acts, hh⟩) hb, hrun, State.turned, hh, List.tail_cons]

/-- Settles O7: the engine looks at the address before it fetches, and takes the fault on the state it found. -/
theorem fetchPastEndFaults : Obligations.FetchPastEndFaults := by
  open Sys2Proof.Machine in
  intro s ht hb hf
  exact ⟨_, (step_busy ht hb).trans (runInstruction_fetchPastEnd (s := s.turned) hf), takeFault_entry ..⟩

/-- Settles O20: NOP's body is the state as it stands, and advancing changes pc alone (`frame_advance`). -/
theorem nopAdvances : Obligations.NopAdvances := by
  open Sys2Proof.Machine in
  exact fun s => ⟨_, exec_of_body (i := .nop) rfl rfl rfl, frame_advance s⟩

/-- Settles O21: HALT's entry (`halt_entry`), after which the line is IRQ_EN as DONE is set. -/
theorem haltStops : Obligations.HaltStops := by
  open Sys2Proof.Machine in
  intro s
  refine ⟨s.halt, rfl, halt_entry s, ?_⟩
  rw [State.irq, State.halt_irqEn, State.halt_doneBit, Bool.true_or, Bool.and_true]

/-! PROOFS. Completion (41_rounding_and_control.md R171, 60_exceptions.md R400, R420). The body of every instruction
makes the checks that the spec lists for it, in their order, and where they all hold it answers a state from which the
engine goes on. First the compression's rounds, which CMPR and CMPRM check. -/

namespace Sys2Proof.Machine

/-! ### Checks in sequence -/

/-- A value that nothing checks any more, computed from a checked one. -/
theorem Decides.map {α β : Type} {x : Except Raise α} {cs : List Check} {P : α → Prop} {Q : β → Prop}
    {g : α → β} (hx : Decides x cs P) (hg : ∀ a, P a → Q (g a)) : Decides (x >>= fun a => pure (g a)) cs Q := by
  have h : Decides (x >>= fun a => pure (g a)) (cs ++ []) Q :=
    hx.bind fun a ha => Decides.ok (hg a ha)
  rwa [List.append_nil] at h

/-- A guard before a body, its condition and its FINFO as the spec writes them. -/
theorem Decides.guard_iff {β : Type} {ok P : Prop} [Decidable ok] {c : Cause} {info info' : Word64}
    {f : Unit → Except Raise β} {ds : List Check} {Q : β → Prop} (h : ok ↔ P) (hi : ¬P → info = info')
    (hf : P → Decides (f ()) ds Q) : Decides (Machine.require ok c info >>= f) (⟨P, c, info'⟩ :: ds) Q := by
  obtain rfl := propext h
  by_cases hok : ok
  · rw [require_of hok c info, ← require_of hok c info']
    exact Decides.guard hf
  · rw [hi hok]
    exact Decides.guard hf

/-! ### The rounds of the compression -/

theorem cios_lt {a b : Nat} (ha : a < 2 ^ 256) (h : a * b < p * 2 ^ 256) : cios a b < 2 * p := by
  obtain ⟨m, hm, e⟩ := cios_spec a b ha
  have hmp : m * p < 2 ^ 256 * p := Nat.mul_lt_mul_of_pos_right hm p_pos
  refine Nat.lt_of_mul_lt_mul_right (a := 2 ^ 256) ?_
  calc cios a b * 2 ^ 256 = a * b + m * p := e
    _ < p * 2 ^ 256 + 2 ^ 256 * p := Nat.add_lt_add h hmp
    _ = 2 * p * 2 ^ 256 := by ring

theorem montSq_lt {x : Nat} (h : x < 2 * p) : montSq x < 2 * p := by
  have hp := p_lt
  refine cios_lt (by omega) ?_
  calc x * x < 2 * p * (2 * p) := Nat.mul_lt_mul'' h h
    _ = p * (4 * p) := by ring
    _ < p * 2 ^ 256 := Nat.mul_lt_mul_of_pos_left hp p_pos

theorem bar_lt {x : Nat} (h : x < 2 * p) : bar x < 2 * p := by
  rw [bar_eq x h]
  exact (spec_reducePartial_le _ (sboxBytes_lt _)).1.trans_lt redpMax_lt

theorem skyF_lt (i : Nat) {l : Nat} (h : l < 2 * p) : skyF montSq i l < 2 * p := by
  unfold skyF
  split
  · exact bar_lt h
  · exact montSq_lt h

/-- A state pair of the compression whose rounds so far raised no ASSERTION. -/
def RoundBounded (x : Nat × Nat) : Prop := x.1 < 2 * p ∧ x.2 < 2 * p

theorem spec_skyRound_succ (rc : Nat → Nat) (l r i : Nat) :
    Spec.skyRound rc l r (i + 1) =
      (Spec.reducePartial ((Spec.skyRound rc l r i).2 + skyF montSq (i + 1) (Spec.skyRound rc l r i).1) + rc (i + 1),
        (Spec.skyRound rc l r i).1) := by
  simp [Spec.skyRound, skyF, montSq]

/-- A round on the state that the spec's rounds have reached. -/
theorem skyRound_spec {rc : Nat → Nat} {l r i : Nat} (hrc : ∀ i, rc i < p)
    (h : RoundBounded (Spec.skyRound rc l r i)) :
    skyRound montSq rc (i + 1) (Spec.skyRound rc l r i) =
      if (Spec.skyRound rc l r (i + 1)).1 < 2 * p then .ok (Spec.skyRound rc l r (i + 1)) else .error (i + 1) := by
  rw [skyRound_eq montSq rc (i + 1) _ _ (hrc _) (skyF_lt _ h.1) h.2, spec_skyRound_succ]
  split
  · rw [if_neg (by omega)]
  · rw [if_pos (by omega)]

/-- The ASSERTION of round `i` as the spec lists it (47_skyscraper.md R305, R310). -/
def roundCheck (rc : Nat → Nat) (l r i : Nat) : Check :=
  ⟨(Spec.skyRound rc l r i).1 < 2 * p, .assertion, BitVec.ofNat 64 i⟩

/-- The fault of the round whose ASSERTION fires. -/
def roundRaise (i : Nat) : Raise := ⟨.assertion, BitVec.ofNat 64 i⟩

/-- The rounds from `i + 1` on, each behind its ASSERTION. -/
theorem skyRounds_decides {rc : Nat → Nat} {l r : Nat} (hrc : ∀ i, rc i < p) (n : Nat) : ∀ i,
    RoundBounded (Spec.skyRound rc l r i) →
    Decides ((skyRounds montSq rc (List.range' (i + 1) n) (Spec.skyRound rc l r i)).mapError roundRaise)
      ((List.range' (i + 1) n).map (roundCheck rc l r))
      fun x => x = Spec.skyRound rc l r (i + n) ∧ RoundBounded x := by
  induction n with
  | zero => exact fun i h => Decides.ok ⟨rfl, h⟩
  | succ n ih =>
    intro i h
    have hround : (skyRounds montSq rc (List.range' (i + 1) (n + 1)) (Spec.skyRound rc l r i)).mapError roundRaise =
        if (Spec.skyRound rc l r (i + 1)).1 < 2 * p then
          (skyRounds montSq rc (List.range' (i + 1 + 1) n) (Spec.skyRound rc l r (i + 1))).mapError roundRaise
        else .error (roundRaise (i + 1)) := by
      rw [List.range'_succ, skyRounds, skyRound_spec hrc h]
      split
      · rw [ok_bind]
      · rw [error_bind, Except.mapError]
    rw [hround, List.range'_succ, List.map_cons, show i + (n + 1) = i + 1 + n by omega]
    refine Decides.ite fun hlt => ih (i + 1) ⟨hlt, ?_⟩
    rw [spec_skyRound_succ]
    exact h.1

theorem roundBounded_zero (rc : Nat → Nat) {l r : Nat} (hl : l < p) (hr : r < p) :
    RoundBounded (Spec.skyRound rc l r 0) := by
  have hp := p_lt
  have hsq : cios l l < 2 * p := montSq_lt (x := l) (by omega)
  exact ⟨(spec_reducePartial_le _ (by omega)).1.trans_lt redpMax_lt, show l < 2 * p by omega⟩

theorem raiseAssertion_bind {α : Type} (x : Except Nat α) (g : α → Nat) :
    raiseAssertion (x >>= fun a => pure (g a)) = x.mapError roundRaise >>= fun a => pure (g a) := by
  cases x with
  | ok a => rw [Except.mapError, ok_bind, ok_bind, pure_eq_ok, pure_eq_ok, raiseAssertion_ok]
  | error i => rw [Except.mapError, error_bind, error_bind, raiseAssertion_error, roundRaise]

/-- The compression of canonical operands: the sixteen ASSERTIONs in their order, and then the hash. -/
theorem compress_decides {rc : Nat → Nat} {l r : Nat} (hrc : ∀ i, rc i < p) (hl : l < p) (hr : r < p) :
    Decides (raiseAssertion (compress rc l r)) ((List.range' 1 16).map (roundCheck rc l r))
      fun h => h = Spec.hash rc l r := by
  have hp : 5 * p < 2 ^ 256 := by decide
  have hsq : montSq l < 2 * p := montSq_lt (by omega)
  have h0 : (reducePartial (r + montSq l), l) = Spec.skyRound rc l r 0 := by
    rw [reducePartial_eq _ (by omega)]
    rfl
  rw [compress, compressWith, raiseAssertion_bind, h0]
  refine (skyRounds_decides hrc 16 0 (roundBounded_zero rc hl hr)).map fun x hx => ?_
  obtain ⟨hx, h1, h2⟩ := hx
  have hsq' := montSq_lt h1
  rw [reduce_eq _ (by omega), hx]
  rfl

theorem compress_ok {rc : Nat → Nat} {l r : Nat} (hrc : ∀ i, rc i < p) (hl : l < p) (hr : r < p)
    (h : Spec.noAssertion rc l r) : compress rc l r = .ok (Spec.hash rc l r) := by
  have hc : checksHold ((List.range' 1 16).map (roundCheck rc l r)) := by
    intro k hk
    obtain ⟨i, hi, rfl⟩ := List.mem_map.1 hk
    rw [List.mem_range'_1] at hi
    exact h i hi.1 (by omega)
  obtain ⟨y, hy, rfl⟩ := (compress_decides hrc hl hr).1 hc
  cases hx : compress rc l r with
  | ok z => rw [hx, raiseAssertion_ok] at hy; rw [Except.ok.inj hy]
  | error i => rw [hx, raiseAssertion_error] at hy; cases hy

/-! ### Reads of written registers -/

/-- Every register of a read order has been written. -/
def Written (s : State) (rs : List Source) : Prop := ∀ r ∈ rs, r.unwritten s = false

section
variable {α β : Type} {s : State} {rs : List Source} {cs : List Check} {Q : β → Prop}

theorem Written.head {r : Source} (h : Written s (r :: rs)) : r.unwritten s = false := h r List.mem_cons_self

theorem Written.tail {r : Source} (h : Written s (r :: rs)) : Written s rs :=
  fun r' hr => h r' (List.mem_cons_of_mem r hr)

/-- A read of a written register makes no check. -/
theorem decides_read {src : Source} {x : Except Raise α} {v : α} {f : α → Except Raise β}
    (hok : src.unwritten s = false → x = .ok v) (hs : Written s (src :: rs))
    (hf : Written s rs → Decides (f v) cs Q) : Decides (x >>= f) cs Q := by
  rw [hok hs.head, ok_bind]
  exact hf hs.tail

theorem decides_readX {r : RegNo} {f : Word64 → Except Raise β} (hs : Written s (.x r :: rs))
    (hf : Written s rs → Decides (f (xValue s r)) cs Q) : Decides (readX s r >>= f) cs Q :=
  decides_read (readX_written s r) hs hf

theorem decides_readF {r : RegNo} {f : FieldWord → Except Raise β} (hs : Written s (.f r :: rs))
    (hf : Written s rs → Decides (f (s.f[r.toNat]'r.isLt)) cs Q) : Decides (readF s r >>= f) cs Q :=
  decides_read (readF_written s r) hs hf

theorem decides_readV {r : RegNo} {f : VReg → Except Raise β} (hs : Written s (.v r :: rs))
    (hf : Written s rs → Decides (f s.v[vIndex r]) cs Q) : Decides (readV s r >>= f) cs Q :=
  decides_read (readV_written s r) hs hf

theorem mem_groupSources {n : Nat} : ∀ {r : RegNo} {k : Nat}, k < n →
    .f (r + BitVec.ofNat 4 k) ∈ groupSources r n := by
  induction n with
  | zero => exact fun h => (Nat.not_lt_zero _ h).elim
  | succ n ih =>
    intro r k hk
    cases k with
    | zero => rw [BitVec.add_zero]; exact List.mem_cons_self
    | succ k =>
      have e : r + BitVec.ofNat 4 (k + 1) = r + 1 + BitVec.ofNat 4 k := by
        rw [Nat.add_comm k 1, BitVec.ofNat_add, BitVec.add_assoc]
        rfl
      rw [e]
      exact List.mem_cons_of_mem _ (ih (Nat.lt_of_succ_lt_succ hk))

theorem decides_readGroup {n : Nat} {r : RegNo} {f : List FieldWord → Except Raise β}
    (hs : Written s (groupSources r n ++ rs))
    (hf : Written s rs → Decides (f ((List.range n).map fun k =>
      s.f[(r + BitVec.ofNat 4 k).toNat]'(r + BitVec.ofNat 4 k).isLt)) cs Q) :
    Decides (readGroup s r n >>= f) cs Q := by
  rw [readGroup_written s n r fun k hk => hs _ (List.mem_append_left _ (mem_groupSources hk)), ok_bind]
  exact hf fun r' hr => hs r' (List.mem_append_right _ hr)

end

/-! ### The checks of every instruction -/

/-- The engine goes on from the effect `u`: to the next word, with the host's side as it was. -/
def GoesOn (s u : State) : Prop := Advanced s u.advance ∧ HostSideSame s u.advance

theorem goesOn_of_frame {s u : State} {fs xs : List RegNo} {vs : List (Fin 8)} {stored : Nat → Prop}
    (h : Frame s u.advance fs xs vs stored) : GoesOn s u := ⟨h.pc, h.host⟩

theorem goesOn_writeX (s : State) (r : RegNo) (v : Word64) : GoesOn s (s.writeX r v) :=
  goesOn_of_frame (frame_writeX s r v)

theorem goesOn_writeF (s : State) (r : RegNo) (v : FieldWord) : GoesOn s (s.writeF r v) :=
  goesOn_of_frame (frame_writeF s r v)

theorem goesOn_writeV (s : State) (r : RegNo) (v : VReg) : GoesOn s (s.writeV r v) :=
  goesOn_of_frame (frame_writeV s r v)

theorem goesOn_writeGroup (s : State) (r : RegNo) (vs : List FieldWord) : GoesOn s (s.writeGroup r vs) :=
  goesOn_of_frame (frame_writeGroup s r vs)

theorem goesOn_store (s : State) (a : Nat) (bs : List Byte) : GoesOn s (s.store a bs) :=
  goesOn_of_frame (frame_store s a bs bs.length rfl)

theorem goesOn_store_havoc (s : State) (a b n : Nat) (bs : List Byte) : GoesOn s ((s.store a bs).havoc b n) :=
  ⟨advanced_of rfl rfl, by constructor <;> simp⟩

theorem goesOn_withMode (s : State) (m : BitVec 2) (ms : List (BitVec 2)) : GoesOn s (s.withMode m ms) :=
  ⟨advanced_of rfl rfl, (withMode_advance_rest s m ms).1⟩

theorem nttpre_size_iff (n : Nat) : (isPure n || isStride2 n || isStride4 n) = true ↔
    Spec.pureSize n ∨ Spec.stride2Size n ∨ Spec.stride4Size n := by
  rw [Bool.or_eq_true, Bool.or_eq_true, isPure_iff, isStride2_iff, isStride4_iff, or_assoc]

theorem hasRoot_iff (n : Word64) : hasRoot n.toNat ↔ n ≠ 0 ∧ (q ^ 2 - 1) % n.toNat = 0 :=
  and_congr_left' (not_congr (BitVec.toNat_inj (y := 0)))

theorem ntt8_order_iff (w : Cm31) (n : Nat) : cmPow w n = cmOne ∧ cmPow w (n / 2) ≠ cmOne ↔
    Spec.pow w n = cmOne ∧ Spec.pow w (n / 2) ≠ cmOne := by
  rw [cmPow_eq, cmPow_eq]

theorem scalarProduct_decides (x y : FieldWord) :
    Decides (scalarProduct x y) [⟨x.toNat * y.toNat < p * 2 ^ 256, .operandBound, 0⟩] fun _ => True :=
  Decides.guard_iff Iff.rfl (fun _ => rfl) fun _ => Decides.ok trivial

theorem redprc_decides {rc : Nat → Nat} (hrc : ∀ i, rc i < p) (x : FieldWord) (i : Nat) :
    Decides (raiseAssertion (reducePartialAddRc rc x.toNat i))
      [⟨Spec.reducePartial x.toNat + rc i < 2 * p, .assertion, BitVec.ofNat 64 i⟩] fun _ => True := by
  have h : raiseAssertion (reducePartialAddRc rc x.toNat i) =
      if Spec.reducePartial x.toNat + rc i < 2 * p then .ok (Spec.reducePartial x.toNat + rc i)
      else .error ⟨.assertion, BitVec.ofNat 64 i⟩ := by
    rw [reducePartialAddRc_eq rc i _ (hrc i) x.isLt]
    split
    · rw [if_neg (by omega), raiseAssertion_error]
    · rw [if_pos (by omega), raiseAssertion_ok]
  rw [h]
  exact Decides.ite fun _ => Decides.ok trivial

theorem hybrid_goesOn {form : Nat → Bool} {P : Nat → Prop} (hP : ∀ n, form n = true ↔ P n) {a b c : RegNo}
    {s : State} (hs : Written s [.x a, .x b, .x c]) :
    Decides (hybridNtt form a b c s) (hybridChecks s P a b c) (GoesOn s) := by
  refine (hybridNtt_decides form P hP a b c s hs.head hs.tail.head hs.tail.tail.head).mono fun _ t ht => ?_
  rw [ht]
  exact goesOn_store_havoc ..

/-- Every instruction but HALT and CMPRM makes the checks the spec lists for it, and goes on where they hold. -/
theorem body_decides {i : Instr} {s : State} (hrc : Spec.rcLegal s) (hs : Written s (sources i)) (h1 : i ≠ .halt)
    (h2 : ∀ d a b c, i ≠ .cmprm d a b c) :
    ∃ body, exec i s = execute i s body ∧ Decides body (Spec.checks i s) (GoesOn s) := by
  cases i
  case nop => exact ⟨_, rfl, Decides.ok (goesOn_of_frame (frame_advance s))⟩
  case halt => exact (h1 rfl).elim
  case cmprm d a b c => exact (h2 d a b c rfl).elim
  case rmacq m =>
    refine ⟨_, rfl, Decides.guard_iff Iff.rfl (fun h => by rw [not_not.1 h]) fun _ => Decides.ok ?_⟩
    exact goesOn_withMode s (m.setWidth 2) (s.rmode :: s.gs)
  case rmrel =>
    refine ⟨if s.gs ≠ [] then .ok (s.withMode (s.gs.headD 0) s.gs.tail) else .error ⟨.guardUnderflow, 0⟩, ?_,
      Decides.ite fun _ => Decides.ok (goesOn_withMode ..)⟩
    show execRmrel s = _
    rw [execRmrel]
    cases hg : s.gs with
    | nil => rfl
    | cons m ms => rfl
  case xli => exact ⟨_, rfl, Decides.ok (goesOn_writeX ..)⟩
  case xaddi => exact ⟨_, rfl, decides_readX hs fun _ => Decides.ok (goesOn_writeX ..)⟩
  case ldx => exact ⟨_, rfl, (accessAddr_decides _ _ _ _ hs.head).map fun _ _ => goesOn_writeX ..⟩
  case ldf => exact ⟨_, rfl, (accessAddr_decides _ _ _ _ hs.head).map fun _ _ => goesOn_writeF ..⟩
  case ldv => exact ⟨_, rfl, (accessAddr_decides _ _ _ _ hs.head).map fun _ _ => goesOn_writeV ..⟩
  case stx =>
    exact ⟨_, rfl, decides_readX hs fun hs => (accessAddr_decides _ _ _ _ hs.head).map fun _ _ => goesOn_store ..⟩
  case stf =>
    exact ⟨_, rfl, decides_readF hs fun hs => (accessAddr_decides _ _ _ _ hs.head).map fun _ _ => goesOn_store ..⟩
  case stv =>
    exact ⟨_, rfl, decides_readV hs fun hs => (accessAddr_decides _ _ _ _ hs.head).map fun _ _ => goesOn_store ..⟩
  case fmov | redp | red1 | red => exact ⟨_, rfl, decides_readF hs fun _ => Decides.ok (goesOn_writeF ..)⟩
  case fadd => exact ⟨_, rfl, decides_readF hs fun hs => decides_readF hs fun _ => Decides.ok (goesOn_writeF ..)⟩
  case mul =>
    exact ⟨_, rfl, decides_readF hs fun hs => decides_readF hs fun _ =>
      (scalarProduct_decides _ _).map fun _ _ => goesOn_writeF ..⟩
  case sqr => exact ⟨_, rfl, decides_readF hs fun _ => (scalarProduct_decides _ _).map fun _ _ => goesOn_writeF ..⟩
  case redprc d a j =>
    exact ⟨_, rfl, decides_readF hs fun _ => (redprc_decides (s.rc_lt hrc) _ _).map fun _ _ => goesOn_writeF ..⟩
  case vmul d a b =>
    exact ⟨_, rfl, decides_readV hs fun hs => decides_readV hs fun _ => Decides.guard fun _ =>
      (checkLimbPairs_registers s a b).map fun _ _ => goesOn_writeV ..⟩
  case vsqr d a =>
    exact ⟨_, rfl, decides_readV hs fun _ => Decides.guard fun _ =>
      (checkLimbs_register s a).map fun _ _ => goesOn_writeV ..⟩
  case bmul3 d a b =>
    rw [sources_bmul3] at hs
    exact ⟨_, rfl, decides_readGroup hs fun hs => decides_readGroup hs fun _ =>
      (blockBody_decides _ 1 3 d _ _ s).mono fun _ _ ht => ht ▸ goesOn_writeGroup ..⟩
  case bmul4 d a b =>
    rw [sources_bmul4] at hs
    exact ⟨_, rfl, decides_readGroup hs fun hs => decides_readGroup hs fun _ =>
      (blockBody_decides _ 2 4 d _ _ s).mono fun _ _ ht => ht ▸ goesOn_writeGroup ..⟩
  case bsqr3 d a =>
    rw [sources_bsqr3] at hs
    exact ⟨_, rfl, decides_readGroup hs fun _ =>
      (blockBody_decides _ 1 3 d _ _ s).mono fun _ _ ht => ht ▸ goesOn_writeGroup ..⟩
  case bsqr4 d a =>
    rw [sources_bsqr4] at hs
    exact ⟨_, rfl, decides_readGroup hs fun _ =>
      (blockBody_decides _ 2 4 d _ _ s).mono fun _ _ ht => ht ▸ goesOn_writeGroup ..⟩
  case bar => exact ⟨_, rfl, decides_readF hs fun _ => Decides.guard fun _ => Decides.ok (goesOn_writeF ..)⟩
  case cmpr d a b =>
    exact ⟨_, rfl, decides_readF hs fun hs => decides_readF hs fun _ =>
      Decides.guard fun hl => Decides.guard fun hr =>
      (compress_decides (s.rc_lt hrc) hl hr).map fun _ _ => goesOn_writeF ..⟩
  case nttb8 =>
    exact ⟨_, rfl, decides_readX hs fun hs => decides_readX hs fun _ => Decides.guard fun _ => Decides.guard fun _ =>
      (checkRoot_decides _ _).bind fun w _ => (readElems_decides ..).map fun _ _ => goesOn_store ..⟩
  case ntt8 =>
    exact ⟨_, rfl, decides_readX hs fun hs => decides_readX hs fun hs => decides_readX hs fun _ =>
      Decides.guard_iff (isPure_iff _) (fun _ => rfl) fun _ => Decides.guard fun _ => Decides.guard fun _ =>
      (checkRoot_decides _ _).bind fun w hw => hw ▸ Decides.guard_iff (ntt8_order_iff _ _) (fun _ => rfl) fun _ =>
      (readElems_decides ..).map fun _ _ => goesOn_store ..⟩
  case nttroot =>
    exact ⟨_, rfl, decides_readX hs fun _ => Decides.guard_iff (hasRoot_iff _) (fun _ => rfl) fun _ =>
      Decides.ok (goesOn_writeX ..)⟩
  case nttpre =>
    exact ⟨_, rfl, decides_readX hs fun _ => Decides.guard_iff (nttpre_size_iff _) (fun _ => rfl) fun _ =>
      Decides.guard fun _ => Decides.guard fun _ => Decides.ok ⟨advanced_of rfl rfl, by constructor <;> rfl⟩⟩
  case ntth => exact ⟨_, rfl, hybrid_goesOn isPure_iff hs⟩
  case ntts2 => exact ⟨_, rfl, hybrid_goesOn isStride2_iff hs⟩
  case ntts4 => exact ⟨_, rfl, hybrid_goesOn isStride4_iff hs⟩

/-! ### Completion -/

theorem cmprmChecks_eq (s : State) (d a b c : RegNo) : cmprmChecks s d a b c = jobChecks s d a b c ++
    (List.range ((xValue s b).toNat / 64)).map fun j =>
      ⟨Spec.noAssertion s.rc (message s (xValue s a).toNat (2 * j)) (message s (xValue s a).toNat (2 * j + 1)),
        .assertion, BitVec.ofNat 64 ((xValue s a).toNat + 64 * j)⟩ := rfl

/-- Checks that hold for every index below `n`. -/
theorem checksHold_range {n : Nat} {g : Nat → Check} (h : checksHold ((List.range n).map g)) :
    ∀ j, j < n → (g j).holds :=
  fun j hj => h (g j) (List.mem_map_of_mem (List.mem_range.2 hj))

/-- The `n` pairs of the message buffer at `a`, each with its address (20_memory.md R76). -/
def messagePairs (s : State) (a n : Nat) : List (Nat × Nat × Nat) :=
  (List.range n).map fun j => (a + 64 * j, message s a (2 * j), message s a (2 * j + 1))

theorem hashPairs_messagePairs {s : State} {a n : Nat} (hrc : Spec.rcLegal s)
    (hmsg : ∀ k, k < 2 * n → message s a k < p)
    (hhash : ∀ j, j < n → Spec.noAssertion s.rc (message s a (2 * j)) (message s a (2 * j + 1))) :
    hashPairs s.rc (messagePairs s a n) =
      .ok ((messagePairs s a n).flatMap fun x => leBytes 32 (Spec.hash s.rc x.2.1 x.2.2)) := by
  refine hashPairs_ok s.rc (fun x => Spec.hash s.rc x.2.1 x.2.2) (messagePairs s a n) fun x hx => ?_
  obtain ⟨j, hj, rfl⟩ := List.mem_map.1 hx
  rw [List.mem_range] at hj
  exact compress_ok (s.rc_lt hrc) (hmsg (2 * j) (by omega)) (hmsg (2 * j + 1) (by omega)) (hhash j hj)

theorem exec_cmprm_of_hashes {d a b c : RegNo} {s : State} {out len : Nat} {pairs : List (Nat × Nat × Nat)}
    {bs : List Byte} (hj : cmprmJob d a b c s = .ok (out, len, pairs)) (hh : hashPairs s.rc pairs = .ok bs) :
    exec (.cmprm d a b c) s = .next (s.store out bs).advance := by
  show execCmprm d a b c s = _
  rw [execCmprm, hj]
  dsimp only
  rw [hh, cmprmEnd]

/-- CMPRM whose checks hold stores the hash of every pair (47_skyscraper.md R311). -/
theorem exec_cmprm_completes {d a b c : RegNo} {s : State} (hrc : Spec.rcLegal s)
    (hs : Written s [.x d, .x a, .x b, .x c]) (hc : checksHold (cmprmChecks s d a b c)) :
    ∃ bs, exec (.cmprm d a b c) s = .next (s.store (xValue s d).toNat bs).advance := by
  rw [cmprmChecks_eq, checksHold_append] at hc
  obtain ⟨hjob, hhash⟩ := hc
  obtain ⟨job, hj, rfl⟩ :=
    (cmprmJob_decides d a b c s hs.head hs.tail.head hs.tail.tail.head hs.tail.tail.tail.head).1 hjob
  obtain ⟨-, hmsg⟩ := (checksHold_append _ _).1 hjob
  exact ⟨_, exec_cmprm_of_hashes hj
    (hashPairs_messagePairs hrc (checksHold_range hmsg) (checksHold_range hhash))⟩

/-- Where the checks hold, every instruction but HALT goes on from an effect. -/
theorem exec_completes {i : Instr} {s : State} (hw : i.wellFormed = true) (h1 : i ≠ .halt) (hrc : Spec.rcLegal s)
    (hs : Written s (sources i)) (hc : checksHold (Spec.checks i s)) :
    ∃ u, exec i s = .next u.advance ∧ GoesOn s u := by
  by_cases h2 : ∀ d a b c, i ≠ .cmprm d a b c
  · obtain ⟨body, hx, hd⟩ := body_decides hrc hs h1 h2
    exact (execute_decides i s body _ _ hw hx hd).1 hc
  · push Not at h2
    obtain ⟨d, a, b, c, rfl⟩ := h2
    obtain ⟨bs, hx⟩ := exec_cmprm_completes hrc hs hc
    exact ⟨_, hx, goesOn_store ..⟩

end Sys2Proof.Machine

/-- Settles O17: an instruction's body makes the checks of the spec's list and no other (`body_decides`), CMPRM's
those of its job and of its compressions (`exec_cmprm_completes`). -/
theorem completesWhenChecksHold : Obligations.CompletesWhenChecksHold := by
  open Sys2Proof.Machine in
  intro i s hw h1 hrc hs hc
  obtain ⟨u, hx, hgo⟩ := exec_completes hw h1 hrc ((sourcesWritten_iff i s).1 hs) hc
  exact ⟨_, hx, hgo⟩

/-! PROOFS. The scalar unit (42_scalar_montgomery.md). CIOS is determined by its closed form: `p` is odd, so that one
multiple of `p` below `2^256 * p` alone makes the product divisible by `2^256`. MUL and SQR write that value wherever
the product is in the input contract. -/

namespace Sys2Proof.Machine

/-! ### The closed form -/

/-- The quotient `M` of R192 is determined by the product modulo `2^256`, as `p` is invertible there. -/
theorem quotient_unique {k m m' : Nat} (hm : m < 2 ^ 256) (hm' : m' < 2 ^ 256) (h : (k + m * p) % 2 ^ 256 = 0)
    (h' : (k + m' * p) % 2 ^ 256 = 0) : m' = m := by
  have hsum : k + m' * p ≡ k + m * p [MOD 2 ^ 256] := h'.trans h.symm
  have hmul : m' * p ≡ m * p [MOD 2 ^ 256] := hsum.add_left_cancel' k
  have hmod : m' ≡ m [MOD 2 ^ 256] := hmul.cancel_right_of_coprime coprime_p_montR.symm
  exact hmod.eq_of_lt_of_lt hm' hm

/-- The closed form fixes the value (42_scalar_montgomery.md R192). -/
theorem isCios_unique {x y c c' : Nat} (h : Spec.isCios x y c) (h' : Spec.isCios x y c') : c' = c := by
  obtain ⟨m, hm, e⟩ := h
  obtain ⟨m', hm', e'⟩ := h'
  have hq : m' = m := quotient_unique hm hm' (e ▸ Nat.mul_mod_left c _) (e' ▸ Nat.mul_mod_left c' _)
  rw [hq, ← e] at e'
  exact Nat.eq_of_mul_eq_mul_right (Nat.two_pow_pos 256) e'

theorem isCios_comm {x y c : Nat} (h : Spec.isCios x y c) : Spec.isCios y x c := by
  unfold Spec.isCios at h ⊢
  rwa [Nat.mul_comm y x]

/-- The Montgomery congruence `c * R ≡ x * y (mod p)`. -/
theorem isCios_mod {x y c : Nat} (h : Spec.isCios x y c) : c * 2 ^ 256 % p = x * y % p := by
  obtain ⟨m, -, e⟩ := h
  rw [e, Nat.add_mul_mod_self_right]

/-- CIOS scans the limbs of `a` and treats `b` as a whole; its value is the same with the two exchanged. -/
theorem cios_comm {a b : Nat} (ha : a < 2 ^ 256) (hb : b < 2 ^ 256) : cios a b = cios b a :=
  isCios_unique (isCios_comm (cios_spec b a hb)) (cios_spec a b ha)

/-- Canonical operands are within the input contract (42_scalar_montgomery.md R193). -/
theorem mul_lt_of_canonical {a b : Nat} (ha : a < p) (hb : b < p) : a * b < p * 2 ^ 256 := by
  have hp := p_lt
  exact Nat.mul_lt_mul'' ha (by omega)

/-- Outside the input contract CIOS can exceed 256 bits (42_scalar_montgomery.md R193). -/
theorem two_pow_lt_cios_max : 2 ^ 256 < cios (2 ^ 256 - 1) (2 ^ 256 - 1) := by decide

/-! ### MUL and SQR -/

/-- The word the scalar unit answers holds CIOS exactly, as a value below `2p` fits it. -/
theorem scalarProduct_ok {x y : FieldWord} (h : x.toNat * y.toNat < p * 2 ^ 256) :
    ∃ z, scalarProduct x y = .ok z ∧ z.toNat = cios x.toNat y.toNat := by
  have hb : productBounded x y := h
  have hlt : cios x.toNat y.toNat < 2 * p := cios_lt x.isLt h
  have hp := p_lt
  refine ⟨BitVec.ofNat 256 (cios x.toNat y.toNat), ?_, ?_⟩
  · rw [scalarProduct, require_of hb, ok_bind, pure_eq_ok]
  · rw [BitVec.toNat_ofNat, Nat.mod_eq_of_lt (by omega)]

theorem scalarProduct_bound {x y : FieldWord} (h : p * 2 ^ 256 ≤ x.toNat * y.toNat) :
    scalarProduct x y = .error ⟨.operandBound, 0⟩ := by
  have hb : ¬productBounded x y := Nat.not_lt.2 h
  rw [scalarProduct, require_of_not hb, error_bind]

/-- MUL of readable operands is the scalar unit's product and a write of `F[d]`. -/
theorem exec_mul {a b : RegNo} {s : State} {x y : FieldWord} (d : RegNo) (hx : readF s a = .ok x)
    (hy : readF s b = .ok y) :
    exec (.mul d a b) s = execute (.mul d a b) s (scalarProduct x y >>= fun c => pure (s.writeF d c)) := by
  change execMul d a b s = _
  rw [execMul, hx, ok_bind, hy, ok_bind]

/-- SQR of a readable operand is the scalar unit's square and a write of `F[d]`. -/
theorem exec_sqr {a : RegNo} {s : State} {x : FieldWord} (d : RegNo) (hx : readF s a = .ok x) :
    exec (.sqr d a) s = execute (.sqr d a) s (scalarProduct x x >>= fun c => pure (s.writeF d c)) := by
  change execSqr d a s = _
  rw [execSqr, hx, ok_bind]

section
variable {i : Instr} {d : RegNo} {s : State} {x y : FieldWord}

/-- An instruction of the scalar unit on an accepted pair (42_scalar_montgomery.md R197). -/
theorem scalarUnit_completes (hw : i.wellFormed = true)
    (hi : exec i s = execute i s (scalarProduct x y >>= fun c => pure (s.writeF d c)))
    (h : x.toNat * y.toNat < p * 2 ^ 256) :
    ∃ t z, exec i s = .next t ∧ readF t d = .ok z ∧ Spec.isCios x.toNat y.toNat z.toNat ∧
      z.toNat = cios x.toNat y.toNat ∧ z.toNat < 2 * p ∧ z.toNat * 2 ^ 256 % p = x.toNat * y.toNat % p ∧
      Frame s t [d] [] [] noByte := by
  obtain ⟨z, hz, hc⟩ := scalarProduct_ok h
  have hform : Spec.isCios x.toNat y.toNat z.toNat := hc ▸ cios_spec _ _ x.isLt
  have hlt : z.toNat < 2 * p := hc ▸ cios_lt x.isLt h
  have hx : exec i s = .next (s.writeF d z).advance := exec_of_body hi hw (by rw [hz, ok_bind, pure_eq_ok])
  exact ⟨_, z, hx, readF_writeF s d z, hform, hc, hlt, isCios_mod hform, frame_writeF s d z⟩

/-- An instruction of the scalar unit on any other pair (42_scalar_montgomery.md R194). -/
theorem scalarUnit_faults (hw : i.wellFormed = true)
    (hi : exec i s = execute i s (scalarProduct x y >>= fun c => pure (s.writeF d c)))
    (h : p * 2 ^ 256 ≤ x.toNat * y.toNat) : Faults i s .operandBound 0 :=
  faults_of i s _ _ _ hi hw (by rw [scalarProduct_bound h, error_bind])

end

end Sys2Proof.Machine

/-- Settles O31: the closed form (`cios_spec`) fixes the value, its quotient by `quotient_unique`; the bound is
`cios_lt`. -/
theorem ciosClosedForm : Obligations.CiosClosedForm := by
  open Sys2Proof.Machine in
  refine ⟨fun a b ha hb => ⟨?_, cios_comm ha hb, isCios_mod (cios_spec a b ha), cios_lt ha,
    fun hap hbp => cios_lt ha (mul_lt_of_canonical hap hbp)⟩, two_pow_lt_cios_max⟩
  obtain ⟨m, hm, e⟩ := cios_spec a b ha
  exact ⟨m, hm, e, fun m' hm' h => quotient_unique hm hm' (e ▸ Nat.mul_mod_left _ _) h⟩

/-- Settles O32: MUL and SQR are the scalar unit's product and one write (`exec_mul`, `exec_sqr`), and the unit's input
contract decides between the product and the fault. -/
theorem scalarProducts : Obligations.ScalarProducts := by
  open Sys2Proof.Machine in
  constructor
  · intro d a b s x y hx hy
    exact ⟨scalarUnit_completes rfl (exec_mul d hx hy), scalarUnit_faults rfl (exec_mul d hx hy)⟩
  · intro d a s x hx
    exact ⟨scalarUnit_completes rfl (exec_sqr d hx), scalarUnit_faults rfl (exec_sqr d hx)⟩

/-! PROOFS. The fp-SIMD unit (43_fp_simd.md). VMUL and VSQR on bounded limbs pass the checks of R215 and R216 and write
one result per lane, and the lane functions keep what R214 promises (`simd52_ok`, `simd52Sqr_ok`). -/

namespace Sys2Proof.Machine

/-! ### The checks -/

theorem checkRtz_ok {s : State} (h : s.rmode = 0b11) : checkRtz s = .ok () := require_of h _ _

/-- Limbs bounded lane by lane are bounded in the order of the unit's check (43_fp_simd.md R216). -/
theorem limbs_lt_of_lanes {v : VReg} (h : ∀ (l : Fin 2) (j : Fin 5), v.lane[l][j].toNat < 2 ^ 52) :
    ∀ x ∈ v.limbs, x.toNat < 2 ^ 52 := by
  intro x hx
  rw [limbs_eq] at hx
  obtain ⟨k, -, rfl⟩ := List.mem_map.1 hx
  exact h ⟨k.val / 5, by omega⟩ ⟨k.val % 5, by omega⟩

theorem checkLimbs_ok {xs : List Word64} (h : ∀ x ∈ xs, x.toNat < 2 ^ 52) : checkLimbs xs = .ok () := by
  obtain ⟨_, e, -⟩ := (checkLimbs_decides xs).1 (List.forall_mem_map.2 h)
  exact e

theorem checkLimbPairs_ok {xs ys : List Word64} (hx : ∀ x ∈ xs, x.toNat < 2 ^ 52) (hy : ∀ y ∈ ys, y.toNat < 2 ^ 52) :
    checkLimbPairs (xs.zip ys) = .ok () := by
  have hc : checksHold ((xs.zip ys).flatMap fun xy =>
      [⟨xy.1.toNat < 2 ^ 52, .operandBound, 0⟩, ⟨xy.2.toNat < 2 ^ 52, .operandBound, 1⟩]) := by
    intro k hk
    obtain ⟨⟨x, y⟩, hxy, hk⟩ := List.mem_flatMap.1 hk
    obtain ⟨hmx, hmy⟩ := List.of_mem_zip hxy
    rcases List.mem_pair.1 hk with rfl | rfl
    · exact hx x hmx
    · exact hy y hmy
  obtain ⟨_, e, -⟩ := (checkLimbPairs_decides _).1 hc
  exact e

/-! ### Completion -/

theorem wellFormed_vmul {d a b : RegNo} (hd : d.toNat ≤ 7) (ha : a.toNat ≤ 7) (hb : b.toNat ≤ 7) :
    Instr.wellFormed (.vmul d a b) = true := by
  have h : (decide (d ≤ 7) && decide (a ≤ 7) && decide (b ≤ 7)) = true :=
    Bool.and_eq_true_iff.2 ⟨Bool.and_eq_true_iff.2 ⟨decide_eq_true hd, decide_eq_true ha⟩, decide_eq_true hb⟩
  rw [Instr.wellFormed, Instr.fieldError, FieldError.unless, if_pos h]
  rfl

theorem wellFormed_vsqr {d a : RegNo} (hd : d.toNat ≤ 7) (ha : a.toNat ≤ 7) : Instr.wellFormed (.vsqr d a) = true := by
  have h : (decide (d ≤ 7) && decide (a ≤ 7)) = true :=
    Bool.and_eq_true_iff.2 ⟨decide_eq_true hd, decide_eq_true ha⟩
  rw [Instr.wellFormed, Instr.fieldError, FieldError.unless, if_pos h]
  rfl

/-- VMUL of bounded limbs in round-toward-zero (43_fp_simd.md R220). -/
theorem exec_vmul {d a b : RegNo} {s : State} {x y : VReg} (hw : Instr.wellFormed (.vmul d a b) = true)
    (hx : readV s a = .ok x) (hy : readV s b = .ok y) (hm : s.rmode = 0b11)
    (hbx : ∀ w ∈ x.limbs, w.toNat < 2 ^ 52) (hby : ∀ w ∈ y.limbs, w.toNat < 2 ^ 52) :
    exec (.vmul d a b) s =
      .next (s.writeV d ⟨#v[simd52 x.lane[0] y.lane[0], simd52 x.lane[1] y.lane[1]]⟩).advance :=
  exec_of_body rfl hw
    (by rw [hx, ok_bind, hy, ok_bind, checkRtz_ok hm, ok_bind, checkLimbPairs_ok hbx hby, ok_bind, pure_eq_ok])

/-- VSQR of bounded limbs in round-toward-zero (43_fp_simd.md R221). -/
theorem exec_vsqr {d a : RegNo} {s : State} {x : VReg} (hw : Instr.wellFormed (.vsqr d a) = true)
    (hx : readV s a = .ok x) (hm : s.rmode = 0b11) (hbx : ∀ w ∈ x.limbs, w.toNat < 2 ^ 52) :
    exec (.vsqr d a) s = .next (s.writeV d ⟨#v[simd52Sqr x.lane[0], simd52Sqr x.lane[1]]⟩).advance :=
  exec_of_body rfl hw
    (by rw [hx, ok_bind, checkRtz_ok hm, ok_bind, checkLimbs_ok hbx, ok_bind, pure_eq_ok])

/-! ### The result -/

/-- The promise on a lane function (R214) in the statements' terms. -/
theorem simdResult_of_ok {a b c : Lane} (h : Simd52Ok a b c) : Spec.simdResult a b c := by
  rw [Simd52Ok, r52] at h
  exact h

/-- An instruction that writes the lanes `g 0` and `g 1`, each as R214 promises, and advances. -/
theorem simdUnit_completes {i : Instr} {d : RegNo} {s : State} {x y : VReg} {g : Fin 2 → Lane}
    (hx : exec i s = .next (s.writeV d ⟨#v[g 0, g 1]⟩).advance)
    (hg : ∀ l : Fin 2, Simd52Ok x.lane[l] y.lane[l] (g l)) :
    ∃ t z, exec i s = .next t ∧ readV t d = .ok z ∧
      (∀ l : Fin 2, z.lane[l] = g l ∧ Spec.simdResult x.lane[l] y.lane[l] z.lane[l]) ∧
      Frame s t [] [] [vIndex d] noByte := by
  have hlane : ∀ l : Fin 2, (#v[g 0, g 1])[l] = g l := Fin.forall_fin_two.2 ⟨rfl, rfl⟩
  refine ⟨_, _, hx, readV_writeV s d _, fun l => ⟨hlane l, ?_⟩, frame_writeV s d _⟩
  rw [hlane l]
  exact simdResult_of_ok (hg l)

end Sys2Proof.Machine

/-- Settles O35: on bounded limbs VMUL and VSQR write their lane function's results (`exec_vmul`, `exec_vsqr`), which
are as R214 promises (`simdUnit_completes`). -/
theorem simdResults : Obligations.SimdResults := by
  open Sys2Proof.Machine in
  constructor
  · intro d a b s x y hd ha hb hx hy hm hlimbs
    have hbx : ∀ w ∈ x.limbs, w.toNat < 2 ^ 52 := limbs_lt_of_lanes fun l j => (hlimbs l j).1
    have hby : ∀ w ∈ y.limbs, w.toNat < 2 ^ 52 := limbs_lt_of_lanes fun l j => (hlimbs l j).2
    exact simdUnit_completes (g := fun l => simd52 x.lane[l] y.lane[l])
      (exec_vmul (wellFormed_vmul hd ha hb) hx hy hm hbx hby) fun l => simd52_ok x.lane[l] y.lane[l]
  · intro d a s x hd ha hx hm hlimbs
    exact simdUnit_completes (g := fun l => simd52Sqr x.lane[l])
      (exec_vsqr (wellFormed_vsqr hd ha) hx hm (limbs_lt_of_lanes hlimbs)) fun l => simd52Sqr_ok x.lane[l]

/-! PROOFS. The interleaved block multiplier (44_block_multiplier.md). The four block instructions are one body on the
pairs of two groups of field registers, read first: outside round-toward-zero it raises ROUNDING_MODE, as VMUL and VSQR
do, and on accepted pairs it writes a scalar or a lane product for each. A lane product differs from the scalar one by a
multiple of `p` at most, as `2^256` is invertible modulo `p`, which the full reduction removes. -/

namespace Sys2Proof.Machine

/-! ### The pairs of a block -/

/-- The value of register `r + k`, behind its valid bit (44_block_multiplier.md R244). -/
def groupValue (s : State) (r : RegNo) (k : Nat) : FieldWord :=
  s.f[(r + BitVec.ofNat 4 k).toNat]'(r + BitVec.ofNat 4 k).isLt

/-- The operands of a block's `n` pairs (44_block_multiplier.md R244). -/
def blockPairs (s : State) (a b : RegNo) (n : Nat) : List (FieldWord × FieldWord) :=
  ((List.range n).map (groupValue s a)).zip ((List.range n).map (groupValue s b))

theorem blockPairs_eq (s : State) (a b : RegNo) (n : Nat) :
    blockPairs s a b n = (List.range n).map fun k => (groupValue s a k, groupValue s b k) := List.zip_map' ..

theorem written_append {s : State} {rs rs' : List Source} : Written s (rs ++ rs') ↔ Written s rs ∧ Written s rs' :=
  List.forall_mem_append

theorem readF_group {s : State} {r : RegNo} {n k : Nat} (h : Written s (groupSources r n)) (hk : k < n) :
    readF s (r + BitVec.ofNat 4 k) = .ok (groupValue s r k) := readF_written s _ (h _ (mem_groupSources hk))

theorem readGroup_ok {s : State} {r : RegNo} {n : Nat} (h : Written s (groupSources r n)) :
    readGroup s r n = .ok ((List.range n).map (groupValue s r)) :=
  readGroup_written s n r fun _ hk => h _ (mem_groupSources hk)

/-- Both operand groups of `i` have been written, and `i` is the block body on their pairs. -/
structure RunsBlock (i : Instr) (lane : FieldWord → FieldWord → FieldWord) (scalars n : Nat) (d a b : RegNo)
    (s : State) : Prop where
  writtenA : Written s (groupSources a n)
  writtenB : Written s (groupSources b n)
  exec_eq : exec i s = execute i s (blockBody lane scalars d (blockPairs s a b n) s)

theorem runsBlock_bmul3 {d a b : RegNo} {s : State} (hs : sourcesWritten (.bmul3 d a b) s = true) :
    RunsBlock (.bmul3 d a b) (simdLane s.caps.simdBlockBound) 1 3 d a b s := by
  rw [sourcesWritten_iff, sources_bmul3, List.append_nil] at hs
  obtain ⟨ha, hb⟩ := written_append.1 hs
  refine ⟨ha, hb, ?_⟩
  change execBmul3 d a b s = _
  rw [execBmul3, readGroup_ok ha, ok_bind, readGroup_ok hb, ok_bind, blockPairs]

theorem runsBlock_bmul4 {d a b : RegNo} {s : State} (hs : sourcesWritten (.bmul4 d a b) s = true) :
    RunsBlock (.bmul4 d a b) (simdLane s.caps.simdBlockBound) 2 4 d a b s := by
  rw [sourcesWritten_iff, sources_bmul4, List.append_nil] at hs
  obtain ⟨ha, hb⟩ := written_append.1 hs
  refine ⟨ha, hb, ?_⟩
  change execBmul4 d a b s = _
  rw [execBmul4, readGroup_ok ha, ok_bind, readGroup_ok hb, ok_bind, blockPairs]

theorem runsBlock_bsqr3 {d a : RegNo} {s : State} (hs : sourcesWritten (.bsqr3 d a) s = true) :
    RunsBlock (.bsqr3 d a) (fun x _ => simdLaneSqr s.caps.simdBlockBound x) 1 3 d a a s := by
  rw [sourcesWritten_iff, sources_bsqr3, List.append_nil] at hs
  refine ⟨hs, hs, ?_⟩
  change execBsqr3 d a s = _
  rw [execBsqr3, readGroup_ok hs, ok_bind, blockPairs]

theorem runsBlock_bsqr4 {d a : RegNo} {s : State} (hs : sourcesWritten (.bsqr4 d a) s = true) :
    RunsBlock (.bsqr4 d a) (fun x _ => simdLaneSqr s.caps.simdBlockBound x) 2 4 d a a s := by
  rw [sourcesWritten_iff, sources_bsqr4, List.append_nil] at hs
  refine ⟨hs, hs, ?_⟩
  change execBsqr4 d a s = _
  rw [execBsqr4, readGroup_ok hs, ok_bind, blockPairs]

/-! ### Round-toward-zero -/

theorem checkRtz_error {s : State} (h : s.rmode ≠ 0b11) :
    checkRtz s = .error ⟨.roundingMode, s.rmode.setWidth 64⟩ := require_of_not h _ _

theorem RunsBlock.roundingMode {i : Instr} {lane : FieldWord → FieldWord → FieldWord} {scalars n : Nat}
    {d a b : RegNo} {s : State} (h : RunsBlock i lane scalars n d a b s) (hw : i.wellFormed = true)
    (hm : s.rmode ≠ 0b11) : Faults i s .roundingMode (s.rmode.setWidth 64) :=
  faults_of i s _ _ _ h.exec_eq hw (by rw [blockBody, checkRtz_error hm, error_bind])

/-- Every instruction that needs round-toward-zero asks for it after its reads and before its other checks
(43_fp_simd.md R215, 44_block_multiplier.md R243). -/
theorem needsRtz_faults {i : Instr} {s : State} (hn : needsRtz i = true) (hw : i.wellFormed = true)
    (hs : sourcesWritten i s = true) (hm : s.rmode ≠ 0b11) : Faults i s .roundingMode (s.rmode.setWidth 64) := by
  have hr : Written s (sources i) := (sourcesWritten_iff i s).1 hs
  cases i
  case vmul d a b =>
    refine faults_of _ s _ _ _ rfl hw ?_
    rw [readV_written s a hr.head, ok_bind, readV_written s b hr.tail.head, ok_bind, checkRtz_error hm, error_bind]
  case vsqr d a =>
    refine faults_of _ s _ _ _ rfl hw ?_
    rw [readV_written s a hr.head, ok_bind, checkRtz_error hm, error_bind]
  case bmul3 => exact (runsBlock_bmul3 hs).roundingMode hw hm
  case bmul4 => exact (runsBlock_bmul4 hs).roundingMode hw hm
  case bsqr3 => exact (runsBlock_bsqr3 hs).roundingMode hw hm
  case bsqr4 => exact (runsBlock_bsqr4 hs).roundingMode hw hm
  all_goals exact absurd hn Bool.false_ne_true

/-! ### The results of a block -/

/-- The result of pair `k`: the scalar unit's for the first `scalars` pairs, a lane's for the others
(44_block_multiplier.md R244). -/
def pairResult (lane : FieldWord → FieldWord → FieldWord) (scalars : Nat) (s : State) (a b : RegNo) (k : Nat) :
    FieldWord :=
  if k < scalars then BitVec.ofNat 256 (cios (groupValue s a k).toNat (groupValue s b k).toNat)
  else lane (groupValue s a k) (groupValue s b k)

theorem blockResults_blockPairs (lane : FieldWord → FieldWord → FieldWord) (scalars n : Nat) (s : State)
    (a b : RegNo) :
    blockResults lane scalars (blockPairs s a b n) = (List.range n).map (pairResult lane scalars s a b) := by
  rw [blockResults_eq, blockPairs_eq]
  apply List.ext_getElem
  · simp
  · intro k _ _
    simp [pairResult]

theorem readF_writeGroup_map {n k : Nat} (s : State) (d : RegNo) (g : Nat → FieldWord) (hn : n ≤ 16) (hk : k < n) :
    readF (s.writeGroup d ((List.range n).map g)) (d + BitVec.ofNat 4 k) = .ok (g k) := by
  have hlen : ((List.range n).map g).length = n := by rw [List.length_map, List.length_range]
  rw [readF_writeGroup _ s d k (hlen.symm ▸ hk) (hlen.symm ▸ hn), List.getElem_map, List.getElem_range]

/-- CIOS of an accepted pair fits a field register. -/
theorem toNat_ofNat_cios {x y : FieldWord} (h : x.toNat * y.toNat < p * 2 ^ 256) :
    (BitVec.ofNat 256 (cios x.toNat y.toNat)).toNat = cios x.toNat y.toNat := by
  have hlt : cios x.toNat y.toNat < 2 * p := cios_lt x.isLt h
  have hp := p_lt
  rw [BitVec.toNat_ofNat, Nat.mod_eq_of_lt (by omega)]

/-- The promise on a lane (44_block_multiplier.md R242) in the statements' terms. -/
theorem laneResult_of_ok {bound : Nat} {x y z : FieldWord} (hb : bound ≤ 2 * p) (h : SimdLaneOk bound x y z)
    (hxy : x.toNat * y.toNat < p * 2 ^ 256) : Spec.laneResult bound x.toNat y.toNat z.toNat := by
  obtain ⟨hmod, hlt⟩ := h hxy
  exact ⟨hmod, hlt, hlt.trans_le hb⟩

theorem Caps.legal.simdBlockBound {c : Caps} (h : c.legal) : p ≤ c.simdBlockBound ∧ c.simdBlockBound ≤ 2 * p := by
  obtain ⟨-, -, -, -, -, -, -, -, hlo, hhi⟩ := h
  exact ⟨hlo, hhi⟩

section
variable {i : Instr} {lane : FieldWord → FieldWord → FieldWord} {scalars n : Nat} {d a b : RegNo} {s : State}

/-- A block in round-toward-zero on accepted pairs writes the results of its pairs, and nothing else. -/
theorem RunsBlock.exec_next (h : RunsBlock i lane scalars n d a b s) (hw : i.wellFormed = true) (hm : s.rmode = 0b11)
    (hp : ∀ k, k < n → fValue s (a + BitVec.ofNat 4 k) * fValue s (b + BitVec.ofNat 4 k) < p * 2 ^ 256) :
    exec i s = .next (s.writeGroup d ((List.range n).map (pairResult lane scalars s a b))).advance := by
  have hc : checksHold (blockChecks s a b n) := (checksHold_cons _ _).2 ⟨hm, checksHold_map n _ hp⟩
  obtain ⟨t, hb, ht⟩ := (blockBody_decides lane scalars n d (groupValue s a) (groupValue s b) s).1 hc
  rw [← blockResults_blockPairs]
  exact exec_of_body h.exec_eq hw (hb.trans (congrArg _ ht))

/-- A block on accepted pairs, whose lane keeps its promise on each of them. -/
theorem RunsBlock.completes (h : RunsBlock i lane scalars n d a b s) (hw : i.wellFormed = true) (hn : n ≤ 16)
    (hcaps : s.caps.legal) (hm : s.rmode = 0b11)
    (hp : ∀ k, k < n → fValue s (a + BitVec.ofNat 4 k) * fValue s (b + BitVec.ofNat 4 k) < p * 2 ^ 256)
    (hl : ∀ k, SimdLaneOk s.caps.simdBlockBound (groupValue s a k) (groupValue s b k)
      (lane (groupValue s a k) (groupValue s b k))) :
    ∃ t, exec i s = .next t ∧ Spec.blockResults lane s t d a b scalars n ∧
      Frame s t ((List.range n).map fun k => d + BitVec.ofNat 4 k) [] [] noByte := by
  have hframe := frame_writeGroup s d ((List.range n).map (pairResult lane scalars s a b))
  rw [List.length_map, List.length_range] at hframe
  refine ⟨_, h.exec_next hw hm hp, fun k hk => ?_, hframe⟩
  have hxy : (groupValue s a k).toNat * (groupValue s b k).toNat < p * 2 ^ 256 := hp k hk
  refine ⟨_, _, pairResult lane scalars s a b k, readF_group h.writtenA hk, readF_group h.writtenB hk,
    readF_writeGroup_map s d _ hn hk, fun hsc => ?_, fun hsc => ?_⟩
  · rw [pairResult, if_pos hsc, toNat_ofNat_cios hxy]
    exact ⟨cios_spec _ _ (groupValue s a k).isLt, rfl, cios_lt (groupValue s a k).isLt hxy⟩
  · rw [pairResult, if_neg (Nat.not_lt.2 hsc)]
    exact ⟨rfl, laneResult_of_ok hcaps.simdBlockBound.2 (hl k) hxy⟩

end

/-! ### Groups in range -/

theorem isNone_unless (e : FieldError) (ok : Bool) : (e.unless ok).isNone = ok := by
  cases ok <;> rfl

theorem wellFormed_bmul3 {d a b : RegNo} (hd : d.toNat ≤ 13) (ha : a.toNat ≤ 13) (hb : b.toNat ≤ 13) :
    Instr.wellFormed (.bmul3 d a b) = true := by
  rw [Instr.wellFormed, Instr.fieldError, isNone_unless, Bool.and_eq_true_iff, Bool.and_eq_true_iff]
  exact ⟨⟨decide_eq_true hd, decide_eq_true ha⟩, decide_eq_true hb⟩

theorem wellFormed_bmul4 {d a b : RegNo} (hd : d.toNat ≤ 12) (ha : a.toNat ≤ 12) (hb : b.toNat ≤ 12) :
    Instr.wellFormed (.bmul4 d a b) = true := by
  rw [Instr.wellFormed, Instr.fieldError, isNone_unless, Bool.and_eq_true_iff, Bool.and_eq_true_iff]
  exact ⟨⟨decide_eq_true hd, decide_eq_true ha⟩, decide_eq_true hb⟩

theorem wellFormed_bsqr3 {d a : RegNo} (hd : d.toNat ≤ 13) (ha : a.toNat ≤ 13) :
    Instr.wellFormed (.bsqr3 d a) = true := by
  rw [Instr.wellFormed, Instr.fieldError, isNone_unless, Bool.and_eq_true_iff]
  exact ⟨decide_eq_true hd, decide_eq_true ha⟩

theorem wellFormed_bsqr4 {d a : RegNo} (hd : d.toNat ≤ 12) (ha : a.toNat ≤ 12) :
    Instr.wellFormed (.bsqr4 d a) = true := by
  rw [Instr.wellFormed, Instr.fieldError, isNone_unless, Bool.and_eq_true_iff]
  exact ⟨decide_eq_true hd, decide_eq_true ha⟩

theorem groupRegs_three (d : RegNo) : (List.range 3).map (fun k => d + BitVec.ofNat 4 k) = [d, d + 1, d + 2] := by
  simp [List.range_succ]

theorem groupRegs_four (d : RegNo) :
    (List.range 4).map (fun k => d + BitVec.ofNat 4 k) = [d, d + 1, d + 2, d + 3] := by
  simp [List.range_succ]

/-! ### Lanes and the scalar unit modulo `p` -/

/-- `2^256` is invertible modulo `p`. -/
theorem mod_eq_of_mul_montR {x y : Nat} (h : x * 2 ^ 256 % p = y * 2 ^ 256 % p) : x % p = y % p :=
  Nat.ModEq.cancel_right_of_coprime coprime_p_montR h

/-- A lane's result reduces to the scalar unit's (44_block_multiplier.md R250). -/
theorem reduce_lane_eq {bound : Nat} {x y z : FieldWord} (hxy : x.toNat * y.toNat < p * 2 ^ 256)
    (h : SimdLaneOk bound x y z) : reduce z.toNat = reduce (cios x.toNat y.toNat) := by
  have hp := p_lt
  have hlt : cios x.toNat y.toNat < 2 * p := cios_lt x.isLt hxy
  have hmod : z.toNat * 2 ^ 256 % p = cios x.toNat y.toNat * 2 ^ 256 % p :=
    (h hxy).1.trans (isCios_mod (cios_spec x.toNat y.toNat x.isLt)).symm
  rw [reduce_eq _ z.isLt, reduce_eq _ (by omega), mod_eq_of_mul_montR hmod]

/-- The reduced scalar product is the canonical Montgomery product (44_block_multiplier.md R250). -/
theorem reduce_cios {a b : Nat} (ha : a < 2 ^ 256) (h : a * b < p * 2 ^ 256) :
    reduce (cios a b) < p ∧ reduce (cios a b) * 2 ^ 256 % p = a * b % p := by
  have hp := p_lt
  have hlt : cios a b < 2 * p := cios_lt ha h
  rw [reduce_eq _ (by omega)]
  exact ⟨Nat.mod_lt _ p_pos, by rw [Nat.mod_mul_mod, isCios_mod (cios_spec a b ha)]⟩

end Sys2Proof.Machine

/-- Settles O36: `needsRtz_faults`, by cases of the instruction. -/
theorem roundingModeRequired : Obligations.RoundingModeRequired :=
  fun _ _ hn hw hs hm => Sys2Proof.Machine.needsRtz_faults hn hw hs hm

/-- Settles O37: each instruction is the block body on the pairs it reads (`RunsBlock`), which writes one result for
each of them (`RunsBlock.completes`), and the lane functions keep what R242 promises (`simdLane_ok`, `simdLaneSqr_ok`).
-/
theorem blockResults : Obligations.BlockResults := by
  open Sys2Proof.Machine in
  refine ⟨?_, ?_, ?_, ?_⟩
  · intro d a b s hd ha hb hcaps hs hm hp
    rw [← groupRegs_three]
    exact (runsBlock_bmul3 hs).completes (wellFormed_bmul3 hd ha hb) (by decide) hcaps hm hp
      fun _ => simdLane_ok hcaps.simdBlockBound.1 _ _
  · intro d a b s hd ha hb hcaps hs hm hp
    rw [← groupRegs_four]
    exact (runsBlock_bmul4 hs).completes (wellFormed_bmul4 hd ha hb) (by decide) hcaps hm hp
      fun _ => simdLane_ok hcaps.simdBlockBound.1 _ _
  · intro d a s hd ha hcaps hs hm hp
    rw [← groupRegs_three]
    exact (runsBlock_bsqr3 hs).completes (wellFormed_bsqr3 hd ha) (by decide) hcaps hm hp
      fun _ => simdLaneSqr_ok hcaps.simdBlockBound.1 _
  · intro d a s hd ha hcaps hs hm hp
    rw [← groupRegs_four]
    exact (runsBlock_bsqr4 hs).completes (wellFormed_bsqr4 hd ha) (by decide) hcaps hm hp
      fun _ => simdLaneSqr_ok hcaps.simdBlockBound.1 _

/-- Settles O38: a lane's result and the scalar unit's agree modulo `p` (`reduce_lane_eq`), and the reduction is
canonical (`reduce_cios`). -/
theorem lanesAgreeAfterRed : Obligations.LanesAgreeAfterRed := by
  open Sys2Proof.Machine in
  intro bound x y hlo _ hxy
  refine ⟨reduce_lane_eq hxy (simdLane_ok hlo x y), ?_, reduce_cios x.isLt hxy⟩
  rintro rfl
  exact reduce_lane_eq hxy (simdLaneSqr_ok hlo x)

/-! PROOFS. The modular reduction unit (45_reduction.md). REDP, RED1 and RED write one 256-bit value, a function of
their source alone. REDPRC writes the partial reduction plus a round constant, behind the unit's one check: the sum is
below `2p`, as it is for every constant below `SKY_RC_SAFE`. -/

namespace Sys2Proof.Machine

/-! ### Bounds of the reductions -/

/-- `SKY_RC_SAFE` is what is left of `2p` above `REDP_MAX` (45_reduction.md R269). -/
theorem redpMax_add_skyRcSafe : Spec.redpMax + Spec.skyRcSafe = 2 * p := by decide

theorem reducePartial_lt {x : Nat} (h : x < 2 ^ 256) : reducePartial x < 2 ^ 256 := by
  rw [reducePartial]
  omega

theorem reduce1_lt {x : Nat} (h : x < 2 ^ 256) : reduce1 x < 2 ^ 256 := by
  rw [reduce1_eq x h]
  split <;> omega

theorem reduce_lt {x : Nat} (h : x < 2 ^ 256) : reduce x < 2 ^ 256 := reduce1_lt (reducePartial_lt h)

/-- A round constant below `SKY_RC_SAFE` keeps every sum below `2p` (45_reduction.md R269). -/
theorem reducePartial_add_lt_of_safe {x c : Nat} (h : x < 2 ^ 256) (hc : c < Spec.skyRcSafe) :
    Spec.reducePartial x + c < 2 * p :=
  calc Spec.reducePartial x + c
    _ < Spec.redpMax + Spec.skyRcSafe := Nat.add_lt_add_of_le_of_lt (spec_reducePartial_le x h).1 hc
    _ = 2 * p := redpMax_add_skyRcSafe

theorem reducePartial_add_mod {x : Nat} (h : x < 2 ^ 256) (c : Nat) :
    (Spec.reducePartial x + c) % p = (x + c) % p :=
  Nat.ModEq.add_right c (spec_reducePartial_mod x h)

/-! ### The check of REDPRC -/

section
variable {rc : Nat → Nat} {x i : Nat}

theorem raiseAssertion_reducePartialAddRc_ok (hr : rc i < p) (hx : x < 2 ^ 256)
    (h : Spec.reducePartial x + rc i < 2 * p) :
    raiseAssertion (reducePartialAddRc rc x i) = .ok (Spec.reducePartial x + rc i) := by
  rw [reducePartialAddRc_eq rc i x hr hx, if_neg (Nat.not_le.2 h), raiseAssertion_ok]

theorem raiseAssertion_reducePartialAddRc_error (hr : rc i < p) (hx : x < 2 ^ 256)
    (h : 2 * p ≤ Spec.reducePartial x + rc i) :
    raiseAssertion (reducePartialAddRc rc x i) = .error ⟨.assertion, BitVec.ofNat 64 i⟩ := by
  rw [reducePartialAddRc_eq rc i x hr hx, if_pos h, raiseAssertion_error]

end

/-! ### The round constants -/

theorem State.rc_zero (s : State) : s.rc 0 = 0 := rfl

theorem State.rc_one (s : State) : s.rc 1 = Spec.rcOne := rfl

theorem State.rc_seventeen (s : State) : s.rc 17 = 0 := rfl

/-- The open constants are the state's table (47_skyscraper.md R300). -/
theorem State.rc_open (s : State) (i : Fin 15) : s.rc (i.val + 2) = s.skyRc[i].toNat := by
  have hone : i.val + 2 ≠ 1 := by omega
  have hopen : 2 ≤ i.val + 2 ∧ i.val + 2 < 17 := by omega
  rw [State.rc, if_neg hone, dif_pos hopen]
  rfl

theorem rcOne_lt_skyRcSafe : Spec.rcOne < Spec.skyRcSafe := by decide

/-! ### The instructions -/

/-- An instruction that writes a number below `2^256` to `F[d]`, and nothing else. -/
theorem writesField_completes {i : Instr} {d : RegNo} {s : State} {body : Except Raise State} {y : Nat}
    (hi : exec i s = execute i s body) (hw : i.wellFormed = true)
    (hb : body = .ok (s.writeF d (BitVec.ofNat 256 y))) (hy : y < 2 ^ 256) :
    ∃ t z, exec i s = .next t ∧ readF t d = .ok z ∧ z.toNat = y ∧ Frame s t [d] [] [] noByte :=
  ⟨_, _, exec_of_body hi hw hb, readF_writeF s d _, by rw [BitVec.toNat_ofNat, Nat.mod_eq_of_lt hy],
    frame_writeF s d _⟩

section
variable {a : RegNo} {s : State} {x : FieldWord} (d : RegNo)

theorem exec_redp_completes (hx : readF s a = .ok x) :
    ∃ t z, exec (.redp d a) s = .next t ∧ readF t d = .ok z ∧ z.toNat = reducePartial x.toNat ∧
      Frame s t [d] [] [] noByte :=
  writesField_completes rfl rfl (by rw [hx, ok_bind, pure_eq_ok]) (reducePartial_lt x.isLt)

theorem exec_red1_completes (hx : readF s a = .ok x) :
    ∃ t z, exec (.red1 d a) s = .next t ∧ readF t d = .ok z ∧ z.toNat = reduce1 x.toNat ∧
      Frame s t [d] [] [] noByte :=
  writesField_completes rfl rfl (by rw [hx, ok_bind, pure_eq_ok]) (reduce1_lt x.isLt)

theorem exec_red_completes (hx : readF s a = .ok x) :
    ∃ t z, exec (.red d a) s = .next t ∧ readF t d = .ok z ∧ z.toNat = reduce x.toNat ∧
      Frame s t [d] [] [] noByte :=
  writesField_completes rfl rfl (by rw [hx, ok_bind, pure_eq_ok]) (reduce_lt x.isLt)

variable {i : BitVec 10}

theorem wellFormed_redprc (hi : i.toNat ≤ 17) : Instr.wellFormed (.redprc d a i) = true := by
  rw [Instr.wellFormed, Instr.fieldError, isNone_unless]
  exact decide_eq_true hi

theorem exec_redprc_completes (hi : i.toNat ≤ 17) (hrc : Spec.rcLegal s) (hx : readF s a = .ok x)
    (h : Spec.reducePartial x.toNat + s.rc i.toNat < 2 * p) :
    ∃ t z, exec (.redprc d a i) s = .next t ∧ readF t d = .ok z ∧
      z.toNat = Spec.reducePartial x.toNat + s.rc i.toNat ∧ Frame s t [d] [] [] noByte := by
  have hp := p_lt
  have hy := raiseAssertion_reducePartialAddRc_ok (s.rc_lt hrc i.toNat) x.isLt h
  exact writesField_completes rfl (wellFormed_redprc d hi) (by rw [hx, ok_bind, hy, ok_bind, pure_eq_ok]) (by omega)

theorem redprc_faults (hi : i.toNat ≤ 17) (hrc : Spec.rcLegal s) (hx : readF s a = .ok x)
    (h : 2 * p ≤ Spec.reducePartial x.toNat + s.rc i.toNat) :
    Faults (.redprc d a i) s .assertion (BitVec.ofNat 64 i.toNat) := by
  have hy := raiseAssertion_reducePartialAddRc_error (s.rc_lt hrc i.toNat) x.isLt h
  exact faults_of _ s _ _ _ rfl (wellFormed_redprc d hi) (by rw [hx, ok_bind, hy, error_bind])

end

end Sys2Proof.Machine

/-- Settles O33: each instruction writes its reduction of the source (`exec_redp_completes`, `exec_red1_completes`,
`exec_red_completes`), and the three reductions are the spec's (`reducePartial_eq`, `reduce1_eq`, `reduce_eq`). -/
theorem reductionResults : Obligations.ReductionResults := by
  open Sys2Proof.Machine in
  refine ⟨?redp, ?red1, ?red⟩
  case redp =>
    intro d a s x hx
    obtain ⟨t, z, ht, hz, hval, hframe⟩ := exec_redp_completes d hx
    rw [reducePartial_eq _ x.isLt] at hval
    refine ⟨t, z, ht, hz, hval, ?_, ?_, hframe⟩
    · rw [hval, spec_reducePartial_mod _ x.isLt]
    · rw [hval]
      exact (spec_reducePartial_le _ x.isLt).1
  case red1 =>
    intro d a s x hx
    rw [← reduce1_eq _ x.isLt]
    exact exec_red1_completes d hx
  case red =>
    intro d a s x hx
    rw [← reduce_eq _ x.isLt]
    exact exec_red_completes d hx

/-- Settles O34: the unit's check decides between the sum (`exec_redprc_completes`) and the fault (`redprc_faults`), a
constant below `SKY_RC_SAFE` always passes it, and the table is read entry by entry. -/
theorem redprcAddsConstant : Obligations.RedprcAddsConstant := by
  open Sys2Proof.Machine in
  constructor
  · intro d a i s x hi hrc hx
    refine ⟨fun h => ?_, redprc_faults d hi hrc hx, reducePartial_add_lt_of_safe x.isLt⟩
    obtain ⟨t, z, ht, hz, hval, hframe⟩ := exec_redprc_completes d hi hrc hx h
    exact ⟨t, z, ht, hz, hval, hval ▸ reducePartial_add_mod x.isLt _, hframe⟩
  · intro s
    exact ⟨s.rc_zero, s.rc_one, rcOne_lt_skyRcSafe, s.rc_seventeen, s.rc_open⟩

/-! PROOFS. The Bar family (46_bar.md), with the round constants of 47_skyscraper.md R300. The S-box is the formula of
R280 because each byte operation of it is the formula's on numbers, and a permutation because it has an inverse. BAR
writes `bar` of an operand below `2p`, and `bar_eq` reads such an operand through its canonical value alone. -/

namespace Sys2Proof.Machine

/-! ### The formula of the S-box -/

theorem toNat_rotateLeft_byte (v : Byte) {n : Nat} (hn : n < 8) : (v.rotateLeft n).toNat = Spec.rotl n v.toNat := by
  rw [BitVec.toNat_rotateLeft, Nat.mod_eq_of_lt hn, Spec.rotl, show (256 : Nat) = 2 ^ 8 from rfl, Nat.or_mod_two_pow,
    Nat.mod_eq_of_lt ((Nat.shiftRight_le _ _).trans_lt v.isLt)]

theorem toNat_not_byte (v : Byte) : (~~~v).toNat = 255 - v.toNat := BitVec.toNat_not

/-- The S-box is the spec's formula (46_bar.md R280). -/
theorem toNat_sbox (v : Byte) : (sbox v).toNat = Spec.sbox v.toNat := by
  rw [sbox, Spec.sbox, toNat_rotateLeft_byte _ (by decide), BitVec.toNat_xor, BitVec.toNat_and, BitVec.toNat_and,
    toNat_rotateLeft_byte _ (by decide), toNat_rotateLeft_byte _ (by decide), toNat_rotateLeft_byte _ (by decide),
    toNat_not_byte]

/-! ### The permutation -/

/-- One step towards the byte `v` that the S-box takes to `u`, once its last rotation is undone. Bit `i` of `u` differs
from that of `v` where bits `i - 1`, `i - 2`, `i - 3` of `v` are 0, 1, 1. The first two are then the same in `u`, so
that only the third is asked of the guess `g`. -/
def sboxUndo (u g : Byte) : Byte := u ^^^ (~~~u.rotateLeft 1 &&& u.rotateLeft 2 &&& g.rotateLeft 3)

/-- The inverse of the S-box (46_bar.md R281). A bit is wrong after a step only where the guess was wrong three places
below it, and no chain of such places is longer than two. -/
def sboxInv (w : Byte) : Byte :=
  let u := w.rotateRight 1
  sboxUndo u (sboxUndo u u)

theorem sboxInv_leftInverse : Function.LeftInverse sboxInv sbox := by
  unfold Function.LeftInverse
  decide

theorem sbox_injective : Function.Injective sbox := sboxInv_leftInverse.injective

theorem sbox_surjective : Function.Surjective sbox := Finite.surjective_of_injective sbox_injective

/-- The fixed points of the S-box (46_bar.md R281). -/
theorem sbox_eq_self_iff : ∀ v : Byte, sbox v = v ↔ v = 0x00 ∨ v = 0xFF := by decide

/-! ### The round constants -/

/-- The limbs of `RC[1]` (47_skyscraper.md R300). -/
theorem limbs_rcOne : limb 0 Spec.rcOne = 0x903c4324270bd744 ∧ limb 1 Spec.rcOne = 0x873125f708a7d269 ∧
    limb 2 Spec.rcOne = 0x081dd27906c83855 ∧ limb 3 Spec.rcOne = 0x276b1823ea6d7667 := by decide

/-! ### The Bar function -/

/-- Every byte that Bar substitutes (46_bar.md R284 steps 2 and 3). -/
theorem byteOf_sboxBytes_swap16 {y j : Nat} (hy : y < 2 ^ 256) (hj : j < 32) :
    byteOf (sboxBytes (swap16 y)) j = Spec.sbox (byteOf y ((j + 16) % 32)) := by
  have hb : byteOf y ((j + 16) % 32) < 2 ^ 8 := Nat.mod_lt _ (by decide)
  rw [byteOf_sboxBytes _ _ hj, byteOf_swap16 y j hy hj, toNat_sbox, BitVec.toNat_ofNat, Nat.mod_eq_of_lt hb]

theorem bar_add_p {x : Nat} (h : x < p) : bar (x + p) = bar x := by
  rw [bar_eq _ (by omega), bar_eq _ (by omega), Nat.add_mod_right]

theorem bar_zero : bar 0 = 0 := by decide

/-! ### The instruction -/

section
variable {a : RegNo} {s : State} {x : FieldWord} (d : RegNo)

theorem exec_bar_completes (hx : readF s a = .ok x) (h : x.toNat < 2 * p) :
    ∃ t z, exec (.bar d a) s = .next t ∧ readF t d = .ok z ∧ z.toNat = bar x.toNat ∧ Frame s t [d] [] [] noByte := by
  have hp := p_lt
  have hb := bar_lt h
  exact writesField_completes rfl rfl (by rw [hx, ok_bind, require_of h, ok_bind, pure_eq_ok]) (by omega)

theorem bar_faults (hx : readF s a = .ok x) (h : 2 * p ≤ x.toNat) : Faults (.bar d a) s .operandBound 0 :=
  faults_of _ s _ _ _ rfl rfl (by rw [hx, ok_bind, require_of_not (Nat.not_lt.2 h), error_bind])

end

end Sys2Proof.Machine

/-- Settles O39: BAR's one check decides between `bar` of the operand (`exec_bar_completes`) and the fault
(`bar_faults`), and the number that Bar reduces has the bytes of `byteOf_sboxBytes_swap16`. -/
theorem barResult : Obligations.BarResult := by
  open Sys2Proof.Machine in
  intro d a s x hx
  refine ⟨fun h => ?_, bar_faults d hx⟩
  obtain ⟨t, z, ht, hz, hval, hframe⟩ := exec_bar_completes d hx h
  have hy : x.toNat % p < 2 ^ 256 := (Nat.mod_le _ _).trans_lt x.isLt
  exact ⟨t, z, ht, hz, ⟨sboxBytes (swap16 (x.toNat % p)), sboxBytes_lt _, hval.trans (bar_eq _ h),
    fun j hj => byteOf_sboxBytes_swap16 hy hj⟩, hframe⟩

/-- Settles O40: `bar_add_p`, at 0 and at `p - 1` for the two named values. -/
theorem barDependsOnResidue : Obligations.BarDependsOnResidue := by
  open Sys2Proof.Machine in
  have hp := p_pos
  have hzero : bar p = bar 0 := by simpa only [Nat.zero_add] using bar_add_p hp
  have hlast : p - 1 + p = 2 * p - 1 := by omega
  exact ⟨fun x h => bar_add_p h, hzero.trans bar_zero, bar_zero, hlast ▸ bar_add_p (by omega)⟩

/-- Settles O60: `toNat_sbox` for the formula, the inverse `sboxInv` for the permutation, and the table of round
constants entry by entry. -/
theorem sboxAndRoundConstants : Obligations.SboxAndRoundConstants := by
  open Sys2Proof.Machine in
  refine ⟨toNat_sbox, by decide, by decide, fun _ _ h => sbox_injective h, sbox_surjective, sbox_eq_self_iff,
    fun s => ?_⟩
  rw [s.rc_one]
  obtain ⟨h0, h1, h2, h3⟩ := limbs_rcOne
  exact ⟨s.rc_zero, rfl, h0, h1, h2, h3, s.rc_seventeen, s.rc_open, fun hrc i _ => s.rc_lt hrc i⟩

/-! PROOFS. The Skyscraper compression (47_skyscraper.md). The rounds stay bounded while none of them has raised
ASSERTION, so that a compression is decided by the first round that reaches `2p`; CMPR and CMPRM store its hash. Two
squaring kernels that agree modulo `p` go through states that agree modulo `p`, and the last reduction is canonical. -/

namespace Sys2Proof.Machine

/-! ### The rounds -/

theorem five_p_lt : 5 * p < 2 ^ 256 := by decide

/-- The state pair is bounded as long as no round has reached `2p` (47_skyscraper.md R306). -/
theorem roundBounded_of_rounds {rc : Nat → Nat} {l r : Nat} (hl : l < p) (hr : r < p) : ∀ i,
    (∀ j, 1 ≤ j → j ≤ i → (Spec.skyRound rc l r j).1 < 2 * p) → RoundBounded (Spec.skyRound rc l r i)
  | 0, _ => roundBounded_zero rc hl hr
  | i + 1, h => by
    have hprev := roundBounded_of_rounds hl hr i fun j h1 hj => h j h1 (by omega)
    refine ⟨h (i + 1) (by omega) le_rfl, ?_⟩
    rw [spec_skyRound_succ]
    exact hprev.1

/-- What a round reduces is below `4p`. -/
theorem round_sum_lt {x : Nat × Nat} (h : RoundBounded x) (i : Nat) : x.2 + skyF montSq i x.1 < 4 * p := by
  have hf := skyF_lt i h.1
  have hr := h.2
  omega

theorem round_square_sum_lt {x : Nat × Nat} (h : RoundBounded x) : x.2 + cios x.1 x.1 < 4 * p := by
  have hsq : cios x.1 x.1 < 2 * p := montSq_lt h.1
  have hr := h.2
  omega

theorem round_bar_sum_lt {x : Nat × Nat} (h : RoundBounded x) : x.2 + bar x.1 < 4 * p := by
  have hbar := bar_lt h.1
  have hr := h.2
  omega

/-- A round whose constant is below `SKY_RC_SAFE` does not reach `2p` (47_skyscraper.md R306 point 5). -/
theorem skyRound_succ_lt_of_safe {rc : Nat → Nat} {l r i : Nat} (h : RoundBounded (Spec.skyRound rc l r i))
    (hsafe : rc (i + 1) < Spec.skyRcSafe) : (Spec.skyRound rc l r (i + 1)).1 < 2 * p := by
  have hp := p_lt
  have hsum := round_sum_lt h (i + 1)
  rw [spec_skyRound_succ]
  exact reducePartial_add_lt_of_safe (by omega) hsafe

theorem noAssertion_of_safe {rc : Nat → Nat} {l r : Nat} (hl : l < p) (hr : r < p)
    (hsafe : ∀ i, 1 ≤ i → i ≤ 16 → rc i < Spec.skyRcSafe) : Spec.noAssertion rc l r := by
  intro i
  induction i using Nat.strong_induction_on with
  | _ i ih =>
    intro h1 h16
    obtain ⟨k, rfl⟩ : ∃ k, i = k + 1 := ⟨i - 1, by omega⟩
    refine skyRound_succ_lt_of_safe (roundBounded_of_rounds hl hr k fun j hj hjk => ?_) (hsafe _ h1 h16)
    exact ih j (by omega) hj (by omega)

/-- The table's entries are all below `SKY_RC_SAFE` where the open ones are. -/
theorem rc_lt_safe {s : State} (h : Spec.rcSafe s) {i : Nat} (h1 : 1 ≤ i) (h16 : i ≤ 16) :
    s.rc i < Spec.skyRcSafe := by
  rcases Nat.eq_or_lt_of_le h1 with rfl | h2
  · exact rcOne_lt_skyRcSafe
  · have e := s.rc_open ⟨i - 2, by omega⟩
    rw [show i - 2 + 2 = i by omega] at e
    rw [e]
    exact h _

/-! ### The compression -/

/-- The compression as the sixteen rounds and the feed-forward. -/
theorem compress_eq_rounds (rc : Nat → Nat) {l r : Nat} (hl : l < p) (hr : r < p) :
    compress rc l r = skyRounds montSq rc (List.range' 1 16) (Spec.skyRound rc l r 0) >>=
      fun x => pure (reduce (x.2 + montSq x.1 + l)) := by
  have hp := p_lt
  have hsq : montSq l < 2 * p := montSq_lt (by omega)
  have h0 : (reducePartial (r + montSq l), l) = Spec.skyRound rc l r 0 := by
    rw [reducePartial_eq _ (by omega)]
    rfl
  rw [compress, compressWith, h0]

/-- The rounds stop at the first that reaches `2p`. -/
theorem skyRounds_first {rc : Nat → Nat} {l r k : Nat} (hrc : ∀ i, rc i < p) (hk : 2 * p ≤ (Spec.skyRound rc l r k).1)
    (n : Nat) : ∀ i, RoundBounded (Spec.skyRound rc l r i) → i < k → k ≤ i + n →
    (∀ j, i < j → j < k → (Spec.skyRound rc l r j).1 < 2 * p) →
    skyRounds montSq rc (List.range' (i + 1) n) (Spec.skyRound rc l r i) = .error k := by
  induction n with
  | zero =>
    intro i _ hik hki
    omega
  | succ n ih =>
    intro i hb hik hki hbefore
    rw [List.range'_succ, skyRounds, skyRound_spec hrc hb]
    rcases Nat.eq_or_lt_of_le (Nat.succ_le_of_lt hik) with rfl | hlt
    · rw [if_neg (Nat.not_lt.2 hk), error_bind]
    · have hi := hbefore (i + 1) (by omega) hlt
      rw [if_pos hi, ok_bind]
      refine ih (i + 1) ⟨hi, ?_⟩ hlt (by omega) fun j hj => hbefore j (by omega)
      rw [spec_skyRound_succ]
      exact hb.1

/-- The compression raises ASSERTION with the first round that reaches `2p`. -/
theorem compress_error {rc : Nat → Nat} {l r i : Nat} (hrc : ∀ i, rc i < p) (hl : l < p) (hr : r < p)
    (h : Spec.firstAssertion rc l r i) : compress rc l r = .error i := by
  obtain ⟨h1, h16, hi, hbefore⟩ := h
  rw [compress_eq_rounds rc hl hr, skyRounds_first hrc hi 16 0 (roundBounded_zero rc hl hr) (by omega) (by omega)
    fun j hj => hbefore j (by omega), error_bind]

/-- A compression that no round lets through has a first round that does not. -/
theorem exists_firstAssertion {rc : Nat → Nat} {l r : Nat} (h : ¬Spec.noAssertion rc l r) :
    ∃ i, Spec.firstAssertion rc l r i := by
  classical
  have hex : ∃ i, 1 ≤ i ∧ i ≤ 16 ∧ 2 * p ≤ (Spec.skyRound rc l r i).1 := by
    simpa only [Spec.noAssertion, not_forall, not_lt, exists_prop] using h
  obtain ⟨h1, h16, hi⟩ := Nat.find_spec hex
  refine ⟨Nat.find hex, h1, h16, hi, fun j hj hlt => Nat.lt_of_not_le fun hbig => ?_⟩
  exact Nat.find_min hex hlt ⟨hj, by omega, hbig⟩

theorem hash_lt (rc : Nat → Nat) (l r : Nat) : Spec.hash rc l r < p := Nat.mod_lt _ p_pos

theorem hash_lt_field (rc : Nat → Nat) (l r : Nat) : Spec.hash rc l r < 2 ^ 256 :=
  (hash_lt rc l r).trans (by decide)

/-! ### The squaring kernel -/

/-- A squaring kernel as the spec allows it: below `2p`, and congruent to the Montgomery square (47_skyscraper.md
R320). -/
def SquareKernel (sq : Nat → Nat) : Prop := ∀ x, x < 2 * p → sq x * 2 ^ 256 % p = x * x % p ∧ sq x < 2 * p

theorem squareKernel_montSq : SquareKernel montSq := by
  intro x hx
  have hp := p_lt
  exact ⟨isCios_mod (cios_spec x x (by omega)), montSq_lt hx⟩

/-- Two state pairs, both bounded, that agree modulo `p`. -/
structure SameResidues (x y : Nat × Nat) : Prop where
  left : x.1 % p = y.1 % p
  right : x.2 % p = y.2 % p
  boundedLeft : RoundBounded x
  boundedRight : RoundBounded y

section
variable {sq sq' : Nat → Nat} (hsq : SquareKernel sq) (hsq' : SquareKernel sq')
include hsq hsq'

/-- Kernels that meet the rule agree modulo `p`, as `2^256` is invertible. -/
theorem kernel_mod_eq {x y : Nat} (hx : x < 2 * p) (hy : y < 2 * p) (h : x % p = y % p) : sq x % p = sq' y % p := by
  apply mod_eq_of_mul_montR
  rw [(hsq x hx).1, (hsq' y hy).1]
  exact Nat.ModEq.mul h h

/-- Bar reads its operand through its residue (46_bar.md R286), a square by its kernel. -/
theorem skyF_mod_eq {x y : Nat} (i : Nat) (hx : x < 2 * p) (hy : y < 2 * p) (h : x % p = y % p) :
    skyF sq i x % p = skyF sq' i y % p := by
  unfold skyF
  split
  · rw [bar_eq x hx, bar_eq y hy, h]
  · exact kernel_mod_eq hsq hsq' hx hy h

omit hsq' in
theorem skyF_kernel_lt {x : Nat} (i : Nat) (hx : x < 2 * p) : skyF sq i x < 2 * p := by
  unfold skyF
  split
  · exact bar_lt hx
  · exact (hsq x hx).2

omit hsq' in
/-- A round that raises no ASSERTION stays below `2p`, and keeps the sum modulo `p`. -/
theorem skyRound_completed {rc : Nat → Nat} {i : Nat} {x x' : Nat × Nat} (hrc : rc i < p) (hx : RoundBounded x)
    (h : skyRound sq rc i x = .ok x') :
    x'.1 % p = (x.2 + skyF sq i x.1 + rc i) % p ∧ x'.2 = x.1 ∧ RoundBounded x' := by
  have hp := p_lt
  have hf := skyF_kernel_lt hsq i hx.1
  have hr := hx.2
  rw [skyRound_eq sq rc i x.1 x.2 hrc hf hr] at h
  split at h
  · cases h
  · rename_i hlt
    rw [← Except.ok.inj h]
    exact ⟨reducePartial_add_mod (by omega) _, rfl, Nat.lt_of_not_le hlt, hx.1⟩

theorem skyRound_sameResidues {rc : Nat → Nat} {i : Nat} {x y x' y' : Nat × Nat} (hrc : rc i < p)
    (h : SameResidues x y) (hx : skyRound sq rc i x = .ok x') (hy : skyRound sq' rc i y = .ok y') :
    SameResidues x' y' := by
  obtain ⟨hx1, hx2, hbx⟩ := skyRound_completed hsq hrc h.boundedLeft hx
  obtain ⟨hy1, hy2, hby⟩ := skyRound_completed hsq' hrc h.boundedRight hy
  refine ⟨?_, by rw [hx2, hy2, h.left], hbx, hby⟩
  rw [hx1, hy1]
  exact ((Nat.ModEq.add h.right (skyF_mod_eq hsq hsq' i h.boundedLeft.1 h.boundedRight.1 h.left))).add_right (rc i)

theorem skyRounds_sameResidues {rc : Nat → Nat} (hrc : ∀ i, rc i < p) (is : List Nat) : ∀ {x y x' y' : Nat × Nat},
    SameResidues x y → skyRounds sq rc is x = .ok x' → skyRounds sq' rc is y = .ok y' → SameResidues x' y' := by
  induction is with
  | nil =>
    intro x y x' y' h hx hy
    rw [← Except.ok.inj hx, ← Except.ok.inj hy]
    exact h
  | cons i is ih =>
    intro x y x' y' h hx hy
    rw [skyRounds] at hx hy
    cases hxi : skyRound sq rc i x with
    | error e => rw [hxi, error_bind] at hx; cases hx
    | ok xi =>
      cases hyi : skyRound sq' rc i y with
      | error e => rw [hyi, error_bind] at hy; cases hy
      | ok yi =>
        rw [hxi, ok_bind] at hx
        rw [hyi, ok_bind] at hy
        exact ih (skyRound_sameResidues hsq hsq' (hrc i) h hxi hyi) hx hy

omit hsq hsq' in
/-- A compression that completes has gone through its rounds. -/
theorem compressWith_completed {rc : Nat → Nat} {l r h : Nat} (hh : compressWith sq rc l r = .ok h) :
    ∃ x, skyRounds sq rc (List.range' 1 16) (reducePartial (r + sq l), l) = .ok x ∧
      h = reduce (x.2 + sq x.1 + l) := by
  rw [compressWith] at hh
  cases hx : skyRounds sq rc (List.range' 1 16) (reducePartial (r + sq l), l) with
  | error e => rw [hx, error_bind] at hh; cases hh
  | ok x => rw [hx, ok_bind, pure_eq_ok] at hh; exact ⟨x, rfl, (Except.ok.inj hh).symm⟩

omit hsq' in
theorem firstState_bounded {l r : Nat} (hl : l < p) (hr : r < p) :
    RoundBounded (reducePartial (r + sq l), l) ∧ reducePartial (r + sq l) % p = (r + sq l) % p := by
  have hp := p_lt
  have hlt := (hsq l (by omega)).2
  rw [reducePartial_eq _ (by omega)]
  exact ⟨⟨(spec_reducePartial_le _ (by omega)).1.trans_lt redpMax_lt, by omega⟩, spec_reducePartial_mod _ (by omega)⟩

omit hsq' in
theorem feedForward_mod {l : Nat} {x : Nat × Nat} (hl : l < p) (hx : RoundBounded x) :
    reduce (x.2 + sq x.1 + l) = (x.2 + sq x.1 + l) % p := by
  have hp := five_p_lt
  have hlt := (hsq x.1 hx.1).2
  have hr := hx.2
  exact reduce_eq _ (by omega)

/-- The hash does not depend on the kernel (47_skyscraper.md R320). -/
theorem compressWith_kernel_eq {rc : Nat → Nat} {l r h h' : Nat} (hrc : ∀ i, rc i < p) (hl : l < p) (hr : r < p)
    (hh : compressWith sq rc l r = .ok h) (hh' : compressWith sq' rc l r = .ok h') : h' = h := by
  have hp := p_lt
  obtain ⟨x, hx, rfl⟩ := compressWith_completed hh
  obtain ⟨y, hy, rfl⟩ := compressWith_completed hh'
  obtain ⟨hb, hm⟩ := firstState_bounded hsq hl hr
  obtain ⟨hb', hm'⟩ := firstState_bounded hsq' hl hr
  have hl2 : l < 2 * p := by omega
  have hstart : SameResidues (reducePartial (r + sq l), l) (reducePartial (r + sq' l), l) :=
    ⟨by rw [hm, hm']; exact Nat.ModEq.add_left r (kernel_mod_eq hsq hsq' hl2 hl2 rfl), rfl, hb, hb'⟩
  have hend := skyRounds_sameResidues hsq hsq' hrc _ hstart hx hy
  rw [feedForward_mod hsq hl hend.boundedLeft, feedForward_mod hsq' hl hend.boundedRight]
  have hsquare := kernel_mod_eq hsq hsq' hend.boundedLeft.1 hend.boundedRight.1 hend.left
  exact ((Nat.ModEq.add hend.right hsquare).add_right l).symm

end

/-! ### CMPR -/

section
variable {a b : RegNo} {s : State} {l r : FieldWord} (d : RegNo)

theorem exec_cmpr_of_hash {h : Nat} (hl : readF s a = .ok l) (hr : readF s b = .ok r) (hlp : l.toNat < p)
    (hrp : r.toNat < p) (hh : compress s.rc l.toNat r.toNat = .ok h) :
    exec (.cmpr d a b) s = .next (s.writeF d (BitVec.ofNat 256 h)).advance :=
  exec_of_body rfl rfl (by
    rw [hl, ok_bind, hr, ok_bind, require_of hlp, ok_bind, require_of hrp, ok_bind, hh, raiseAssertion_ok, ok_bind,
      pure_eq_ok])

theorem cmpr_faults_assertion {i : Nat} (hl : readF s a = .ok l) (hr : readF s b = .ok r) (hlp : l.toNat < p)
    (hrp : r.toNat < p) (hh : compress s.rc l.toNat r.toNat = .error i) :
    Faults (.cmpr d a b) s .assertion (BitVec.ofNat 64 i) :=
  faults_of _ s _ _ _ rfl rfl (by
    rw [hl, ok_bind, hr, ok_bind, require_of hlp, ok_bind, require_of hrp, ok_bind, hh, raiseAssertion_error,
      error_bind])

theorem cmpr_faults_first (hl : readF s a = .ok l) (hr : readF s b = .ok r) (hlp : p ≤ l.toNat) :
    Faults (.cmpr d a b) s .operandBound 0 :=
  faults_of _ s _ _ _ rfl rfl (by rw [hl, ok_bind, hr, ok_bind, require_of_not (Nat.not_lt.2 hlp), error_bind])

theorem cmpr_faults_second (hl : readF s a = .ok l) (hr : readF s b = .ok r) (hlp : l.toNat < p)
    (hrp : p ≤ r.toNat) : Faults (.cmpr d a b) s .operandBound 1 :=
  faults_of _ s _ _ _ rfl rfl (by
    rw [hl, ok_bind, hr, ok_bind, require_of hlp, ok_bind, require_of_not (Nat.not_lt.2 hrp), error_bind])

end

/-! ### CMPRM -/

/-- A buffer of numbers of `n` bytes each, from its element `j` on. -/
theorem flatMap_leBytes_part {α : Type} (n : Nat) (g : α → Nat) (xs : List α) : ∀ j (h : j < xs.length),
    ((xs.flatMap fun x => leBytes n (g x)).drop (n * j)).take n = leBytes n (g xs[j]) := by
  induction xs with
  | nil => exact fun j h => (Nat.not_lt_zero j h).elim
  | cons x xs ih =>
    intro j h
    rw [List.flatMap_cons]
    cases j with
    | zero => rw [Nat.mul_zero, List.drop_zero, List.take_left' (length_leBytes n _)]; rfl
    | succ j =>
      have hdrop : n * (j + 1) = (leBytes n (g x)).length + n * j := by rw [length_leBytes]; ring
      rw [hdrop, List.drop_length_add_append]
      exact ih j (Nat.lt_of_succ_lt_succ h)

/-- A field element has 32 bytes (20_memory.md R73). -/
theorem bytes_of_field : 256 ^ 32 = 2 ^ 256 := by norm_num

theorem length_flatMap_leBytes {α : Type} (n : Nat) (g : α → Nat) (xs : List α) :
    (xs.flatMap fun x => leBytes n (g x)).length = n * xs.length := by
  simp only [List.length_flatMap, length_leBytes, List.map_const', List.sum_replicate, smul_eq_mul]
  ring

/-- Element `j` of a buffer of numbers written at `e`. -/
theorem memRead_flatMap_leBytes {α : Type} (m : Memory) (e n : Nat) (g : α → Nat) (xs : List α) {j : Nat}
    (h : j < xs.length) :
    memRead (writeBytes m e (xs.flatMap fun x => leBytes n (g x))) (e + n * j) n = g xs[j] % 256 ^ n := by
  have hpart : n * j + n ≤ (xs.flatMap fun x => leBytes n (g x)).length := by
    rw [length_flatMap_leBytes, ← Nat.mul_succ]
    exact Nat.mul_le_mul_left n h
  rw [memRead_writeBytes_part m e (n * j) n _ hpart, flatMap_leBytes_part, leNat_leBytes]

theorem length_messagePairs (s : State) (a n : Nat) : (messagePairs s a n).length = n := by
  rw [messagePairs, List.length_map, List.length_range]

theorem getElem_messagePairs (s : State) (a n j : Nat) (h : j < (messagePairs s a n).length) :
    (messagePairs s a n)[j] = (a + 64 * j, message s a (2 * j), message s a (2 * j + 1)) := by
  simp only [messagePairs, List.getElem_map, List.getElem_range]

/-- What CMPRM's job is where its checks before the computation hold. -/
theorem cmprmJob_of_checks {d a b c : RegNo} {s : State} (hs : Written s [.x d, .x a, .x b, .x c])
    (hjob : checksHold (jobChecks s d a b c)) :
    cmprmJob d a b c s = .ok ((xValue s d).toNat, (xValue s c).toNat,
      messagePairs s (xValue s a).toNat ((xValue s b).toNat / 64)) ∧
    (∀ k, k < 2 * ((xValue s b).toNat / 64) → message s (xValue s a).toNat k < p) ∧
    32 * ((xValue s b).toNat / 64) = (xValue s c).toNat := by
  obtain ⟨job, hj, rfl⟩ :=
    (cmprmJob_decides d a b c s hs.head hs.tail.head hs.tail.tail.head hs.tail.tail.tail.head).1 hjob
  obtain ⟨hshape, hmsg⟩ := (checksHold_append _ _).1 hjob
  obtain ⟨-, hout, hsame⟩ := hshape _ List.mem_cons_self
  exact ⟨hj, checksHold_range hmsg, by omega⟩

/-- CMPRM whose checks hold stores the spec's hash of every pair. -/
theorem exec_cmprm_hashes {d a b c : RegNo} {s : State} (hrc : Spec.rcLegal s)
    (hs : Written s [.x d, .x a, .x b, .x c]) (hc : checksHold (cmprmChecks s d a b c)) :
    exec (.cmprm d a b c) s = .next (s.store (xValue s d).toNat
      ((messagePairs s (xValue s a).toNat ((xValue s b).toNat / 64)).flatMap
        fun x => leBytes 32 (Spec.hash s.rc x.2.1 x.2.2))).advance ∧
    32 * ((xValue s b).toNat / 64) = (xValue s c).toNat := by
  rw [cmprmChecks_eq, checksHold_append] at hc
  obtain ⟨hjob, hhash⟩ := hc
  obtain ⟨hj, hmsg, hlen⟩ := cmprmJob_of_checks hs hjob
  exact ⟨exec_cmprm_of_hashes hj (hashPairs_messagePairs hrc hmsg (checksHold_range hhash)), hlen⟩

/-- The hash of a pair whose compression completes. -/
def pairHash (rc : Nat → Nat) (x : Nat × Nat × Nat) : Nat := (compress rc x.2.1 x.2.2).toOption.getD 0

/-- Where the hash buffer is complete, every compression has completed. -/
theorem compress_of_hashPairs {rc : Nat → Nat} {ps : List (Nat × Nat × Nat)} : ∀ {bs : List Byte},
    hashPairs rc ps = .ok bs → ∀ x ∈ ps, compress rc x.2.1 x.2.2 = .ok (pairHash rc x) := by
  induction ps with
  | nil => exact fun _ x hx => (List.not_mem_nil hx).elim
  | cons x ps ih =>
    obtain ⟨a, l, r⟩ := x
    intro bs h
    rw [hashPairs] at h
    cases hc : compress rc l r with
    | error e => rw [hc, Except.mapError, error_bind] at h; cases h
    | ok v =>
      cases hq : hashPairs rc ps with
      | error e => rw [hc, Except.mapError, ok_bind, hq, error_bind] at h; cases h
      | ok b =>
        refine List.forall_mem_cons.2 ⟨?_, ih hq⟩
        rw [pairHash, hc]
        rfl

/-- A job is found only where the operands have been written and the checks before the computation hold. -/
theorem checks_of_cmprmJob {d a b c : RegNo} {s : State} {job : Nat × Nat × List (Nat × Nat × Nat)}
    (h : cmprmJob d a b c s = .ok job) :
    Written s [.x d, .x a, .x b, .x c] ∧ checksHold (jobChecks s d a b c) := by
  have hs : Written s [.x d, .x a, .x b, .x c] := by
    cases hf : firstUnwritten s [.x d, .x a, .x b, .x c] with
    | none => exact fun r hr => Bool.eq_false_of_not_eq_true (List.find?_eq_none.1 hf r hr)
    | some r => rw [readsFirst_cmprmJob r hf] at h; cases h
  refine ⟨hs, (holds_or_fails _).resolve_right ?_⟩
  rintro ⟨cause, info, hfail⟩
  have hd := cmprmJob_decides d a b c s hs.head hs.tail.head hs.tail.tail.head hs.tail.tail.tail.head
  rw [hd.2 cause info hfail] at h
  cases h

/-- A CMPRM that leaves the engine running has compressed every pair and stored the hashes. -/
theorem exec_cmprm_running {d a b c : RegNo} {s t : State} (h : exec (.cmprm d a b c) s = .next t)
    (hb : t.busy = true) :
    (∀ k, k < 2 * ((xValue s b).toNat / 64) → message s (xValue s a).toNat k < p) ∧
    (∀ x ∈ messagePairs s (xValue s a).toNat ((xValue s b).toNat / 64),
      compress s.rc x.2.1 x.2.2 = .ok (pairHash s.rc x)) ∧
    t = (s.store (xValue s d).toNat ((messagePairs s (xValue s a).toNat ((xValue s b).toNat / 64)).flatMap
      fun x => leBytes 32 (pairHash s.rc x))).advance := by
  have hx : execCmprm d a b c s = .next t := h
  rw [execCmprm] at hx
  cases hj : cmprmJob d a b c s with
  | error e =>
    rw [hj] at hx
    injection hx with hx
    rw [← hx] at hb
    exact nomatch hb
  | ok job =>
    obtain ⟨hs, hjob⟩ := checks_of_cmprmJob hj
    obtain ⟨hj', hmsg, -⟩ := cmprmJob_of_checks hs hjob
    rw [hj'] at hx
    injection hx with hx
    cases hh : hashPairs s.rc (messagePairs s (xValue s a).toNat ((xValue s b).toNat / 64)) with
    | error e =>
      rw [hh, cmprmEnd] at hx
      rw [← hx] at hb
      exact nomatch hb
    | ok bs =>
      have hcomp := compress_of_hashPairs hh
      rw [hashPairs_ok s.rc (pairHash s.rc) _ hcomp, cmprmEnd] at hx
      exact ⟨hmsg, hcomp, hx.symm⟩

end Sys2Proof.Machine

/-- Settles O41: the rounds are bounded while none has reached `2p` (`roundBounded_of_rounds`), and the first that does
is the compression's ASSERTION (`compress_ok`, `compress_error`). -/
theorem compressionBounds : Obligations.CompressionBounds := by
  open Sys2Proof.Machine in
  intro s l r hrc hl hr
  have hp := p_lt
  have hrc' := s.rc_lt hrc
  refine ⟨⟨?first, redpMax_lt, rfl⟩, fun i _ => ?previous, fun i _ h => ?bounds, five_p_lt, fun h => ?completes,
    fun i h => compress_error hrc' hl hr h, ?one, fun h => noAssertion_of_safe hl hr fun i => rc_lt_safe h⟩
  case first =>
    have hsq : cios l l < 2 * p := montSq_lt (x := l) (by omega)
    exact (spec_reducePartial_le (r + cios l l) (by omega)).1
  case previous => rw [spec_skyRound_succ]
  case bounds =>
    have hb := roundBounded_of_rounds hl hr i h
    exact ⟨hb.1, hb.2, montSq_lt hb.1, round_square_sum_lt hb, round_bar_sum_lt hb,
      fun _ hsafe => skyRound_succ_lt_of_safe hb hsafe⟩
  case completes =>
    have hb := roundBounded_of_rounds hl hr 16 h
    have hsum := round_square_sum_lt hb
    exact ⟨by omega, compress_ok hrc' hl hr h⟩
  case one => exact skyRound_succ_lt_of_safe (roundBounded_zero s.rc hl hr) rcOne_lt_skyRcSafe

/-- Settles O42: CMPR makes its two bound checks and then compresses, and the compression is O41's. -/
theorem cmprResults : Obligations.CmprResults := by
  open Sys2Proof.Machine in
  intro d a b s l r hrc hl hr
  refine ⟨fun hlp hrp h => ?_, fun hlp hrp i h => cmpr_faults_assertion d hl hr hlp hrp
    (compress_error (s.rc_lt hrc) hlp hrp h), cmpr_faults_first d hl hr, cmpr_faults_second d hl hr⟩
  have hval : (BitVec.ofNat 256 (Spec.hash s.rc l.toNat r.toNat)).toNat = Spec.hash s.rc l.toNat r.toNat := by
    rw [BitVec.toNat_ofNat, Nat.mod_eq_of_lt (hash_lt_field ..)]
  exact ⟨_, _, exec_cmpr_of_hash d hl hr hlp hrp (compress_ok (s.rc_lt hrc) hlp hrp h), readF_writeF s d _, hval,
    hval.trans_lt (hash_lt ..), frame_writeF s d _⟩

/-- Settles O43: round by round the two state pairs agree modulo `p` (`skyRounds_sameResidues`). -/
theorem representativeIndependence : Obligations.RepresentativeIndependence := by
  open Sys2Proof.Machine in
  exact fun _ _ _ _ _ _ hsq' hrc hl hr h h' => compressWith_kernel_eq squareKernel_montSq hsq' hrc hl hr h h'

/-- Settles O44: what is stored is the hashes' bytes in order (`exec_cmprm_hashes`), each read back as written. -/
theorem cmprmResults : Obligations.CmprmResults := by
  open Sys2Proof.Machine in
  intro d a b c s hrc hs hc
  obtain ⟨hx, hlen⟩ := exec_cmprm_hashes hrc ((sourcesWritten_iff _ s).1 hs) hc
  refine ⟨_, hx, fun j hj => ?_, frame_store s _ _ _ (by rw [length_flatMap_leBytes, length_messagePairs, hlen])⟩
  have hj' : j < (messagePairs s (xValue s a).toNat ((xValue s b).toNat / 64)).length := by rwa [length_messagePairs]
  rw [State.advance_dmem, State.store_dmem, memRead_flatMap_leBytes _ _ 32 _ _ hj', getElem_messagePairs,
    bytes_of_field, Nat.mod_eq_of_lt (hash_lt_field ..)]

/-- Settles O45: CMPRM that completes has compressed the pair with success (`exec_cmprm_running`), which CMPR on the
same operands and constants then does too. -/
theorem batchEqualsSingle : Obligations.BatchEqualsSingle := by
  open Sys2Proof.Machine in
  intro d a b c d' a' b' s t u j l r hrc hx _ hb hj hl hr hlm hrm
  obtain ⟨hmsg, hcomp, rfl⟩ := exec_cmprm_running hx hb
  have hj' : j < (messagePairs s (xValue s a).toNat ((xValue s b).toNat / 64)).length := by rwa [length_messagePairs]
  have hmem := List.getElem_mem hj'
  rw [getElem_messagePairs, ← hlm, ← hrm] at hmem
  have hrc' : u.rc = s.rc := by
    funext i
    rw [State.rc, State.rc, hrc]
  have hh := hcomp _ hmem
  rw [← hrc'] at hh
  have hlp : l.toNat < p := hlm ▸ hmsg (2 * j) (by omega)
  have hrp : r.toNat < p := hrm ▸ hmsg (2 * j + 1) (by omega)
  refine ⟨_, _, exec_cmpr_of_hash d' hl hr hlp hrp hh, readF_writeF u d' _, ?_⟩
  rw [State.advance_dmem, State.store_dmem, memRead_flatMap_leBytes _ _ 32 _ _ hj', getElem_messagePairs,
    BitVec.toNat_ofNat, ← hlm, ← hrm, hrc', bytes_of_field]

/-! PROOFS. The CM31 NTT unit (48_cm31_ntt.md). The elements are embedded in the field of two elements of order `q`
with `i^2 = -1`, where the library's orders and geometric sums speak of roots and of the inverse transform. Every
instruction of the unit stores one transform, of the elements it read, with a root of its own. -/

namespace Sys2Proof.Machine

/-! ### CM31 as a field -/

/-- The field with `q^2` elements: pairs over the integers modulo `q`, with `i^2 = -1` (48_cm31_ntt.md R330). -/
abbrev CmField : Type := QuadraticAlgebra (ZMod q) (-1) 0

/-- An element in the field. -/
def cmField (z : Cm31) : CmField := ⟨z.re, z.im⟩

theorem cmField_isDomain : IsDomain CmField := by
  have hq : Fact (Nat.Prime q) := ⟨q_prime⟩
  have hirr : Fact (∀ r : ZMod q, r ^ 2 ≠ -1 + 0 * r) := by
    refine ⟨fun r hr => one_ne_zero (sum_squares_zero r 1 ?_).2⟩
    linear_combination hr
  infer_instance

@[simp] theorem cmField_zero : cmField cmZero = 0 := by
  ext <;> exact Nat.cast_zero

@[simp] theorem cmField_one : cmField cmOne = 1 := by
  ext
  · exact Nat.cast_one
  · exact Nat.cast_zero

@[simp] theorem cmField_add (x y : Cm31) : cmField (cmAdd x y) = cmField x + cmField y := by
  ext <;> simp [cmField, cmAdd, modQ_cast]

@[simp] theorem cmField_mul (x y : Cm31) : cmField (cmMul x y) = cmField x * cmField y := by
  ext
  · simp [cmField, cmMul, modQ_cast, sub_eq_add_neg]
  · simp [cmField, cmMul, modQ_cast]

@[simp] theorem cmField_pow (w : Cm31) (n : Nat) : cmField (Spec.pow w n) = cmField w ^ n := by
  induction n with
  | zero => rw [Spec.pow, cmField_one, pow_zero]
  | succ n ih => rw [Spec.pow, cmField_mul, ih, pow_succ]

theorem natCast_inj_of_lt {a b : Nat} (ha : a < q) (hb : b < q) (h : (a : ZMod q) = b) : a = b :=
  Nat.ModEq.eq_of_lt_of_lt ((ZMod.natCast_eq_natCast_iff a b q).1 h) ha hb

/-- Canonical elements are told apart in the field. -/
theorem cmField_inj {x y : Cm31} (hx : x.canonical) (hy : y.canonical) (h : cmField x = cmField y) : x = y := by
  obtain ⟨xre, xim⟩ := x
  obtain ⟨yre, yim⟩ := y
  have hre : xre = yre := natCast_inj_of_lt hx.1 hy.1 (congrArg QuadraticAlgebra.re h)
  have him : xim = yim := natCast_inj_of_lt hx.2 hy.2 (congrArg QuadraticAlgebra.im h)
  rw [hre, him]

/-! ### Orders -/

theorem spec_pow_eq_one_iff (w : Cm31) (n : Nat) : Spec.pow w n = cmOne ↔ cmField w ^ n = 1 := by
  rw [← cmField_pow, ← cmField_one]
  exact ⟨fun h => by rw [h], cmField_inj (spec_pow_canonical w n) cmOne_canonical⟩

/-- The spec's order is the library's order in the field. -/
theorem orderIs_iff {w : Cm31} {n : Nat} (hn : 0 < n) : Spec.orderIs w n ↔ orderOf (cmField w) = n := by
  rw [orderOf_eq_iff hn, Spec.orderIs, spec_pow_eq_one_iff]
  refine and_congr_right fun _ => forall_congr' fun m => ?_
  rw [Ne, spec_pow_eq_one_iff]
  exact ⟨fun h hlt hpos => h hpos hlt, fun h hpos hlt => h hlt hpos⟩

theorem groupOrder_factors : groupOrder = 2 ^ 32 * (3 ^ 2 * (7 * (11 * (31 * (151 * 331))))) := by decide

/-- `groupPrimes` has every prime divisor of `q^2 - 1` (48_cm31_ntt.md R330). -/
theorem mem_groupPrimes {l : Nat} (hl : l.Prime) (h : l ∣ groupOrder) : l ∈ groupPrimes := by
  have hprime : ∀ {k : Nat}, k.Prime → l ∣ k → l = k := fun hk => (Nat.prime_dvd_prime_iff_eq hl hk).1
  rw [groupOrder_factors] at h
  simp only [hl.dvd_mul] at h
  rcases h with h | h | h | h | h | h | h
  · rw [hprime Nat.prime_two (hl.dvd_of_dvd_pow h)]; decide
  · rw [hprime Nat.prime_three (hl.dvd_of_dvd_pow h)]; decide
  · rw [hprime (by norm_num) h]; decide
  · rw [hprime (by norm_num) h]; decide
  · rw [hprime (by norm_num) h]; decide
  · rw [hprime (by norm_num) h]; decide
  · rw [hprime (by norm_num) h]; decide

/-- The test of an order by its prime divisors (48_cm31_ntt.md R336). -/
theorem orderOf_of_hasOrder {w : Cm31} {n : Nat} (hn : 0 < n) (hdvd : n ∣ groupOrder) (h : hasOrder w n = true) :
    orderOf (cmField w) = n := by
  simp only [hasOrder, cmPow_eq, Bool.and_eq_true, beq_iff_eq, List.all_eq_true, Bool.or_eq_true, bne_iff_ne] at h
  obtain ⟨hpow, hprimes⟩ := h
  refine orderOf_eq_of_pow_and_pow_div_prime hn ((spec_pow_eq_one_iff w n).1 hpow) fun l hl hln hone => ?_
  rcases hprimes l (mem_groupPrimes hl (hln.trans hdvd)) with h | h
  · exact h (Nat.mod_eq_zero_of_dvd hln)
  · exact h ((spec_pow_eq_one_iff w (n / l)).2 hone)

theorem orderOf_generator : orderOf (cmField generator) = groupOrder :=
  orderOf_of_hasOrder (by decide) dvd_rfl (by decide +kernel)

/-- `ROOT(n)` is canonical of order `n`, whether it is the open constant's value or a power of the generator. -/
theorem root_spec {n : Nat} (hn : 0 < n) (hdvd : n ∣ groupOrder) :
    (root n).canonical ∧ orderOf (cmField (root n)) = n := by
  unfold root
  split
  next h =>
    rw [rootOk, Bool.and_eq_true, decide_eq_true_eq] at h
    exact ⟨h.1, orderOf_of_hasOrder hn hdvd h.2⟩
  next =>
    have hpos : groupOrder ≠ 0 := by decide
    have hquot : groupOrder / n ≠ 0 := (Nat.div_pos (Nat.le_of_dvd (Nat.pos_of_ne_zero hpos) hdvd) hn).ne'
    have hquotdvd : groupOrder / n ∣ orderOf (cmField generator) := by
      rw [orderOf_generator]
      exact Nat.div_dvd_of_dvd hdvd
    rw [cmPow_eq]
    refine ⟨spec_pow_canonical _ _, ?_⟩
    rw [cmField_pow, orderOf_pow_of_dvd hquot hquotdvd, orderOf_generator, Nat.div_div_self hdvd hpos]

theorem root_orderIs {n : Nat} (hn : 0 < n) (hdvd : n ∣ groupOrder) : Spec.orderIs (root n) n :=
  (orderIs_iff hn).2 (root_spec hn hdvd).2

/-! ### Transform sizes -/

theorem two_pow_dvd_groupOrder_iff (m : Nat) : 2 ^ m ∣ groupOrder ↔ m ≤ 32 := by
  rw [groupOrder_factors]
  constructor
  · intro h
    have hodd : Nat.Coprime (2 ^ m) (3 ^ 2 * (7 * (11 * (31 * (151 * 331))))) := Nat.Coprime.pow_left m (by decide)
    exact (Nat.pow_dvd_pow_iff_le_right (by decide)).1 (hodd.dvd_of_dvd_mul_right h)
  · exact fun h => Dvd.dvd.mul_right (Nat.pow_dvd_pow 2 h) _

/-- A transform size is a power of two (48_cm31_ntt.md R338). -/
theorem size_eq_two_pow {n : Nat} (h : Spec.pureSize n ∨ Spec.stride2Size n ∨ Spec.stride4Size n) :
    ∃ m, n = 2 ^ m := by
  rw [← isPure_iff, ← isStride2_iff, ← isStride4_iff, isPure, isStride2, isStride4, sizeForm_iff, sizeForm_iff,
    sizeForm_iff] at h
  rcases h with ⟨m, _, _, hm⟩ | ⟨m, _, _, hm⟩ | ⟨m, _, _, hm⟩ <;> exact ⟨m, hm⟩

/-- A transform size has a root of unity up to `2^32` (48_cm31_ntt.md R343). -/
theorem size_dvd_groupOrder_iff {n : Nat} (h : Spec.pureSize n ∨ Spec.stride2Size n ∨ Spec.stride4Size n) :
    groupOrder % n = 0 ↔ n ≤ 2 ^ 32 := by
  obtain ⟨m, rfl⟩ := size_eq_two_pow h
  rw [← Nat.dvd_iff_mod_eq_zero, two_pow_dvd_groupOrder_iff, Nat.pow_le_pow_iff_right (by decide)]

/-! ### NTTROOT and NTTPRE -/

section
variable {a : RegNo} {s : State} {n : Word64}

theorem exec_nttroot (d : RegNo) (hn : readX s a = .ok n) (h : hasRoot n.toNat) :
    exec (.nttroot d a) s = .next (s.writeX d (cmPack (root n.toNat))).advance :=
  exec_of_body rfl rfl (by rw [hn, ok_bind, require_of h, ok_bind, pure_eq_ok])

theorem nttroot_faults (d : RegNo) (hn : readX s a = .ok n) (h : ¬hasRoot n.toNat) :
    Faults (.nttroot d a) s .noSuchRoot n :=
  faults_of _ s _ _ _ rfl rfl (by rw [hn, ok_bind, require_of_not h, error_bind])

/-- The state with the twiddle bundle of a size. -/
def State.withTwb (s : State) (n : Word64) : State := { s with twb := some n }

/-- NTTPRE changes TWB and pc alone (48_cm31_ntt.md R343). -/
theorem withTwb_advance_rest (s : State) (n : Word64) :
    HostSideSame s (s.withTwb n).advance ∧ DataSame s (s.withTwb n).advance [] [] [] noByte ∧
      Advanced s (s.withTwb n).advance ∧ (s.withTwb n).advance.rmode = s.rmode ∧
      (s.withTwb n).advance.gs = s.gs ∧ (s.withTwb n).advance.freeIx = s.freeIx := by
  refine ⟨?host, ?data, advanced_of rfl rfl, rfl, rfl, rfl⟩
  case host => constructor <;> rfl
  case data => constructor <;> intros <;> rfl

theorem exec_nttpre (hn : readX s a = .ok n) (hform : (isPure n.toNat || isStride2 n.toNat || isStride4 n.toNat) = true)
    (hroot : groupOrder % n.toNat = 0) (hcap : n.toNat ≤ 2 ^ s.caps.twMaxLog2N) :
    exec (.nttpre a) s = .next (s.withTwb n).advance :=
  exec_of_body rfl rfl (by
    rw [hn, ok_bind, require_of hform, ok_bind, require_of hroot, ok_bind, require_of hcap, ok_bind, pure_eq_ok]
    rfl)

theorem nttpre_faults_form (hn : readX s a = .ok n)
    (hform : ¬(isPure n.toNat || isStride2 n.toNat || isStride4 n.toNat) = true) :
    Faults (.nttpre a) s .invalidLength n :=
  faults_of _ s _ _ _ rfl rfl (by rw [hn, ok_bind, require_of_not hform, error_bind])

theorem nttpre_faults_root (hn : readX s a = .ok n)
    (hform : (isPure n.toNat || isStride2 n.toNat || isStride4 n.toNat) = true) (hroot : ¬groupOrder % n.toNat = 0) :
    Faults (.nttpre a) s .noSuchRoot n :=
  faults_of _ s _ _ _ rfl rfl (by rw [hn, ok_bind, require_of hform, ok_bind, require_of_not hroot, error_bind])

theorem nttpre_faults_capacity (hn : readX s a = .ok n)
    (hform : (isPure n.toNat || isStride2 n.toNat || isStride4 n.toNat) = true) (hroot : groupOrder % n.toNat = 0)
    (hcap : ¬n.toNat ≤ 2 ^ s.caps.twMaxLog2N) : Faults (.nttpre a) s .invalidLength n :=
  faults_of _ s _ _ _ rfl rfl (by
    rw [hn, ok_bind, require_of hform, ok_bind, require_of hroot, ok_bind, require_of_not hcap, error_bind])

end

/-! ### A stored transform -/

/-- The transform of the `n` elements at `e` (48_cm31_ntt.md R333). -/
def transformAt (m : Memory) (e n : Nat) (w : Cm31) : List Cm31 := dft ((List.range n).map (Spec.elem m e)) w

theorem length_transformAt (m : Memory) (e n : Nat) (w : Cm31) : (transformAt m e n w).length = n := by
  rw [transformAt, length_dft, List.length_map, List.length_range]

theorem getElem_transformAt (m : Memory) (e n : Nat) (w : Cm31) (k : Nat) (h : k < (transformAt m e n w).length) :
    (transformAt m e n w)[k] = Spec.dftSum (Spec.elem m e) w k n := by
  simp only [transformAt, getElem_dft, List.length_map, List.length_range]
  refine dftSum_congr _ _ w k n fun j hj => ?_
  rw [List.getD_eq_getElem _ _ (by simpa using hj), List.getElem_map, List.getElem_range]

theorem dftSum_canonical (f : Nat → Cm31) (w : Cm31) (k n : Nat) : (Spec.dftSum f w k n).canonical := by
  cases n with
  | zero => exact cmZero_canonical
  | succ n => exact cmAdd_canonical _ _

/-- A transform stored over its source reads back as the spec's sums. -/
theorem elem_store_transformAt (m : Memory) (e n : Nat) (w : Cm31) {k : Nat} (hk : k < n) :
    Spec.elem (writeBytes m e (elemBytes (transformAt m e n w))) e k = Spec.dftSum (Spec.elem m e) w k n := by
  have hk' : k < (transformAt m e n w).length := by rwa [length_transformAt]
  have hval := getElem_transformAt m e n w k hk'
  rw [elem_writeBytes m e k _ hk' (hval ▸ dftSum_canonical ..), hval]

theorem length_elemBytes_transformAt (m : Memory) (e n : Nat) (w : Cm31) :
    (elemBytes (transformAt m e n w)).length = 8 * n := by
  rw [length_elemBytes, length_transformAt]

theorem canonicalVec_of_isDft {s t : State} {e n : Nat} {w : Cm31} (h : Spec.isDft s t e n w) :
    Spec.canonicalVec t e n := fun k hk => h k hk ▸ dftSum_canonical ..

/-- The state with the `n` elements at `e` transformed in place. -/
def State.transformed (s : State) (e n : Nat) (w : Cm31) : State := s.store e (elemBytes (transformAt s.dmem e n w))

theorem isDft_transformed (s : State) (e n : Nat) (w : Cm31) : Spec.isDft s (s.transformed e n w).advance e n w :=
  fun _ hk => elem_store_transformAt s.dmem e n w hk

theorem frame_transformed (s : State) (e n : Nat) (w : Cm31) :
    Frame s (s.transformed e n w).advance [] [] [] (bytesAt e (8 * n)) :=
  frame_store s e _ _ (length_elemBytes_transformAt ..)

/-! ### NTTB8 and NTT8 -/

theorem exec_nttb8 {a b : RegNo} {s : State} (hs : Written s [.x a, .x b])
    (hc : checksHold (Spec.checks (.nttb8 a b) s)) :
    exec (.nttb8 a b) s = .next (s.transformed (xValue s a).toNat 8 (cmUnpack (xValue s b))).advance := by
  obtain ⟨t, hx, rfl⟩ := (execute_decides (.nttb8 a b) s _ _
    (fun t => t = s.transformed (xValue s a).toNat 8 (cmUnpack (xValue s b))) rfl rfl
    (decides_readX hs fun hs => decides_readX hs fun _ => Decides.guard fun _ => Decides.guard fun _ =>
      (checkRoot_decides _ _).bind fun w hw => hw ▸ readElems_then s _ _ _)).1 hc
  exact hx

theorem exec_ntt8 {a b c : RegNo} {s : State} (hs : Written s [.x a, .x b, .x c])
    (hc : checksHold (Spec.checks (.ntt8 a b c) s)) :
    exec (.ntt8 a b c) s =
      .next (s.transformed (xValue s a).toNat (xValue s b).toNat (cmUnpack (xValue s c))).advance := by
  obtain ⟨t, hx, rfl⟩ := (execute_decides (.ntt8 a b c) s _ _
    (fun t => t = s.transformed (xValue s a).toNat (xValue s b).toNat (cmUnpack (xValue s c))) rfl rfl
    (decides_readX hs fun hs => decides_readX hs fun hs => decides_readX hs fun _ =>
      Decides.guard_iff (isPure_iff _) (fun _ => rfl) fun _ => Decides.guard fun _ => Decides.guard fun _ =>
      (checkRoot_decides _ _).bind fun w hw => hw ▸ Decides.guard_iff (ntt8_order_iff _ _) (fun _ => rfl) fun _ =>
      readElems_then s _ _ _)).1 hc
  exact hx

/-! ### The hybrid transforms -/

/-- `i` is the hybrid transform for the sizes `P`. -/
structure RunsHybrid (i : Instr) (P : Nat → Prop) (a b c : RegNo) (s : State) : Prop where
  wellFormed : i.wellFormed = true
  sources : sources i = [.x a, .x b, .x c]
  checks : Spec.checks i s = hybridChecks s P a b c
  exec_eq : ∃ form, (∀ n, form n = true ↔ P n) ∧ exec i s = execute i s (hybridNtt form a b c s)

theorem runsHybrid_ntth (a b c : RegNo) (s : State) : RunsHybrid (.ntth a b c) Spec.pureSize a b c s :=
  ⟨rfl, rfl, rfl, _, isPure_iff, rfl⟩

theorem runsHybrid_ntts2 (a b c : RegNo) (s : State) : RunsHybrid (.ntts2 a b c) Spec.stride2Size a b c s :=
  ⟨rfl, rfl, rfl, _, isStride2_iff, rfl⟩

theorem runsHybrid_ntts4 (a b c : RegNo) (s : State) : RunsHybrid (.ntts4 a b c) Spec.stride4Size a b c s :=
  ⟨rfl, rfl, rfl, _, isStride4_iff, rfl⟩

theorem runsHybrid_of_mem {i : Instr} {a b c : RegNo} (s : State) (h : i ∈ [.ntth a b c, .ntts2 a b c, .ntts4 a b c]) :
    ∃ P, RunsHybrid i P a b c s := by
  simp only [List.mem_cons, List.not_mem_nil, or_false] at h
  rcases h with rfl | rfl | rfl
  · exact ⟨_, runsHybrid_ntth a b c s⟩
  · exact ⟨_, runsHybrid_ntts2 a b c s⟩
  · exact ⟨_, runsHybrid_ntts4 a b c s⟩

/-- The state after a hybrid transform: the vector transformed, the scratch free (48_cm31_ntt.md R344). -/
def State.hybridEnd (s : State) (e n z : Nat) : State := (s.transformed e n (root n)).havoc z (8 * nttLeaf)

section
variable {i : Instr} {P : Nat → Prop} {a b c : RegNo} {s : State}

theorem RunsHybrid.exec_next (h : RunsHybrid i P a b c s) (hs : Written s (Machine.sources i))
    (hc : checksHold (Spec.checks i s)) :
    exec i s = .next (s.hybridEnd (xValue s a).toNat (xValue s b).toNat (xValue s c).toNat).advance := by
  obtain ⟨form, hP, hx⟩ := h.exec_eq
  rw [h.sources] at hs
  rw [h.checks] at hc
  obtain ⟨t, ht, rfl⟩ := (execute_decides i s _ _ _ h.wellFormed hx
    (hybridNtt_decides form P hP a b c s hs.head hs.tail.head hs.tail.tail.head)).1 hc
  exact ht

/-- The checks of a hybrid transform that say what it reads and where (48_cm31_ntt.md R344). -/
theorem hybridChecks_hold (hc : checksHold (hybridChecks s P a b c)) :
    P (xValue s b).toNat ∧ s.twb = some (xValue s b) ∧ (xValue s a).toNat % 8 = 0 ∧
      (xValue s a).toNat + 8 * (xValue s b).toNat ≤ s.dmemBytes ∧
      disjoint (xValue s a).toNat (8 * (xValue s b).toNat) (xValue s c).toNat (8 * nttLeaf) ∧
      checksHold (elementChecks s (xValue s a).toNat (xValue s b).toNat) := by
  simp only [hybridChecks, checksHold_append, checksHold_cons] at hc
  obtain ⟨⟨hsize, htwb, halign, -, hrange, -, hbeside, -⟩, helems⟩ := hc
  exact ⟨hsize, htwb, halign, hrange, hbeside, helems⟩

/-- The scratch lies beside the vector. -/
theorem RunsHybrid.disjoint_of_checks (h : RunsHybrid i P a b c s) (hc : checksHold (Spec.checks i s)) :
    disjoint (xValue s a).toNat (8 * (xValue s b).toNat) (xValue s c).toNat (8 * nttLeaf) := by
  rw [h.checks] at hc
  obtain ⟨-, -, -, -, hbeside, -⟩ := hybridChecks_hold hc
  exact hbeside

end

/-- An element beside the bytes written reads as before. -/
theorem elem_writeBytes_disjoint {m : Memory} {e n z len k : Nat} {bs : List Byte} (hlen : bs.length = len)
    (h : disjoint e (8 * n) z len) (hk : k < n) : Spec.elem (writeBytes m z bs) e k = Spec.elem m e k := by
  have hbytes : ∀ j, e ≤ j → j < e + 8 * n → readByte (writeBytes m z bs) j = readByte m j := by
    intro j hj hj'
    refine readByte_writeBytes_outside m z bs j ?_
    rw [hlen]
    rintro ⟨h1, h2⟩
    rcases h with h | h <;> omega
  simp only [Spec.elem, Cm31.mk.injEq]
  exact ⟨memRead_congr _ _ _ _ fun j hj => hbytes _ (by omega) (by omega),
    memRead_congr _ _ _ _ fun j hj => hbytes _ (by omega) (by omega)⟩

theorem isDft_hybridEnd {s : State} {e n z : Nat} (h : disjoint e (8 * n) z (8 * nttLeaf)) :
    Spec.isDft s (s.hybridEnd e n z).advance e n (root n) := by
  intro k hk
  rw [State.advance_dmem, State.hybridEnd, State.havoc_dmem, elem_writeBytes_disjoint (length_freeBytes _ _) h hk]
  exact isDft_transformed s e n (root n) k hk

/-- Free bytes change nothing but themselves. -/
theorem dataSame_havoc {s u : State} {fs xs : List RegNo} {vs : List (Fin 8)} {stored : Nat → Prop}
    (h : DataSame s u.advance fs xs vs stored) (z n : Nat) :
    DataSame s (u.havoc z n).advance fs xs vs fun k => stored k ∨ bytesAt z n k := by
  refine ⟨h.f, h.x, h.v, fun k hk => ?_⟩
  obtain ⟨hstored, hscratch⟩ := not_or.1 hk
  have hout : ¬bytesAt z (freeBytes u.freeIx n).length k := by rwa [length_freeBytes]
  rw [State.advance_dmem, State.havoc_dmem, readByte_writeBytes_outside _ _ _ _ hout]
  exact h.mem k hstored

/-- A hybrid transform changes the vector, the scratch and pc alone. -/
theorem hybridEnd_advance_rest (s : State) (e n z : Nat) :
    HostSideSame s (s.hybridEnd e n z).advance ∧ Advanced s (s.hybridEnd e n z).advance ∧
      (s.hybridEnd e n z).advance.rmode = s.rmode ∧ (s.hybridEnd e n z).advance.gs = s.gs ∧
      (s.hybridEnd e n z).advance.twb = s.twb ∧
      DataSame s (s.hybridEnd e n z).advance [] [] [] (fun k => bytesAt e (8 * n) k ∨ bytesAt z (8 * nttLeaf) k) := by
  have hgo : GoesOn s (s.hybridEnd e n z) := goesOn_store_havoc ..
  exact ⟨hgo.2, hgo.1, rfl, rfl, rfl, dataSame_havoc (frame_transformed s e n (root n)).data z _⟩

/-! ### NTTH and NTT8 -/

/-- A size behind TWB divides `q^2 - 1`: NTTPRE has checked it (48_cm31_ntt.md R343). -/
theorem dvd_groupOrder_of_twb {s : State} {n : Word64} (hs : s.Inv) (h : s.twb = some n) : n.toNat ∣ groupOrder := by
  obtain ⟨hform, hcap⟩ := hs.twb n h
  have hmax : s.caps.twMaxLog2N ≤ 32 := by
    obtain ⟨-, -, -, -, -, -, -, hmax, -⟩ := hs.caps
    exact hmax
  exact Nat.dvd_of_mod_eq_zero ((size_dvd_groupOrder_iff ((nttpre_size_iff _).1 hform)).2
    (hcap.trans (Nat.pow_le_pow_right (by decide) hmax)))

theorem pureSize_ge {n : Nat} (h : Spec.pureSize n) : 8 ≤ n := by
  obtain ⟨k, hk, rfl⟩ := h
  exact Nat.le_self_pow (by omega) 8

/-- What NTTH has checked of its size makes `ROOT(n)` a root of order `n` (48_cm31_ntt.md R336, R344). -/
theorem root_of_ntth_checks {a b c : RegNo} {s : State} (hs : s.Inv)
    (hc : checksHold (hybridChecks s Spec.pureSize a b c)) :
    (root (xValue s b).toNat).canonical ∧ Spec.orderIs (root (xValue s b).toNat) (xValue s b).toNat := by
  obtain ⟨hsize, htwb, -⟩ := hybridChecks_hold hc
  have hge := pureSize_ge hsize
  have hdvd := dvd_groupOrder_of_twb hs htwb
  exact ⟨(root_spec (by omega) hdvd).1, root_orderIs (by omega) hdvd⟩

/-- The checks of NTT8 with `ROOT(n)` are among those of NTTH (48_cm31_ntt.md R341, R344). -/
theorem ntt8_checks_of_ntth {a b c c' : RegNo} {s : State} (hs : s.Inv)
    (hc : checksHold (hybridChecks s Spec.pureSize a b c)) (hroot : cmUnpack (xValue s c') = root (xValue s b).toNat) :
    checksHold (Spec.checks (.ntt8 a b c') s) := by
  obtain ⟨hsize, -, halign, hrange, -, helems⟩ := hybridChecks_hold hc
  obtain ⟨hcanonical, hone, hbefore⟩ := root_of_ntth_checks hs hc
  have hge := pureSize_ge hsize
  simp only [Spec.checks, checksHold_append, checksHold_cons, hroot]
  exact ⟨⟨hsize, halign, hrange, hcanonical, ⟨hone, hbefore _ (by omega) (by omega)⟩, checksHold_nil⟩, helems⟩

/-! ### The inverse transform -/

section
variable {K : Type} [CommRing K]

/-- The sum of the powers of a root of unity (48_cm31_ntt.md R335). -/
theorem sum_pow_eq [IsDomain K] {z : K} {n : Nat} (h : z ^ n = 1) (hz : z ≠ 1) :
    ∑ j ∈ Finset.range n, z ^ j = 0 := by
  have hprod : (z - 1) * ∑ j ∈ Finset.range n, z ^ j = 0 := by rw [mul_geom_sum, h, sub_self]
  exact (mul_eq_zero.1 hprod).resolve_left (sub_ne_zero.2 hz)

theorem dvd_index_iff {n i k : Nat} (hi : i < n) (hk : k < n) : n ∣ i + (n - 1) * k ↔ i = k := by
  have hsum : i + (n - 1) * k + k = i + n * k := by
    obtain ⟨m, rfl⟩ : ∃ m, n = m + 1 := ⟨n - 1, by omega⟩
    rw [Nat.add_sub_cancel]
    ring
  constructor
  · intro h
    have hmod : i + n * k ≡ 0 + k [MOD n] := hsum ▸ ((Nat.modEq_zero_iff_dvd.2 h).add_right k)
    rw [Nat.ModEq, Nat.add_mul_mod_self_left, Nat.zero_add] at hmod
    exact Nat.ModEq.eq_of_lt_of_lt hmod hi hk
  · rintro rfl
    exact ⟨i, Nat.add_right_cancel (hsum.trans (Nat.add_comm ..))⟩

/-- The rows of the transform and of the inverse one are orthogonal. -/
theorem sum_pow_mul_inverse [IsDomain K] {w : K} {n i k : Nat} (hw : orderOf w = n) (hi : i < n) (hk : k < n) :
    ∑ j ∈ Finset.range n, w ^ (i * j) * (w ^ (n - 1)) ^ (j * k) = if i = k then (n : K) else 0 := by
  have hterm : ∀ j, w ^ (i * j) * (w ^ (n - 1)) ^ (j * k) = (w ^ (i + (n - 1) * k)) ^ j := by
    intro j
    rw [← pow_mul, ← pow_add, ← pow_mul]
    congr 1
    ring
  simp only [hterm]
  have hone : w ^ (i + (n - 1) * k) = 1 ↔ i = k := by
    rw [← orderOf_dvd_iff_pow_eq_one, hw, dvd_index_iff hi hk]
  split
  next h => rw [hone.2 h]; simp
  next h =>
    refine sum_pow_eq ?_ fun h1 => h (hone.1 h1)
    rw [← pow_mul, mul_comm, pow_mul, ← hw, pow_orderOf_eq_one, one_pow]

/-- A transform and the inverse one, element by element. -/
theorem sum_inverse_transform [IsDomain K] {w : K} {n k : Nat} (f : Nat → K) (hw : orderOf w = n) (hk : k < n) :
    ∑ j ∈ Finset.range n, (∑ i ∈ Finset.range n, f i * w ^ (i * j)) * (w ^ (n - 1)) ^ (j * k) = n * f k := by
  calc ∑ j ∈ Finset.range n, (∑ i ∈ Finset.range n, f i * w ^ (i * j)) * (w ^ (n - 1)) ^ (j * k)
      = ∑ j ∈ Finset.range n, ∑ i ∈ Finset.range n, f i * (w ^ (i * j) * (w ^ (n - 1)) ^ (j * k)) := by
        simp only [Finset.sum_mul, mul_assoc]
    _ = ∑ i ∈ Finset.range n, f i * ∑ j ∈ Finset.range n, w ^ (i * j) * (w ^ (n - 1)) ^ (j * k) := by
        rw [Finset.sum_comm]
        simp only [Finset.mul_sum]
    _ = ∑ i ∈ Finset.range n, f i * (if i = k then (n : K) else 0) :=
        Finset.sum_congr rfl fun i hi => by rw [sum_pow_mul_inverse hw (Finset.mem_range.1 hi) hk]
    _ = n * f k := by
        simp only [mul_ite, mul_zero, Finset.sum_ite_eq', Finset.mem_range, if_pos hk, mul_comm]

end

/-- The spec's sum in the field. -/
theorem cmField_dftSum (f : Nat → Cm31) (w : Cm31) (k n : Nat) :
    cmField (Spec.dftSum f w k n) = ∑ j ∈ Finset.range n, cmField (f j) * cmField w ^ (j * k) := by
  induction n with
  | zero => rw [Spec.dftSum, cmField_zero, Finset.range_zero, Finset.sum_empty]
  | succ n ih => rw [Spec.dftSum, cmField_add, ih, cmField_mul, cmField_pow, Finset.sum_range_succ]

/-- The integer `n` as an element. -/
theorem cmField_natCast (n : Nat) : cmField ⟨n % q, 0⟩ = (n : CmField) := by
  ext <;> simp [cmField]

end Sys2Proof.Machine

/-- Settles O46: the state NTTB8 ends in is its transform (`exec_nttb8`), read back sum by sum. -/
theorem nttb8Results : Obligations.Nttb8Results := by
  open Sys2Proof.Machine in
  intro a b s hs hc
  have hdft := isDft_transformed s (xValue s a).toNat 8 (cmUnpack (xValue s b))
  exact ⟨_, exec_nttb8 ((sourcesWritten_iff _ s).1 hs) hc, hdft, canonicalVec_of_isDft hdft, frame_transformed ..⟩

/-- Settles O47: the state NTT8 ends in is its transform (`exec_ntt8`), read back sum by sum. -/
theorem ntt8Results : Obligations.Ntt8Results := by
  open Sys2Proof.Machine in
  intro a b c s hs hc
  have hdft := isDft_transformed s (xValue s a).toNat (xValue s b).toNat (cmUnpack (xValue s c))
  exact ⟨_, exec_ntt8 ((sourcesWritten_iff _ s).1 hs) hc, hdft, canonicalVec_of_isDft hdft, frame_transformed ..⟩

/-- Settles O48: the test by prime divisors gives the exact order (`orderOf_of_hasOrder`), for the open constant's value
as for the generator, whose powers have the orders left over (`root_spec`). -/
theorem rootsHaveExactOrder : Obligations.RootsHaveExactOrder := by
  open Sys2Proof.Machine in
  intro n hn hmod
  have hdvd : n ∣ groupOrder := Nat.dvd_of_mod_eq_zero hmod
  exact ⟨(root_spec hn hdvd).1, root_orderIs hn hdvd⟩

/-- Settles O49: NTTROOT's one check decides, and a canonical root survives its packing. -/
theorem nttrootResults : Obligations.NttrootResults := by
  open Sys2Proof.Machine in
  intro d a s n hn
  rw [← hasRoot_iff]
  refine ⟨fun h0 hmod => ?_, nttroot_faults d hn⟩
  have hroot : hasRoot n.toNat := (hasRoot_iff n).2 ⟨h0, hmod⟩
  have hcanonical := (root_spec (Nat.pos_of_ne_zero hroot.1) (Nat.dvd_of_mod_eq_zero hroot.2)).1
  exact ⟨_, exec_nttroot d hn hroot, readX_writeX s d _, cmUnpack_cmPack _ hcanonical, frame_writeX s d _⟩

/-- Settles O50: a size of the three forms has a root exactly up to `2^32` (`size_dvd_groupOrder_iff`), which is past
the store wherever the store's cap is at most 32. -/
theorem nttpreResults : Obligations.NttpreResults := by
  open Sys2Proof.Machine in
  intro a s n hn hmax
  have hcap : 2 ^ s.caps.twMaxLog2N ≤ 2 ^ 32 := Nat.pow_le_pow_right (by decide) hmax
  rw [← nttpre_size_iff]
  refine ⟨fun hform => ?_, nttpre_faults_form hn⟩
  have hroot := size_dvd_groupOrder_iff ((nttpre_size_iff _).1 hform)
  refine ⟨fun hle => ?_, fun hlt hle => nttpre_faults_capacity hn hform (hroot.2 hle) (Nat.not_le.2 hlt),
    fun hlt => nttpre_faults_root hn hform fun h => Nat.not_le.2 hlt (hroot.1 h)⟩
  exact ⟨_, exec_nttpre hn hform (hroot.2 (hle.trans hcap)) hle, rfl, withTwb_advance_rest s n⟩

/-- Settles O51: the vector's transform is stored first, and the scratch whose bytes become free lies beside it. -/
theorem hybridResults : Obligations.HybridResults := by
  open Sys2Proof.Machine in
  intro i a b c s hi hs hc
  obtain ⟨P, h⟩ := runsHybrid_of_mem s hi
  have hdft := isDft_hybridEnd (s := s) (h.disjoint_of_checks hc)
  exact ⟨_, h.exec_next ((sourcesWritten_iff i s).1 hs) hc, hdft, canonicalVec_of_isDft hdft,
    hybridEnd_advance_rest s _ _ _⟩

/-- Settles O52: both instructions store the sums of the same transform, NTT8's checks being among NTTH's
(`ntt8_checks_of_ntth`). -/
theorem nttAgreement : Obligations.NttAgreement := by
  open Sys2Proof.Machine in
  constructor
  · intro a b c c' s hinv hs hc hroot
    have hw : Written s [.x a, .x b, .x c] := (sourcesWritten_iff _ s).1 hs
    have h := runsHybrid_ntth a b c s
    obtain ⟨hc', hval⟩ := readX_eq_ok s c' _ hroot
    have hunpack : cmUnpack (xValue s c') = root (xValue s b).toNat := by
      rw [← hval, cmUnpack_cmPack _ (root_of_ntth_checks hinv hc).1]
    have hw' : Written s [.x a, .x b, .x c'] := by
      intro r hr
      simp only [List.mem_cons, List.not_mem_nil, or_false] at hr
      rcases hr with rfl | rfl | rfl
      · exact hw.head
      · exact hw.tail.head
      · exact hc'
    refine ⟨_, _, h.exec_next hw hc, exec_ntt8 hw' (ntt8_checks_of_ntth hinv hc hunpack), rfl, fun j hj => ?_⟩
    rw [isDft_hybridEnd (h.disjoint_of_checks hc) j hj, isDft_transformed s _ _ _ j hj, hunpack]
  · intro i a b c s t hi hs hc hx
    obtain ⟨P, h⟩ := runsHybrid_of_mem s (List.mem_cons_of_mem (.ntth a b c) hi)
    rw [h.exec_next ((sourcesWritten_iff i s).1 hs) hc] at hx
    injection hx with hx
    rw [← hx]
    exact isDft_hybridEnd (h.disjoint_of_checks hc)

/-- Settles O53: in the field the two transforms are sums over orthogonal rows (`sum_inverse_transform`), and both
sides are canonical. -/
theorem inverseTransform : Obligations.InverseTransform := by
  open Sys2Proof.Machine in
  intro f w _ hw _ hne
  have hdomain := cmField_isDomain
  have hlen : 0 < f.length := List.length_pos_iff.2 hne
  rw [orderIs_iff hlen] at hw
  apply List.ext_getElem
  · rw [length_dft, length_dft, List.length_map]
  · intro k h1 h2
    have hk : k < f.length := by rwa [List.length_map] at h2
    rw [getElem_dft, List.getElem_map]
    refine cmField_inj (dftSum_canonical ..) (cmMul_canonical ..) ?_
    have hinner : ∀ j, j < f.length → cmField ((dft f w).getD j cmZero) =
        ∑ i ∈ Finset.range f.length, cmField (f.getD i cmZero) * cmField w ^ (i * j) := by
      intro j hj
      rw [List.getD_eq_getElem _ _ (by rwa [length_dft]), getElem_dft, cmField_dftSum]
    rw [cmField_dftSum, length_dft, cmField_pow, cmField_mul, cmField_natCast]
    calc ∑ j ∈ Finset.range f.length, cmField ((dft f w).getD j cmZero) * (cmField w ^ (f.length - 1)) ^ (j * k)
        = ∑ j ∈ Finset.range f.length, (∑ i ∈ Finset.range f.length, cmField (f.getD i cmZero) * cmField w ^ (i * j)) *
            (cmField w ^ (f.length - 1)) ^ (j * k) :=
          Finset.sum_congr rfl fun j hj => by rw [hinner j (Finset.mem_range.1 hj)]
      _ = f.length * cmField (f.getD k cmZero) :=
          sum_inverse_transform (fun i => cmField (f.getD i cmZero)) hw hk
      _ = f.length * cmField f[k] := by rw [List.getD_eq_getElem _ _ hk]

/-! PROOFS. Exceptions and the activity of the engine (60_exceptions.md). Every instruction and every step answers a
next state. A busy engine that stops by itself has run HALT or has taken a fault whose record is all that changes, the
hash buffer of a CMPRM apart; the host starts and resets it by CTRL alone. -/

namespace Sys2Proof.Machine

/-! ### Every instruction answers -/

theorem exec_isNext (i : Instr) (s : State) : ∃ t, exec i s = .next t := by
  by_cases h1 : i = .halt
  · exact ⟨s.halt, by rw [h1]; rfl⟩
  by_cases h2 : ∀ d a b c, i ≠ .cmprm d a b c
  · obtain ⟨body, hx, -⟩ := body_yields i s h1 h2
    rw [hx]
    exact execute_isNext i s body
  · push Not at h2
    obtain ⟨d, a, b, c, rfl⟩ := h2
    show ∃ t, execCmprm d a b c s = .next t
    unfold execCmprm
    split <;> exact ⟨_, rfl⟩

theorem engineStep_isNext (s : State) : ∃ t, engineStep s = .next t := by
  unfold engineStep runInstruction
  split
  · split
    · exact ⟨_, rfl⟩
    · split
      · exact ⟨_, rfl⟩
      · exact exec_isNext _ s
  · exact ⟨s, rfl⟩

theorem step_isNext (s : State) : ∃ t, step s = .next t := by
  by_cases ht : engineTurn s
  · rw [step_turn s ht]
    exact engineStep_isNext s.turned
  · obtain ⟨act, acts, hh, hr⟩ := host_of_not_engineTurn ht
    exact ⟨_, step_host s act acts hh hr⟩

/-! ### How a busy engine stops -/

/-- The fault entry of a CMPRM that has spoiled its hash buffer: on the state it found, data memory apart
(60_exceptions.md R402). -/
theorem faultRecord_havoc (s : State) (a n : Nat) (w : InsnWord) (e : Raise) :
    FaultRecord s ((s.havoc a n).takeFault w e) w e.cause e.info := by
  constructor <;> (try constructor) <;> simp [unwoundMode]

theorem readByte_havoc_outside {s : State} {a n k : Nat} (h : ¬bytesAt a n k) :
    readByte (s.havoc a n).dmem k = readByte s.dmem k := by
  rw [State.havoc_dmem]
  exact readByte_writeBytes_outside s.dmem a _ k (by rwa [length_freeBytes])

/-- A fault entry that may leave the bytes `spoiled` of data memory changed (60_exceptions.md R402). -/
structure FaultStop (s t : State) (w : InsnWord) (c : Cause) (info : Word64) (spoiled : Nat → Prop) : Prop where
  record : FaultRecord s t w c info
  mem : ∀ k, ¬spoiled k → readByte t.dmem k = readByte s.dmem k

theorem faultStop_of_entry {s t : State} {w : InsnWord} {c : Cause} {info : Word64} (h : FaultEntry s t w c info)
    (spoiled : Nat → Prop) : FaultStop s t w c info spoiled :=
  ⟨h.record, fun _ _ => by rw [h.dmem]⟩

theorem faultStop_takeFault (s : State) (w : InsnWord) (e : Raise) (spoiled : Nat → Prop) :
    FaultStop s (s.takeFault w e) w e.cause e.info spoiled := faultStop_of_entry (takeFault_entry s w e) spoiled

/-- The ASSERTION of CMPRM (47_skyscraper.md R311). -/
theorem faultStop_cmprm (s : State) (d a b c : RegNo) (w : InsnWord) (info : Word64) :
    FaultStop s ((s.havoc (xValue s d).toNat (xValue s c).toNat).takeFault w ⟨.assertion, info⟩) w .assertion info
      (Spec.spoiled (.cmprm d a b c) s .assertion) :=
  ⟨faultRecord_havoc s _ _ w _, fun _ hk => readByte_havoc_outside fun hin => hk ⟨rfl, hin⟩⟩

/-- An instruction that stops a busy engine is HALT, or takes a fault. -/
theorem exec_stops {i : Instr} {s t : State} (hb : s.busy = true) (h : exec i s = .next t) (ht : t.busy = false) :
    (i = .halt ∧ t = s.halt) ∨ ∃ c info, FaultStop s t (encode i) c info (Spec.spoiled i s c) := by
  cases exec_answers i s t h with
  | done u _ he hu =>
    rw [hu, State.advance_busy, he.same.busy, hb] at ht
    exact nomatch ht
  | halted hi hu => exact .inl ⟨hi, hu⟩
  | fault e hu =>
    subst hu
    exact .inr ⟨_, _, faultStop_takeFault s _ e _⟩
  | spoiled d a b c info hi _ hu =>
    subst hi hu
    exact .inr ⟨_, _, faultStop_cmprm s d a b c _ info⟩

/-- The instruction word a fault records: 0 where the fetch itself faults (60_exceptions.md R401). -/
def State.faultWord (s : State) : InsnWord := if s.fetchPastEnd then 0 else s.fetchWord

/-- The bytes that the instruction at pc may spoil as it takes a fault (60_exceptions.md R402). -/
def State.spoiledAt (s : State) (c : Cause) (k : Nat) : Prop :=
  ∃ i, ¬s.fetchPastEnd ∧ decodeWord s.fetchWord = .ok i ∧ Spec.spoiled i s c k

/-- A busy engine's turn that stops it ran HALT, or took a fault at the fetch, the decoder or the instruction. -/
theorem runInstruction_stops {s t : State} (hb : s.busy = true) (h : runInstruction s = .next t)
    (ht : t.busy = false) :
    (¬s.fetchPastEnd ∧ decodeWord s.fetchWord = .ok .halt ∧ t = s.halt) ∨
      ∃ c info, FaultStop s t s.faultWord c info (s.spoiledAt c) := by
  by_cases hf : s.fetchPastEnd
  · rw [runInstruction_fetchPastEnd hf] at h
    injection h with h
    subst h
    rw [State.faultWord, if_pos hf]
    exact .inr ⟨_, _, faultStop_takeFault s _ _ _⟩
  rw [State.faultWord, if_neg hf]
  cases hd : decodeWord s.fetchWord with
  | error e =>
    rw [runInstruction_illegal hf hd] at h
    injection h with h
    subst h
    exact .inr ⟨_, _, faultStop_takeFault s _ _ _⟩
  | ok i =>
    rw [runInstruction_decoded hf hd] at h
    rcases exec_stops hb h ht with ⟨rfl, hu⟩ | ⟨c, info, hstop⟩
    · exact .inl ⟨hf, rfl, hu⟩
    · rw [(encode_of_decodeWord hd).2] at hstop
      exact .inr ⟨c, info, hstop.record, fun k hk => hstop.mem k fun hs => hk ⟨i, hf, hd, hs⟩⟩

theorem FaultStop.faultBit {s t : State} {w : InsnWord} {c : Cause} {info : Word64} {P : Nat → Prop}
    (h : FaultStop s t w c info P) : t.faultBit = true := h.record.faultBit

/-! ### The interrupt line -/

theorem irq_iff (s : State) : s.irq = true ↔ s.irqEn = true ∧ (s.doneBit = true ∨ s.faultBit = true) := by
  rw [State.irq, Bool.and_eq_true, Bool.or_eq_true]

theorem irq_of_halt {s : State} (h : s.irqEn = true) : s.halt.irq = true :=
  (irq_iff _).2 ⟨h, .inl rfl⟩

theorem irq_of_faultStop {s t : State} {w : InsnWord} {c : Cause} {info : Word64} {P : Nat → Prop}
    (h : FaultStop s t w c info P) (hen : s.irqEn = true) : t.irq = true :=
  (irq_iff t).2 ⟨h.record.stopped.irqEn.trans hen, .inr h.faultBit⟩

theorem irq_false_of_disabled {s : State} (h : s.irqEn = false) : s.irq = false := by
  rw [State.irq, h, Bool.false_and]

theorem irq_false_of_clear {s : State} (h : s.doneBit = false ∧ s.faultBit = false) : s.irq = false := by
  rw [State.irq, h.1, h.2, Bool.or_false, Bool.and_false]

/-! ### SOFT_RESET -/

theorem softReset_values (s : State) : ResetValues s.softReset := resetKeepingMemory_values _

/-- SOFT_RESET keeps what the abandoned instruction keeps of the hard-wired values and of the host's side. -/
theorem softReset_same (s : State) : s.softReset.caps = s.caps ∧ s.softReset.skyRc = s.skyRc ∧
    s.softReset.host = s.host ∧ s.softReset.hostData = s.hostData := by
  have h := (effect_abandon s).same
  rw [State.softReset, State.resetKeepingMemory_caps, State.resetKeepingMemory_skyRc, State.resetKeepingMemory_host,
    State.resetKeepingMemory_hostData]
  split
  · exact ⟨h.caps, h.skyRc, h.host, h.hostData⟩
  · exact ⟨rfl, rfl, rfl, rfl⟩

theorem softReset_dmem_idle {s : State} (h : s.busy = false) : s.softReset.dmem = s.dmem := by
  rw [State.softReset, h]
  rfl

theorem softReset_dmem_busy {s : State} (h : s.busy = true) : s.softReset.dmem = s.abandon.dmem := by
  rw [State.softReset, if_pos h]
  rfl

/-- The bytes of a store abandoned half way: of each the old one or the one the store writes, freely (log 17). -/
def State.partialStore (s t : State) (a n : Nat) : State :=
  (s.store a (chooseBytes (readBytes s.dmem a n) (readBytes t.dmem a n) (freeBytes s.freeIx n))).drawn n

/-- What an abandoned instruction can leave: nothing, a store half done, or free output buffers. -/
theorem abandon_cases (s : State) : s.abandon = s ∨
    ∃ i t, ¬s.fetchPastEnd ∧ decodeWord s.fetchWord = .ok i ∧ exec i s = .next t ∧
      ((∃ rg, storeRange i s = some rg ∧ s.abandon = s.partialStore t rg.1 rg.2) ∨
        (storeRange i s = none ∧ s.abandon = s.havocAll (bufferRanges i s))) := by
  unfold State.abandon
  split
  next => exact .inl rfl
  next hf =>
    split
    next => exact .inl rfl
    next i hd =>
      split
      next t hx =>
        split
        next =>
          refine .inr ⟨i, t, hf, hd, hx, ?_⟩
          split
          next a n hst => exact .inl ⟨(a, n), hst, rfl⟩
          next hst => exact .inr ⟨hst, rfl⟩
        next => exact .inl rfl
      next => exact .inl rfl
      next => exact .inl rfl

theorem length_partialStore_bytes (s t : State) (a n : Nat) :
    (chooseBytes (readBytes s.dmem a n) (readBytes t.dmem a n) (freeBytes s.freeIx n)).length = n := by
  rw [length_chooseBytes _ _ _ (by simp) (by simp), length_readBytes]

theorem readByte_partialStore_outside {s t : State} {a n k : Nat} (h : ¬bytesAt a n k) :
    readByte (s.partialStore t a n).dmem k = readByte s.dmem k := by
  rw [State.partialStore, State.drawn_dmem, State.store_dmem]
  exact readByte_writeBytes_outside s.dmem a _ k (by rwa [length_partialStore_bytes])

/-- Every byte is the old one or the store's (60_exceptions.md R434). -/
theorem readByte_partialStore (s t : State) (a n k : Nat) :
    readByte (s.partialStore t a n).dmem k = readByte s.dmem k ∨
      readByte (s.partialStore t a n).dmem k = readByte t.dmem k := by
  by_cases hk : bytesAt a n k
  · obtain ⟨j, rfl⟩ : ∃ j, k = a + j := ⟨k - a, by have := hk.1; omega⟩
    have hj : j < n := by have := hk.2; omega
    have hinside := readByte_writeBytes_inside s.dmem a
      (chooseBytes (readBytes s.dmem a n) (readBytes t.dmem a n) (freeBytes s.freeIx n)) j
      (by rwa [length_partialStore_bytes])
    rw [State.partialStore, State.drawn_dmem, State.store_dmem, hinside, ← getD_readBytes s.dmem a n j hj,
      ← getD_readBytes t.dmem a n j hj]
    exact getD_chooseBytes _ _ _ j (by simp) (by simp)
  · exact .inl (readByte_partialStore_outside hk)

/-- An abandoned instruction changes no byte outside its output ranges (20_memory.md R82). -/
theorem readByte_abandon_outside {s : State} {k : Nat} (h : ∀ i, ¬s.fetchPastEnd → decodeWord s.fetchWord = .ok i →
    ∀ rg ∈ outputRanges i s, ¬bytesAt rg.1 rg.2 k) : readByte s.abandon.dmem k = readByte s.dmem k := by
  rcases abandon_cases s with e | ⟨i, t, hf, hd, -, hcase⟩
  · rw [e]
  · have hout := h i hf hd
    rw [outputRanges] at hout
    rcases hcase with ⟨rg, hst, e⟩ | ⟨hst, e⟩
    · rw [e]
      exact readByte_partialStore_outside (hout rg (by simp [hst]))
    · rw [e]
      exact (havocAll_spec _ s).2 k fun rg hrg => hout rg (List.mem_append_right _ hrg)

theorem readByte_abandon_store {s u : State} {i : Instr} {rg : Nat × Nat} (hd : decodeWord s.fetchWord = .ok i)
    (hst : storeRange i s = some rg) (hx : exec i s = .next u) (k : Nat) :
    readByte s.abandon.dmem k = readByte s.dmem k ∨ readByte s.abandon.dmem k = readByte u.dmem k := by
  rcases abandon_cases s with e | ⟨i', t, -, hd', hx', hcase⟩
  · exact .inl (by rw [e])
  · obtain rfl : i = i' := Except.ok.inj (hd.symm.trans hd')
    obtain rfl : u = t := by injection hx.symm.trans hx'
    rcases hcase with ⟨rg', -, e⟩ | ⟨hnone, -⟩
    · rw [e]
      exact readByte_partialStore s u rg'.1 rg'.2 k
    · rw [hst] at hnone
      cases hnone

/-! ### Writes of CTRL -/

/-- A write of CTRL: with START on an idle engine, or on one that the same write resets, a run begins. -/
theorem writeCtrl_started {v : Word64} {s : State} (h0 : v.getLsbD 0 = true)
    (hidle : (s.softResetIf (v.getLsbD 2)).busy = false) :
    writeCtrl v s = ((s.softResetIf (v.getLsbD 2)).withIrqEn (v.getLsbD 1)).start := by
  rw [writeCtrl, h0]
  exact State.startIf_idle _ hidle

/-- Where no run begins, a write of CTRL is the reset and IRQ_EN. -/
theorem writeCtrl_notStarted {v : Word64} {s : State}
    (h : v.getLsbD 0 = false ∨ (s.softResetIf (v.getLsbD 2)).busy = true) :
    writeCtrl v s = (s.softResetIf (v.getLsbD 2)).withIrqEn (v.getLsbD 1) := by
  rw [writeCtrl]
  rcases h with h | h
  · rw [h, State.startIf_false]
  · exact State.startIf_busy _ _ h

theorem softReset_busy (s : State) : s.softReset.busy = false := (softReset_values s).status.1

theorem softResetIf_busy (s : State) (bit : Bool) : (s.softResetIf bit).busy = (s.busy && !bit) := by
  cases bit
  · rw [State.softResetIf_false, Bool.not_false, Bool.and_true]
  · rw [State.softResetIf_true, softReset_busy, Bool.not_true, Bool.and_false]

/-- Of a write of CTRL, the two ways it ends. -/
theorem writeCtrl_cases (v : Word64) (s : State) :
    (v.getLsbD 0 = true ∧ (s.softResetIf (v.getLsbD 2)).busy = false ∧
      writeCtrl v s = ((s.softResetIf (v.getLsbD 2)).withIrqEn (v.getLsbD 1)).start) ∨
    ((v.getLsbD 0 = false ∨ (s.softResetIf (v.getLsbD 2)).busy = true) ∧
      writeCtrl v s = (s.softResetIf (v.getLsbD 2)).withIrqEn (v.getLsbD 1)) := by
  cases h0 : v.getLsbD 0
  · exact .inr ⟨.inl rfl, writeCtrl_notStarted (.inl h0)⟩
  · cases hb : (s.softResetIf (v.getLsbD 2)).busy
    · exact .inl ⟨rfl, rfl, writeCtrl_started h0 hb⟩
    · exact .inr ⟨.inr rfl, writeCtrl_notStarted (.inr hb)⟩

/-- START leaves the engine busy, and otherwise it is busy unless the write resets it. -/
theorem writeCtrl_busy (v : Word64) (s : State) :
    (writeCtrl v s).busy = (v.getLsbD 0 || (s.busy && !v.getLsbD 2)) := by
  rcases writeCtrl_cases v s with ⟨h0, -, e⟩ | ⟨h, e⟩
  · rw [e, h0, State.start_busy, Bool.true_or]
  · rw [e, ← softResetIf_busy]
    rcases h with h | h
    · rw [h, Bool.false_or]
      rfl
    · rw [h, Bool.or_true]
      exact h

theorem writeCtrl_enable (v : Word64) (s : State) : (writeCtrl v s).irqEn = v.getLsbD 1 := by
  rcases writeCtrl_cases v s with ⟨-, -, e⟩ | ⟨-, e⟩ <;> rw [e] <;> rfl

/-- A write of CTRL that starts an idle engine or resets clears DONE and FAULT. -/
theorem writeCtrl_clears {v : Word64} {s : State} (h : v.getLsbD 2 = true ∨ (v.getLsbD 0 = true ∧ s.busy = false)) :
    (writeCtrl v s).doneBit = false ∧ (writeCtrl v s).faultBit = false := by
  rcases writeCtrl_cases v s with ⟨-, -, e⟩ | ⟨hn, e⟩
  · rw [e]
    exact ⟨rfl, rfl⟩
  · rcases h with h2 | ⟨h0, hidle⟩
    · rw [e, h2]
      exact (softReset_values s).status.2
    · rw [h0, softResetIf_busy, hidle] at hn
      simp at hn

/-- A write of CTRL takes nothing from the host's list and answers it nothing. -/
theorem writeCtrl_host (v : Word64) (s : State) :
    (writeCtrl v s).host = s.host ∧ (writeCtrl v s).hostData = s.hostData := by
  have hreset : (s.softResetIf (v.getLsbD 2)).host = s.host ∧ (s.softResetIf (v.getLsbD 2)).hostData = s.hostData := by
    obtain ⟨-, -, hhost, hdata⟩ := softReset_same s
    cases v.getLsbD 2
    · exact ⟨rfl, rfl⟩
    · exact ⟨hhost, hdata⟩
  rcases writeCtrl_cases v s with ⟨-, -, e⟩ | ⟨-, e⟩ <;> rw [e] <;> exact hreset

/-- Nothing that START is judged by is the host's. -/
theorem started_of_withHost {s t : State} {acts : List HostAction} (h : Started (s.withHost acts) t) : Started s t :=
  { h with }

/-! ### Activity -/

theorem hostRegWrite_busy_changed {off width : Nat} {v : Word64} {s : State}
    (h : (hostRegWrite off width v s).busy ≠ s.busy) : off = 0x08 ∧ width = 8 := by
  unfold hostRegWrite at h
  split at h
  case isFalse => exact (h rfl).elim
  case isTrue hw =>
    split at h
    · exact ⟨rfl, hw.1⟩
    · exact (h rfl).elim
    · exact (h (by unfold writeEntry; split <;> rfl)).elim
    · exact (h (by unfold writeRmode; split <;> rfl)).elim
    · exact (h rfl).elim

/-- Of the host's accesses only a write of CTRL changes whether the engine is busy. -/
theorem hostAccess_busy_changed {act : HostAction} {s : State} (h : (hostAccess act s).busy ≠ s.busy) :
    ∃ v, act = .regWrite 0x08 8 v := by
  cases act with
  | run => exact (h rfl).elim
  | regRead off width => exact (h (by rw [hostAccess, hostRegRead_frame])).elim
  | memRead sp a n => exact (h (by rw [hostAccess, hostMemRead_frame])).elim
  | memWrite sp a bytes => exact (h (by rw [hostAccess, hostMemWrite_frame])).elim
  | regWrite off width v =>
    obtain ⟨rfl, rfl⟩ := hostRegWrite_busy_changed h
    exact ⟨v, rfl⟩

/-- A host's step that changes whether the engine is busy is a write of CTRL. -/
theorem step_busy_changed {s t : State} (ht : ¬engineTurn s) (h : step s = .next t) (hne : t.busy ≠ s.busy) :
    ∃ v acts, s.host = .regWrite 0x08 8 v :: acts ∧ t = writeCtrl v (s.withHost acts) := by
  obtain ⟨act, acts, hh, hr⟩ := host_of_not_engineTurn ht
  rw [step_host s act acts hh hr] at h
  injection h with h
  subst h
  obtain ⟨v, rfl⟩ := hostAccess_busy_changed (s := s.withHost acts) hne
  exact ⟨v, acts, hh, rfl⟩

theorem step_idle_turn {s : State} (hb : s.busy = false) (ht : engineTurn s) : step s = .next s.turned := by
  rw [step_turn s ht, engineStep, State.turned_busy, hb]
  rfl

/-- The step of a write of CTRL. -/
theorem step_ctrl {s : State} {v : Word64} {acts : List HostAction} (h : s.host = .regWrite 0x08 8 v :: acts) :
    step s = .next (writeCtrl v (s.withHost acts)) := step_host s _ acts h nofun

/-! ### The first check that fails -/

/-- The check that fails, between those before it, which hold, and those after it. -/
theorem firstFails_split {cs : List Check} {c : Cause} {info : Word64} (h : firstFails cs c info) :
    ∃ before k after, cs = before ++ k :: after ∧ checksHold before ∧ ¬k.holds ∧ c = k.cause ∧ info = k.info := by
  induction cs with
  | nil => exact h.elim
  | cons k ks ih =>
    rcases h with ⟨hk, hc, hi⟩ | ⟨hk, h⟩
    · exact ⟨[], k, ks, rfl, checksHold_nil, hk, hc, hi⟩
    · obtain ⟨before, k', after, rfl, hbefore, hfail⟩ := ih h
      exact ⟨k :: before, k', after, rfl, (checksHold_cons _ _).2 ⟨hk, hbefore⟩, hfail⟩

/-- The first pair that CMPRM cannot compress is the one whose address its ASSERTION reports (47_skyscraper.md
R311). -/
theorem hashPairs_messagePairs_error {s : State} {a n : Nat} {c : Cause} {info : Word64} (hrc : Spec.rcLegal s)
    (hmsg : ∀ k, k < 2 * n → message s a k < p)
    (hfail : firstFails ((List.range n).map fun j => ⟨Spec.noAssertion s.rc (message s a (2 * j))
      (message s a (2 * j + 1)), .assertion, BitVec.ofNat 64 (a + 64 * j)⟩) c info) :
    ∃ pair, hashPairs s.rc (messagePairs s a n) = .error pair ∧ c = .assertion ∧ info = BitVec.ofNat 64 pair := by
  obtain ⟨before, k, after, hcs, hbefore, hk, rfl, rfl⟩ := firstFails_split hfail
  obtain ⟨js, ks, hrange, rfl, hks⟩ := List.map_eq_append_iff.1 hcs
  obtain ⟨j, ls, rfl, rfl, -⟩ := List.map_eq_cons_iff.1 hks
  have hlt : ∀ i ∈ js ++ j :: ls, i < n := fun i hi => List.mem_range.1 (hrange ▸ hi)
  have hj : j < n := hlt j (by simp)
  obtain ⟨round, hround⟩ := exists_firstAssertion hk
  have herror := compress_error (s.rc_lt hrc) (hmsg (2 * j) (by omega)) (hmsg (2 * j + 1) (by omega)) hround
  refine ⟨a + 64 * j, ?_, rfl, rfl⟩
  rw [messagePairs, hrange, List.map_append, List.map_cons]
  refine hashPairs_error s.rc (fun x => Spec.hash s.rc x.2.1 x.2.2) _ _ _ _ _ _ (fun x hx => ?_) herror
  obtain ⟨i, hi, rfl⟩ := List.mem_map.1 hx
  have hin : i < n := hlt i (List.mem_append_left _ hi)
  exact compress_ok (s.rc_lt hrc) (hmsg (2 * i) (by omega)) (hmsg (2 * i + 1) (by omega))
    (hbefore _ (List.mem_map_of_mem hi))

/-- CMPRM's checks before its computation fault on the state it found, and an ASSERTION spoils its hash buffer. -/
theorem cmprm_firstFails {d a b c : RegNo} {s : State} {cause : Cause} {info : Word64} (hrc : Spec.rcLegal s)
    (hs : Written s [.x d, .x a, .x b, .x c]) (hfail : firstFails (cmprmChecks s d a b c) cause info) :
    ∃ t, exec (.cmprm d a b c) s = .next t ∧
      FaultStop s t (encode (.cmprm d a b c)) cause info (Spec.spoiled (.cmprm d a b c) s cause) := by
  rw [cmprmChecks_eq] at hfail
  rcases (firstFails_append _ _ _ _).1 hfail with hfail | ⟨hjob, hfail⟩
  · have hd := cmprmJob_decides d a b c s hs.head hs.tail.head hs.tail.tail.head hs.tail.tail.tail.head
    obtain ⟨t, hx, hentry⟩ := execCmprm_faults (hd.2 cause info hfail)
    exact ⟨t, hx, faultStop_of_entry hentry _⟩
  · obtain ⟨hj, hmsg, -⟩ := cmprmJob_of_checks hs hjob
    obtain ⟨pair, hpair, rfl, rfl⟩ := hashPairs_messagePairs_error hrc hmsg hfail
    refine ⟨_, ?_, faultStop_cmprm s d a b c _ _⟩
    show execCmprm d a b c s = _
    rw [execCmprm, hj]
    dsimp only
    rw [hpair, cmprmEnd]

/-- With its registers written an instruction takes the fault of its first check that fails. -/
theorem exec_firstFails {i : Instr} {s : State} {c : Cause} {info : Word64} (hw : i.wellFormed = true)
    (hrc : Spec.rcLegal s) (hs : Written s (sources i)) (hfail : firstFails (Spec.checks i s) c info) :
    ∃ t, exec i s = .next t ∧ FaultStop s t (encode i) c info (Spec.spoiled i s c) := by
  by_cases h1 : i = .halt
  · subst h1
    exact hfail.elim
  by_cases h2 : ∀ d a b c, i ≠ .cmprm d a b c
  · obtain ⟨body, hx, hd⟩ := body_decides hrc hs h1 h2
    obtain ⟨t, ht, hentry⟩ := (execute_decides i s body _ _ hw hx hd).2 c info hfail
    exact ⟨t, ht, faultStop_of_entry hentry _⟩
  · push Not at h2
    obtain ⟨d, a, b, c', rfl⟩ := h2
    exact cmprm_firstFails hrc hs hfail

end Sys2Proof.Machine

/-- Settles O14: the three places where a turn takes a fault (`runInstruction_stops`), the word recorded being the one
that decoded. -/
theorem faultsArePrecise : Obligations.FaultsArePrecise := by
  open Sys2Proof.Machine in
  intro s t hturn hb hstep ht
  rw [step_busy hturn hb] at hstep
  rcases runInstruction_stops (s := s.turned) hb hstep ht with ⟨hf, hd, -⟩ | ⟨c, info, hstop⟩
  · exact .inl ⟨hf, hd⟩
  · exact .inr ⟨c, info, hstop.record, fun k hk => hstop.mem k fun ⟨i, hf, hd, hs⟩ => hk i hf hd hs⟩

/-- Settles O16: a body's checks are the spec's list (`body_decides`), CMPRM's those of its job and then of its pairs
(`cmprm_firstFails`). -/
theorem firstFailingCheckFaults : Obligations.FirstFailingCheckFaults := by
  open Sys2Proof.Machine in
  intro i s c info hw hrc hs hfail
  obtain ⟨t, hx, hstop⟩ := exec_firstFails hw hrc ((sourcesWritten_iff i s).1 hs) hfail
  exact ⟨t, hx, hstop.record, hstop.mem⟩

/-- Settles O19: of the host's accesses a write of CTRL alone changes BUSY (`writeCtrl_busy`), and an engine that
stops by itself has run HALT or taken a fault (`runInstruction_stops`). -/
theorem activityStates : Obligations.ActivityStates := by
  open Sys2Proof.Machine in
  refine ⟨fun s hb => ⟨fun hh => ?_, fun acts hh => ?_⟩, fun s t hb h ht => ?_, fun s t hb h ht => ?_⟩
  · rw [step_idle_turn hb (.inl hh), State.turned_of_host_nil hh]
  · rw [step_idle_turn hb (.inr ⟨acts, hh⟩), State.turned, hh, List.tail_cons]
  · by_cases hturn : engineTurn s
    · rw [step_idle_turn hb hturn] at h
      injection h with h
      rw [← h, State.turned_busy, hb] at ht
      exact nomatch ht
    · obtain ⟨v, acts, hh, rfl⟩ := step_busy_changed hturn h (by rw [ht, hb]; decide)
      rw [writeCtrl_busy, State.withHost_busy, hb, Bool.false_and, Bool.or_false] at ht
      exact ⟨v, acts, hh, ht⟩
  · by_cases hturn : engineTurn s
    · rw [step_busy hturn hb] at h
      rcases runInstruction_stops (s := s.turned) hb h ht with ⟨-, hd, rfl⟩ | ⟨c, info, hstop⟩
      · exact .inr (.inl ⟨rfl, s, .inl rfl, hd⟩)
      · exact .inr (.inr hstop.faultBit)
    · obtain ⟨v, acts, hh, rfl⟩ := step_busy_changed hturn h (by rw [ht, hb]; decide)
      rw [writeCtrl_busy, State.withHost_busy, hb, Bool.true_and] at ht
      exact .inl ⟨v, acts, hh, by simpa using (Bool.or_eq_false_iff.1 ht).2⟩

/-- Settles O54: a write of CTRL with START begins a run on an engine that is idle once the reset is done
(`writeCtrl_started`), and otherwise sets IRQ_EN alone (`writeCtrl_notStarted`). -/
theorem startBeginsRun : Obligations.StartBeginsRun := by
  open Sys2Proof.Machine in
  intro s v acts hh h0
  obtain ⟨hhost, hdata⟩ := writeCtrl_host v (s.withHost acts)
  refine ⟨_, step_ctrl hh, hhost, hdata, fun h2 hb => ?idle, fun h2 hb => ?busy, fun h2 => ?reset⟩
  case idle =>
    rw [writeCtrl_started h0 (by rw [softResetIf_busy, State.withHost_busy, hb]; rfl), h2, State.softResetIf_false]
    exact ⟨started_of_withHost (acts := acts) (start_started _), rfl⟩
  case busy =>
    rw [writeCtrl_notStarted (.inr (by rw [softResetIf_busy, State.withHost_busy, hb, h2]; rfl)), h2,
      State.softResetIf_false]
    rfl
  case reset =>
    rw [writeCtrl_started h0 (by rw [softResetIf_busy, h2, Bool.not_true, Bool.and_false]), h2, State.softResetIf_true]
    exact start_started _

/-- Settles O55: what an abandoned instruction leaves in data memory (`abandon_cases`) lies in its output ranges and is,
of a store, the old byte or the new. -/
theorem softResetResets : Obligations.SoftResetResets := by
  open Sys2Proof.Machine in
  constructor
  · intro s v acts hh h0 h2
    rw [step_ctrl hh, writeCtrl_notStarted (.inl h0), h2, State.softResetIf_true]
    rfl
  · intro s
    obtain ⟨hcaps, hrc, hhost, -⟩ := softReset_same s
    refine ⟨softReset_values s, s.softReset_imem, hcaps, hrc, hhost, softReset_dmem_idle, fun k hk => ?_,
      fun i rg u _ hd hst hx k => ?_⟩
    · cases hb : s.busy
      · rw [softReset_dmem_idle hb]
      · rw [softReset_dmem_busy hb]
        exact readByte_abandon_outside hk
    · cases hb : s.busy
      · rw [softReset_dmem_idle hb]
        exact .inl rfl
      · rw [softReset_dmem_busy hb]
        exact readByte_abandon_store hd hst hx k

/-- Settles O59: the line is a function of IRQ_EN, DONE and FAULT (`irq_iff`), which a stop sets (`exec_stops`,
`runInstruction_stops`) and a write of CTRL or STATUS sets and clears. -/
theorem interruptLine : Obligations.InterruptLine := by
  open Sys2Proof.Machine in
  refine ⟨irq_iff, fun i s t hb h ht hen => ?_, fun s t hturn hb h ht => ?_, fun s t v acts hh h => ?_,
    fun s t v acts hh h h1 h2 => ?_⟩
  · rcases exec_stops hb h ht with ⟨-, rfl⟩ | ⟨c, info, hstop⟩
    · exact irq_of_halt hen
    · exact irq_of_faultStop hstop hen
  · rw [step_busy hturn hb] at h
    rcases runInstruction_stops (s := s.turned) hb h ht with ⟨-, -, rfl⟩ | ⟨c, info, hstop⟩
    · exact ⟨.inl rfl, irq_of_halt (s := s.turned)⟩
    · exact ⟨.inr hstop.faultBit, irq_of_faultStop (s := s.turned) hstop⟩
  · rw [step_ctrl hh] at h
    injection h with h
    subst h
    refine ⟨fun h0 h2 h1 hset => ?_, fun h1 => irq_false_of_disabled (by rw [writeCtrl_enable, h1]),
      fun h0 hb => irq_false_of_clear (writeCtrl_clears (.inr ⟨h0, hb⟩)),
      fun h2 => irq_false_of_clear (writeCtrl_clears (.inl h2))⟩
    rw [writeCtrl_irqEn _ h0 h2, h1]
    exact (irq_iff _).2 ⟨rfl, hset⟩
  · rw [step_host s _ acts hh nofun] at h
    injection h with h
    subst h
    refine irq_false_of_clear ⟨?_, ?_⟩
    · show (s.doneBit && !v.getLsbD 1) = false
      rw [h1, Bool.not_true, Bool.and_false]
    · show (s.faultBit && !v.getLsbD 2) = false
      rw [h2, Bool.not_true, Bool.and_false]

/-- Settles O8: `exec_isNext` and `step_isNext`. -/
theorem everyStepAnswersNext : Obligations.EveryStepAnswersNext :=
  ⟨Sys2Proof.Machine.exec_isNext, Sys2Proof.Machine.step_isNext⟩

/-! PROOFS. The state after reset (70_reset_and_hazards.md R450). It is its own soft reset, so that its register values
are those of every soft reset; the rest is read off its definition. -/

namespace Sys2Proof.Machine

theorem reset_values : ResetValues State.reset := resetKeepingMemory_values State.reset

/-- The open round constants are reduced modulo `p` at reset (47_skyscraper.md R300). -/
theorem reset_skyRc_lt (i : Fin 15) : State.reset.skyRc[i].toNat < p := by
  have hp := p_lt
  have hlt : (Config.skyRcRaw (i.val + 2)).toNat % p < p := Nat.mod_lt _ p_pos
  simp only [State.reset, Fin.getElem_fin, Vector.getElem_ofFn, BitVec.toNat_ofNat]
  rwa [Nat.mod_eq_of_lt (by omega)]

theorem reset_caps : State.reset.caps = ⟨16, 24, 8, 20, 2 * p⟩ := rfl

theorem reset_inv : State.reset.Inv where
  caps := by
    rw [reset_caps]
    exact ⟨by decide, by decide, by decide, by decide, by decide, by decide, by decide, by decide, by decide, le_rfl⟩
  rc := reset_skyRc_lt
  imem := State.reset_memory_wf.1
  dmem := State.reset_memory_wf.2
  imemBound := fun _ hc => nomatch hc
  dmemBound := fun _ hc => nomatch hc
  pc := rfl
  carry := fun _ => rfl
  entry := rfl
  depth := Nat.zero_le _
  idle := fun _ => rfl
  twb := fun _ hn => nomatch hn
  running := fun h => nomatch h
  status := fun h => nomatch h.1
  cause := ⟨Nat.zero_le _, fun h => nomatch h⟩
  x0 := ⟨rfl, rfl⟩

/-- Every register of the block but ID and CAPS reads 0 after reset (10_state.md R41). -/
theorem hostRegValue_reset {k : Nat} (h1 : 1 ≤ k) (h9 : k ≠ 9) : hostRegValue State.reset (8 * k) = 0 := by
  have hlow : ∀ j ∈ [1, 2, 3, 4, 5, 6, 7, 8, 10], hostRegValue State.reset (8 * j) = 0 := by decide
  by_cases h : 11 ≤ k
  · exact hostRegValue_reserved (by omega)
  · refine hlow k ?_
    simp only [List.mem_cons, List.not_mem_nil, or_false]
    omega

end Sys2Proof.Machine

/-- Settles O10: field by field of the state that reset gives (`reset_inv`). -/
theorem resetMeetsInvariant : Obligations.ResetMeetsInvariant := Sys2Proof.Machine.reset_inv

/-- Settles O11: the values are those of a soft reset (`reset_values`), and the register block reads them. -/
theorem resetState : Obligations.ResetState := by
  open Sys2Proof.Machine in
  exact ⟨reset_values, reset_caps, reset_skyRc_lt, rfl, rfl, fun _ h1 _ h9 => hostRegValue_reset h1 h9⟩
